-- ==== Sys2Proof/Word.lean ====
section
/-! DEFINITION. The word types of the LGC-4 and the four-lane indexing that every block shares. -/

namespace Sys2Proof

/-- One byte of a frame, a message or a card record. -/
abbrev Byte := BitVec 8

/-- A card serial, 32 bits (R1). Serial 0 belongs to no card. -/
abbrev Serial := BitVec 32

/-- A 32-byte card record (R2). Byte `n` of section 11.2 stands at bits `8n+7` to `8n`, so a
multi-byte field, least significant byte first by R188, is one run of bits. -/
abbrev Record := BitVec 256

/-- A lane of the part, 1 to 4 (00_scope.md, Lanes). -/
inductive LaneId where
  | l1 | l2 | l3 | l4
  deriving DecidableEq, Repr

/-- The four lanes in order. -/
def LaneId.all : List LaneId := [.l1, .l2, .l3, .l4]

/-- The lane's number, 1 to 4. -/
def LaneId.num : LaneId → Nat
  | .l1 => 1
  | .l2 => 2
  | .l3 => 3
  | .l4 => 4

/-- One value for each lane. -/
structure PerLane (α : Type) where
  l1 : α
  l2 : α
  l3 : α
  l4 : α
  deriving DecidableEq, Repr

/-- The value of lane `n`. -/
def PerLane.get {α : Type} (p : PerLane α) : LaneId → α
  | .l1 => p.l1
  | .l2 => p.l2
  | .l3 => p.l3
  | .l4 => p.l4

/-- `p` with lane `n`'s value replaced. -/
def PerLane.set {α : Type} (p : PerLane α) (n : LaneId) (a : α) : PerLane α :=
  match n with
  | .l1 => { p with l1 := a }
  | .l2 => { p with l2 := a }
  | .l3 => { p with l3 := a }
  | .l4 => { p with l4 := a }

/-- The same value for each lane. -/
def PerLane.const {α : Type} (a : α) : PerLane α := ⟨a, a, a, a⟩

/-- `f` applied to each lane's value. -/
def PerLane.map {α β : Type} (f : α → β) (p : PerLane α) : PerLane β :=
  ⟨f p.l1, f p.l2, f p.l3, f p.l4⟩

/-- The four values in order of lane. -/
def PerLane.toList {α : Type} (p : PerLane α) : List α := [p.l1, p.l2, p.l3, p.l4]

end Sys2Proof
end

