-- ==== Sys2Proof/Syntax.lean ====
section
/-! DEFINITION. The commands of the block: one constructor per row of spec/opcode_table.json, with the
operands that reach the part from outside. -/

namespace Sys2Proof

/-- A reader frame as the port receives it after its start byte A5h (section 11.3). Nothing in it has
been checked. -/
structure ReaderFrame where
  type   : Byte
  length : Byte
  fields : List Byte
  crc    : BitVec 16
  deriving DecidableEq, Repr

/-- A whole loop message as the receiver has gathered it, less its type byte, which the command's row
gives (section 11.4). Nothing in it has been checked: `length` is the length field, `payload` the bytes
found between header and CRC. -/
structure Arrival where
  destination : Byte
  source      : Byte
  hops        : Byte
  length      : BitVec 16
  payload     : List Byte
  crc         : BitVec 16
  deriving DecidableEq, Repr

/-- The levels of the input pins that a cold reset samples: ADDR4 to ADDR0 (R161), KEYn (R66),
FREE_FLOW (R84) and LIFT_RUN (R114). -/
structure ResetPins where
  address  : BitVec 5
  keys     : PerLane Bool
  freeFlow : Bool
  liftRun  : Bool
  deriving DecidableEq, Repr

/-- The commands and events of spec/opcode_table.json, in the table's order. -/
inductive Instr where
  /-- CARD (R13): a frame on this lane's reader link. -/
  | card (lane : LaneId) (frame : ReaderFrame)
  /-- GONE (R15). -/
  | gone (lane : LaneId) (frame : ReaderFrame)
  /-- WRITE_RESULT (R19). -/
  | writeResult (lane : LaneId) (frame : ReaderFrame)
  /-- WRITE_TIMER_EXPIRY (R19). -/
  | writeTimerExpiry (lane : LaneId)
  /-- BEAT (R11). -/
  | beat (lane : LaneId) (frame : ReaderFrame)
  /-- HEARTBEAT_TIMER_EXPIRY (R11). -/
  | heartbeatTimerExpiry (lane : LaneId)
  /-- ROTATE_FWD_START (R71). -/
  | rotateFwdStart (lane : LaneId)
  /-- ROTATE_FWD_DONE (R73). -/
  | rotateFwdDone (lane : LaneId)
  /-- ROTATE_REV_START (R80). -/
  | rotateRevStart (lane : LaneId)
  /-- ROTATE_REV_DONE (R80). -/
  | rotateRevDone (lane : LaneId)
  /-- ROTATE_RETURN (R72). -/
  | rotateReturn (lane : LaneId)
  /-- BODY (R70): the clear of a beam break that lasted this many ms. -/
  | body (lane : LaneId) (breakMs : Nat)
  /-- KEY_CHANGE (R66): KEYn changes to this level. -/
  | keyChange (lane : LaneId) (level : Bool)
  /-- GRANT_TIMER_EXPIRY (R76). -/
  | grantTimerExpiry (lane : LaneId)
  /-- TRAIL_TIMER_EXPIRY (R73). -/
  | trailTimerExpiry (lane : LaneId)
  /-- RECOVERY_TIMER_EXPIRY (R77). -/
  | recoveryTimerExpiry (lane : LaneId)
  /-- HOLD_TIMER_EXPIRY (R42). -/
  | holdTimerExpiry (lane : LaneId)
  /-- ALARM_TIMER_EXPIRY (R68). -/
  | alarmTimerExpiry (lane : LaneId)
  /-- FREE_FLOW_PIN_CHANGE (R84): the pin changes to this level. -/
  | freeFlowPinChange (level : Bool)
  /-- LIFT_RUN_CHANGE (R104): the line changes to this level. -/
  | liftRunChange (level : Bool)
  /-- CHAIR (R106): one pulse. -/
  | chair
  /-- WINDOW_TIMER_EXPIRY (R110). -/
  | windowTimerExpiry
  /-- LG_BEAM_BODY (R108): the clear of a break of LG_BEAM that lasted this many ms. -/
  | lgBeamBody (breakMs : Nat)
  /-- PASSBACK_ENTRY_EXPIRY (R58): of the entry with this key. -/
  | passbackEntryExpiry (serial : Serial) (group : Nat)
  /-- STATION_CLOCK_ADVANCE (R147). -/
  | stationClockAdvance
  /-- INTERVAL_PRESCALER_EXPIRY (R157). -/
  | intervalPrescalerExpiry
  /-- INTERVAL_END (R158). -/
  | intervalEnd
  /-- TIME (R148). -/
  | time (message : Arrival)
  /-- DAY_OPEN (R150). -/
  | dayOpen (message : Arrival)
  /-- DAY_CLOSE (R152). -/
  | dayClose (message : Arrival)
  /-- PASSAGE (R55). -/
  | passage (message : Arrival)
  /-- TRANSIT_MESSAGE (R162): a whole message of this type byte. -/
  | transitMessage (type : Byte) (message : Arrival)
  /-- IDLE_FILL (R169): correctly coded idle fill on the loop input. -/
  | idleFill
  /-- SILENCE_TIMER_EXPIRY (R169). -/
  | silenceTimerExpiry
  /-- TRAINING_TIMER_EXPIRY (R169). -/
  | trainingTimerExpiry
  /-- SEND_END (R168): the message on LOOP_OUT has been sent to its end. -/
  | sendEnd
  /-- LOAD (R178). -/
  | load (message : Arrival)
  /-- COMMIT (R180). -/
  | commit (message : Arrival)
  /-- ABORT_LOAD (R179). -/
  | abortLoad (message : Arrival)
  /-- LANE (R66). -/
  | lane (message : Arrival)
  /-- FREE_FLOW (R84). -/
  | freeFlow (message : Arrival)
  /-- LOADING_HOLD (R105). -/
  | loadingHold (message : Arrival)
  /-- READ_STATUS (R185). -/
  | readStatus (message : Arrival)
  /-- READ_COUNTS (R186). -/
  | readCounts (message : Arrival)
  /-- CLEAR_FLAGS (R184). -/
  | clearFlags (message : Arrival)
  /-- REPORT_ENABLE (R184). -/
  | reportEnable (message : Arrival)
  /-- PURGE_DEFERRED (R127). -/
  | purgeDeferred (message : Arrival)
  /-- RESTART (R187). -/
  | restart (message : Arrival)
  /-- UNKNOWN_COMMAND (R176): a message of this type byte, which is none of the tabled ones. -/
  | unknownCommand (type : Byte) (message : Arrival)
  /-- COLD_RESET (R92): power-up or RESET_N, with the pins as they stand at its end. -/
  | coldReset (pins : ResetPins)
  deriving DecidableEq, Repr

end Sys2Proof
end

