-- ==== Sys2Proof/Decode.lean ====
section
/-! DEFINITION. Reading a command from a word numbered as spec/opcode_table.json numbers its bits. -/

namespace Sys2Proof

/-- The command that the low `nbits` bits of `w` spell by the table's bits. No row of
spec/opcode_table.json gives bits ("fields" is empty in each and none has "fixed"), so no word spells a
command. Log 33. -/
def decodeTableWord (_nbits _w : Nat) : Option Instr := none

end Sys2Proof
end

