-- ==== Sys2Proof/Machine/Types.lean ====
section
/-! DEFINITION. The data the blocks keep: names of states and codes, tables, records of a transaction,
table entries, and the messages and frames that leave the part. -/

namespace Sys2Proof.Machine

/-! ### Names -/

/-- A lane's role (R63). -/
inductive Role where
  | ticket | settle | exit | off
  deriving DecidableEq, Repr

/-- The state of a lane (R63, R67). -/
inductive LaneState where
  | closed | idle | resolving | held | writing | settling | unlocked | passing | fault | freeFlow | exit
  deriving DecidableEq, Repr

/-- The arm tracker (R69). -/
inductive Arm where
  | atRest | forward | reverse
  deriving DecidableEq, Repr

/-- The reader status (R11). -/
inductive ReaderStatus where
  | none | ok | fault | lost
  deriving DecidableEq, Repr

/-- The outcome of a card write (R10). -/
inductive WriteOutcome where
  | done | lost | torn
  deriving DecidableEq, Repr

/-- The operating-day state (R149); `opened` is OPEN. -/
inductive DayState where
  | none | opened | closed
  deriving DecidableEq, Repr

/-- The state of one day of a card's day map (R3); `invalid` is the fourth code. -/
inductive DayMark where
  | free | used | void | invalid
  deriving DecidableEq, Repr

/-- The loading gate (R103); `opened` is OPEN. -/
inductive GateState where
  | stopped | waiting | opened | held
  deriving DecidableEq, Repr

/-- The link state (R169). -/
inductive LinkState where
  | down | sync | up
  deriving DecidableEq, Repr

/-- Lamp colours of a VERDICT (section 11.3). -/
inductive Lamp where
  | none | green | red
  deriving DecidableEq, Repr

/-- Display codes and reason codes, one numbering (section 11.7). -/
inductive Display where
  | grant | refunded | wait | echo | busy | fault | free | notHere | laneClosed | noTables | noDay
  | dayClosed | duplicate | queueFull | retry | corrupt | blocked | noProduct | windowRefuse | notYet
  | expired | hours | settled | daysExhausted | passback | full | gone | notRefundable | gracePassed
  | nothingDue | seeDesk
  deriving DecidableEq, Repr

/-- The 21 event flags (section 10.4), in order of identifier. -/
inductive Flag where
  | laneFault | readerLost | forced | tailgate | mazeFull | mazeUnderrun | liftStopped | liftRunning
  | loadingForced | linkLost | linkRecovered | noticeDrop | reportLost | passbackEvict | cloneSuspect
  | deferredStale | deferredLost | deferredExpired | capApplied | timeStep | badNotice
  deriving DecidableEq, Repr

/-- The status of an ANSWER (section 11.7). -/
inductive Status where
  | done | unknownCommand | wrongState | badSegment | incomplete | invalid | keyControl
  deriving DecidableEq, Repr

/-- The eight tables, in order of identifier (section 11.5). -/
inductive TableId where
  | blockList | windows | products | categories | watchSet | dayQuality | laneTable | settings
  deriving DecidableEq, Repr

/-- The eleven lane counters, in the order of the lane counter block (R90, section 11.4). -/
inductive LaneCounter where
  | granted | paid | lapsed | refused | tailgate | beamMiss | intrusion | forced | reverse | free | exit
  deriving DecidableEq, Repr

/-! ### Time -/

/-- A running timer: the ms counter at its start and its duration (R146). -/
structure Timer where
  start    : Nat
  duration : Nat
  deriving DecidableEq, Repr

/-! ### The committed tables -/

/-- What an admission window, or the default, decides (R25). -/
inductive Action where
  | row (n : Nat)
  | refuse
  deriving DecidableEq, Repr

/-- One admission window (R25). -/
structure Window where
  enable       : Bool
  productValue : Byte
  productMask  : Byte
  categoryMask : Byte
  laneMask     : Byte
  action       : Action
  deriving DecidableEq, Repr

/-- A populated product row (R27). `ladder` holds L[1] to L[14] in order. -/
structure ProductRow where
  refundable : Bool
  grace      : Nat
  fee        : Nat
  validFrom  : Nat
  validTo    : Nat
  ladder     : List Nat
  deriving DecidableEq, Repr

/-- A watch-set entry: a lift group and its hold in seconds (R50). -/
structure WatchEntry where
  group : Nat
  hold  : Nat
  deriving DecidableEq, Repr

/-- A day-quality entry (R144). -/
structure QualityEntry where
  day     : Nat
  quality : Nat
  deriving DecidableEq, Repr

/-- A lane-table entry (R63). -/
structure LaneEntry where
  role       : Role
  keyControl : Bool
  deriving DecidableEq, Repr

/-- The settings (R29 and the settings table of section 11.5). Times carry the unit the table gives. -/
structure Settings where
  ownGroup          : Nat
  mazeLimit         : Nat
  seats             : Nat
  loadingWindowMs   : Nat
  grantTimeS        : Nat
  recoveryTimeMs    : Nat
  trailTimeMs       : Nat
  holdLimitS        : Nat
  beamMinimumMs     : Nat
  readerLossMs      : Nat
  intervalPeriodS   : Nat
  intervalPostscale : Nat
  qualityThreshold  : Nat
  roundingStep      : Nat
  refundCap         : Nat
  retentionDays     : Nat
  defaultAction     : Action
  grantOnLostWrite  : Bool
  deriving DecidableEq, Repr

/-- A table set (R21): the eight tables and the generation. Only the lane table and the settings can be
absent. `products` lists the populated rows with their numbers. -/
structure TableSet where
  generation : BitVec 16
  blockList  : List Serial
  windows    : List Window
  products   : List (Nat × ProductRow)
  categories : List Nat
  watchSet   : List WatchEntry
  dayQuality : List QualityEntry
  laneTable  : Option (PerLane LaneEntry)
  settings   : Option Settings
  deriving DecidableEq, Repr

/-- A shadow (R177): ABSENT, or LOADING with its segment total and the copies received, by number. -/
inductive Shadow where
  | absent
  | loading (total : Nat) (segments : List (Nat × List Byte))
  deriving DecidableEq, Repr

/-- The eight shadows, one for each table (R177). -/
structure Shadows where
  blockList  : Shadow
  windows    : Shadow
  products   : Shadow
  categories : Shadow
  watchSet   : Shadow
  dayQuality : Shadow
  laneTable  : Shadow
  settings   : Shadow
  deriving DecidableEq, Repr

/-! ### Counters -/

/-- The eleven counters of one lane (R90). -/
structure LaneCounters where
  granted   : Nat
  paid      : Nat
  lapsed    : Nat
  refused   : Nat
  tailgate  : Nat
  beamMiss  : Nat
  intrusion : Nat
  forced    : Nat
  reverse   : Nat
  free      : Nat
  exit      : Nat
  deriving DecidableEq, Repr

/-- The loading counters (R112): histogram bins 0 to 8, then the four others. -/
structure LoadingCounters where
  bins          : List Nat
  lostSeats     : Nat
  heldChairs    : Nat
  loadingForced : Nat
  mazeUnderrun  : Nat
  deriving DecidableEq, Repr

/-! ### Transactions and lanes -/

/-- An open transaction (R14). `pinned`, `day` and `minute` are what R22 pins; `card` is the record the
verdict uses, which is the record as read or the intended record that a resolution write has left on the
card (R34); `resolving` names the deferred entry of R122 by its stamp; `today` is the state recorded at
step 10 (R37); `reserved` and `insertReserved` are the reservations of R97 and R138; `built` is the
record of R7 or R8; `finalDays` holds the days remaining of the final VERDICT once it has been sent. -/
structure Transaction where
  serial         : Serial
  asRead         : Record
  present        : Bool
  pinned         : TableSet
  day            : Nat
  minute         : Nat
  card           : Record
  resolving      : Option Nat
  row            : Option Nat
  today          : Option DayMark
  reserved       : Bool
  built          : Option Record
  refund         : Nat
  impaired       : Nat
  insertReserved : Bool
  finalDays      : Option Nat
  deriving DecidableEq, Repr

/-- An open passage window (R71) or free window (R86): the body count k and whether ROTATE_FWD_DONE has
been taken, so that its trail runs. -/
structure PassageWindow where
  k     : Nat
  trail : Bool
  deriving DecidableEq, Repr

/-- One Lane Controller's state. `window` is the passage window of a grant, or the free window of a lane in
FREE_FLOW; `lateFree` is the free window of a rotation begun in FREE_FLOW on a lane that has left it (R79,
R86, R87, log 29). -/
structure Lane where
  role          : Option Role
  pendingRole   : Option Role
  state         : LaneState
  arm           : Arm
  kept          : Nat
  window        : Option PassageWindow
  lateFree      : Option PassageWindow
  grantTimer    : Option Timer
  grantExpired  : Bool
  trailTimer    : Option Timer
  recoveryTimer : Option Timer
  holdTimer     : Option Timer
  alarmTimer    : Option Timer
  keyHigh       : Bool
  commandOpen   : Bool
  day           : LaneCounters
  interval      : LaneCounters
  txn           : Option Transaction
  deriving DecidableEq, Repr

/-! ### Reader ports -/

/-- Who takes a write's outcome (R18, R19). `orphan` is a grant write whose transaction FAULT has ended
(R82) and `freeFlowGrant` one whose transaction free-flow entry has ended (R85), each with the base
issue and the pinned day that are kept for it; `ended` is a resolution write whose transaction has been
ended (R34). -/
inductive WriteOwner where
  | resolution
  | grant
  | settlement
  | orphan (baseIssue : BitVec 16) (day : Nat)
  | freeFlowGrant (baseIssue : BitVec 16) (day : Nat)
  | ended
  deriving DecidableEq, Repr

/-- A write that a block asks a port to make (R18). -/
structure WriteRequest where
  serial : Serial
  record : Record
  owner  : WriteOwner
  deriving DecidableEq, Repr

/-- The write a port has outstanding, with its write timer (R18). -/
structure OutstandingWrite where
  request : WriteRequest
  timer   : Timer
  deriving DecidableEq, Repr

/-- A frame the part sends to a reader (R10). -/
inductive ReaderTx where
  | verdict (final : Bool) (display : Display) (lamp : Lamp) (days : Nat) (amount : Nat)
  | write (serial : Serial) (record : Record)
  | release (serial : Serial)
  deriving DecidableEq, Repr

/-- One Reader Port Unit's state. `tx` is the record of the frames sent, in order. -/
structure Port where
  status    : ReaderStatus
  heartbeat : Option Timer
  write     : Option OutstandingWrite
  waiting   : Option WriteRequest
  tx        : List ReaderTx
  deriving DecidableEq, Repr

/-! ### Passback Table and Deferred Write Table -/

/-- Where a passback entry's grant or passage took place (R48). -/
inductive Origin where
  | lane (n : LaneId)
  | remote (chip : Byte)
  deriving DecidableEq, Repr

/-- A Passback Table entry (R48). `confirmed` false is PENDING. -/
structure PassbackEntry where
  serial    : Serial
  group     : Nat
  expiry    : Nat
  confirmed : Bool
  origin    : Origin
  deriving DecidableEq, Repr

/-- The kind of a deferred entry, with the three fields only a SETTLEMENT entry has (R116). -/
inductive DeferredKind where
  | dayMark
  | settlement (refund : Nat) (impaired : Nat) (generation : BitVec 16)
  deriving DecidableEq, Repr

/-- A Deferred Write Table entry (R116). `stamp` tells entries apart (log 18). -/
structure DeferredEntry where
  stamp      : Nat
  serial     : Serial
  kind       : DeferredKind
  baseIssue  : BitVec 16
  intended   : Record
  dayCreated : Nat
  lane       : LaneId
  deriving DecidableEq, Repr

/-- The Deferred Write Table, entries in creation order (R117). -/
structure DeferredTable where
  entries   : List DeferredEntry
  nextStamp : Nat
  deriving DecidableEq, Repr

/-! ### Maze and loading gate -/

/-- An open chair window (R107). -/
structure ChairWindow where
  m0     : Nat
  loaded : Nat
  seats  : Nat
  timer  : Timer
  deriving DecidableEq, Repr

/-- The Maze and Loading Controller's state. -/
structure Maze where
  count       : Nat
  gate        : GateState
  liftRun     : Bool
  loadingHold : Bool
  window      : Option ChairWindow
  day         : LoadingCounters
  interval    : LoadingCounters
  deriving DecidableEq, Repr

/-! ### Time Base -/

/-- The Time Base's state but for the ms counter. `phase` is the ms at which the clock last advanced or
was set (R147), `runMark` the ms to which the run times have been brought up (R154), `prescaler` the
1,000 ms in progress of a running interval timer (R157), `intervalDue` set between the wrap of the
postscaler and its INTERVAL_END. -/
structure TimeBase where
  stationTime    : Nat
  clockSet       : Bool
  phase          : Nat
  dayState       : DayState
  seasonDay      : Nat
  openMinute     : Nat
  closeMinute    : Nat
  refundsCount   : Nat
  refundsSum     : Nat
  dayRun         : Nat
  intervalRun    : Nat
  runMark        : Nat
  prescaler      : Option Timer
  periodCount    : Nat
  postscaleCount : Nat
  sequence       : BitVec 16
  intervalDue    : Bool
  deriving DecidableEq, Repr

/-! ### Messages -/

/-- An EVENT report: flag, station time at the latch, detail (R183). -/
structure EventReport where
  flag   : Flag
  time   : Nat
  detail : Nat
  deriving DecidableEq, Repr

/-- A PASSAGE notice (R75). -/
structure PassageNotice where
  serial     : Serial
  group      : Nat
  time       : Nat
  day        : Nat
  lane       : LaneId
  bodies     : Nat
  generation : BitVec 16
  deriving DecidableEq, Repr

/-- A REFUND notice (R141). -/
structure RefundNotice where
  serial     : Serial
  refund     : Nat
  day        : Nat
  product    : Byte
  category   : Byte
  used       : Nat
  impaired   : Nat
  generation : BitVec 16
  lane       : LaneId
  chip       : Byte
  deriving DecidableEq, Repr

/-- A COUNT report (R158). -/
structure CountReport where
  sequence    : BitVec 16
  short       : Bool
  seconds     : Nat
  seasonDay   : Nat
  dayState    : DayState
  stationTime : Nat
  lanes       : PerLane LaneCounters
  loading     : LoadingCounters
  mazeCount   : Nat
  runSeconds  : Nat
  exitBodies  : Nat
  deriving DecidableEq, Repr

/-- A DAY report (R156). -/
structure DayReport where
  seasonDay        : Nat
  implicit         : Bool
  noSchedule       : Bool
  openMinute       : Nat
  closeMinute      : Nat
  scheduledSeconds : Nat
  runSeconds       : Nat
  availability     : Nat
  stationTime      : Nat
  generation       : BitVec 16
  lanes            : PerLane LaneCounters
  loading          : LoadingCounters
  mazeCount        : Nat
  refundsCount     : Nat
  refundsSum       : Nat
  deferredEntries  : Nat
  deriving DecidableEq, Repr

/-- An ANSWER report (R174): the command's code, the status, the failing table's identifier (FFh where
there is none) and the result data. -/
structure Answer where
  command : Byte
  status  : Status
  table   : Byte
  data    : List Byte
  deriving DecidableEq, Repr

/-- A message the part originates (R160). -/
inductive Outgoing where
  | answer (a : Answer)
  | event (r : EventReport)
  | passage (p : PassageNotice)
  | refund (r : RefundNotice)
  | count (r : CountReport)
  | day (r : DayReport)
  deriving DecidableEq, Repr

/-- A loop message that stands in the transit FIFO or is being sent. Its length field is the payload's
length and its CRC is computed when it is put on the line (R160, R164). -/
structure LoopMessage where
  type        : Byte
  destination : Byte
  source      : Byte
  hops        : Byte
  payload     : List Byte
  deriving DecidableEq, Repr

/-- The Loop Interface's state. `downByLoss` says whether the last entry into DOWN was made by the
silence timer or the bad run (R169). `sending` is the message on LOOP_OUT, none while idle fill is sent. -/
structure Loop where
  link          : LinkState
  silence       : Option Timer
  training      : Option Timer
  badRun        : Nat
  downByLoss    : Bool
  transit       : List LoopMessage
  insertQueue   : List Outgoing
  sending       : Option LoopMessage
  fairness      : Nat
  pendingEvents : List EventReport
  crcErrors     : Nat
  orphans       : Nat
  transitDrops  : Nat
  noticeDrops   : Nat
  deriving DecidableEq, Repr

/-- The Management Unit's state. Bit n of `flags` and `enables` is flag identifier n. `raised` holds the
EVENT reports made in the event being taken and is empty between events (R183, log 7). -/
structure Mgmt where
  shadows  : Shadows
  flags    : BitVec 32
  enables  : BitVec 32
  overruns : Nat
  raised   : List EventReport
  deriving DecidableEq, Repr

end Sys2Proof.Machine
end

