-- ==== Sys2Proof/Machine/Formats.lean ====
section
/-! DEFINITION. Formats and codes: the CRC, byte order, the card record's fields and the records the
part builds, code numbers, reader frames sent and loop message payloads (chapters 1 and 11). -/

namespace Sys2Proof.Machine

/-! ### Bytes and the CRC -/

/-- The low `n` bytes of `v`, least significant first (R188). -/
def bytesLE : Nat → Nat → List Byte
  | 0, _ => []
  | n + 1, v => BitVec.ofNat 8 v :: bytesLE n (v / 256)

/-- The number that bytes spell, least significant first (R188). -/
def natLE : List Byte → Nat
  | [] => 0
  | b :: bs => b.toNat + 256 * natLE bs

/-- The number in the `size` bytes at offset `off`. -/
def fieldLE (bs : List Byte) (off size : Nat) : Nat := natLE ((bs.drop off).take size)

/-- One bit of the CRC-16 with generator 1021h (R188). -/
def crcBit (c : Nat) : Nat := if 0x8000 ≤ c then (c * 2) % 0x10000 ^^^ 0x1021 else c * 2

/-- One byte of the CRC-16, most significant bit first (R188). -/
def crcByte (c : Nat) (b : Byte) : Nat :=
  crcBit (crcBit (crcBit (crcBit (crcBit (crcBit (crcBit (crcBit (c ^^^ b.toNat * 256))))))))

/-- The CRC-16 of R188: bytes in order of offset, register started at FFFFh, neither reflected nor
inverted. -/
def crc16 (bs : List Byte) : BitVec 16 := BitVec.ofNat 16 (bs.foldl crcByte 0xFFFF)

/-! ### The card record (section 11.2) -/

/-- The bit field of width `w` whose lowest bit is bit `pos`. -/
def Record.field (r : Record) (pos w : Nat) : BitVec w := r.extractLsb' pos w

/-- `r` with that bit field replaced by `v`. -/
def Record.setField (r : Record) (pos : Nat) {w : Nat} (v : BitVec w) : Record :=
  (r &&& ~~~ ((BitVec.allOnes w).setWidth 256 <<< pos)) ||| (v.setWidth 256 <<< pos)

/-- The 32 bytes of a record, by offset. -/
def Record.bytes (r : Record) : List Byte := bytesLE 32 r.toNat

/-- The record whose bytes, by offset, are these 32. -/
def Record.ofBytes (bs : List Byte) : Record := BitVec.ofNat 256 (natLE bs)

/-- The serial field, offsets 0-3. -/
def Record.serial (r : Record) : Serial := Record.field r 0 32
/-- The product code, offset 4. -/
def Record.product (r : Record) : Byte := Record.field r 32 8
/-- The category, offset 5. -/
def Record.category (r : Record) : Byte := Record.field r 40 8
/-- The first day F, offsets 6-7. -/
def Record.first (r : Record) : Nat := (Record.field r 48 16).toNat
/-- The window W, offset 8. -/
def Record.window (r : Record) : Nat := (Record.field r 64 8).toNat
/-- The days purchased D, offset 9. -/
def Record.days (r : Record) : Nat := (Record.field r 72 8).toNat
/-- The price paid P, offsets 10-13. -/
def Record.price (r : Record) : Nat := (Record.field r 80 32).toNat
/-- The issue, offsets 21-22. -/
def Record.issue (r : Record) : BitVec 16 := Record.field r 168 16
/-- The flags byte, offset 23. -/
def Record.flags (r : Record) : Byte := Record.field r 184 8
/-- SETTLED, bit 0 of the flags. -/
def Record.settled (r : Record) : Bool := (Record.flags r).getLsbD 0
/-- The settled amount, offsets 24-27. -/
def Record.settledAmount (r : Record) : Nat := (Record.field r 192 32).toNat
/-- The settled day, offsets 28-29. -/
def Record.settledDay (r : Record) : Nat := (Record.field r 224 16).toNat
/-- The check code, offsets 30-31. -/
def Record.check (r : Record) : BitVec 16 := Record.field r 240 16

/-- Bit position of day-map entry `i`: bits 2(i mod 4) of byte 14 + i / 4 (section 11.2). -/
def dayMapPos (i : Nat) : Nat := 112 + 2 * i

/-- The two-bit code of a day mark (section 11.2). -/
def DayMark.code : DayMark → BitVec 2
  | .free => 0
  | .used => 1
  | .void => 2
  | .invalid => 3

/-- The day mark of a two-bit code (section 11.2). -/
def DayMark.ofCode (c : BitVec 2) : DayMark :=
  if c = 0 then .free else if c = 1 then .used else if c = 2 then .void else .invalid

/-- Day-map entry `i` (R3). -/
def Record.dayMark (r : Record) (i : Nat) : DayMark := .ofCode (Record.field r (dayMapPos i) 2)

/-- `r` with day-map entry `i` set. -/
def Record.setDayMark (r : Record) (i : Nat) (m : DayMark) : Record :=
  Record.setField r (dayMapPos i) m.code

/-- The day indexes whose entry is USED (R3, R134). -/
def Record.usedDays (r : Record) : List Nat :=
  (List.range 28).filter fun i => Record.dayMark r i = .used

/-- The used count U (R3). -/
def Record.used (r : Record) : Nat := (Record.usedDays r).length

/-- Check-valid (R4): the check code is the CRC-16 of the first 30 bytes. -/
def Record.checkValid (r : Record) : Bool := Record.check r == crc16 ((Record.bytes r).take 30)

/-- Well-formed for the card serial that carried it (R5, with the ranges of R2). -/
def Record.wellFormed (serial : Serial) (r : Record) : Bool :=
  Record.checkValid r && Record.serial r == serial && serial != 0
    && (1 ≤ Record.first r && Record.first r ≤ 366)
    && (1 ≤ Record.window r && Record.window r ≤ 28)
    && (1 ≤ Record.days r && Record.days r ≤ min 14 (Record.window r))
    && (Record.category r).toNat ≤ 4
    && Record.price r ≤ 2000000
    && ((List.range 28).all fun i =>
        Record.dayMark r i != .invalid && (i < Record.window r || Record.dayMark r i == .free))
    && Record.used r ≤ Record.days r
    && (if Record.settled r then
          Record.settledAmount r ≤ 2000000 && (1 ≤ Record.settledDay r && Record.settledDay r ≤ 366)
        else Record.settledAmount r == 0 && Record.settledDay r == 0)

/-- Days remaining (R3). -/
def Record.daysRemaining (serial : Serial) (r : Record) : Nat :=
  if Record.wellFormed serial r && !Record.settled r then Record.days r - Record.used r else 0

/-- What R6 does to every record the part builds: the seven unused flag bits 0, the issue one more than
the base record's, the check code computed afresh. -/
def Record.finish (base r : Record) : Record :=
  let r1 := Record.setField r 184 (Record.flags r &&& 1)
  let r2 := Record.setField r1 168 (Record.issue base + 1)
  Record.setField r2 240 (crc16 ((Record.bytes r2).take 30))

/-- The day-marked record of R7 for day index `i`. -/
def Record.dayMarked (base : Record) (i : Nat) : Record :=
  Record.finish base (Record.setDayMark base i .used)

/-- FREE entries of the first `w` day indexes changed to VOID (R8). -/
def Record.voidFree (r : Record) : Nat → Record
  | 0 => r
  | w + 1 =>
    let r' := Record.voidFree r w
    if Record.dayMark r' w = .free then Record.setDayMark r' w .void else r'

/-- The settled record of R8 with refund `refund` on season day `day`. -/
def Record.settledRecord (base : Record) (refund day : Nat) : Record :=
  let r1 := Record.voidFree base (min 28 (Record.window base))
  let r2 := Record.setField r1 184 (Record.flags r1 ||| 1)
  let r3 := Record.setField r2 192 (BitVec.ofNat 32 refund)
  Record.finish base (Record.setField r3 224 (BitVec.ofNat 16 day))

/-! ### Codes (section 11.7) -/

/-- Display and reason codes. -/
def Display.code : Display → Byte
  | .grant => 0x00 | .refunded => 0x01 | .wait => 0x02 | .echo => 0x03 | .busy => 0x04
  | .fault => 0x05 | .free => 0x06 | .notHere => 0x07 | .laneClosed => 0x08 | .noTables => 0x09
  | .noDay => 0x0A | .dayClosed => 0x0B | .duplicate => 0x0C | .queueFull => 0x0D | .retry => 0x0E
  | .corrupt => 0x0F | .blocked => 0x10 | .noProduct => 0x11 | .windowRefuse => 0x12
  | .notYet => 0x13 | .expired => 0x14 | .hours => 0x15 | .settled => 0x16 | .daysExhausted => 0x17
  | .passback => 0x18 | .full => 0x19 | .gone => 0x1A | .notRefundable => 0x1B
  | .gracePassed => 0x1C | .nothingDue => 0x1D | .seeDesk => 0x1E

/-- Lamp colours of a VERDICT. -/
def Lamp.code : Lamp → Byte
  | .none => 0 | .green => 1 | .red => 2

/-- Flag identifiers. -/
def Flag.id : Flag → Nat
  | .laneFault => 0 | .readerLost => 1 | .forced => 2 | .tailgate => 3 | .mazeFull => 4
  | .mazeUnderrun => 5 | .liftStopped => 6 | .liftRunning => 7 | .loadingForced => 8
  | .linkLost => 9 | .linkRecovered => 10 | .noticeDrop => 11 | .reportLost => 12
  | .passbackEvict => 13 | .cloneSuspect => 14 | .deferredStale => 15 | .deferredLost => 16
  | .deferredExpired => 17 | .capApplied => 18 | .timeStep => 19 | .badNotice => 20

/-- The flags in order of identifier. -/
def Flag.all : List Flag :=
  [.laneFault, .readerLost, .forced, .tailgate, .mazeFull, .mazeUnderrun, .liftStopped, .liftRunning,
   .loadingForced, .linkLost, .linkRecovered, .noticeDrop, .reportLost, .passbackEvict, .cloneSuspect,
   .deferredStale, .deferredLost, .deferredExpired, .capApplied, .timeStep, .badNotice]

/-- ANSWER status codes. -/
def Status.code : Status → Byte
  | .done => 0 | .unknownCommand => 1 | .wrongState => 2 | .badSegment => 3 | .incomplete => 4
  | .invalid => 5 | .keyControl => 6

/-- Table identifiers. -/
def TableId.id : TableId → Nat
  | .blockList => 0 | .windows => 1 | .products => 2 | .categories => 3 | .watchSet => 4
  | .dayQuality => 5 | .laneTable => 6 | .settings => 7

/-- The tables in order of identifier. -/
def TableId.all : List TableId :=
  [.blockList, .windows, .products, .categories, .watchSet, .dayQuality, .laneTable, .settings]

/-- The table of an identifier. -/
def TableId.ofId (n : Nat) : Option TableId := TableId.all[n]?

/-- Lane state codes. -/
def LaneState.code : LaneState → Nat
  | .closed => 0 | .idle => 1 | .resolving => 2 | .held => 3 | .writing => 4 | .settling => 5
  | .unlocked => 6 | .passing => 7 | .fault => 8 | .freeFlow => 9 | .exit => 10

/-- Lane role codes. -/
def Role.code : Role → Nat
  | .ticket => 0 | .settle => 1 | .exit => 2 | .off => 3

/-- A role, or FFh for none. -/
def roleCode (r : Option Role) : Nat := (r.map Role.code).getD 0xFF

/-- Reader status codes. -/
def ReaderStatus.code : ReaderStatus → Nat
  | .none => 0 | .ok => 1 | .fault => 2 | .lost => 3

/-- Day state codes. -/
def DayState.code : DayState → Nat
  | .none => 0 | .opened => 1 | .closed => 2

/-- Gate state codes. -/
def GateState.code : GateState → Nat
  | .stopped => 0 | .waiting => 1 | .opened => 2 | .held => 3

/-- Link state codes. -/
def LinkState.code : LinkState → Nat
  | .down => 0 | .sync => 1 | .up => 2

/-- A yes-no field or a level: 1 or 0. -/
def flagCode (b : Bool) : Nat := if b then 1 else 0

/-! ### Frames to the reader (section 11.3) -/

/-- The type code and the field bytes of a frame sent to a reader. -/
def ReaderTx.fields : ReaderTx → Byte × List Byte
  | .verdict final display lamp days amount =>
    (0x81, [BitVec.ofNat 8 (flagCode final), display.code, lamp.code] ++ bytesLE 1 days ++ bytesLE 4 amount)
  | .write serial record => (0x82, bytesLE 4 serial.toNat ++ Record.bytes record)
  | .release serial => (0x83, bytesLE 4 serial.toNat)

/-- The bytes of a frame on RDn_TX: start byte, type, length, fields, and a CRC-16 over all but the start
byte (section 11.3). -/
def ReaderTx.wire (t : ReaderTx) : List Byte :=
  let body := t.fields.1 :: BitVec.ofNat 8 t.fields.2.length :: t.fields.2
  0xA5 :: body ++ bytesLE 2 (crc16 body).toNat

/-! ### Loop messages (section 11.4) -/

/-- The eleven counters of one lane, two bytes each, in the order of the lane counter block. -/
def LaneCounters.bytes (c : LaneCounters) : List Byte :=
  ([c.granted, c.paid, c.lapsed, c.refused, c.tailgate, c.beamMiss, c.intrusion, c.forced, c.reverse,
    c.free, c.exit].map (bytesLE 2)).flatten

/-- A lane counter block, 88 bytes. -/
def laneBlock (p : PerLane LaneCounters) : List Byte := (p.toList.map LaneCounters.bytes).flatten

/-- A loading counter block, 26 bytes. -/
def LoadingCounters.bytes (c : LoadingCounters) : List Byte :=
  (((List.range 9).map (fun i => c.bins.getD i 0)
    ++ [c.lostSeats, c.heldChairs, c.loadingForced, c.mazeUnderrun]).map (bytesLE 2)).flatten

/-- The EVENT payload, 9 bytes. -/
def EventReport.bytes (r : EventReport) : List Byte :=
  bytesLE 1 r.flag.id ++ bytesLE 4 r.time ++ bytesLE 4 r.detail

/-- The PASSAGE payload, 15 bytes; the body count is held at 255 (R189). -/
def PassageNotice.bytes (p : PassageNotice) : List Byte :=
  bytesLE 4 p.serial.toNat ++ bytesLE 1 p.group ++ bytesLE 4 p.time ++ bytesLE 2 p.day
    ++ bytesLE 1 p.lane.num ++ bytesLE 1 (min p.bodies 255) ++ bytesLE 2 p.generation.toNat

/-- The REFUND payload, 18 bytes. -/
def RefundNotice.bytes (r : RefundNotice) : List Byte :=
  bytesLE 4 r.serial.toNat ++ bytesLE 4 r.refund ++ bytesLE 2 r.day ++ [r.product, r.category]
    ++ bytesLE 1 r.used ++ bytesLE 1 r.impaired ++ bytesLE 2 r.generation.toNat
    ++ bytesLE 1 r.lane.num ++ [r.chip]

/-- The COUNT payload, 133 bytes. -/
def CountReport.bytes (r : CountReport) : List Byte :=
  bytesLE 2 r.sequence.toNat ++ bytesLE 1 (flagCode r.short) ++ bytesLE 2 r.seconds
    ++ bytesLE 2 r.seasonDay ++ bytesLE 1 r.dayState.code ++ bytesLE 4 r.stationTime
    ++ laneBlock r.lanes ++ r.loading.bytes ++ bytesLE 1 r.mazeCount ++ bytesLE 4 r.runSeconds
    ++ bytesLE 2 (min r.exitBodies 65535)

/-- The DAY payload, 145 bytes. -/
def DayReport.bytes (r : DayReport) : List Byte :=
  bytesLE 2 r.seasonDay ++ bytesLE 1 (flagCode r.implicit + 2 * flagCode r.noSchedule)
    ++ bytesLE 2 r.openMinute ++ bytesLE 2 r.closeMinute ++ bytesLE 4 r.scheduledSeconds
    ++ bytesLE 4 r.runSeconds ++ bytesLE 2 r.availability ++ bytesLE 4 r.stationTime
    ++ bytesLE 2 r.generation.toNat ++ laneBlock r.lanes ++ r.loading.bytes ++ bytesLE 1 r.mazeCount
    ++ bytesLE 2 r.refundsCount ++ bytesLE 4 r.refundsSum ++ bytesLE 1 r.deferredEntries

/-- The ANSWER payload: command code, status, failing table, result data. -/
def Answer.bytes (a : Answer) : List Byte := [a.command, a.status.code, a.table] ++ a.data

/-- The type code of a message the part originates. -/
def Outgoing.type : Outgoing → Byte
  | .passage _ => 0x23
  | .answer _ => 0x40
  | .event _ => 0x41
  | .count _ => 0x42
  | .day _ => 0x43
  | .refund _ => 0x44

/-- Its payload. -/
def Outgoing.payload : Outgoing → List Byte
  | .answer a => a.bytes
  | .event r => r.bytes
  | .passage p => p.bytes
  | .refund r => r.bytes
  | .count r => r.bytes
  | .day r => r.bytes

/-- Its destination (R160): PASSAGE to broadcast, every other message to the station computer. -/
def Outgoing.destination : Outgoing → Byte
  | .passage _ => 31
  | .answer _ | .event _ | .refund _ | .count _ | .day _ => 0

/-- The message as the part puts it on the loop: own address as source, hop count 0 (R160). -/
def Outgoing.message (own : Byte) (o : Outgoing) : LoopMessage :=
  ⟨o.type, o.destination, own, 0, o.payload⟩

/-- The header of a message, 6 bytes (section 11.4). -/
def messageHeader (type destination source hops : Byte) (length : Nat) : List Byte :=
  [type, destination, source, hops] ++ bytesLE 2 length

/-- The bytes of a message on LOOP_OUT, with the CRC computed over header and payload (R160, R164). -/
def LoopMessage.wire (m : LoopMessage) : List Byte :=
  let body := messageHeader m.type m.destination m.source m.hops m.payload.length ++ m.payload
  body ++ bytesLE 2 (crc16 body).toNat

end Sys2Proof.Machine
end

