-- ==== Sys2Proof/Machine/Operands.lean ====
section
/-! DEFINITION. The forms of what arrives: reader frames (R9), loop messages (R162 test 1), command
parameters (R176) and table segments (R178, R180, R190). -/

namespace Sys2Proof.Machine

/-! ### Reader frames -/

/-- A frame that R9 accepts. -/
inductive ReaderMessage where
  | card (serial : Serial) (record : Record)
  | gone (serial : Serial)
  | writeResult (serial : Serial) (outcome : WriteOutcome)
  | beat (ok : Bool)
  deriving DecidableEq, Repr

/-- The outcome code of a WRITE_RESULT (section 11.3). -/
def writeOutcomeOf (code : Nat) : Option WriteOutcome :=
  if code = 0 then some .done else if code = 1 then some .lost else if code = 2 then some .torn else none

/-- The serial in the first four field bytes, none where it is 0 (R1). -/
def frameSerial (fields : List Byte) : Option Serial :=
  let s := BitVec.ofNat 32 (fieldLE fields 0 4)
  if s = 0 then none else some s

/-- The CRC and the length byte of a frame fit its bytes (R9). -/
def frameIntact (f : ReaderFrame) : Bool :=
  f.crc == crc16 (f.type :: f.length :: f.fields) && f.length.toNat == f.fields.length

/-- The message of a received frame, or none where R9 discards it: bad CRC, unknown type, a length that
is not the type's, a code outside its values, or serial 0. -/
def parseFrame (f : ReaderFrame) : Option ReaderMessage :=
  if !frameIntact f then none
  else if f.type = 0x01 ∧ f.fields.length = 36 then
    (frameSerial f.fields).map fun s => .card s (Record.ofBytes (f.fields.drop 4))
  else if f.type = 0x02 ∧ f.fields.length = 4 then
    (frameSerial f.fields).map .gone
  else if f.type = 0x03 ∧ f.fields.length = 5 then
    match frameSerial f.fields, writeOutcomeOf (fieldLE f.fields 4 1) with
    | some s, some o => some (.writeResult s o)
    | _, _ => none
  else if f.type = 0x04 ∧ f.fields.length = 1 then
    if fieldLE f.fields 0 1 = 0 then some (.beat true)
    else if fieldLE f.fields 0 1 = 1 then some (.beat false)
    else none
  else none

/-! ### Loop messages -/

/-- The message passes test 1 of R162, with the address bound of R189. -/
def arrivalIntact (type : Byte) (m : Arrival) : Bool :=
  m.crc == crc16 (messageHeader type m.destination m.source m.hops m.length.toNat ++ m.payload)
    && m.payload.length == m.length.toNat
    && m.length.toNat ≤ 259
    && m.source.toNat ≤ 30
    && m.destination.toNat ≤ 31

/-! ### Command parameters -/

/-- A one-byte parameter. -/
def oneByte (payload : List Byte) : Option Nat :=
  if payload.length = 1 then some (fieldLE payload 0 1) else none

/-- ON or OFF (section 11.7). -/
def onOffOf (payload : List Byte) : Option Bool :=
  match oneByte payload with
  | some 0 => some false
  | some 1 => some true
  | _ => none

/-- A lane number 1 to 4. -/
def laneOf (n : Nat) : Option LaneId :=
  if n = 1 then some .l1 else if n = 2 then some .l2 else if n = 3 then some .l3
  else if n = 4 then some .l4 else none

/-- The parameters of LANE: a lane, and true for OPEN. -/
def laneCommandOf (payload : List Byte) : Option (LaneId × Bool) :=
  if payload.length = 2 then
    match laneOf (fieldLE payload 0 1), fieldLE payload 1 1 with
    | some n, 0 => some (n, false)
    | some n, 1 => some (n, true)
    | _, _ => none
  else none

/-- A flag mask, none where it names a bit of 21 to 31 (R176). -/
def flagMaskOf (payload : List Byte) : Option (BitVec 32) :=
  if payload.length = 4 ∧ fieldLE payload 0 4 < 2 ^ 21 then some (BitVec.ofNat 32 (fieldLE payload 0 4))
  else none

/-- The tables a mask byte names, in order of identifier; none where it names no table (R176). -/
def tableMaskOf (payload : List Byte) : Option (List TableId) :=
  match oneByte payload with
  | some m => if m = 0 then none else some (TableId.all.filter fun t => m.testBit t.id)
  | none => none

/-- The parameters of PURGE_DEFERRED: one serial, or none for all entries. The outer none is a payload
that does not fit. -/
def purgeOf (payload : List Byte) : Option (Option Serial) :=
  if payload.length = 5 ∧ fieldLE payload 0 1 = 0 then some (some (BitVec.ofNat 32 (fieldLE payload 1 4)))
  else if payload.length = 1 ∧ fieldLE payload 0 1 = 1 then some none
  else none

/-! ### Segments (sections 10.2 and 11.5) -/

/-- `n` pieces of `k` bytes. -/
def pieces (k n : Nat) (bs : List Byte) : List (List Byte) :=
  (List.range n).map fun i => (bs.drop (k * i)).take k

/-- The largest segment total of a table (section 10.2). -/
def TableId.maxSegments : TableId → Nat
  | .blockList => 32
  | .products => 16
  | .windows | .categories | .watchSet | .dayQuality | .laneTable | .settings => 1

/-- The size of one entry (section 11.5). -/
def TableId.entrySize : TableId → Nat
  | .blockList => 4
  | .windows => 6
  | .products => 50
  | .categories => 2
  | .watchSet => 3
  | .dayQuality => 3
  | .laneTable => 2
  | .settings => 27

/-- The entry bytes of a segment are a whole number of entries, at most 64 serials of a block list, and
the full set of a fixed segment (R178). -/
def TableId.segmentFits (t : TableId) (bs : List Byte) : Bool :=
  match t with
  | .blockList => bs.length % 4 == 0 && bs.length ≤ 256
  | .watchSet | .dayQuality => bs.length % 3 == 0
  | .windows => bs.length == 48
  | .products => bs.length == 200
  | .categories => bs.length == 10
  | .laneTable => bs.length == 8
  | .settings => bs.length == 27

/-- The shadow of a table. -/
def Shadows.get (s : Shadows) : TableId → Shadow
  | .blockList => s.blockList
  | .windows => s.windows
  | .products => s.products
  | .categories => s.categories
  | .watchSet => s.watchSet
  | .dayQuality => s.dayQuality
  | .laneTable => s.laneTable
  | .settings => s.settings

/-- `s` with one table's shadow replaced. -/
def Shadows.set (s : Shadows) (t : TableId) (x : Shadow) : Shadows :=
  match t with
  | .blockList => { s with blockList := x }
  | .windows => { s with windows := x }
  | .products => { s with products := x }
  | .categories => { s with categories := x }
  | .watchSet => { s with watchSet := x }
  | .dayQuality => { s with dayQuality := x }
  | .laneTable => { s with laneTable := x }
  | .settings => { s with settings := x }

/-- The copies with segment `n`'s stored, in order of number; a copy already there is replaced (R178). -/
def storeSegment (n : Nat) (bs : List Byte) : List (Nat × List Byte) → List (Nat × List Byte)
  | [] => [(n, bs)]
  | (m, c) :: rest =>
    if n < m then (n, bs) :: (m, c) :: rest
    else if n = m then (n, bs) :: rest
    else (m, c) :: storeSegment n bs rest

/-- The segments received (R177). -/
def Shadow.received : Shadow → Nat
  | .absent => 0
  | .loading _ segments => segments.length

/-- The recorded segment total (R177), 0 while ABSENT. -/
def Shadow.total : Shadow → Nat
  | .absent => 0
  | .loading total _ => total

/-- A copy of every segment is held (R177). -/
def Shadow.complete : Shadow → Bool
  | .absent => false
  | .loading total segments => (List.range total).all fun i => (segments.map (·.1)).contains i

/-- The copies in order of segment number. -/
def Shadow.segments : Shadow → List (Nat × List Byte)
  | .absent => []
  | .loading _ segments => segments

/-- All entry bytes in order of segment number. -/
def Shadow.bytes (s : Shadow) : List Byte := (s.segments.map (·.2)).flatten

/-- What a LOAD does to a shadow, or none where it is BAD_SEGMENT (R178). -/
def Shadow.load (s : Shadow) (t : TableId) (number total : Nat) (bs : List Byte) : Option Shadow :=
  if total = 0 ∨ t.maxSegments < total ∨ total ≤ number ∨ !t.segmentFits bs then none
  else match s with
    | .absent => some (.loading total [(number, bs)])
    | .loading recorded segments =>
      if total = recorded then some (.loading recorded (storeSegment number bs segments)) else none

/-! ### Decoding table contents -/

/-- The entries of a table of fixed-size entries. -/
def entriesOf (t : TableId) (bs : List Byte) : List (List Byte) :=
  pieces t.entrySize (bs.length / t.entrySize) bs

/-- An action code: ROW n for 0 to 63, otherwise REFUSE (section 11.5). -/
def actionOf (code : Nat) : Action := if code ≤ 63 then .row code else .refuse

/-- An action code is 0 to 63 or FFh (R190). -/
def actionCodeValid (code : Nat) : Bool := code ≤ 63 || code == 0xFF

/-- A block-list entry. -/
def decodeSerial (e : List Byte) : Serial := BitVec.ofNat 32 (fieldLE e 0 4)

/-- An admission window entry. -/
def decodeWindow (e : List Byte) : Window where
  enable := fieldLE e 0 1 == 1
  productValue := BitVec.ofNat 8 (fieldLE e 1 1)
  productMask := BitVec.ofNat 8 (fieldLE e 2 1)
  categoryMask := BitVec.ofNat 8 (fieldLE e 3 1)
  laneMask := BitVec.ofNat 8 (fieldLE e 4 1)
  action := actionOf (fieldLE e 5 1)

/-- The codes of a window entry are ones R190 admits. -/
def windowCodesValid (e : List Byte) : Bool :=
  fieldLE e 0 1 ≤ 1 && fieldLE e 3 1 ≤ 31 && fieldLE e 4 1 ≤ 15 && actionCodeValid (fieldLE e 5 1)

/-- The populated bit of a product row entry. -/
def rowPopulated (e : List Byte) : Bool := (fieldLE e 0 1).testBit 0

/-- A product row entry. -/
def decodeRow (e : List Byte) : ProductRow where
  refundable := (fieldLE e 0 1).testBit 1
  grace := fieldLE e 1 1
  fee := fieldLE e 2 2
  validFrom := fieldLE e 4 2
  validTo := fieldLE e 6 2
  ladder := (List.range 14).map fun k => fieldLE e (8 + 3 * k) 3

/-- No entry is less than the one before it. -/
def nonDecreasing : List Nat → Bool
  | [] => true
  | [_] => true
  | a :: b :: rest => a ≤ b && nonDecreasing (b :: rest)

/-- The fields of a populated row lie in their ranges, its hours are ordered and its ladder does not
decrease (R27). -/
def rowValid (r : ProductRow) : Bool :=
  r.grace ≤ 30 && r.fee ≤ 65535 && r.validFrom ≤ 1439 && r.validTo ≤ 1439
    && r.validFrom ≤ r.validTo && r.ladder.all (· ≤ 2000000) && nonDecreasing r.ladder

/-- The product rows of a shadow with their numbers and entries: row 4s + i is entry i of segment s. -/
def numberedRows (segments : List (Nat × List Byte)) : List (Nat × List Byte) :=
  (segments.map fun (s, bs) => (pieces 50 4 bs).zipIdx.map fun (e, i) => (4 * s + i, e)).flatten

/-- A watch-set entry. -/
def decodeWatch (e : List Byte) : WatchEntry := ⟨fieldLE e 0 1, fieldLE e 1 2⟩

/-- A day-quality entry: quality in bits 9-0, season day in bits 18-10. -/
def decodeQuality (e : List Byte) : QualityEntry :=
  ⟨fieldLE e 0 3 / 1024 % 512, fieldLE e 0 3 % 1024⟩

/-- A role code (section 11.5). -/
def roleOf (code : Nat) : Role :=
  if code = 0 then .ticket else if code = 1 then .settle else if code = 2 then .exit else .off

/-- A lane-table entry. -/
def decodeLaneEntry (e : List Byte) : LaneEntry := ⟨roleOf (fieldLE e 0 1), fieldLE e 1 1 == 1⟩

/-- The four lane entries. -/
def decodeLaneTable (bs : List Byte) : PerLane LaneEntry :=
  ⟨decodeLaneEntry (bs.take 2), decodeLaneEntry ((bs.drop 2).take 2),
   decodeLaneEntry ((bs.drop 4).take 2), decodeLaneEntry ((bs.drop 6).take 2)⟩

/-- The settings entry, by the offsets of the settings table. -/
def decodeSettings (e : List Byte) : Settings where
  ownGroup := fieldLE e 0 1
  mazeLimit := fieldLE e 1 1
  seats := fieldLE e 2 1
  loadingWindowMs := fieldLE e 3 2
  grantTimeS := fieldLE e 5 1
  recoveryTimeMs := fieldLE e 6 2
  trailTimeMs := fieldLE e 8 2
  holdLimitS := fieldLE e 10 1
  beamMinimumMs := fieldLE e 11 1
  readerLossMs := fieldLE e 12 2
  intervalPeriodS := fieldLE e 14 1
  intervalPostscale := fieldLE e 15 1
  qualityThreshold := fieldLE e 16 2
  roundingStep := fieldLE e 18 2
  refundCap := fieldLE e 20 4
  retentionDays := fieldLE e 24 1
  defaultAction := actionOf (fieldLE e 25 1)
  grantOnLostWrite := fieldLE e 26 1 == 1

/-- Every setting lies in the range of the settings table (R29). -/
def settingsRangesValid (t : Settings) : Bool :=
  t.ownGroup ≤ 63
    && (1 ≤ t.mazeLimit && t.mazeLimit ≤ 250)
    && (1 ≤ t.seats && t.seats ≤ 8)
    && (500 ≤ t.loadingWindowMs && t.loadingWindowMs ≤ 10000)
    && (2 ≤ t.grantTimeS && t.grantTimeS ≤ 30)
    && t.recoveryTimeMs ≤ 2000
    && (100 ≤ t.trailTimeMs && t.trailTimeMs ≤ 1000)
    && (1 ≤ t.holdLimitS && t.holdLimitS ≤ 60)
    && (20 ≤ t.beamMinimumMs && t.beamMinimumMs ≤ 200)
    && (500 ≤ t.readerLossMs && t.readerLossMs ≤ 5000)
    && (1 ≤ t.intervalPeriodS && t.intervalPeriodS ≤ 255)
    && (1 ≤ t.intervalPostscale && t.intervalPostscale ≤ 16)
    && t.qualityThreshold ≤ 1000
    && (1 ≤ t.roundingStep && t.roundingStep ≤ 1000)
    && t.refundCap ≤ 2000000
    && (1 ≤ t.retentionDays && t.retentionDays ≤ 15)

/-- The table set with table `t` taken from its shadow, not yet validated. -/
def decodeInto (t : TableId) (shadow : Shadow) (set : TableSet) : TableSet :=
  let bs := shadow.bytes
  match t with
  | .blockList => { set with blockList := (entriesOf t bs).map decodeSerial }
  | .windows => { set with windows := (entriesOf t bs).map decodeWindow }
  | .products =>
    { set with products :=
        (((numberedRows shadow.segments).filter (fun p => rowPopulated p.2)).map
          (fun p => (p.1, decodeRow p.2))) }
  | .categories => { set with categories := (entriesOf t bs).map fun e => fieldLE e 0 2 }
  | .watchSet => { set with watchSet := (entriesOf t bs).map decodeWatch }
  | .dayQuality => { set with dayQuality := (entriesOf t bs).map decodeQuality }
  | .laneTable => { set with laneTable := some (decodeLaneTable bs) }
  | .settings => { set with settings := some (decodeSettings bs) }

/-! ### Validation at COMMIT -/

/-- Each entry is greater than the one before it. -/
def strictlyAscending : List Nat → Bool
  | [] => true
  | [_] => true
  | a :: b :: rest => a < b && strictlyAscending (b :: rest)

/-- The product row with this number, if populated (R27). -/
def TableSet.product (t : TableSet) (n : Nat) : Option ProductRow :=
  (t.products.find? fun p => p.1 == n).map (·.2)

/-- An action names no row, or a populated one. -/
def TableSet.actionPopulated (t : TableSet) : Action → Bool
  | .row n => (t.product n).isSome
  | .refuse => true

/-- Every enabled window's ROW action names a populated row (R25). -/
def TableSet.windowRowsPopulated (t : TableSet) : Bool :=
  t.windows.all fun w => !w.enable || t.actionPopulated w.action

/-- The default window action, once settings are committed, names a populated row (R29). -/
def TableSet.defaultRowPopulated (t : TableSet) : Bool :=
  match t.settings with
  | some st => t.actionPopulated st.defaultAction
  | none => true

/-- The validation of one table by its owner, on its shadow and on the table set as it would stand after
the swap (R24, R25, R27, R28, R29, R50, R63, R144, R190). -/
def tableValid (t : TableId) (shadow : Shadow) (after : TableSet) : Bool :=
  let bs := shadow.bytes
  match t with
  | .blockList =>
    after.blockList.all (· != 0) && strictlyAscending (after.blockList.map BitVec.toNat)
      && after.blockList.length ≤ 2048
  | .windows => (entriesOf t bs).all windowCodesValid && after.windowRowsPopulated
  | .products =>
    ((numberedRows shadow.segments).all fun (_, e) =>
        fieldLE e 0 1 ≤ 3 && (!rowPopulated e || rowValid (decodeRow e)))
      && after.windowRowsPopulated && after.defaultRowPopulated
  | .categories => after.categories.all (· ≤ 1000)
  | .watchSet =>
    after.watchSet.length ≤ 8 && after.watchSet.all (fun w => w.group ≤ 63 && w.hold ≤ 3600)
      && decide (after.watchSet.map (·.group)).Nodup
  | .dayQuality =>
    after.dayQuality.length ≤ 64
      && (entriesOf t bs).all (fun e => fieldLE e 0 3 < 2 ^ 19)
      && after.dayQuality.all (fun q => 1 ≤ q.day && q.day ≤ 366 && q.quality ≤ 1000)
      && strictlyAscending (after.dayQuality.map (·.day))
  | .laneTable => (entriesOf t bs).all fun e => fieldLE e 0 1 ≤ 3 && fieldLE e 1 1 ≤ 1
  | .settings =>
    (after.settings.all settingsRangesValid) && actionCodeValid (fieldLE bs 25 1)
      && fieldLE bs 26 1 ≤ 1 && after.defaultRowPopulated

/-- The table set as it would stand after a COMMIT of the named tables: the named shadows, and the
committed tables that are not named (R180, R181). The generation is not yet advanced. -/
def tablesAfter (named : List TableId) (shadows : Shadows) (committed : TableSet) : TableSet :=
  named.foldl (fun set t => decodeInto t (shadows.get t) set) committed

/-- The first named table that is not complete (R180, first pass). -/
def firstIncomplete (named : List TableId) (shadows : Shadows) : Option TableId :=
  named.find? fun t => !(shadows.get t).complete

/-- The first named table that fails its owner's validation (R180, second pass). -/
def firstInvalid (named : List TableId) (shadows : Shadows) (committed : TableSet) : Option TableId :=
  named.find? fun t => !tableValid t (shadows.get t) (tablesAfter named shadows committed)

end Sys2Proof.Machine
end

