-- ==== Sys2Proof/Config.lean ====
section
/-! DEFINITION. The free values: what the spec leaves open and the model does not decide. Each is a
constant without a body, so nothing can be proved of its value. -/

namespace Sys2Proof

/-- Where several expiries fall due at one ms, which of them is taken first is open (for example R42,
R58, R111: "either may be taken first"). The idle step takes the one at this index, modulo their
number. Log 5. -/
opaque Config.dueOrder : Nat → Nat

/-- Where a transit message and an insert message reach their empty queues at one event with the
output free, "either may be taken first" (R168). True: the transit message. Log 8. -/
opaque Config.transitTakenFirst : Nat → Bool

/-- "The day-state change and its arrival at a lane are separate events" (R67). True: a DAY_CLOSE has
not yet reached this lane when the next event is taken. Log 9. -/
opaque Config.laneLags : Nat → LaneId → Bool

/-- The interval period that STATUS reports before the settings are first committed, when none is in
force (R185). Log 25. -/
opaque Config.periodBeforeSettings : BitVec 16

/-- The interval postscaler that STATUS reports before the settings are first committed (R185). Log 25. -/
opaque Config.postscalerBeforeSettings : BitVec 16

/-- The trail time, in ms, while the settings have never been committed: a lane that the lane table alone
has made TICKET opens free windows under free-flow then, and no rule gives their trail a time (R86, R92).
Log 41. -/
opaque Config.trailBeforeSettings : BitVec 16

end Sys2Proof
end

