-- ==== Sys2Proof/Machine/State.lean ====
section
/-! DEFINITION. State: everything the spec gives the part, the queue of waiting commands, and the state
right after a cold reset. -/

namespace Sys2Proof.Machine

/-- Reasons for the part to stop. The spec knows none: a frame, message or command that cannot be used
is discarded or answered (R9, R162, R176), so the type has no constructor and no claim can rest on a
fault (safe). -/
inductive Fault where
  deriving DecidableEq, Repr

/-- Reasons for the model to give no meaning. -/
inductive Refusal where
  /-- Raised by exec's arm for a command that has no meaning yet (safe: nothing can be proved of it).
  No arm raises it now. -/
  | notModelled (mnemonic : String)
  deriving DecidableEq, Repr

/-- The whole part. INVENTORY.md lists each field with the rule that names it. `choices` counts the free
choices made and `pending` is the queue of waiting commands; both are the model's own. -/
structure State where
  ownAddress      : Option (BitVec 5)
  ms              : Nat
  freeFlowPin     : Bool
  freeFlowSetting : Bool
  heldOrder       : List LaneId
  tables          : TableSet
  lanes           : PerLane Lane
  ports           : PerLane Port
  passback        : List PassbackEntry
  maze            : Maze
  deferred        : DeferredTable
  time            : TimeBase
  loop            : Loop
  mgmt            : Mgmt
  choices         : Nat
  pending         : List Instr
  deriving DecidableEq, Repr

/-- Every lane counter 0. -/
def LaneCounters.zero : LaneCounters := ⟨0, 0, 0, 0, 0, 0, 0, 0, 0, 0, 0⟩

/-- Every loading counter 0. -/
def LoadingCounters.zero : LoadingCounters := ⟨[0, 0, 0, 0, 0, 0, 0, 0, 0], 0, 0, 0, 0⟩

/-- A disabled window with action REFUSE (R21). -/
def Window.disabled : Window := ⟨false, 0, 0, 0, 0, .refuse⟩

/-- The table set a cold reset leaves (R21). -/
def TableSet.cold : TableSet where
  generation := 0
  blockList := []
  windows := List.replicate 8 .disabled
  products := []
  categories := [1000, 1000, 1000, 1000, 1000]
  watchSet := []
  dayQuality := []
  laneTable := none
  settings := none

/-- A lane after a cold reset (R92), with KEYn at the level sampled. -/
def Lane.cold (keyHigh : Bool) : Lane where
  role := none
  pendingRole := none
  state := .closed
  arm := .atRest
  kept := 0
  window := none
  lateFree := none
  grantTimer := none
  grantExpired := false
  trailTimer := none
  recoveryTimer := none
  holdTimer := none
  alarmTimer := none
  keyHigh := keyHigh
  commandOpen := true
  day := .zero
  interval := .zero
  txn := none

/-- A reader port after a cold reset (R20). -/
def Port.cold : Port where
  status := .none
  heartbeat := some ⟨0, 1000⟩
  write := none
  waiting := none
  tx := []

/-- The own address from ADDR4-ADDR0: none for a pass-through chip (R161). -/
def ownAddressOf (pins : BitVec 5) : Option (BitVec 5) :=
  if pins = 0 ∨ pins = 31 then none else some pins

/-- The Maze and Loading Controller after a cold reset (R114). -/
def Maze.cold (passThrough liftRun : Bool) : Maze where
  count := 0
  gate := if liftRun && !passThrough then .waiting else .stopped
  liftRun := liftRun
  loadingHold := false
  window := none
  day := .zero
  interval := .zero

/-- The Time Base after a cold reset (R147, R149, R153, R154, R157). -/
def TimeBase.cold : TimeBase where
  stationTime := 0
  clockSet := false
  phase := 0
  dayState := .none
  seasonDay := 0
  openMinute := 0
  closeMinute := 0
  refundsCount := 0
  refundsSum := 0
  dayRun := 0
  intervalRun := 0
  runMark := 0
  prescaler := none
  periodCount := 0
  postscaleCount := 0
  sequence := 0
  intervalDue := false

/-- The Loop Interface after a cold reset (R172). -/
def Loop.cold : Loop where
  link := .down
  silence := none
  training := none
  badRun := 0
  downByLoss := false
  transit := []
  insertQueue := []
  sending := none
  fairness := 0
  pendingEvents := []
  crcErrors := 0
  orphans := 0
  transitDrops := 0
  noticeDrops := 0

/-- All shadows ABSENT (R177). -/
def Shadows.absent : Shadows :=
  ⟨.absent, .absent, .absent, .absent, .absent, .absent, .absent, .absent⟩

/-- The Management Unit after a cold reset (R175, R177, R182). -/
def Mgmt.cold : Mgmt where
  shadows := .absent
  flags := 0
  enables := 0
  overruns := 0
  raised := []

/-- The part right after a cold reset that sampled these pins: every block at the state its chapter
gives (R20, R21, R40, R61, R84, R92, R114, R117, R146, R161, R172, R177, R182). -/
def State.cold (pins : ResetPins) : State where
  ownAddress := ownAddressOf pins.address
  ms := 0
  freeFlowPin := pins.freeFlow
  freeFlowSetting := false
  heldOrder := []
  tables := .cold
  lanes := pins.keys.map Lane.cold
  ports := .const .cold
  passback := []
  maze := .cold (ownAddressOf pins.address).isNone pins.liftRun
  deferred := ⟨[], 0⟩
  time := .cold
  loop := .cold
  mgmt := .cold
  choices := 0
  pending := []

/-- The pins as State.reset samples them: address 4, the address of the spec's own examples, and every
other pin low. DESIGN CHOICE (unsafe), log 1 and 2. -/
def resetPins : ResetPins := ⟨4, .const false, false, false⟩

/-- The machine right after reset. -/
def State.reset : State := .cold resetPins

end Sys2Proof.Machine
end

