-- ==== Sys2Proof/Machine/Flags.lean ====
section
/-! DEFINITION. The 21 event flags: their state, latching, and the EVENT report a latch makes (R182 to R184). -/

namespace Sys2Proof.Machine

/-- The bit of a flag in a flag set. -/
def Flag.bit (f : Flag) : BitVec 32 := 1#32 <<< f.id

/-- The flag is set (R182). -/
def State.flagSet (s : State) (f : Flag) : Bool := s.mgmt.flags.getLsbD f.id

/-- The flag's report enable is on (R182). -/
def State.flagEnabled (s : State) (f : Flag) : Bool := s.mgmt.enables.getLsbD f.id

/-- An EVENT report of the flag is still pending (R167). -/
def State.eventPending (s : State) (f : Flag) : Bool := s.loop.pendingEvents.any fun r => r.flag == f

/-- A latch (R182): it sets a clear flag and leaves a set flag set. From clear to set with the enable on
it makes one EVENT report with the station time and the detail at the latch, unless one of that flag is
still pending (R183). Whether one is still pending is judged here, before the queuing at the event's end
(DESIGN CHOICE, log 47). The report waits in `raised` for the end of the event. -/
def State.latch (s : State) (f : Flag) (detail : Nat) : State :=
  if s.flagSet f then s
  else { s with mgmt := { s.mgmt with
    flags := s.mgmt.flags ||| f.bit
    raised := if s.flagEnabled f && !s.eventPending f
      then s.mgmt.raised ++ [⟨f, s.time.stationTime, detail⟩] else s.mgmt.raised } }

/-- CLEAR_FLAGS' effect: each flag the mask names is cleared (R184). -/
def State.clearFlagMask (s : State) (mask : BitVec 32) : State :=
  { s with mgmt := { s.mgmt with flags := s.mgmt.flags &&& ~~~ mask } }

/-- REPORT_ENABLE's effect: every enable takes the mask's value (R184). -/
def State.setEnables (s : State) (mask : BitVec 32) : State :=
  { s with mgmt := { s.mgmt with enables := mask } }

end Sys2Proof.Machine
end

