-- ==== Sys2Proof/Machine/Ops.lean ====
section
/-! DEFINITION. Operations shared by the commands: access to lanes and ports, settings in force, timers,
counters, frames to the readers, the insert queue and its arbiter, the maze, the Passback Table and the
Deferred Write Table. -/

namespace Sys2Proof.Machine

/-! ### Timers and counters -/

/-- The timer's end has been reached (R146). -/
def Timer.due (t : Timer) (ms : Nat) : Bool := t.start + t.duration ≤ ms

/-- The timer runs and its end has been reached. -/
def timerDue (t : Option Timer) (ms : Nat) : Bool := t.any fun t => t.due ms

/-- A timer started now. -/
def State.timer (s : State) (duration : Nat) : Timer := ⟨s.ms, duration⟩

/-- A 16-bit saturating counter after an addition. -/
def satAdd16 (a b : Nat) : Nat := min 65535 (a + b)

/-- A 32-bit saturating counter after an addition. -/
def satAdd32 (a b : Nat) : Nat := min 4294967295 (a + b)

/-! ### Lanes, ports and transactions -/

/-- Lane `n`. -/
def State.lane (s : State) (n : LaneId) : Lane := s.lanes.get n

/-- Port `n`. -/
def State.port (s : State) (n : LaneId) : Port := s.ports.get n

/-- The state with lane `n` changed by `f`. -/
def State.modLane (s : State) (n : LaneId) (f : Lane → Lane) : State :=
  { s with lanes := s.lanes.set n (f (s.lanes.get n)) }

/-- The state with port `n` changed by `f`. -/
def State.modPort (s : State) (n : LaneId) (f : Port → Port) : State :=
  { s with ports := s.ports.set n (f (s.ports.get n)) }

/-- The open transaction of lane `n`. -/
def State.txn (s : State) (n : LaneId) : Option Transaction := (s.lane n).txn

/-- The state with lane `n`'s open transaction, if any, changed by `f`. -/
def State.modTxn (s : State) (n : LaneId) (f : Transaction → Transaction) : State :=
  s.modLane n fun l => { l with txn := l.txn.map f }

/-- Lane `n` enters a state, with nothing else. -/
def State.setLaneState (s : State) (n : LaneId) (st : LaneState) : State :=
  s.modLane n fun l => { l with state := st }

/-! ### Settings in force -/

/-- The settings' values until they are first committed: the defaults of the settings table. R11, R70,
R99, R107 and R126 name these for the values used before the first commit. The own lift group has no
default and is not used before it. -/
def Settings.beforeCommit : Settings where
  ownGroup := 0
  mazeLimit := 60
  seats := 6
  loadingWindowMs := 3000
  grantTimeS := 8
  recoveryTimeMs := 400
  trailTimeMs := Config.trailBeforeSettings.toNat
  holdLimitS := 10
  beamMinimumMs := 40
  readerLossMs := 1000
  intervalPeriodS := 60
  intervalPostscale := 15
  qualityThreshold := 600
  roundingStep := 5
  refundCap := 2000000
  retentionDays := 7
  defaultAction := .refuse
  grantOnLostWrite := true

/-- The settings of a table set. -/
def TableSet.settingsInForce (t : TableSet) : Settings := t.settings.getD .beforeCommit

/-- The committed settings. -/
def State.settings (s : State) : Settings := s.tables.settingsInForce

/-- The own address as a byte of a message; a pass-through chip has none and originates nothing (R161). -/
def State.ownByte (s : State) : Byte := (s.ownAddress.map fun a => a.setWidth 8).getD 0

/-- Free-flow is in force (R84). -/
def State.freeFlowInForce (s : State) : Bool := s.freeFlowPin || s.freeFlowSetting

/-- The station minute (R147). -/
def State.stationMinute (s : State) : Nat := s.time.stationTime / 60

/-! ### Lane counters -/

/-- A lane's counters with `k` added to counter `c`, saturating (R90). -/
def LaneCounters.add (x : LaneCounters) (c : LaneCounter) (k : Nat) : LaneCounters :=
  match c with
  | .granted => { x with granted := satAdd16 x.granted k }
  | .paid => { x with paid := satAdd16 x.paid k }
  | .lapsed => { x with lapsed := satAdd16 x.lapsed k }
  | .refused => { x with refused := satAdd16 x.refused k }
  | .tailgate => { x with tailgate := satAdd16 x.tailgate k }
  | .beamMiss => { x with beamMiss := satAdd16 x.beamMiss k }
  | .intrusion => { x with intrusion := satAdd16 x.intrusion k }
  | .forced => { x with forced := satAdd16 x.forced k }
  | .reverse => { x with reverse := satAdd16 x.reverse k }
  | .free => { x with free := satAdd16 x.free k }
  | .exit => { x with exit := satAdd16 x.exit k }

/-- `k` added to a counter of lane `n`: to its day counter and to its interval accumulator (R90). -/
def State.count (s : State) (n : LaneId) (c : LaneCounter) (k : Nat) : State :=
  s.modLane n fun l => { l with day := l.day.add c k, interval := l.interval.add c k }

/-! ### Frames to the readers -/

/-- A frame goes out on port `n` (R9). -/
def State.send (s : State) (n : LaneId) (f : ReaderTx) : State :=
  s.modPort n fun p => { p with tx := p.tx ++ [f] }

/-- The final VERDICT of lane `n`'s transaction (R16). -/
def State.sendFinal (s : State) (n : LaneId) (d : Display) (lamp : Lamp) (days amount : Nat) : State :=
  (s.send n (.verdict true d lamp days amount)).modTxn n fun t => { t with finalDays := some days }

/-! ### The insert queue (R165 to R167) and the output (R168) -/

/-- The message stands in an answer entry. -/
def Outgoing.isAnswer : Outgoing → Bool
  | .answer _ => true
  | .event _ | .passage _ | .refund _ | .count _ | .day _ => false

/-- Answer entries occupied. -/
def State.answersOccupied (s : State) : Nat := (s.loop.insertQueue.filter (·.isAnswer)).length

/-- General entries occupied. -/
def State.generalOccupied (s : State) : Nat := (s.loop.insertQueue.filter (!·.isAnswer)).length

/-- The lane's transaction holds a reserved general entry (R138), as 0 or 1. -/
def Lane.insertReservation (l : Lane) : Nat := if l.txn.any (·.insertReserved) then 1 else 0

/-- General entries reserved. -/
def State.generalReserved (s : State) : Nat :=
  s.lanes.l1.insertReservation + s.lanes.l2.insertReservation + s.lanes.l3.insertReservation
    + s.lanes.l4.insertReservation

/-- General entries free: 28 less the occupied and reserved ones (R165). -/
def State.generalFree (s : State) : Nat := 28 - (s.generalOccupied + s.generalReserved)

/-- A message takes the last place of the send order. A pass-through chip originates none (R161). -/
def State.enqueue (s : State) (o : Outgoing) : State :=
  if s.ownAddress.isNone then s
  else { s with loop := { s.loop with insertQueue := s.loop.insertQueue ++ [o] } }

/-- The queue without its first PASSAGE, if it holds one (R166). -/
def dropOldestPassage : List Outgoing → Option (List Outgoing)
  | [] => none
  | .passage _ :: rest => some rest
  | o :: rest => (dropOldestPassage rest).map (o :: ·)

/-- A PASSAGE notice has been discarded: notice-drops adds 1 and NOTICE_DROP is latched (R166). -/
def State.noticeDropped (s : State) : State :=
  { s with loop := { s.loop with noticeDrops := satAdd16 s.loop.noticeDrops 1 } }.latch .noticeDrop 0

/-- A COUNT or DAY report meets the queue (R166). -/
def State.queueReport (s : State) (o : Outgoing) : State :=
  if 0 < s.generalFree then s.enqueue o
  else match dropOldestPassage s.loop.insertQueue with
    | some q => ({ s with loop := { s.loop with insertQueue := q } }.noticeDropped).enqueue o
    | none => s.latch .reportLost 0

/-- A PASSAGE notice meets the queue (R166). -/
def State.queuePassage (s : State) (p : PassageNotice) : State :=
  if 0 < s.generalFree then s.enqueue (.passage p)
  else match dropOldestPassage s.loop.insertQueue with
    | some q => ({ s with loop := { s.loop with insertQueue := q } }.noticeDropped).enqueue (.passage p)
    | none => s.noticeDropped

/-- An EVENT report meets the queue: a general entry, or pending where none is free (R166, R167). -/
def State.queueEvent (s : State) (r : EventReport) : State :=
  if 0 < s.generalFree then s.enqueue (.event r)
  else { s with loop := { s.loop with pendingEvents := s.loop.pendingEvents ++ [r] } }

/-- Pending EVENT reports take free general entries, oldest first, at most `fuel` of them (R167). -/
def State.drainPending : Nat → State → State
  | 0, s => s
  | fuel + 1, s =>
    match s.loop.pendingEvents with
    | [] => s
    | r :: rest =>
      if 0 < s.generalFree then
        State.drainPending fuel
          ({ s with loop := { s.loop with pendingEvents := rest } }.enqueue (.event r))
      else s

/-- Every pending EVENT report that finds a free general entry is queued (R167). -/
def State.queuePending (s : State) : State := s.drainPending s.loop.pendingEvents.length

/-- The EVENT report that flag `f` made in this event, if any, meets the queue (R183). -/
def State.flushFlag (s : State) (f : Flag) : State :=
  match s.mgmt.raised.find? (fun r => r.flag == f) with
  | some r => s.queueEvent r
  | none => s

/-- The EVENT reports made in this event are queued or become pending, in order of flag identifier
(R183). -/
def State.flushRaised (s : State) : State :=
  let s' := Flag.all.foldl State.flushFlag s
  { s' with mgmt := { s'.mgmt with raised := [] } }

/-- The first transit message begins its send (R164, R168). -/
def State.startTransit (s : State) (fairness : Nat) : State :=
  match s.loop.transit with
  | [] => s
  | m :: rest => { s with loop := { s.loop with transit := rest, sending := some m, fairness := fairness } }

/-- The first message of the send order begins its send (R165, R168). -/
def State.startInsert (s : State) (fairness : Nat) : State :=
  match s.loop.insertQueue with
  | [] => s
  | o :: rest =>
    { s with loop := { s.loop with
        insertQueue := rest, sending := some (o.message s.ownByte), fairness := fairness } }

/-- The output arbiter's choice when the output is free (R168). `idleBefore` says that the output sent
idle fill when the event began: then messages in both queues have arrived at this one event, and which is
taken first is a free value. -/
def State.arbitrate (s : State) (idleBefore : Bool) : State :=
  if s.loop.sending.isSome then s
  else match s.loop.transit.isEmpty, s.loop.insertQueue.isEmpty with
    | true, true => s
    | false, true => s.startTransit 0
    | true, false => s.startInsert 0
    | false, false =>
      if idleBefore then
        let s' := { s with choices := s.choices + 1 }
        if Config.transitTakenFirst s.choices then s'.startTransit 0 else s'.startInsert 0
      else if s.loop.fairness < 4 then s.startTransit (s.loop.fairness + 1)
      else s.startInsert 0

/-! ### The maze (R94 to R102) -/

/-- The lane's transaction holds a maze reservation, as 0 or 1 (R97). -/
def Lane.reservation (l : Lane) : Nat := if l.txn.any (·.reserved) then 1 else 0

/-- The reservations count (R97). -/
def State.reservations (s : State) : Nat :=
  s.lanes.l1.reservation + s.lanes.l2.reservation + s.lanes.l3.reservation + s.lanes.l4.reservation

/-- The maze count plus the reservations. -/
def State.mazeSum (s : State) : Nat := s.maze.count + s.reservations

/-- The maze limit in force (R99). -/
def State.mazeLimit (s : State) : Nat := s.settings.mazeLimit

/-- A maze place is free (R39, R97, R101). -/
def State.placeFree (s : State) : Bool := s.mazeSum < s.mazeLimit

/-- A maze credit, held at 255 (R94). -/
def State.credit (s : State) (k : Nat) : State :=
  { s with maze := { s.maze with count := min 255 (s.maze.count + k) } }

/-- A histogram bin raised by 1, saturating (R112). -/
def LoadingCounters.addBin (c : LoadingCounters) (i : Nat) : LoadingCounters :=
  { c with bins := c.bins.modify i fun b => satAdd16 b 1 }

/-- An addition to the loading counters, made to the day counters and to the interval accumulators (R112). -/
def State.countLoading (s : State) (f : LoadingCounters → LoadingCounters) : State :=
  { s with maze := { s.maze with day := f s.maze.day, interval := f s.maze.interval } }

/-- A decrement of the maze count, clamped at 0 with the underrun accounting of R95. -/
def State.decrement (s : State) : State :=
  if s.maze.count = 0 then
    (s.countLoading fun c => { c with mazeUnderrun := satAdd16 c.mazeUnderrun 1 }).latch .mazeUnderrun 0
  else { s with maze := { s.maze with count := s.maze.count - 1 } }

/-! ### The Passback Table (chapter 3) -/

/-- An entry takes its place in the order of expiry, after every entry with an equal expiry (R49). -/
def insertByExpiry (e : PassbackEntry) : List PassbackEntry → List PassbackEntry
  | [] => [e]
  | x :: rest => if e.expiry < x.expiry then e :: x :: rest else x :: insertByExpiry e rest

/-- The entry has this key (R48). -/
def PassbackEntry.hasKey (e : PassbackEntry) (serial : Serial) (group : Nat) : Bool :=
  e.serial == serial && e.group == group

/-- The entry of a key. -/
def State.passbackFind (s : State) (serial : Serial) (group : Nat) : Option PassbackEntry :=
  s.passback.find? fun e => e.hasKey serial group

/-- The table without the entry of a key. -/
def State.passbackRemove (s : State) (serial : Serial) (group : Nat) : State :=
  { s with passback := s.passback.filter fun e => !e.hasKey serial group }

/-- An entry takes its place in the order. -/
def State.passbackPlace (s : State) (e : PassbackEntry) : State :=
  { s with passback := insertByExpiry e s.passback }

/-- An entry whose key the table does not hold is inserted; a full table first gives up its first entry
and latches PASSBACK_EVICT (R57). -/
def State.passbackInsert (s : State) (e : PassbackEntry) : State :=
  match s.passback with
  | first :: rest =>
    if 256 ≤ s.passback.length then
      ({ s with passback := rest }.latch .passbackEvict first.serial.toNat).passbackPlace e
    else s.passbackPlace e
  | [] => s.passbackPlace e

/-- The hold of a lift group in a watch set (R50). -/
def holdOf (watch : List WatchEntry) (group : Nat) : Option Nat :=
  (watch.find? fun w => w.group == group).map (·.hold)

/-- The entry made at the unlock of lane `n`'s grant (R52). Its hold is the pinned watch set's, as R52 says, also
where a commit since the card was taken gave the group another, of which R51 says that it applies to entries made
after the commit (DESIGN CHOICE, log 49). -/
def State.passbackUnlock (s : State) (n : LaneId) (t : Transaction) : State :=
  let group := t.pinned.settingsInForce.ownGroup
  match holdOf t.pinned.watchSet group, holdOf s.tables.watchSet group with
  | some hold, some _ =>
    if 0 < hold then
      let e : PassbackEntry := ⟨t.serial, group, s.ms + hold * 1000, false, .lane n⟩
      match s.passbackFind t.serial group with
      | none => s.passbackInsert e
      | some old =>
        let s' := (s.passbackRemove t.serial group).passbackPlace e
        match old.origin with
        | .lane _ => s'
        | .remote _ => s'.latch .cloneSuspect t.serial.toNat
    else s
  | _, _ => s

/-- The entry is the PENDING LOCAL one of lane `n`'s grant (R53, R54). -/
def PassbackEntry.isGrantOf (e : PassbackEntry) (n : LaneId) (t : Transaction) : Bool :=
  e.hasKey t.serial t.pinned.settingsInForce.ownGroup && !e.confirmed && e.origin == .lane n

/-- The grant's PENDING entry becomes CONFIRMED, in its place (R53). -/
def State.passbackConfirm (s : State) (n : LaneId) (t : Transaction) : State :=
  { s with passback := s.passback.map fun e => if e.isGrantOf n t then { e with confirmed := true } else e }

/-- The grant's PENDING entry is removed (R54). -/
def State.passbackCancel (s : State) (n : LaneId) (t : Transaction) : State :=
  { s with passback := s.passback.filter fun e => !e.isGrantOf n t }

/-- The lookup of step 11 (R59). -/
def State.passbackHolds (s : State) (serial : Serial) : Bool := s.passback.any fun e => e.serial == serial

/-- A remote notice's age in seconds, from the arrival and notice times (R55). -/
def noticeAge (now noticeTime : Nat) : Nat :=
  let a := (now + 86400 - noticeTime) % 86400
  if 43200 < a then 0 else a

/-- An entry offered by a PASSAGE notice meets the table (R56). -/
def State.passbackOffer (s : State) (serial : Serial) (group expiry : Nat) (chip : Byte) : State :=
  match s.passbackFind serial group with
  | none => s.passbackInsert ⟨serial, group, expiry, true, .remote chip⟩
  | some old =>
    if old.confirmed then
      if old.expiry < expiry then
        (s.passbackRemove serial group).passbackPlace { old with expiry := expiry }
      else s
    else s.latch .cloneSuspect serial.toNat

/-! ### The Deferred Write Table (chapter 6) -/

/-- The entry is a SETTLEMENT entry. -/
def DeferredEntry.isSettlement (e : DeferredEntry) : Bool :=
  match e.kind with
  | .dayMark => false
  | .settlement _ _ _ => true

/-- The entry held for a serial (R122). -/
def State.deferredFind (s : State) (serial : Serial) : Option DeferredEntry :=
  s.deferred.entries.find? fun e => e.serial == serial

/-- The table without one entry. -/
def State.deferredRemove (s : State) (stamp : Nat) : State :=
  { s with deferred := { s.deferred with entries := s.deferred.entries.filter fun e => e.stamp != stamp } }

/-- An entry takes the last place, under a stamp of its own (R117). -/
def State.deferredAppend (s : State) (e : DeferredEntry) : State :=
  { s with deferred :=
      ⟨s.deferred.entries ++ [{ e with stamp := s.deferred.nextStamp }], s.deferred.nextStamp + 1⟩ }

/-- An offered entry meets the table (R120, R121). The second component says whether it was stored. -/
def State.deferredOffer (s : State) (e : DeferredEntry) : State × Bool :=
  match s.deferredFind e.serial with
  | some old =>
    if old.isSettlement && !e.isSettlement then (s.latch .deferredLost e.serial.toNat, false)
    else
      let s' := (s.deferredRemove old.stamp).deferredAppend e
      (if old.isSettlement then s'.latch .deferredLost e.serial.toNat else s', true)
  | none =>
    if s.deferred.entries.length < 32 then (s.deferredAppend e, true)
    else match s.deferred.entries.find? fun x => !x.isSettlement with
      | some oldest =>
        (((s.deferredRemove oldest.stamp).latch .deferredLost oldest.serial.toNat).deferredAppend e, true)
      | none => (s.latch .deferredLost e.serial.toNat, false)

/-- A REFUND notice has been queued: the day's refunds count and sum take it (R153). -/
def State.countRefund (s : State) (refund : Nat) : State :=
  { s with time := { s.time with
      refundsCount := satAdd16 s.time.refundsCount 1
      refundsSum := satAdd32 s.time.refundsSum refund } }

/-- The REFUND notice of a completed SETTLEMENT entry (R124). -/
def State.refundOf (s : State) (e : DeferredEntry) (refund impaired : Nat) (generation : BitVec 16) :
    RefundNotice where
  serial := e.serial
  refund := refund
  day := Record.settledDay e.intended
  product := Record.product e.intended
  category := Record.category e.intended
  used := Record.used e.intended
  impaired := impaired
  generation := generation
  lane := e.lane
  chip := s.ownByte

/-- The completion of an entry (R124): none where a SETTLEMENT entry finds no free general entry and
the card is to be refused QUEUE_FULL. -/
def State.deferredComplete (s : State) (e : DeferredEntry) : Option State :=
  match e.kind with
  | .dayMark => some (s.deferredRemove e.stamp)
  | .settlement refund impaired generation =>
    if 0 < s.generalFree then
      some (((s.enqueue (.refund (s.refundOf e refund impaired generation))).deferredRemove e.stamp).countRefund
        refund)
    else none

/-! ### Run times (R154) -/

/-- The conditions under which the day run time grows. -/
def State.dayRunning (s : State) : Bool :=
  s.time.dayState == .opened && s.maze.liftRun && s.time.openMinute ≤ s.stationMinute
    && s.stationMinute < s.time.closeMinute

/-- Both accumulators brought up to date: the ms since the last such event are added where the
conditions held (R154). -/
def State.bringRunTimes (s : State) : State :=
  let elapsed := s.ms - s.time.runMark
  { s with time := { s.time with
      intervalRun := if s.maze.liftRun then satAdd32 s.time.intervalRun elapsed else s.time.intervalRun
      dayRun := if s.dayRunning then satAdd32 s.time.dayRun elapsed else s.time.dayRun
      runMark := s.ms } }

end Sys2Proof.Machine
end

