-- ==== Sys2Proof/Machine/LaneOps.lean ====
section
/-! DEFINITION. The Lane Controller's shared operations: resting states and roles (R64 to R67), outputs
(R68), the ends of a transaction, the unlock, the lapse and the passage outcome (R46, R74, R76), and
free-flow (R84 to R87). -/

namespace Sys2Proof.Machine

/-! ### Outputs (R68, R103) -/

/-- BARn_UNLOCK. -/
def Lane.barrierUnlocked (l : Lane) : Bool :=
  match l.state with
  | .unlocked | .freeFlow | .exit => true
  | .passing => !(l.window.any (·.trail))
  | .closed | .idle | .resolving | .held | .writing | .settling | .fault => false

/-- LAMPn_G. -/
def Lane.lampGreen (l : Lane) : Bool := l.barrierUnlocked

/-- LAMPn_R. -/
def Lane.lampRed (l : Lane) : Bool :=
  match l.role with
  | some .ticket | some .settle => l.state == .closed || l.state == .fault || l.state == .held
  | some .exit => l.state == .closed
  | some .off | none => false

/-- ALARMn. -/
def Lane.alarm (l : Lane) : Bool := l.alarmTimer.isSome

/-- LG_OPEN. -/
def Maze.gateOpen (m : Maze) : Bool := m.gate == .opened

/-! ### Closure and the resting state (R65, R66) -/

/-- The lane's key control, clear while the lane table is absent (R66). -/
def State.keyControl (s : State) (n : LaneId) : Bool := s.tables.laneTable.any fun t => (t.get n).keyControl

/-- The lane is closed by its key or by command (R66). -/
def State.shut (s : State) (n : LaneId) : Bool :=
  if s.keyControl n then !(s.lane n).keyHigh else !(s.lane n).commandOpen

/-- A TICKET or SETTLE lane is closed (R65). -/
def State.laneClosed (s : State) (n : LaneId) : Bool :=
  s.tables.laneTable.isNone || s.tables.settings.isNone || s.time.dayState != .opened || s.shut n

/-- The lane's reader is up (R11). -/
def State.readerUp (s : State) (n : LaneId) : Bool := (s.port n).status == .ok

/-- The resting state of a lane in its role (R65). FAULT and EXIT stand here before the settings are first
committed too, as R65, R81 and R89 say, where R21 and R29 leave no lane out of CLOSED (DESIGN CHOICE, log 51). -/
def State.restingState (s : State) (n : LaneId) : LaneState :=
  match (s.lane n).role with
  | some .ticket | some .settle =>
    if !s.readerUp n then .fault else if s.laneClosed n then .closed else .idle
  | some .exit => if s.shut n then .closed else .exit
  | some .off | none => .closed

/-- Entry into FAULT: LANE_FAULT is latched and the recovery timer stops (R77, R81). -/
def State.enterFault (s : State) (n : LaneId) : State :=
  (s.modLane n fun l => { l with state := .fault, recoveryTimer := none }).latch .laneFault n.num

/-- The lane moves to its resting state, unless it stands in it already (R65). -/
def State.rest (s : State) (n : LaneId) : State :=
  let st := s.restingState n
  if (s.lane n).state = st then s
  else match st with
    | .fault => s.enterFault n
    | _ => s.setLaneState n st

/-- The lane is at rest: in CLOSED, IDLE, FAULT or EXIT (R65). -/
def LaneState.atRest : LaneState → Bool
  | .closed | .idle | .fault | .exit => true
  | .resolving | .held | .writing | .settling | .unlocked | .passing | .freeFlow => false

/-- A change of closure conditions reaches the lane: a lane at rest takes its new resting state, and a
lane with an open transaction or in FREE_FLOW is not disturbed (R67). -/
def State.closureChange (s : State) (n : LaneId) : State :=
  if (s.lane n).state.atRest then s.rest n else s

/-- A change of closure conditions reaches every lane, lane 1 first (DESIGN CHOICE, log 52). -/
def State.closureChangeAll (s : State) : State := LaneId.all.foldl State.closureChange s

/-! ### Entering FREE_FLOW and taking a role (R64, R85) -/

/-- The maze credit of a window with body count `k` (R74, R76, R86). -/
def windowCredit (k : Nat) : Nat := max 1 k

/-- A free window closes with body count `w.k`: completed by ROTATE_FWD_DONE it counts a free passage, with
its maze credit (R86). -/
def State.countFree (s : State) (n : LaneId) (w : PassageWindow) : State :=
  if w.trail then (s.count n .free 1).credit (windowCredit w.k) else s

/-- A free window that has outlived FREE_FLOW closes if it is in its trail, with its count (R86, log 29). -/
def State.closeLateTrail (s : State) (n : LaneId) : State :=
  match (s.lane n).lateFree with
  | some w =>
    if w.trail then (s.modLane n fun l => { l with lateFree := none, trailTimer := none }).countFree n w else s
  | none => s

/-- The free window with which a lane enters FREE_FLOW: that of the rotation in progress, with the bodies
counted so far, be it a free one that has outlived the last free-flow or another (R85). -/
def Lane.entryWindow (l : Lane) : Option PassageWindow :=
  match l.lateFree with
  | some w => some w
  | none => if l.arm = .forward then some ⟨l.kept, false⟩ else none

/-- The lane enters FREE_FLOW: its grant, trail, hold and recovery timers stop, and a rotation in
progress becomes a free rotation whose window holds the bodies counted so far (R85). -/
def State.enterFreeFlow (s : State) (n : LaneId) : State :=
  s.modLane n fun l => { l with
    state := .freeFlow
    window := l.entryWindow
    lateFree := none
    kept := 0
    grantTimer := none
    grantExpired := false
    trailTimer := none
    holdTimer := none
    recoveryTimer := none }

/-- A role that consults its reader. -/
def Role.usesReader : Role → Bool
  | .ticket | .settle => true
  | .exit | .off => false

/-- The lane takes a new role and enters the first state of that role (R64). READER_LOST is latched for a
TICKET or SETTLE role whose port's status is LOST (R12). A SETTLE lane has no recovery timer (R129). A free
window that has outlived FREE_FLOW closes first if it is in its trail, with its count, so that the counters stand
as the new role keeps them (R89), and is gone with its rotation before that (DESIGN CHOICE, log 29). -/
def State.takeRole (s : State) (n : LaneId) (r : Role) : State :=
  let s1 := (s.closeLateTrail n).modLane n fun l => { l with
    role := some r, pendingRole := none, kept := 0, window := none, lateFree := none
    recoveryTimer := if r = .settle then none else l.recoveryTimer }
  let s2 := if r.usesReader && (s.port n).status == .lost then s1.latch .readerLost n.num else s1
  if r = .ticket ∧ s.freeFlowInForce then s2.enterFreeFlow n
  else match s2.restingState n with
    | .fault => s2.enterFault n
    | st => s2.setLaneState n st

/-- The lane comes to rest at the end of its transaction: a pending role is taken, and otherwise the
resting state (R64, R65). -/
def State.comeToRest (s : State) (n : LaneId) : State :=
  match (s.lane n).pendingRole with
  | some r => s.takeRole n r
  | none => s.rest n

/-! ### Ends of a transaction -/

/-- RELEASE: it is sent and the port's record of the transaction is cleared, with the reservations the
transaction holds; the lane leaves the held order and its hold timer stops (R17, R40). -/
def State.release (s : State) (n : LaneId) : State :=
  match s.txn n with
  | none => s
  | some t =>
    let s1 := (s.send n (.release t.serial)).modLane n fun l => { l with txn := none, holdTimer := none }
    { s1 with heldOrder := s1.heldOrder.filter (· != n) }

/-- A refusal: final VERDICT with the reason, RELEASE, refused + 1, and the lane comes to rest (R47,
R142). -/
def State.refuse (s : State) (n : LaneId) (reason : Display) (days : Nat) : State :=
  (((s.sendFinal n reason .red days 0).release n).count n .refused 1).comeToRest n

/-- The days remaining on the record that the open transaction leaves on the card (R16). -/
def Transaction.daysOnCard (t : Transaction) : Nat := Record.daysRemaining t.serial t.card

/-- The write of a transaction that FAULT or free-flow ends: a request still waiting is discarded
unsent, and the transaction's outstanding write gets the owner `heir` if it is a grant write, or acts on
nothing if it is a resolution write (R18, R34, R81, R82, R85). -/
def State.disownWrite (s : State) (n : LaneId) (heir : WriteOwner) : State :=
  s.modPort n fun p => { p with
    waiting := none
    write := p.write.map fun w => match w.request.owner with
      | .grant => { w with request := { w.request with owner := heir } }
      | .resolution => { w with request := { w.request with owner := .ended } }
      | .settlement | .orphan _ _ | .freeFlowGrant _ _ | .ended => w }

/-! ### Unlock (R46, R71) -/

/-- The unlock: UNLOCKED, granted + 1, the grant timer started, the PENDING passback entry made, and an
arm already FORWARD in a locked rotation taken over into a passage window with the bodies kept (R46, R52,
R71). A free rotation that has outlived FREE_FLOW stays a free one. -/
def State.unlock (s : State) (n : LaneId) : State :=
  match s.txn n with
  | none => s
  | some t =>
    let timer := s.timer (t.pinned.settingsInForce.grantTimeS * 1000)
    let s1 := s.modLane n fun l =>
      if l.arm = .forward ∧ l.lateFree.isNone then
        { l with state := .passing, grantTimer := some timer, grantExpired := false,
                 window := some ⟨l.kept, false⟩, kept := 0 }
      else { l with state := .unlocked, grantTimer := some timer, grantExpired := false }
    (s1.count n .granted 1).passbackUnlock n t

/-- The moment of the grant: the lane unlocks, or enters SETTLING while its recovery timer runs (R46). -/
def State.unlockOrSettle (s : State) (n : LaneId) : State :=
  if (s.lane n).recoveryTimer.isSome then s.setLaneState n .settling else s.unlock n

/-! ### Lapse and passage outcome (R74, R76) -/

/-- A lapse (R76): lapsed + 1, the PENDING entry removed, RELEASE with the reservation, and the maze
credit of a window in its trail, in one event. A window before its ROTATE_FWD_DONE leaves its bodies with
the rotation, which becomes a locked one. The trail timer of a free window that has outlived FREE_FLOW runs on
(log 29). The state the lane enters is its cause's. -/
def State.lapse (s : State) (n : LaneId) : State :=
  match s.txn n with
  | none => s
  | some t =>
    let w := (s.lane n).window
    let credit := match w with
      | some w => if w.trail then windowCredit w.k else 0
      | none => 0
    let s1 := s.modLane n fun l => { l with
      window := none
      kept := match w with
        | some w => if w.trail then l.kept else w.k
        | none => l.kept
      grantTimer := none
      grantExpired := false
      trailTimer := if l.lateFree.isSome then l.trailTimer else none
      recoveryTimer := none }
    (((s1.count n .lapsed 1).passbackCancel n t).release n).credit credit

/-- The recovery timer is started with the recovery time of the committed settings; a time of 0 starts
nothing (R77). -/
def State.startRecovery (s : State) (n : LaneId) : State :=
  if s.settings.recoveryTimeMs = 0 then s
  else s.modLane n fun l => { l with recoveryTimer := some (s.timer s.settings.recoveryTimeMs) }

/-- The recovery timer is started if the lane is a TICKET lane in IDLE (R77, R87). -/
def State.startRecoveryIfIdle (s : State) (n : LaneId) : State :=
  if (s.lane n).role = some .ticket ∧ (s.lane n).state = .idle then s.startRecovery n else s

/-- The PASSAGE notice of a passage outcome (R75). -/
def State.passageNotice (s : State) (n : LaneId) (t : Transaction) (k : Nat) : PassageNotice where
  serial := t.serial
  group := t.pinned.settingsInForce.ownGroup
  time := s.time.stationTime
  day := t.day
  lane := n
  bodies := k
  generation := t.pinned.generation

/-- The counters of a passage outcome, with TAILGATE (R74, steps 1 and 2). -/
def State.countPassage (s : State) (n : LaneId) (k : Nat) : State :=
  let s1 := s.count n .paid 1
  if k = 0 then s1.count n .beamMiss 1
  else
    let s2 := s1.count n .tailgate (k - 1)
    if 1 < k then s2.latch .tailgate n.num else s2

/-- The passage outcome that closes a passage window with body count `k`, in the order of R74. The
reservation goes with the transaction at the RELEASE of this one event. -/
def State.passageOutcome (s : State) (n : LaneId) : State :=
  match s.txn n, (s.lane n).window with
  | some t, some w =>
    let s1 := s.modLane n fun l => { l with
      window := none, trailTimer := none, grantTimer := none, grantExpired := false }
    let s2 := ((s1.countPassage n w.k).credit (windowCredit w.k)).passbackConfirm n t
    let s3 := (s2.queuePassage (s.passageNotice n t w.k)).release n
    (s3.comeToRest n).startRecoveryIfIdle n
  | _, _ => s.modLane n fun l => { l with trailTimer := none }

/-! ### Free windows and the leaving of free-flow (R86, R87) -/

/-- A lane in FREE_FLOW with no free window open: it takes a pending role, or leaves for its resting
state where free-flow is no longer in force, starting its recovery timer if that is IDLE (R64, R87). -/
def State.leaveFreeFlow (s : State) (n : LaneId) : State :=
  match (s.lane n).pendingRole with
  | some r => s.takeRole n r
  | none => if s.freeFlowInForce then s else (s.rest n).startRecoveryIfIdle n

/-- A free window closes. Completed by ROTATE_FWD_DONE it counts a free passage (R86). -/
def State.closeFreeWindow (s : State) (n : LaneId) : State :=
  let s1 := s.modLane n fun l => { l with window := none, trailTimer := none }
  let s2 := match (s.lane n).window with
    | some w => s1.countFree n w
    | none => s1
  s2.leaveFreeFlow n

/-- The transaction of a TICKET lane ends at free-flow entry, by the table of R85. -/
def State.endTransactionFree (s : State) (n : LaneId) : State :=
  match (s.lane n).state, s.txn n with
  | .resolving, some _ | .held, some _ =>
    ((s.disownWrite n .ended).sendFinal n .free .red 0 0).release n
  | .writing, some t =>
    ((s.disownWrite n (.freeFlowGrant (Record.issue t.card) t.day)).sendFinal n .free .red 0 0).release n
  | .settling, some _ => s.release n
  | .unlocked, some _ | .passing, some _ => s.lapse n
  | _, _ => s

/-- The recovery, grant, trail and hold timers of a lane stop (R85). -/
def State.stopTimers (s : State) (n : LaneId) : State :=
  s.modLane n fun l => { l with
    grantTimer := none, grantExpired := false, trailTimer := none, holdTimer := none
    recoveryTimer := none }

/-- Free-flow begins at one TICKET lane: its transaction ends, its timers stop and it enters FREE_FLOW, or takes
a role that waited for the end of the transaction (R64, R85). A free window that has outlived the last free-flow
closes with its count if it is in its trail, since its trail timer stops (DESIGN CHOICE, log 31). A lane still in
FREE_FLOW remains in it (R87). -/
def State.beginFreeFlowLane (s : State) (n : LaneId) : State :=
  if (s.lane n).role = some .ticket ∧ (s.lane n).state ≠ .freeFlow then
    let s1 := ((s.closeLateTrail n).endTransactionFree n).stopTimers n
    match (s1.lane n).pendingRole with
    | some r => s1.takeRole n r
    | none => s1.enterFreeFlow n
  else s

/-- Free-flow ends at one lane (R87). -/
def State.endFreeFlowLane (s : State) (n : LaneId) : State :=
  if (s.lane n).role = some .ticket ∧ (s.lane n).state = .freeFlow ∧ (s.lane n).window = none then
    s.leaveFreeFlow n
  else s

/-- The lanes act on a change of free-flow, if there is one (R84, R85, R87). They are taken in turn, lane 1 first,
so the LANE_FAULT of the lowest lane is the one reported (DESIGN CHOICE, log 52). -/
def State.freeFlowChange (s : State) (before : Bool) : State :=
  if !before && s.freeFlowInForce then LaneId.all.foldl State.beginFreeFlowLane s
  else if before && !s.freeFlowInForce then LaneId.all.foldl State.endFreeFlowLane s
  else s

end Sys2Proof.Machine
end

