-- ==== Sys2Proof/Machine/Settlement.lean ====
section
/-! DEFINITION. What a verdict decides from a record and a pinned table set alone: the window match, the
checks of both verdicts, and the refund computation (R24 to R37, R132 to R137). -/

namespace Sys2Proof.Machine

/-! ### Checks shared by both verdicts -/

/-- The serial is in the block list (R24, R35). -/
def TableSet.blocks (t : TableSet) (serial : Serial) : Bool := t.blockList.contains serial

/-- The window matches the card on lane `n` (R26). -/
def Window.accepts (w : Window) (product category : Byte) (n : LaneId) : Bool :=
  w.enable && product &&& w.productMask == w.productValue &&& w.productMask
    && w.categoryMask.getLsbD category.toNat && w.laneMask.getLsbD (n.num - 1)

/-- Step 6 of the TICKET verdict, step 5 of the SETTLE verdict: the product row's number, or the reason
(R26). -/
def TableSet.windowMatch (t : TableSet) (product category : Byte) (n : LaneId) : Except Display Nat :=
  match t.windows.find? fun w => w.accepts product category n with
  | some w =>
    match w.action with
    | .row r => .ok r
    | .refuse => .error .windowRefuse
  | none =>
    match t.settingsInForce.defaultAction with
    | .row r => .ok r
    | .refuse => .error .noProduct

/-- A row that holds no days and refunds nothing, for a row number that no validated table set names
(R25 keeps every ROW action on a populated row). -/
def ProductRow.blank : ProductRow := ⟨false, 0, 0, 0, 0, []⟩

/-- The pinned row of that number. -/
def TableSet.rowOf (t : TableSet) (n : Nat) : ProductRow := (t.product n).getD .blank

/-- Well-formed, not blocked, and the window match: steps 4 to 6 of the TICKET verdict and steps 3 to 5
of the SETTLE verdict (R35, R26, R132). -/
def commonChecks (t : TableSet) (n : LaneId) (serial : Serial) (r : Record) : Except Display Nat :=
  if !Record.wellFormed serial r then .error .corrupt
  else if t.blocks serial then .error .blocked
  else t.windowMatch (Record.product r) (Record.category r) n

/-! ### The TICKET verdict's checks, steps 4 to 10 -/

/-- Steps 7 to 10 on the row taken at step 6: today's state, or the reason (R36, R37). -/
def dayChecks (row : ProductRow) (day minute : Nat) (r : Record) : Except Display DayMark :=
  if day < Record.first r then .error .notYet
  else if Record.first r + Record.window r - 1 < day then .error .expired
  else if minute < row.validFrom ∨ row.validTo < minute then .error .hours
  else
    let today := Record.dayMark r (day - Record.first r)
    if Record.settled r ∨ today = .void then .error .settled
    else if today = .free ∧ Record.days r ≤ Record.used r then .error .daysExhausted
    else .ok today

/-- Steps 4 to 10 of the TICKET verdict: the row's number and today's state, or the refusal reason. -/
def ticketChecks (t : TableSet) (n : LaneId) (serial : Serial) (day minute : Nat) (r : Record) :
    Except Display (Nat × DayMark) :=
  match commonChecks t n serial r with
  | .error e => .error e
  | .ok row =>
    match dayChecks (t.rowOf row) day minute r with
    | .error e => .error e
    | .ok today => .ok (row, today)

/-! ### The SETTLE verdict's checks, steps 3 to 8 -/

/-- Steps 6 to 8 (R133). -/
def eligibility (row : ProductRow) (day : Nat) (r : Record) : Option Display :=
  if !row.refundable then some .notRefundable
  else if Record.settled r then some .settled
  else if Record.first r + Record.window r - 1 + row.grace < day then some .gracePassed
  else none

/-- Steps 3 to 8: the row's number, or the refusal reason. -/
def settleChecks (t : TableSet) (n : LaneId) (serial : Serial) (day : Nat) (r : Record) :
    Except Display Nat :=
  match commonChecks t n serial r with
  | .error e => .error e
  | .ok row =>
    match eligibility (t.rowOf row) day r with
    | some e => .error e
    | none => .ok row

/-! ### The refund computation (R134 to R137) -/

/-- L[k] of a ladder, for k from 1. -/
def ladderAt (ladder : List Nat) (k : Nat) : Nat := ladder.getD (k - 1) 0

/-- The category ladder Lc(k) (R135). -/
def categoryLadder (ladder : List Nat) (factor k : Nat) : Nat :=
  if k = 0 then 0 else ladderAt ladder k * factor / 1000

/-- The quality of a season day (R144). -/
def TableSet.qualityOf (t : TableSet) (day : Nat) : Nat :=
  ((t.dayQuality.find? fun q => q.day == day).map (·.quality)).getD 1000

/-- The weather credit w of one USED day of quality `q` (R136). -/
def weatherCredit (rate threshold q : Nat) : Nat :=
  if q < threshold then rate * (1000 - q) / 1000 else 0

/-- The result of the computation: Nr, R and the impaired-day count. -/
structure RefundResult where
  rounded  : Nat
  refund   : Nat
  impaired : Nat
  deriving DecidableEq, Repr

/-- The computation on plain numbers: price P, days D, the qualities of the USED days, the category
factor, the ladder, the fee, and the settings Q_T, S_r and C (R135 to R137). -/
def computeRefund (price days : Nat) (qualities : List Nat) (factor : Nat) (ladder : List Nat)
    (fee threshold step cap : Nat) : RefundResult :=
  let base := price - categoryLadder ladder factor qualities.length
  let rate := categoryLadder ladder factor days / days
  let weather := (qualities.map (weatherCredit rate threshold)).sum
  let gross := min price (base + weather)
  let net := gross - fee
  let rounded := net / step * step
  ⟨rounded, min rounded cap, (qualities.filter (· < threshold)).length⟩

/-- The refund of a record under a pinned table set and product row (R134). -/
def recordRefund (t : TableSet) (row : ProductRow) (r : Record) : RefundResult :=
  let st := t.settingsInForce
  computeRefund (Record.price r) (Record.days r)
    ((Record.usedDays r).map fun i => t.qualityOf (Record.first r + i))
    (t.categories.getD (Record.category r).toNat 0) row.ladder row.fee
    st.qualityThreshold st.roundingStep st.refundCap

end Sys2Proof.Machine
end

