-- ==== Sys2Proof/Machine/Verdicts.lean ====
section
/-! DEFINITION. The verdicts: card writes (R18), deferred resolution (R33, R122 to R125), the TICKET
verdict (R30 to R47), the SETTLE verdict (R129 to R140), and the end of an event (R100, R101, R167, R168,
R183). -/

namespace Sys2Proof.Machine

/-! ### Card writes (R18) -/

/-- A port sends WRITE and records the write as outstanding with its timer of 1,000 ms (R18). -/
def State.startWrite (s : State) (n : LaneId) (w : WriteRequest) : State :=
  (s.modPort n fun p => { p with write := some ⟨w, s.timer 1000⟩ }).send n (.write w.serial w.record)

/-- A write is requested of port `n`; it waits while another write is outstanding (R18). -/
def State.requestWrite (s : State) (n : LaneId) (w : WriteRequest) : State :=
  if (s.port n).write.isNone then s.startWrite n w
  else s.modPort n fun p => { p with waiting := some w }

/-- A request that waits is sent once no write is outstanding (R18). -/
def State.sendWaiting (s : State) (n : LaneId) : State :=
  match (s.port n).write, (s.port n).waiting with
  | none, some w => (s.modPort n fun p => { p with waiting := none }).startWrite n w
  | _, _ => s

/-! ### The TICKET verdict, steps 11 to 13 -/

/-- Step 13 (R44). A grant without a write shows the days remaining of the record now on the card, which after a
resolution write that ended DONE is the intended one: R16 has both readings, and this is the model's choice
(log 48). -/
def State.grant (s : State) (n : LaneId) : State :=
  match s.txn n with
  | none => s
  | some t =>
    if t.today = some .free then
      if t.present then
        let record := Record.dayMarked t.card (t.day - Record.first t.card)
        ((s.modTxn n fun t => { t with built := some record }).setLaneState n .writing).requestWrite n
          ⟨t.serial, record, .grant⟩
      else s.refuse n .gone t.daysOnCard
    else (s.sendFinal n .grant .green t.daysOnCard 0).unlockOrSettle n

/-- The lane enters HELD: WAIT to the reader, the end of the held order, and the hold timer with the
hold limit of the pinned settings (R39). -/
def State.enterHeld (s : State) (n : LaneId) (t : Transaction) : State :=
  let s1 := s.send n (.verdict false .wait .none 0 0)
  let s2 := s1.modLane n fun l => { l with
    state := .held, holdTimer := some (s.timer (t.pinned.settingsInForce.holdLimitS * 1000)) }
  { s2 with heldOrder := s2.heldOrder ++ [n] }

/-- A maze reservation is taken for lane `n`'s transaction (R39, R97). -/
def State.reserve (s : State) (n : LaneId) : State := s.modTxn n fun t => { t with reserved := true }

/-- Steps 11 and 12, and step 13 where a place is free (R38, R39). -/
def State.ticketCapacity (s : State) (n : LaneId) : State :=
  match s.txn n with
  | none => s
  | some t =>
    if s.passbackHolds t.serial then s.refuse n .passback t.daysOnCard
    else if s.placeFree then (s.reserve n).grant n
    else s.enterHeld n t

/-- The TICKET verdict from step 4 on, on the record that stands on the card. -/
def State.ticketFromRecord (s : State) (n : LaneId) : State :=
  match s.txn n with
  | none => s
  | some t =>
    match ticketChecks t.pinned n t.serial t.day t.minute t.card with
    | .error e => s.refuse n e t.daysOnCard
    | .ok (row, today) =>
      (s.modTxn n fun t => { t with row := some row, today := some today }).ticketCapacity n

/-! ### The SETTLE verdict, from step 3 -/

/-- Steps 10 and 11: an insert entry is reserved and the settled record is written (R138, R139). -/
def State.settleWrite (s : State) (n : LaneId) (t : Transaction) : State :=
  if s.generalFree = 0 then s.refuse n .queueFull t.daysOnCard
  else if t.present then
    let record := Record.settledRecord t.card t.refund t.day
    ((s.modTxn n fun t => { t with insertReserved := true, built := some record }).setLaneState n
      .writing).requestWrite n ⟨t.serial, record, .settlement⟩
  else (s.modTxn n fun t => { t with insertReserved := true }).refuse n .gone t.daysOnCard

/-- The SETTLE verdict from step 3 on (R132, R133, R137). Step 10 takes its general entry before the EVENT reports
of this event are queued, the report of CAP_APPLIED among them: no rule orders them (DESIGN CHOICE, log 50). -/
def State.settleFromRecord (s : State) (n : LaneId) : State :=
  match s.txn n with
  | none => s
  | some t =>
    match settleChecks t.pinned n t.serial t.day t.card with
    | .error e => s.refuse n e t.daysOnCard
    | .ok row =>
      let x := recordRefund t.pinned (t.pinned.rowOf row) t.card
      let t' := { t with row := some row, refund := x.refund, impaired := x.impaired }
      let s1 := s.modTxn n fun _ => t'
      let s2 := if x.refund < x.rounded then s1.latch .capApplied t.serial.toNat else s1
      if x.refund = 0 then s2.refuse n .nothingDue t.daysOnCard else s2.settleWrite n t'

/-- A completed settlement ends its transaction: REFUNDED with the amount, RELEASE, rest (R131, R140). -/
def State.settled (s : State) (n : LaneId) (amount : Nat) : State :=
  ((s.sendFinal n .refunded .green 0 amount).release n).comeToRest n

/-! ### Deferred resolution -/

/-- The verdict goes on from the record, by the lane's role. -/
def State.fromRecord (s : State) (n : LaneId) : State :=
  if (s.lane n).role = some .settle then s.settleFromRecord n else s.ticketFromRecord n

/-- An entry seen complete on the card: it is completed and the verdict goes on, a SETTLE lane's
transaction ends REFUNDED on a SETTLEMENT entry, and a SETTLEMENT entry that finds no free general entry
refuses QUEUE_FULL (R33, R34, R124, R131). -/
def State.resolveComplete (s : State) (n : LaneId) (e : DeferredEntry) : State :=
  match s.deferredComplete e with
  | none =>
    match s.txn n with
    | some t => s.refuse n .queueFull t.daysOnCard
    | none => s
  | some s' =>
    match e.kind with
    | .settlement refund _ _ =>
      if (s.lane n).role = some .settle then s'.settled n refund else s'.fromRecord n
    | .dayMark => s'.fromRecord n

/-- Step 3 of the TICKET verdict and step 2 of the SETTLE verdict: the entry held for the serial is
compared with the record as read (R33, R122, R123). -/
def State.resolveStep (s : State) (n : LaneId) : State :=
  match s.txn n with
  | none => s
  | some t =>
    match s.deferredFind t.serial with
    | none => s.fromRecord n
    | some e =>
      if t.asRead = e.intended then s.resolveComplete n e
      else if !Record.checkValid t.asRead || Record.issue t.asRead == e.baseIssue then
        ((s.modTxn n fun t => { t with resolving := some e.stamp }).setLaneState n .resolving).requestWrite n
          ⟨t.serial, e.intended, .resolution⟩
      else
        ((s.deferredRemove e.stamp).latch .deferredStale t.serial.toNat).fromRecord n

/-- Another lane holds an open transaction for the serial (R32, R130). -/
def State.openElsewhere (s : State) (n : LaneId) (serial : Serial) : Bool :=
  LaneId.all.any fun m => m != n && (s.txn m).any fun t => t.serial == serial

/-- The verdict from its first step, for a transaction just opened (R30, R31, R32, R129, R130). -/
def State.verdict (s : State) (n : LaneId) : State :=
  match s.txn n with
  | none => s
  | some t =>
    if s.time.dayState = .closed then s.refuse n .dayClosed t.daysOnCard
    else if s.openElsewhere n t.serial then s.refuse n .duplicate t.daysOnCard
    else s.resolveStep n

/-! ### Write outcomes (R34, R45, R82, R85, R140) -/

/-- The DAY_MARK entry of a grant write (R45, R118). -/
def dayMarkEntry (serial : Serial) (baseIssue : BitVec 16) (intended : Record) (day : Nat) (n : LaneId) :
    DeferredEntry :=
  ⟨0, serial, .dayMark, baseIssue, intended, day, n⟩

/-- The outcome of a resolution write (R34, R125). On DONE the card shows the intended record, and the
entry is completed if the table still holds the one the transaction names. -/
def State.resolutionOutcome (s : State) (n : LaneId) (record : Record) (o : WriteOutcome) : State :=
  match s.txn n with
  | none => s
  | some t =>
    match o with
    | .done =>
      let s1 := s.modTxn n fun t => { t with card := record, resolving := none }
      match s.deferred.entries.find? fun e => some e.stamp == t.resolving with
      | some e => s1.resolveComplete n e
      | none => s1.fromRecord n
    | .lost | .torn => s.refuse n .retry (Record.daysRemaining t.serial t.asRead)

/-- The outcome of a grant write whose transaction is open (R45). -/
def State.grantOutcome (s : State) (n : LaneId) (record : Record) (o : WriteOutcome) : State :=
  match s.txn n with
  | none => s
  | some t =>
    let entry := dayMarkEntry t.serial (Record.issue t.card) record t.day n
    let days := Record.daysRemaining t.serial record
    let granted (s : State) : State := (s.sendFinal n .grant .green days 0).unlockOrSettle n
    match o, t.pinned.settingsInForce.grantOnLostWrite with
    | .done, _ => granted s
    | .lost, true | .torn, true => granted (s.deferredOffer entry).1
    | .lost, false => s.refuse n .gone t.daysOnCard
    | .torn, false => (s.deferredOffer entry).1.refuse n .gone days

/-- The SETTLEMENT entry of a transaction (R119). -/
def settlementEntry (t : Transaction) (record : Record) (n : LaneId) : DeferredEntry :=
  ⟨0, t.serial, .settlement t.refund t.impaired t.pinned.generation, Record.issue t.card, record, t.day, n⟩

/-- The REFUND notice of a settlement written DONE (R141). -/
def State.settlementRefund (s : State) (n : LaneId) (t : Transaction) (record : Record) : RefundNotice where
  serial := t.serial
  refund := t.refund
  day := t.day
  product := Record.product record
  category := Record.category record
  used := Record.used record
  impaired := t.impaired
  generation := t.pinned.generation
  lane := n
  chip := s.ownByte

/-- A REFUND notice fills the general entry that its reservation has just freed (R165). A state in which none
is free holds more than 28 occupied and reserved entries, which no run reaches; the notice is not queued
there (log 43). -/
def State.fillReservation (s : State) (o : Outgoing) : State :=
  if 0 < s.generalFree then s.enqueue o else s

/-- The outcome of a settlement write (R140). LOST shows the days remaining of the record as read, as R140
says (log 38). -/
def State.settlementOutcome (s : State) (n : LaneId) (record : Record) (o : WriteOutcome) : State :=
  match s.txn n with
  | none => s
  | some t =>
    let freed := s.modTxn n fun t => { t with insertReserved := false }
    match o with
    | .done =>
      ((freed.fillReservation (.refund (s.settlementRefund n t record))).countRefund t.refund).settled n t.refund
    | .lost => freed.refuse n .retry (Record.daysRemaining t.serial t.asRead)
    | .torn =>
      let (s1, stored) := freed.deferredOffer (settlementEntry t record n)
      s1.refuse n (if stored then .retry else .seeDesk) 0

/-- A write's outcome is delivered to the block that requested it (R19), or to what is left of a
transaction that FAULT or free-flow has ended (R82, R85, R118). -/
def State.deliverOutcome (s : State) (n : LaneId) (w : WriteRequest) (o : WriteOutcome) : State :=
  match w.owner with
  | .resolution => s.resolutionOutcome n w.record o
  | .grant => s.grantOutcome n w.record o
  | .settlement => s.settlementOutcome n w.record o
  | .orphan issue day =>
    if o = .torn then (s.deferredOffer (dayMarkEntry w.serial issue w.record day n)).1 else s
  | .freeFlowGrant issue day =>
    if o = .done then s else (s.deferredOffer (dayMarkEntry w.serial issue w.record day n)).1
  | .ended => s

/-- A write ends (R19): it is no longer outstanding, its outcome is delivered, and a request that waited
is sent. -/
def State.endWrite (s : State) (n : LaneId) (w : WriteRequest) (o : WriteOutcome) : State :=
  ((s.modPort n fun p => { p with write := none }).deliverOutcome n w o).sendWaiting n

/-! ### Reader loss and return (R12, R81, R83) -/

/-- READER_DOWN reaches the lane: the table of R81. A lane with a role pending takes it at the end of its
transaction and does not enter FAULT first, so LANE_FAULT is latched only where the new role rests in FAULT
(DESIGN CHOICE, log 36). -/
def State.readerDown (s : State) (n : LaneId) : State :=
  if (s.lane n).role.any (·.usesReader) then
    match (s.lane n).state with
    | .freeFlow => s
    | .resolving | .held =>
      (((s.disownWrite n .ended).sendFinal n .fault .red 0 0).release n).comeToRest n
    | .writing =>
      if (s.lane n).role = some .settle then s
      else match s.txn n with
        | some t =>
          (((s.disownWrite n (.orphan (Record.issue t.card) t.day)).sendFinal n .fault .red 0 0).release
            n).comeToRest n
        | none => s.comeToRest n
    | .settling => (s.release n).comeToRest n
    | .unlocked | .passing => (s.lapse n).comeToRest n
    | .idle | .closed | .fault | .exit => s.rest n
  else s

/-- READER_UP reaches the lane: a lane in FAULT takes its resting state (R83). -/
def State.readerUpEvent (s : State) (n : LaneId) : State :=
  if (s.lane n).role.any (·.usesReader) ∧ (s.lane n).state = .fault then s.rest n else s

/-- The port's reader status becomes `st`, and READER_LOST, READER_DOWN and READER_UP follow by R11 and
R12. -/
def State.setReaderStatus (s : State) (n : LaneId) (st : ReaderStatus) : State :=
  let wasUp := s.readerUp n
  let s1 := s.modPort n fun p => { p with status := st }
  let s2 := if st = .lost ∧ (s.lane n).role.any (·.usesReader) then s1.latch .readerLost n.num else s1
  if wasUp && st != .ok then s2.readerDown n
  else if !wasUp && st == .ok then s2.readerUpEvent n
  else s2

/-! ### The end of an event -/

/-- A freed place is given to the earliest held lane, which takes the reservation and carries on at step
13, until no place is free or no lane is held; at most `fuel` places (R41, R101). -/
def State.givePlaces : Nat → State → State
  | 0, s => s
  | fuel + 1, s =>
    match s.heldOrder with
    | [] => s
    | n :: rest =>
      if s.placeFree then
        let s1 := { s with heldOrder := rest }.modLane n fun l => { l with holdTimer := none }
        State.givePlaces fuel ((s1.reserve n).grant n)
      else s

/-- MAZE_FULL at the end of an event that began in `before` (R100). -/
def State.checkMazeFull (s before : State) : State :=
  if before.placeFree && !s.placeFree then s.latch .mazeFull s.maze.count else s

/-- The end of an event that began in `before`: freed places are given (R101), MAZE_FULL is judged
(R100), EVENT reports are queued or become pending (R167, R183), and a free output chooses its message
(R168). A report so takes a general entry after every reservation of its event (DESIGN CHOICE, log 50). -/
def State.finish (s before : State) : State :=
  let s1 := (s.givePlaces s.heldOrder.length).checkMazeFull before
  let s2 := s1.queuePending.flushRaised
  (s2.arbitrate before.loop.sending.isNone).queuePending

/-- The event whose effect on its own block is `f`. -/
def State.event (s : State) (f : State → State) : State := (f s).finish s

end Sys2Proof.Machine
end

