-- ==== Sys2Proof/Machine/Lanes.lean ====
section
/-! DEFINITION. The commands of the lanes: arm, beam, key switch and lane timers, and the FREE_FLOW pin
(R42, R66 to R87, R89). -/

namespace Sys2Proof.Machine

open Host (Outcome)

/-- The arm tracker takes a value (R69). -/
def State.setArm (s : State) (n : LaneId) (a : Arm) : State := s.modLane n fun l => { l with arm := a }

/-- The lane's role is TICKET, on which arm events act (R69). -/
def State.isTicket (s : State) (n : LaneId) : Bool := (s.lane n).role == some .ticket

/-! ### The arm -/

/-- A forward rotation begins on a TICKET lane whose arm has just left rest: it opens a passage window in
UNLOCKED and a free window in FREE_FLOW, and in any other state it is a locked rotation (R71, R79, R86).
`free` says that it was begun in FREE_FLOW: where the close of the window before it has let the lane leave
FREE_FLOW, it still opens a free window (R79, R86, R87, log 29). -/
def State.beginRotation (s : State) (n : LaneId) (free : Bool) : State :=
  match (s.lane n).state with
  | .unlocked => s.modLane n fun l => { l with state := .passing, window := some ⟨0, false⟩ }
  | .freeFlow => s.modLane n fun l => { l with window := some ⟨0, false⟩ }
  | .closed | .idle | .resolving | .held | .writing | .settling | .passing | .fault | .exit =>
    s.modLane n fun l =>
      if free then { l with kept := 0, lateFree := some ⟨0, false⟩ } else { l with kept := 0 }

/-- A window in its trail closes at a new ROTATE_FWD_START: a passage window with its outcome, a free
window with its count (R73, R86). -/
def State.closeTrailWindow (s : State) (n : LaneId) : State :=
  match (s.lane n).state, (s.lane n).window with
  | .passing, some _ => s.passageOutcome n
  | .freeFlow, some _ => s.closeFreeWindow n
  | _, _ => s.closeLateTrail n

/-- The arm leaves rest turning forward (R69, R71, R73, R86). -/
def State.forwardStart (s : State) (n : LaneId) : State :=
  if (s.lane n).arm = .atRest then
    if s.isTicket n then
      let s1 := (s.closeTrailWindow n).setArm n .forward
      if s1.isTicket n then s1.beginRotation n ((s.lane n).state == .freeFlow) else s1
    else s.setArm n .forward
  else s

/-- ROTATE_FWD_START (R69, R71). -/
def execRotateFwdStart (n : LaneId) (s : State) : Outcome State Fault Refusal :=
  .next (s.event fun s => s.forwardStart n)

/-- A forced passage: forced + 1, the maze takes max(1, b), the alarm sounds for 1,000 ms, FORCED is
latched and the kept bodies are cleared (R79). -/
def State.forcedPassage (s : State) (n : LaneId) : State :=
  let b := (s.lane n).kept
  let s1 := s.modLane n fun l => { l with kept := 0, alarmTimer := some (s.timer 1000) }
  ((s1.count n .forced 1).credit (windowCredit b)).latch .forced n.num

/-- A locked rotation, a passage window or a free window of FREE_FLOW completes its rotation (R73, R79, R86). -/
def State.completeWindow (s : State) (n : LaneId) : State :=
  let trail := s.timer s.settings.trailTimeMs
  match (s.lane n).state, (s.lane n).window with
  | .passing, some w =>
    if w.trail then s.forcedPassage n
    else s.modLane n fun l => { l with
      window := some ⟨w.k, true⟩, grantTimer := none, grantExpired := false, trailTimer := some trail }
  | .freeFlow, some w => s.modLane n fun l => { l with window := some ⟨w.k, true⟩, trailTimer := some trail }
  | .freeFlow, none => s.modLane n fun l => { l with window := some ⟨0, true⟩, trailTimer := some trail }
  | _, _ => s.forcedPassage n

/-- A forward rotation completes on a TICKET lane: one begun in FREE_FLOW is a free passage, even if the lane
has left it by then (R73, R79, R86). -/
def State.completeRotation (s : State) (n : LaneId) : State :=
  match (s.lane n).lateFree with
  | some w =>
    s.modLane n fun l => { l with
      lateFree := some ⟨w.k, true⟩, trailTimer := some (s.timer s.settings.trailTimeMs) }
  | none => s.completeWindow n

/-- The arm reaches the next rest forward (R69, R73, R79, R86). -/
def State.forwardDone (s : State) (n : LaneId) : State :=
  if (s.lane n).arm = .forward then
    let s1 := s.setArm n .atRest
    if s.isTicket n then s1.completeRotation n else s1
  else s

/-- ROTATE_FWD_DONE (R69, R73, R79). -/
def execRotateFwdDone (n : LaneId) (s : State) : Outcome State Fault Refusal :=
  .next (s.event fun s => s.forwardDone n)

/-- The arm leaves rest turning out of the maze: the tracker alone changes (R69, R80). -/
def State.reverseStart (s : State) (n : LaneId) : State :=
  if (s.lane n).arm = .atRest then s.setArm n .reverse else s

/-- ROTATE_REV_START (R69, R80). -/
def execRotateRevStart (n : LaneId) (s : State) : Outcome State Fault Refusal :=
  .next (s.event fun s => s.reverseStart n)

/-- The arm reaches the next rest in reverse: a reverse passage on a TICKET lane that is not in FREE_FLOW
(R69, R80). -/
def State.reverseDone (s : State) (n : LaneId) : State :=
  if (s.lane n).arm = .reverse then
    let s1 := s.setArm n .atRest
    if s.isTicket n && (s.lane n).state != .freeFlow then (s1.count n .reverse 1).decrement else s1
  else s

/-- ROTATE_REV_DONE (R69, R80). -/
def execRotateRevDone (n : LaneId) (s : State) : Outcome State Fault Refusal :=
  .next (s.event fun s => s.reverseDone n)

/-- A forward rotation of a TICKET lane goes back to the rest it started from: an attempt ends and its
bodies are discarded, with the lapse of a grant whose expiry was recorded; a free window closes uncounted;
the bodies kept with a locked rotation are discarded (R70, R72, R76, R86). -/
def State.abandonRotation (s : State) (n : LaneId) : State :=
  match (s.lane n).lateFree with
  | some _ => s.modLane n fun l => { l with lateFree := none }
  | none =>
    match (s.lane n).state, (s.lane n).window with
    | .passing, some w =>
      if w.trail then s
      else
        let s1 := s.modLane n fun l => { l with state := .unlocked, window := none }
        if (s.lane n).grantExpired then (s1.lapse n).comeToRest n else s1
    | .freeFlow, some w => if w.trail then s else s.closeFreeWindow n
    | _, _ => s.modLane n fun l => { l with kept := 0 }

/-- The arm comes back to the rest it started from (R69, R72, R80). -/
def State.armReturn (s : State) (n : LaneId) : State :=
  match (s.lane n).arm with
  | .atRest => s
  | .reverse => s.setArm n .atRest
  | .forward =>
    let s1 := s.setArm n .atRest
    if s.isTicket n then s1.abandonRotation n else s1

/-- ROTATE_RETURN (R69, R72). -/
def execRotateReturn (n : LaneId) (s : State) : Outcome State Fault Refusal :=
  .next (s.event fun s => s.armReturn n)

/-! ### The beam -/

/-- The length of a break, measured from the end of the cold reset if it began before it (R92, R114). -/
def State.breakLength (s : State) (breakMs : Nat) : Nat := min breakMs s.ms

/-- A break of this length is a body: it lasts at least the beam minimum break (R70, R108). -/
def State.isBody (s : State) (breakMs : Nat) : Bool := s.settings.beamMinimumMs ≤ s.breakLength breakMs

/-- A body on a TICKET lane is attributed: to an open window, to a locked rotation, or as an intrusion
(R70, R78, R86). -/
def State.ticketBody (s : State) (n : LaneId) : State :=
  match (s.lane n).window with
  | some w => s.modLane n fun l => { l with window := some { w with k := w.k + 1 } }
  | none =>
    match (s.lane n).lateFree with
    | some w => s.modLane n fun l => { l with lateFree := some { w with k := w.k + 1 } }
    | none =>
      if (s.lane n).arm = .forward ∧ (s.lane n).state ≠ .freeFlow then
        s.modLane n fun l => { l with kept := l.kept + 1 }
      else (s.count n .intrusion 1).credit 1

/-- A body reaches its lane (R70, R89). -/
def State.laneBody (s : State) (n : LaneId) : State :=
  match (s.lane n).role with
  | some .ticket => s.ticketBody n
  | some .exit => if (s.lane n).state = .exit then (s.count n .exit 1).decrement else s
  | some .settle | some .off | none => s

/-- BODY (R70). A break shorter than the minimum delivers nothing. -/
def execBody (n : LaneId) (breakMs : Nat) (s : State) : Outcome State Fault Refusal :=
  .next (s.event fun s => if s.isBody breakMs then s.laneBody n else s)

/-! ### The key switch and the lane timers -/

/-- The level of KEYn changes: it is recorded, and with key control set the lane, if it is at rest, takes the
resting state that its conditions then give; with key control clear it has no other effect (R65 to R67). -/
def State.keyChanged (s : State) (n : LaneId) (level : Bool) : State :=
  let s1 := s.modLane n fun l => { l with keyHigh := level }
  if s.keyControl n then s1.closureChange n else s1

/-- KEY_CHANGE (R66, R67). A DAY_CLOSE on its way to a lane with key control set reaches it at this event too
(DESIGN CHOICE, log 9). -/
def execKeyChange (n : LaneId) (level : Bool) (s : State) : Outcome State Fault Refusal :=
  .next (s.event fun s => s.keyChanged n level)

/-- The grant timer has reached its end: it lapses the grant in UNLOCKED and is recorded in PASSING (R72,
R76). -/
def State.grantTimeout (s : State) (n : LaneId) : State :=
  if timerDue (s.lane n).grantTimer s.ms then
    let s1 := s.modLane n fun l => { l with grantTimer := none }
    match (s.lane n).state with
    | .unlocked => (s1.lapse n).comeToRest n
    | .passing => s1.modLane n fun l => { l with grantExpired := true }
    | _ => s1
  else s

/-- GRANT_TIMER_EXPIRY (R72, R76). -/
def execGrantTimerExpiry (n : LaneId) (s : State) : Outcome State Fault Refusal :=
  .next (s.event fun s => s.grantTimeout n)

/-- The trail timer has reached its end: the window in its trail closes (R73, R74, R86). -/
def State.trailTimeout (s : State) (n : LaneId) : State :=
  if timerDue (s.lane n).trailTimer s.ms then
    match (s.lane n).lateFree with
    | some _ => (s.closeLateTrail n).modLane n fun l => { l with trailTimer := none }
    | none =>
      match (s.lane n).state with
      | .passing => s.passageOutcome n
      | .freeFlow => s.closeFreeWindow n
      | _ => s.modLane n fun l => { l with trailTimer := none }
  else s

/-- TRAIL_TIMER_EXPIRY (R73, R74). -/
def execTrailTimerExpiry (n : LaneId) (s : State) : Outcome State Fault Refusal :=
  .next (s.event fun s => s.trailTimeout n)

/-- The recovery timer has reached its end: a lane in SETTLING unlocks (R46, R77). -/
def State.recoveryTimeout (s : State) (n : LaneId) : State :=
  if timerDue (s.lane n).recoveryTimer s.ms then
    let s1 := s.modLane n fun l => { l with recoveryTimer := none }
    if (s.lane n).state = .settling then s1.unlock n else s1
  else s

/-- RECOVERY_TIMER_EXPIRY (R77). -/
def execRecoveryTimerExpiry (n : LaneId) (s : State) : Outcome State Fault Refusal :=
  .next (s.event fun s => s.recoveryTimeout n)

/-- The hold timer has reached its end: a lane in HELD is refused FULL (R42). -/
def State.holdTimeout (s : State) (n : LaneId) : State :=
  if timerDue (s.lane n).holdTimer s.ms then
    let s1 := s.modLane n fun l => { l with holdTimer := none }
    match (s.lane n).state, s.txn n with
    | .held, some t => s1.refuse n .full t.daysOnCard
    | _, _ => s1
  else s

/-- HOLD_TIMER_EXPIRY (R42). -/
def execHoldTimerExpiry (n : LaneId) (s : State) : Outcome State Fault Refusal :=
  .next (s.event fun s => s.holdTimeout n)

/-- ALARM_TIMER_EXPIRY: ALARMn goes off (R68). -/
def execAlarmTimerExpiry (n : LaneId) (s : State) : Outcome State Fault Refusal :=
  .next (s.event fun s =>
    if timerDue (s.lane n).alarmTimer s.ms then s.modLane n fun l => { l with alarmTimer := none } else s)

/-! ### Free-flow -/

/-- FREE_FLOW_PIN_CHANGE (R84). -/
def execFreeFlowPinChange (level : Bool) (s : State) : Outcome State Fault Refusal :=
  .next (s.event fun s => { s with freeFlowPin := level }.freeFlowChange s.freeFlowInForce)

end Sys2Proof.Machine
end

