-- ==== Sys2Proof/Machine/Loading.lean ====
section
/-! DEFINITION. The loading gate and the Passback Table's expiry: LIFT_RUN_CHANGE, CHAIR,
WINDOW_TIMER_EXPIRY, LG_BEAM_BODY, PASSBACK_ENTRY_EXPIRY (R58, R103 to R111). -/

namespace Sys2Proof.Machine

open Host (Outcome)

/-- The part is a pass-through chip, whose gate stays STOPPED and ignores its inputs (R114, R161). -/
def State.passThrough (s : State) : Bool := s.ownAddress.isNone

/-- The lost seats of a window (R110). -/
def ChairWindow.lostSeats (w : ChairWindow) : Nat := min w.seats w.m0 - w.loaded

/-- The open window closes and is recorded: its histogram bin and its lost seats (R110). The state the
gate enters is the close's. -/
def State.closeChairWindow (s : State) : State :=
  match s.maze.window with
  | none => s
  | some w =>
    let s1 := s.countLoading fun c =>
      { c.addBin w.loaded with lostSeats := satAdd16 c.lostSeats w.lostSeats }
    { s1 with maze := { s1.maze with window := none } }

/-- A chair window opens (R107). -/
def State.openChairWindow (s : State) : State :=
  { s with maze := { s.maze with
      gate := .opened
      window := some ⟨s.maze.count, 0, s.settings.seats, s.timer s.settings.loadingWindowMs⟩ } }

/-- The gate enters a state. -/
def State.setGate (s : State) (g : GateState) : State := { s with maze := { s.maze with gate := g } }

/-- The state the gate takes while LIFT_RUN is high and no window is open (R104). -/
def State.gateRunning (s : State) : GateState := if s.maze.loadingHold then .held else .waiting

/-- LIFT_RUN changes to `level`: the run times are brought up to date, and the gate leaves for STOPPED or
from it, latching its flag (R104, R154). A level the gate already follows changes nothing. A pass-through
chip's gate does not follow it (R114). -/
def State.liftChange (s : State) (level : Bool) : State :=
  if s.maze.liftRun = level then s
  else
    let s0 := s.bringRunTimes
    let s1 := { s0 with maze := { s0.maze with liftRun := level } }
    if s.passThrough then s1
    else if level then (s1.setGate s1.gateRunning).latch .liftRunning 0
    else (s1.closeChairWindow.setGate .stopped).latch .liftStopped 0

/-- LIFT_RUN_CHANGE (R104). -/
def execLiftRunChange (level : Bool) (s : State) : Outcome State Fault Refusal :=
  .next (s.event fun s => s.liftChange level)

/-- A CHAIR pulse: the table of R106. -/
def State.chairPulse (s : State) : State :=
  if s.passThrough then s
  else match s.maze.gate with
    | .stopped => s
    | .waiting => s.openChairWindow
    | .opened => s.closeChairWindow.openChairWindow
    | .held => s.countLoading fun c => { c with heldChairs := satAdd16 c.heldChairs 1 }

/-- CHAIR (R106). -/
def execChair (s : State) : Outcome State Fault Refusal := .next (s.event fun s => s.chairPulse)

/-- The window timer has reached its end: the window closes and the gate enters WAITING (R110). -/
def State.chairTimeout (s : State) : State :=
  match s.maze.window with
  | some w => if w.timer.due s.ms then s.closeChairWindow.setGate .waiting else s
  | none => s

/-- WINDOW_TIMER_EXPIRY (R110). -/
def execWindowTimerExpiry (s : State) : Outcome State Fault Refusal :=
  .next (s.event fun s => s.chairTimeout)

/-- A body at LG_BEAM: loaded in an open window, which closes at S_w, and otherwise loading-forced; the
maze count takes a decrement either way (R108, R109). -/
def State.gateBody (s : State) : State :=
  if s.passThrough then s
  else match s.maze.window with
    | some w =>
      let w' := { w with loaded := w.loaded + 1 }
      let s1 := { s with maze := { s.maze with window := some w' } }.decrement
      if w'.loaded = w'.seats then s1.closeChairWindow.setGate .waiting else s1
    | none =>
      ((s.countLoading fun c => { c with loadingForced := satAdd16 c.loadingForced 1 }).latch
        .loadingForced 0).decrement

/-- LG_BEAM_BODY (R108). A break shorter than the minimum delivers nothing. -/
def execLgBeamBody (breakMs : Nat) (s : State) : Outcome State Fault Refusal :=
  .next (s.event fun s => if s.isBody breakMs then s.gateBody else s)

/-- The entry of this key whose expiry the ms counter has reached is removed (R58). -/
def State.passbackExpire (s : State) (serial : Serial) (group : Nat) : State :=
  { s with passback := s.passback.filter fun e => !(e.hasKey serial group && e.expiry ≤ s.ms) }

/-- PASSBACK_ENTRY_EXPIRY (R58). -/
def execPassbackEntryExpiry (serial : Serial) (group : Nat) (s : State) : Outcome State Fault Refusal :=
  .next (s.event fun s => s.passbackExpire serial group)

end Sys2Proof.Machine
end

