-- ==== Sys2Proof/Machine/Time.lean ====
section
/-! DEFINITION. The Time Base: the station clock, the operating day, availability, the DAY and COUNT
reports and the interval timer (R146 to R159), with the commands STATION_CLOCK_ADVANCE,
INTERVAL_PRESCALER_EXPIRY and INTERVAL_END. -/

namespace Sys2Proof.Machine

open Host (Outcome)

/-! ### The station clock (R147, R148) -/

/-- The station clock advances one second, once 1,000 ms have passed since it last advanced or was set
(R147). The run times are brought up to date first, since the minute may enter or leave the schedule
(R154). -/
def State.clockAdvance (s : State) : State :=
  if s.time.phase + 1000 ≤ s.ms then
    let s1 := s.bringRunTimes
    { s1 with time := { s1.time with
        stationTime := if s.time.stationTime ≥ 86399 then 0 else s.time.stationTime + 1
        phase := s.time.phase + 1000 } }
  else s

/-- STATION_CLOCK_ADVANCE (R147). -/
def execStationClockAdvance (s : State) : Outcome State Fault Refusal :=
  .next (s.event fun s => s.clockAdvance)

/-- The step of a setting of the clock, measured the shorter way around the day (R148). -/
def clockStep (a b : Nat) : Nat :=
  let d := max a b - min a b
  min d (86400 - d)

/-- A valid TIME notice sets the clock (R148). TIME_STEP is latched before the setting, so its EVENT report
carries the station time that the clock showed before the notice (DESIGN CHOICE, log 45). -/
def State.setClock (s : State) (t : Nat) : State :=
  let step := clockStep t s.time.stationTime
  let s1 := s.bringRunTimes
  let s2 := if s.time.clockSet && decide (2 < step) then s1.latch .timeStep step else s1
  { s2 with time := { s2.time with stationTime := t, clockSet := true, phase := s.ms } }

/-! ### The operating day (R149 to R156) -/

/-- Scheduled seconds of the day (R155). -/
def TimeBase.scheduledSeconds (t : TimeBase) : Nat := (t.closeMinute - t.openMinute) * 60

/-- Run seconds, held at the scheduled seconds (R155). -/
def TimeBase.runSeconds (t : TimeBase) : Nat := min (t.dayRun / 1000) t.scheduledSeconds

/-- Availability in per-mille (R155). -/
def TimeBase.availability (t : TimeBase) : Nat :=
  if t.scheduledSeconds = 0 then 1000 else t.runSeconds * 1000 / t.scheduledSeconds

/-- The DAY report of the open day, from the run times as they stand (R156). -/
def State.dayReport (s : State) (implicit : Bool) : DayReport where
  seasonDay := s.time.seasonDay
  implicit := implicit
  noSchedule := s.time.scheduledSeconds == 0
  openMinute := s.time.openMinute
  closeMinute := s.time.closeMinute
  scheduledSeconds := s.time.scheduledSeconds
  runSeconds := s.time.runSeconds
  availability := s.time.availability
  stationTime := s.time.stationTime
  generation := s.tables.generation
  lanes := s.lanes.map (·.day)
  loading := s.maze.day
  mazeCount := s.maze.count
  refundsCount := s.time.refundsCount
  refundsSum := s.time.refundsSum
  deferredEntries := s.deferred.entries.length

/-- The lane holds a carried grant: a TICKET lane in UNLOCKED or PASSING at a DAY_OPEN (R151). -/
def Lane.carriesGrant (l : Lane) : Bool :=
  l.role == some .ticket && (l.state == .unlocked || l.state == .passing)

/-- A lane's day counters at a DAY_OPEN: 0, but granted 1 for a carried grant (R150, R151). -/
def Lane.clearDay (l : Lane) : Lane :=
  { l with day := if l.carriesGrant then { LaneCounters.zero with granted := 1 } else .zero }

/-- Step 2 of a DAY_OPEN (R150). -/
def State.clearDayCounters (s : State) : State :=
  { s with
    lanes := s.lanes.map Lane.clearDay
    maze := { s.maze with day := .zero }
    time := { s.time with refundsCount := 0, refundsSum := 0, dayRun := 0 } }

/-- The entry is kept at the DAY_OPEN of season day `day` under retention `keep` (R126). -/
def DeferredEntry.kept (e : DeferredEntry) (day keep : Nat) : Bool :=
  day ≤ e.dayCreated + keep && e.dayCreated ≤ day

/-- The retention purge (R126). -/
def State.purgeOld (s : State) (day : Nat) : State :=
  let keep := s.settings.retentionDays
  let entries := s.deferred.entries.filter fun e => e.kept day keep
  let removed := s.deferred.entries.length - entries.length
  let s1 := { s with deferred := { s.deferred with entries := entries } }
  if 0 < removed then s1.latch .deferredExpired removed else s1

/-- A valid DAY_OPEN, in the order of R150. -/
def State.openDay (s : State) (day openMinute closeMinute : Nat) : State :=
  let s0 := s.bringRunTimes
  let s1 := if s.time.dayState = .opened then s0.queueReport (.day (s0.dayReport true)) else s0
  let s2 := s1.clearDayCounters.purgeOld day
  let s3 := { s2 with time := { s2.time with
      dayState := .opened, seasonDay := day, openMinute := openMinute, closeMinute := closeMinute } }
  if s.time.dayState = .opened then s3 else s3.closureChangeAll

/-- The change of the operating day reaches lane `n`, unless it is still on its way (R67): then it
arrives in an idle step. -/
def State.dayChangeArrives (s : State) (choice : Nat) (n : LaneId) : State :=
  if Config.laneLags choice n then s else s.closureChange n

/-- A DAY_CLOSE for the open day (R152). -/
def State.closeDay (s : State) : State :=
  let s0 := s.bringRunTimes
  let s1 := s0.queueReport (.day (s0.dayReport false))
  let s2 := { s1 with time := { s1.time with dayState := .closed }, choices := s1.choices + 1 }
  LaneId.all.foldl (fun x n => x.dayChangeArrives s1.choices n) s2

/-! ### The interval timer (R157 to R159) -/

/-- The sum of the four lanes' exit accumulators (R158). -/
def State.exitBodies (s : State) : Nat :=
  s.lanes.l1.interval.exit + s.lanes.l2.interval.exit + s.lanes.l3.interval.exit + s.lanes.l4.interval.exit

/-- The COUNT report of an interval that lasted `seconds` (R158). -/
def State.countReport (s : State) (sequence : BitVec 16) (short : Bool) (seconds : Nat) : CountReport where
  sequence := sequence
  short := short
  seconds := seconds
  seasonDay := s.time.seasonDay
  dayState := s.time.dayState
  stationTime := s.time.stationTime
  lanes := s.lanes.map (·.interval)
  loading := s.maze.interval
  mazeCount := s.maze.count
  runSeconds := s.time.intervalRun / 1000
  exitBodies := s.exitBodies

/-- The interval ends: the sequence number advances, the COUNT report is queued, and the accumulators are
cleared, the interval run time but for its ms under a whole second (R158). -/
def State.endInterval (s : State) (short : Bool) (seconds : Nat) : State :=
  let s0 := s.bringRunTimes
  let sequence := s0.time.sequence + 1
  let s1 := s0.queueReport (.count (s0.countReport sequence short seconds))
  { s1 with
    lanes := s1.lanes.map fun l => { l with interval := .zero }
    maze := { s1.maze with interval := .zero }
    time := { s1.time with
      sequence := sequence, intervalRun := s1.time.intervalRun % 1000, intervalDue := false } }

/-- Seconds of a whole interval under the given settings (R157). -/
def Settings.intervalSeconds (t : Settings) : Nat := t.intervalPeriodS * t.intervalPostscale

/-- Whole seconds elapsed in the current interval (R159, R185). -/
def State.elapsedSeconds (s : State) (t : Settings) : Nat :=
  s.time.postscaleCount * t.intervalPeriodS + s.time.periodCount

/-- The prescaler has reached 1,000 ms: it restarts, the period count advances, the postscaler count
advances at the period, and at the postscaler the interval is due to end (R157). -/
def State.prescalerTimeout (s : State) : State :=
  match s.time.prescaler with
  | none => s
  | some t =>
    if t.due s.ms then
      let st := s.settings
      let restarted : Timer := ⟨t.start + t.duration, 1000⟩
      let time := { s.time with prescaler := some restarted }
      if s.time.periodCount + 1 < st.intervalPeriodS then
        { s with time := { time with periodCount := s.time.periodCount + 1 } }
      else if s.time.postscaleCount + 1 < st.intervalPostscale then
        { s with time := { time with periodCount := 0, postscaleCount := s.time.postscaleCount + 1 } }
      else { s with time := { time with periodCount := 0, postscaleCount := 0, intervalDue := true } }
    else s

/-- INTERVAL_PRESCALER_EXPIRY (R157). -/
def execIntervalPrescalerExpiry (s : State) : Outcome State Fault Refusal :=
  .next (s.event fun s => s.prescalerTimeout)

/-- The end of an interval whose postscaler has wrapped (R157, R158). -/
def State.intervalEndEvent (s : State) : State :=
  if s.time.intervalDue then s.endInterval false s.settings.intervalSeconds else s

/-- INTERVAL_END (R158). -/
def execIntervalEnd (s : State) : Outcome State Fault Refusal :=
  .next (s.event fun s => s.intervalEndEvent)

/-- The interval timer starts with its three counts at 0 (R159). -/
def State.startInterval (s : State) : State :=
  { s with time := { s.time with
      prescaler := some (s.timer 1000), periodCount := 0, postscaleCount := 0, intervalDue := false } }

/-- The interval timer at a COMMIT that names the settings; `old` is the settings replaced (R159). An
interval already due to end ends first. -/
def State.intervalCommit (s : State) (old : Option Settings) : State :=
  match old with
  | none => s.startInterval
  | some o =>
    if o.intervalPeriodS = s.settings.intervalPeriodS ∧ o.intervalPostscale = s.settings.intervalPostscale then
      s
    else
      let s1 := if s.time.intervalDue then s.endInterval false o.intervalSeconds else s
      (s1.endInterval true (s1.elapsedSeconds o)).startInterval

end Sys2Proof.Machine
end

