-- ==== Sys2Proof/Machine/LoopOps.lean ====
section
/-! DEFINITION. The Loop Interface: the link (R169), the receive tests and forwarding (R162 to R164,
R189), the notices, and the commands TIME, DAY_OPEN, DAY_CLOSE, PASSAGE, IDLE_FILL,
SILENCE_TIMER_EXPIRY, TRAINING_TIMER_EXPIRY and SEND_END. -/

namespace Sys2Proof.Machine

open Host (Outcome)

/-! ### The link (R169) -/

/-- Entry into DOWN by the silence timer or the bad run: both timers stop, the bad run is 0 and LINK_LOST
is latched (R169). -/
def State.linkLost (s : State) : State :=
  { s with loop := { s.loop with
      link := .down, silence := none, training := none, badRun := 0, downByLoss := true } }.latch .linkLost 0

/-- Valid input: the silence timer restarts, and DOWN becomes SYNC with the training timer started
(R169). -/
def State.validInput (s : State) : State :=
  { s with loop := { s.loop with
      silence := some (s.timer 200)
      link := if s.loop.link = .down then .sync else s.loop.link
      training := if s.loop.link = .down then some (s.timer 50) else s.loop.training } }

/-- A message passes test 1 of R162: it is valid input and ends the bad run (R169). -/
def State.goodMessage (s : State) : State :=
  { s with loop := { s.loop with badRun := 0 } }.validInput

/-- A message fails test 1 of R162: CRC-errors + 1, the bad run grows, SYNC restarts its training, and a
bad run of 16 takes SYNC or UP to DOWN (R162, R169). -/
def State.badMessage (s : State) : State :=
  let bad := min 16 (s.loop.badRun + 1)
  let s1 := { s with loop := { s.loop with crcErrors := satAdd16 s.loop.crcErrors 1, badRun := bad } }
  match s.loop.link with
  | .down => s1
  | .sync =>
    if bad = 16 then s1.linkLost
    else { s1 with loop := { s1.loop with training := some (s.timer 50) } }
  | .up => if bad = 16 then s1.linkLost else s1

/-- IDLE_FILL (R169). -/
def execIdleFill (s : State) : Outcome State Fault Refusal := .next (s.event fun s => s.validInput)

/-- The silence timer has reached its end: SYNC or UP goes DOWN (R169). -/
def State.silenceTimeout (s : State) : State :=
  if timerDue s.loop.silence s.ms then
    if s.loop.link = .down then { s with loop := { s.loop with silence := none } } else s.linkLost
  else s

/-- SILENCE_TIMER_EXPIRY (R169). -/
def execSilenceTimerExpiry (s : State) : Outcome State Fault Refusal :=
  .next (s.event fun s => s.silenceTimeout)

/-- The training timer has reached its end: SYNC becomes UP, latching LINK_RECOVERED when the last entry
into DOWN was a loss (R169). -/
def State.trainingTimeout (s : State) : State :=
  if timerDue s.loop.training s.ms then
    let s1 := { s with loop := { s.loop with training := none } }
    if s.loop.link = .sync then
      let s2 := { s1 with loop := { s1.loop with link := .up } }
      if s.loop.downByLoss then s2.latch .linkRecovered 0 else s2
    else s1
  else s

/-- TRAINING_TIMER_EXPIRY (R169). -/
def execTrainingTimerExpiry (s : State) : Outcome State Fault Refusal :=
  .next (s.event fun s => s.trainingTimeout)

/-! ### Receiving (R162 to R164) -/

/-- A message is forwarded: hop count + 1, to the tail of the transit FIFO, or dropped where it holds 16
(R164). -/
def State.forward (s : State) (type : Byte) (m : Arrival) : State :=
  if s.loop.transit.length < 16 then
    { s with loop := { s.loop with
        transit := s.loop.transit ++ [⟨type, m.destination, m.source, m.hops + 1, m.payload⟩] } }
  else { s with loop := { s.loop with transitDrops := satAdd16 s.loop.transitDrops 1 } }

/-- The address in a header byte is the own address. A pass-through chip has none (R161). -/
def State.isOwn (s : State) (a : Byte) : Bool := s.ownAddress.any fun own => own.setWidth 8 == a

/-- The arrival of a whole message: the tests of R162 in order. `deliver` is what R163 does with a message
consumed or broadcast; a pass-through chip processes neither (R161). -/
def State.receive (s : State) (type : Byte) (m : Arrival) (deliver : State → State) : State :=
  if !arrivalIntact type m then s.badMessage
  else
    let s1 := s.goodMessage
    if s.loop.link ≠ .up then s1
    else if s1.isOwn m.source then s1
    else if 30 ≤ m.hops.toNat then
      { s1 with loop := { s1.loop with orphans := satAdd16 s1.loop.orphans 1 } }
    else if s1.isOwn m.destination then deliver s1
    else if m.destination = 31 then
      (if s1.passThrough then s1 else deliver s1).forward type m
    else s1.forward type m

/-! ### Notices -/

/-- A notice that the Time Base ignores, with BAD_NOTICE (R148, R149, R152, R189). -/
def State.badNotice (s : State) (type : Byte) : State := s.latch .badNotice type.toNat

/-- A TIME notice at the Time Base (R148, R189). -/
def State.timeNotice (s : State) (m : Arrival) : State :=
  if m.source ≠ 0 then s
  else if m.payload.length ≠ 4 ∨ 86399 < fieldLE m.payload 0 4 then s.badNotice 0x20
  else s.setClock (fieldLE m.payload 0 4)

/-- TIME (R148). -/
def execTime (m : Arrival) (s : State) : Outcome State Fault Refusal :=
  .next (s.event fun s => s.receive 0x20 m fun s => s.timeNotice m)

/-- A season day is 1 to 366 (R149). -/
def seasonDayValid (d : Nat) : Bool := 1 ≤ d && d ≤ 366

/-- A DAY_OPEN notice at the Time Base (R149, R150, R189). -/
def State.dayOpenNotice (s : State) (m : Arrival) : State :=
  let day := fieldLE m.payload 0 2
  let openMinute := fieldLE m.payload 2 2
  let closeMinute := fieldLE m.payload 4 2
  if m.source ≠ 0 then s
  else if m.payload.length = 6 ∧ seasonDayValid day ∧ openMinute ≤ closeMinute ∧ closeMinute ≤ 1440 then
    s.openDay day openMinute closeMinute
  else s.badNotice 0x21

/-- DAY_OPEN (R150). -/
def execDayOpen (m : Arrival) (s : State) : Outcome State Fault Refusal :=
  .next (s.event fun s => s.receive 0x21 m fun s => s.dayOpenNotice m)

/-- A DAY_CLOSE notice at the Time Base (R149, R152, R189). -/
def State.dayCloseNotice (s : State) (m : Arrival) : State :=
  let day := fieldLE m.payload 0 2
  if m.source ≠ 0 then s
  else if m.payload.length = 2 ∧ seasonDayValid day then
    if s.time.dayState = .opened then
      if day = s.time.seasonDay then s.closeDay else s.badNotice 0x22
    else s
  else s.badNotice 0x22

/-- DAY_CLOSE (R152). -/
def execDayClose (m : Arrival) (s : State) : Outcome State Fault Refusal :=
  .next (s.event fun s => s.receive 0x22 m fun s => s.dayCloseNotice m)

/-- A PASSAGE notice at the Passback Table (R55, R189). -/
def State.passageReceived (s : State) (m : Arrival) : State :=
  let serial : Serial := BitVec.ofNat 32 (fieldLE m.payload 0 4)
  let group := fieldLE m.payload 4 1
  let noticeTime := fieldLE m.payload 5 4
  if m.payload.length ≠ 15 ∨ m.source = 0 ∨ serial = 0 ∨ 63 < group ∨ 86399 < noticeTime then s
  else match holdOf s.tables.watchSet group with
    | none => s
    | some hold =>
      let age := noticeAge s.time.stationTime noticeTime
      if hold ≤ age then s
      else s.passbackOffer serial group (s.ms + (hold - age) * 1000) m.source

/-- PASSAGE (R55). -/
def execPassage (m : Arrival) (s : State) : Outcome State Fault Refusal :=
  .next (s.event fun s => s.receive 0x23 m fun s => s.passageReceived m)

/-! ### The end of a send -/

/-- SEND_END: the output is free, and the arbiter chooses at the end of this event (R168). -/
def execSendEnd (s : State) : Outcome State Fault Refusal :=
  .next (s.event fun s => { s with loop := { s.loop with sending := none } })

end Sys2Proof.Machine
end

