-- ==== Sys2Proof/Machine/Reset.lean ====
section
/-! DEFINITION. The warm reset block by block (R187) and the cold reset, COLD_RESET (R92). -/

namespace Sys2Proof.Machine

open Host (Outcome)

/-- The write outstanding on port `n` is abandoned as though TORN: its deferred entry is offered, and the
second component says whether a SETTLEMENT entry was offered and not stored (R20, R118, R119, R121). A
request still waiting is discarded unsent (R18). -/
def State.abandonWrite (s : State) (n : LaneId) : State × Bool :=
  let s1 := s.modPort n fun p => { p with write := none, waiting := none }
  match (s.port n).write with
  | none => (s1, false)
  | some w =>
    match w.request.owner, s.txn n with
    | .grant, some t =>
      ((s1.deferredOffer (dayMarkEntry t.serial (Record.issue t.card) w.request.record t.day n)).1, false)
    | .settlement, some t =>
      let (s2, stored) := s1.deferredOffer (settlementEntry t w.request.record n)
      (s2, !stored)
    | .orphan issue day, _ | .freeFlowGrant issue day, _ =>
      ((s1.deferredOffer (dayMarkEntry w.request.serial issue w.request.record day n)).1, false)
    | _, _ => (s1, false)

/-- The transaction of lane `n` ends at the warm reset: a grant at the barrier lapses, and any other
sends the final VERDICT it has not yet sent, RETRY or SEE_DESK, and RELEASE (R16, R93, R143). -/
def State.endTransactionWarm (s : State) (n : LaneId) (seeDesk : Bool) : State :=
  match s.txn n with
  | none => s
  | some t =>
    match (s.lane n).state with
    | .unlocked | .passing => s.lapse n
    | _ =>
      if t.finalDays.isSome then s.release n
      else (s.sendFinal n (if seeDesk then .seeDesk else .retry) .red 0 0).release n

/-- The lane after its transaction has ended: every timer stopped, the alarm off, no window open and no
body kept; a pending role is taken, and the lane enters FREE_FLOW or its resting state (R93). -/
def State.warmLaneRest (s : State) (n : LaneId) : State :=
  let s1 := s.modLane n fun l => { l with
    window := none, lateFree := none, kept := 0, grantTimer := none, grantExpired := false, trailTimer := none
    recoveryTimer := none, holdTimer := none, alarmTimer := none }
  match (s1.lane n).pendingRole with
  | some r => s1.takeRole n r
  | none =>
    if s1.freeFlowInForce ∧ (s1.lane n).role = some .ticket then s1.enterFreeFlow n else s1.rest n

/-- The heartbeat timer at the warm reset: restarted with the reader loss time in force, but left stopped
while the status is LOST (R20). -/
def State.restartHeartbeat (s : State) (n : LaneId) : State :=
  if (s.port n).status = .lost then s
  else s.modPort n fun p => { p with heartbeat := some (s.timer s.settings.readerLossMs) }

/-- One lane and its port at the warm reset (R20, R93). -/
def State.warmLane (s : State) (n : LaneId) : State :=
  let (s1, seeDesk) := s.abandonWrite n
  ((s1.endTransactionWarm n seeDesk).warmLaneRest n).restartHeartbeat n

/-- The Maze and Loading Controller at the warm reset: an open window closes and is recorded, and the gate
takes the state of its inputs (R115). -/
def State.warmMaze (s : State) : State :=
  let s1 := s.closeChairWindow
  if s1.passThrough then s1
  else if s1.maze.liftRun then s1.setGate s1.gateRunning else s1.setGate .stopped

/-- The Passback Table at the warm reset: every PENDING entry is removed (R61). -/
def State.warmPassback (s : State) : State :=
  { s with passback := s.passback.filter (·.confirmed) }

/-- The Loop Interface and the shadows at the warm reset (R173, R177). -/
def State.warmLoop (s : State) : State :=
  { s with
    loop := { s.loop with
      link := .down, silence := none, training := none, badRun := 0, downByLoss := false
      transit := [], fairness := 0 }
    mgmt := { s.mgmt with shadows := .absent } }

/-- The warm reset (R187). The lanes are taken in order, lane 1 first, so abandoned writes store their
entries in that order (R117); that order tells too which lane's LANE_FAULT is reported (DESIGN CHOICE, log 52).
An EVENT report that is pending is queued at the end of the event if a reservation released here has freed an entry
(DESIGN CHOICE, log 53). -/
def State.warmReset (s : State) : State :=
  let s1 := LaneId.all.foldl State.warmLane s
  let s2 := { s1 with heldOrder := [] }
  s2.warmMaze.warmPassback.warmLoop

/-- COLD_RESET (R92, R161): every block at its cold state, with the pins as sampled. The queue of waiting
commands and the count of free choices are the model's own and go on. -/
def execColdReset (pins : ResetPins) (s : State) : Outcome State Fault Refusal :=
  .next { State.cold pins with pending := s.pending, choices := s.choices }

end Sys2Proof.Machine
end

