-- ==== Sys2Proof/Machine/Status.lean ====
section
/-! DEFINITION. The data READ_STATUS and READ_COUNTS answer with (R185, R186, R191). -/

namespace Sys2Proof.Machine

/-- A yes-no field of 1 byte. -/
def yesNo (b : Bool) : List Byte := bytesLE 1 (flagCode b)

/-- A per-lane field, for lanes 1 to 4 in turn (R191). -/
def perLane (f : LaneId → List Byte) : List Byte := (LaneId.all.map f).flatten

/-- The table is committed, or absent: only the lane table and the settings can be absent (R21). -/
def TableSet.committed (t : TableSet) : TableId → Bool
  | .laneTable => t.laneTable.isSome
  | .settings => t.settings.isSome
  | .blockList | .windows | .products | .categories | .watchSet | .dayQuality => true

/-- The shadow state code (section 11.7). -/
def Shadow.code : Shadow → Nat
  | .absent => 0
  | .loading _ _ => 1

/-- The own address, FFh for a pass-through chip (R191). -/
def State.addressCode (s : State) : Nat := (s.ownAddress.map BitVec.toNat).getD 0xFF

/-- Status part 0, controller (R185). -/
def State.statusController (s : State) : List Byte :=
  bytesLE 1 s.addressCode ++ bytesLE 2 s.tables.generation.toNat
    ++ (TableId.all.map fun t =>
        let sh := s.mgmt.shadows.get t
        yesNo (s.tables.committed t) ++ bytesLE 1 sh.code ++ bytesLE 1 sh.total
          ++ bytesLE 1 sh.received).flatten
    ++ bytesLE 4 s.mgmt.flags.toNat ++ bytesLE 4 s.mgmt.enables.toNat ++ bytesLE 2 s.mgmt.overruns
    ++ bytesLE 6 s.ms ++ bytesLE 4 s.time.stationTime ++ bytesLE 2 s.stationMinute
    ++ yesNo s.time.clockSet ++ bytesLE 1 s.time.dayState.code ++ bytesLE 2 s.time.seasonDay
    ++ bytesLE 2 s.time.openMinute ++ bytesLE 2 s.time.closeMinute
    ++ bytesLE 2 s.time.refundsCount ++ bytesLE 4 s.time.refundsSum
    ++ bytesLE 4 s.time.dayRun ++ bytesLE 4 s.time.intervalRun
    ++ bytesLE 2 s.time.sequence.toNat ++ bytesLE 2 (s.elapsedSeconds s.settings)
    ++ bytesLE 2 ((s.tables.settings.map (·.intervalPeriodS)).getD Config.periodBeforeSettings.toNat)
    ++ bytesLE 2 ((s.tables.settings.map (·.intervalPostscale)).getD Config.postscalerBeforeSettings.toNat)
    ++ yesNo s.freeFlowInForce ++ yesNo s.freeFlowPin ++ yesNo s.freeFlowSetting

/-- A lane's place in the held order, from 1; 0 where it is not held (R191). -/
def State.heldPlace (s : State) (n : LaneId) : Nat :=
  if s.heldOrder.contains n then s.heldOrder.idxOf n + 1 else 0

/-- Status part 1, lanes (R185). -/
def State.statusLanes (s : State) : List Byte :=
  perLane (fun n => bytesLE 1 (roleCode (s.lane n).role))
    ++ perLane (fun n => bytesLE 1 (roleCode (s.lane n).pendingRole))
    ++ perLane (fun n => bytesLE 2 (s.lane n).state.code)
    ++ perLane (fun n => bytesLE 1 (s.port n).status.code)
    ++ perLane (fun n => yesNo (s.txn n).isSome)
    ++ perLane (fun n => bytesLE 4 (((s.txn n).map fun t => t.serial.toNat).getD 0))
    ++ perLane (fun n => bytesLE 1 (s.heldPlace n))
    ++ perLane (fun n => yesNo (s.lane n).keyHigh)
    ++ perLane (fun n => yesNo (s.keyControl n))
    ++ perLane (fun n => yesNo (s.lane n).commandOpen)

/-- The ms left on the window timer. -/
def ChairWindow.left (w : ChairWindow) (ms : Nat) : Nat := w.timer.start + w.timer.duration - ms

/-- The held order as four bytes, padded with 0 (R191). -/
def State.heldBytes (s : State) : List Byte :=
  (List.range 4).map fun i => BitVec.ofNat 8 ((s.heldOrder[i]?.map LaneId.num).getD 0)

/-- Status part 2, maze and loading (R185). -/
def State.statusMaze (s : State) : List Byte :=
  bytesLE 2 s.maze.count ++ bytesLE 2 s.reservations
    ++ perLane (fun n => bytesLE 1 (s.lane n).reservation)
    ++ bytesLE 2 s.mazeLimit ++ s.heldBytes ++ bytesLE 1 s.maze.gate.code ++ yesNo s.maze.liftRun
    ++ yesNo s.maze.loadingHold
    ++ (match s.maze.window with
      | some w => bytesLE 2 w.m0 ++ bytesLE 2 w.loaded ++ bytesLE 2 w.seats ++ bytesLE 2 (w.left s.ms)
      | none => bytesLE 8 0)

/-- The refund amount of a SETTLEMENT entry, 0 for a DAY_MARK entry. -/
def DeferredEntry.refund (e : DeferredEntry) : Nat :=
  match e.kind with
  | .dayMark => 0
  | .settlement refund _ _ => refund

/-- The entry is a CONFIRMED one of LOCAL origin (R48). -/
def PassbackEntry.confirmedLocal (e : PassbackEntry) : Bool :=
  e.confirmed && (match e.origin with
    | .lane _ => true
    | .remote _ => false)

/-- The entry is a CONFIRMED one of REMOTE origin (R48). -/
def PassbackEntry.confirmedRemote (e : PassbackEntry) : Bool :=
  e.confirmed && (match e.origin with
    | .lane _ => false
    | .remote _ => true)

/-- Status part 3, tables and loop (R185). The ANSWER itself counts among the answer entries occupied. -/
def State.statusLoop (s : State) : List Byte :=
  bytesLE 2 s.passback.length
    ++ bytesLE 2 (s.passback.filter fun e => !e.confirmed).length
    ++ bytesLE 2 (s.passback.filter (·.confirmedLocal)).length
    ++ bytesLE 2 (s.passback.filter (·.confirmedRemote)).length
    ++ bytesLE 2 s.deferred.entries.length
    ++ bytesLE 2 (s.deferred.entries.filter (·.isSettlement)).length
    ++ bytesLE 4 (s.deferred.entries.map (·.refund)).sum
    ++ bytesLE 1 s.loop.link.code ++ bytesLE 2 s.loop.transit.length
    ++ bytesLE 2 (s.answersOccupied + 1) ++ bytesLE 2 s.generalOccupied ++ bytesLE 2 s.generalReserved
    ++ bytesLE 2 s.loop.pendingEvents.length
    ++ bytesLE 2 s.loop.crcErrors ++ bytesLE 2 s.loop.orphans ++ bytesLE 2 s.loop.transitDrops
    ++ bytesLE 2 s.loop.noticeDrops

/-- The lane day counters as STATUS and READ_COUNTS show them (R90, R153, R186). -/
def State.laneCounts (s : State) : List Byte := laneBlock (s.lanes.map (·.day))

/-- The fields of a status part, none for a part outside 0 to 3 (R176, R185). The day counters appear in STATUS,
as R153 says: after the fields of R185, the lane counter block ends the lanes' part and the loading counter block
that of the maze and loading. R185 names no place for them, and this one is the model's (DESIGN CHOICE,
log 46). -/
def State.statusPart (s : State) (part : Nat) : Option (List Byte) :=
  if part = 0 then some s.statusController
  else if part = 1 then some (s.statusLanes ++ s.laneCounts)
  else if part = 2 then some (s.statusMaze ++ s.maze.day.bytes)
  else if part = 3 then some s.statusLoop
  else none

/-- The data of READ_COUNTS (R186). -/
def State.countsData (s : State) : List Byte :=
  bytesLE 2 s.time.seasonDay ++ bytesLE 1 s.time.dayState.code ++ s.laneCounts ++ s.maze.day.bytes

end Sys2Proof.Machine
end

