-- ==== Sys2Proof/Machine/Commands.lean ====
section
/-! DEFINITION. The Management Unit: taking a command (R174 to R176), the twelve commands, an unknown
one, and TRANSIT_MESSAGE, which delivers a message by its type (R163). -/

namespace Sys2Proof.Machine

open Host (Outcome)

/-! ### Taking a command -/

/-- What a command leaves: the state after its effect, the status, the failing table's identifier and the
result data (R174, R176). -/
structure CommandResult where
  state  : State
  status : Status
  table  : Byte
  data   : List Byte

/-- The command is carried out. -/
def State.done (s : State) (data : List Byte) : CommandResult := ⟨s, .done, 0xFF, data⟩

/-- The command is refused and changes no state (R174). -/
def State.refused (s : State) (status : Status) : CommandResult := ⟨s, status, 0xFF, []⟩

/-- The command is refused on account of a table (R176). -/
def State.refusedTable (s : State) (status : Status) (t : TableId) : CommandResult :=
  ⟨s, status, BitVec.ofNat 8 t.id, []⟩

/-- A command that reaches the Management Unit: not carried out and counted as an overrun while four
answer entries are occupied, and otherwise carried out or refused with exactly one ANSWER (R174, R175). -/
def State.takeCommand (s : State) (code : Byte) (body : State → CommandResult) : State :=
  if 4 ≤ s.answersOccupied then
    { s with mgmt := { s.mgmt with overruns := satAdd16 s.mgmt.overruns 1 } }
  else
    let r := body s
    r.state.enqueue (.answer ⟨code, r.status, r.table, r.data⟩)

/-- The delivery of a command type: to the Management Unit from source 0 and addressed to the own
address; discarded from another source, and not delivered from broadcast (R163). -/
def State.commandDelivered (s : State) (m : Arrival) (act : State → State) : State :=
  if m.source = 0 ∧ m.destination ≠ 31 then act s else s

/-! ### The commands -/

/-- LOAD (R178). -/
def State.loadCommand (s : State) (p : List Byte) : CommandResult :=
  if p.length < 3 then s.refused .wrongState
  else match TableId.ofId (fieldLE p 0 1) with
    | none => s.refused .badSegment
    | some t =>
      match (s.mgmt.shadows.get t).load t (fieldLE p 1 1) (fieldLE p 2 1) (p.drop 3) with
      | none => s.refused .badSegment
      | some sh =>
        { s with mgmt := { s.mgmt with shadows := s.mgmt.shadows.set t sh } }.done
          (bytesLE 1 sh.received ++ bytesLE 1 sh.total)

/-- LOAD. -/
def State.deliverLoad (s : State) (m : Arrival) : State :=
  s.commandDelivered m fun s => s.takeCommand 0x01 fun s => s.loadCommand m.payload

/-- A lane's role at a COMMIT of the lane table: an unchanged role disturbs nothing and withdraws a pending
one; a changed role is taken at once in IDLE, CLOSED, FAULT, EXIT, or FREE_FLOW with no free window open,
and is otherwise pending (R64). -/
def State.commitRole (s : State) (n : LaneId) (r : Role) : State :=
  let l := s.lane n
  if l.role = some r then s.modLane n fun l => { l with pendingRole := none }
  else if l.state.atRest || (l.state == .freeFlow && l.window.isNone) then s.takeRole n r
  else s.modLane n fun l => { l with pendingRole := some r }

/-- The roles of a committed lane table, lane by lane (R64), lane 1 first: of the lanes that latch READER_LOST or
LANE_FAULT at it the lowest is reported (DESIGN CHOICE, log 52). -/
def State.commitRoles (s : State) : State :=
  match s.tables.laneTable with
  | none => s
  | some t => LaneId.all.foldl (fun s n => s.commitRole n (t.get n).role) s

/-- Entries of groups that the committed watch set no longer holds are removed (R51). -/
def State.commitWatchSet (s : State) : State :=
  { s with passback := s.passback.filter fun e => (holdOf s.tables.watchSet e.group).isSome }

/-- The named shadows become ABSENT. -/
def Shadows.clear (sh : Shadows) (named : List TableId) : Shadows :=
  named.foldl (fun sh t => sh.set t .absent) sh

/-- The swap of a successful COMMIT, with what each owner does at it (R181). Places freed by a raised
limit are given at the end of the event. A DAY_CLOSE on its way to a lane at rest reaches it with the closure
conditions (DESIGN CHOICE, log 9). -/
def State.swapTables (s : State) (named : List TableId) : State :=
  let set := tablesAfter named s.mgmt.shadows s.tables
  let s1 := { s with
    tables := { set with generation := s.tables.generation + 1 }
    mgmt := { s.mgmt with shadows := s.mgmt.shadows.clear named } }
  let s2 := if named.contains .watchSet then s1.commitWatchSet else s1
  let s3 := if named.contains .laneTable then s2.commitRoles else s2
  let s4 := if named.contains .laneTable || named.contains .settings then s3.closureChangeAll else s3
  if named.contains .settings then s4.intervalCommit s.tables.settings else s4

/-- COMMIT (R180, R181). -/
def State.commitCommand (s : State) (p : List Byte) : CommandResult :=
  match tableMaskOf p with
  | none => s.refused .wrongState
  | some named =>
    match firstIncomplete named s.mgmt.shadows with
    | some t => s.refusedTable .incomplete t
    | none =>
      match firstInvalid named s.mgmt.shadows s.tables with
      | some t => s.refusedTable .invalid t
      | none => (s.swapTables named).done (bytesLE 2 (s.tables.generation + 1).toNat)

/-- COMMIT. -/
def State.deliverCommit (s : State) (m : Arrival) : State :=
  s.commandDelivered m fun s => s.takeCommand 0x02 fun s => s.commitCommand m.payload

/-- ABORT_LOAD (R179). -/
def State.abortLoadCommand (s : State) (p : List Byte) : CommandResult :=
  match tableMaskOf p with
  | none => s.refused .wrongState
  | some named => { s with mgmt := { s.mgmt with shadows := s.mgmt.shadows.clear named } }.done []

/-- ABORT_LOAD. -/
def State.deliverAbortLoad (s : State) (m : Arrival) : State :=
  s.commandDelivered m fun s => s.takeCommand 0x03 fun s => s.abortLoadCommand m.payload

/-- LANE (R66). A DAY_CLOSE on its way to the lane reaches it at a command that is carried out too (DESIGN CHOICE,
log 9). -/
def State.laneCommand (s : State) (p : List Byte) : CommandResult :=
  match laneCommandOf p with
  | none => s.refused .wrongState
  | some (n, opened) =>
    if s.keyControl n then s.refused .keyControl
    else ((s.modLane n fun l => { l with commandOpen := opened }).closureChange n).done []

/-- LANE. -/
def State.deliverLane (s : State) (m : Arrival) : State :=
  s.commandDelivered m fun s => s.takeCommand 0x04 fun s => s.laneCommand m.payload

/-- FREE_FLOW (R84). -/
def State.freeFlowCommand (s : State) (p : List Byte) : CommandResult :=
  match onOffOf p with
  | none => s.refused .wrongState
  | some on => ({ s with freeFlowSetting := on }.freeFlowChange s.freeFlowInForce).done []

/-- FREE_FLOW. -/
def State.deliverFreeFlow (s : State) (m : Arrival) : State :=
  s.commandDelivered m fun s => s.takeCommand 0x05 fun s => s.freeFlowCommand m.payload

/-- The loading-hold setting takes a value, and the gate follows (R105). -/
def State.setLoadingHold (s : State) (on : Bool) : State :=
  let s1 := { s with maze := { s.maze with loadingHold := on } }
  match s.maze.gate, on with
  | .waiting, true => s1.setGate .held
  | .opened, true => s1.closeChairWindow.setGate .held
  | .held, false => s1.setGate .waiting
  | .held, true | .stopped, _ | .waiting, false | .opened, false => s1

/-- LOADING_HOLD (R105). -/
def State.loadingHoldCommand (s : State) (p : List Byte) : CommandResult :=
  match onOffOf p with
  | none => s.refused .wrongState
  | some on => (s.setLoadingHold on).done []

/-- LOADING_HOLD. -/
def State.deliverLoadingHold (s : State) (m : Arrival) : State :=
  s.commandDelivered m fun s => s.takeCommand 0x06 fun s => s.loadingHoldCommand m.payload

/-- READ_STATUS, with the run times brought up to date at the event (R185). -/
def State.readStatusCommand (s : State) (p : List Byte) : CommandResult :=
  match oneByte p with
  | none => s.refused .wrongState
  | some part =>
    match s.bringRunTimes.statusPart part with
    | none => s.refused .wrongState
    | some fields => s.bringRunTimes.done (bytesLE 1 part ++ fields)

/-- READ_STATUS. -/
def State.deliverReadStatus (s : State) (m : Arrival) : State :=
  s.commandDelivered m fun s => s.takeCommand 0x07 fun s => s.readStatusCommand m.payload

/-- READ_COUNTS (R186). -/
def State.readCountsCommand (s : State) (p : List Byte) : CommandResult :=
  if p.isEmpty then s.done s.countsData else s.refused .wrongState

/-- READ_COUNTS. -/
def State.deliverReadCounts (s : State) (m : Arrival) : State :=
  s.commandDelivered m fun s => s.takeCommand 0x08 fun s => s.readCountsCommand m.payload

/-- CLEAR_FLAGS (R184). -/
def State.clearFlagsCommand (s : State) (p : List Byte) : CommandResult :=
  match flagMaskOf p with
  | none => s.refused .wrongState
  | some mask => (s.clearFlagMask mask).done []

/-- CLEAR_FLAGS. -/
def State.deliverClearFlags (s : State) (m : Arrival) : State :=
  s.commandDelivered m fun s => s.takeCommand 0x09 fun s => s.clearFlagsCommand m.payload

/-- REPORT_ENABLE (R184). -/
def State.reportEnableCommand (s : State) (p : List Byte) : CommandResult :=
  match flagMaskOf p with
  | none => s.refused .wrongState
  | some mask => (s.setEnables mask).done []

/-- REPORT_ENABLE. -/
def State.deliverReportEnable (s : State) (m : Arrival) : State :=
  s.commandDelivered m fun s => s.takeCommand 0x0A fun s => s.reportEnableCommand m.payload

/-- The entries that PURGE_DEFERRED leaves: all but one serial's, or none (R127). -/
def purgeEntries (which : Option Serial) (entries : List DeferredEntry) : List DeferredEntry :=
  match which with
  | some serial => entries.filter fun e => e.serial != serial
  | none => []

/-- PURGE_DEFERRED (R127). -/
def State.purgeDeferredCommand (s : State) (p : List Byte) : CommandResult :=
  match purgeOf p with
  | none => s.refused .wrongState
  | some which =>
    let entries := purgeEntries which s.deferred.entries
    { s with deferred := { s.deferred with entries := entries } }.done
      (bytesLE 1 (s.deferred.entries.length - entries.length))

/-- PURGE_DEFERRED. -/
def State.deliverPurgeDeferred (s : State) (m : Arrival) : State :=
  s.commandDelivered m fun s => s.takeCommand 0x0B fun s => s.purgeDeferredCommand m.payload

/-- RESTART: the ANSWER is queued, and the warm reset is made at the same event (R187). An overrun or
refused RESTART makes none (R174, R175). -/
def State.restartCommand (s : State) (p : List Byte) : State :=
  if !p.isEmpty then s.takeCommand 0x0C fun s => s.refused .wrongState
  else if 4 ≤ s.answersOccupied then s.takeCommand 0x0C fun s => s.done []
  else (s.takeCommand 0x0C fun s => s.done []).warmReset

/-- RESTART. -/
def State.deliverRestart (s : State) (m : Arrival) : State :=
  s.commandDelivered m fun s => s.restartCommand m.payload

/-- A command of an unknown type is answered UNKNOWN_COMMAND under the type code received (R176). -/
def State.deliverUnknown (s : State) (type : Byte) (m : Arrival) : State :=
  s.commandDelivered m fun s => s.takeCommand type fun s => s.refused .unknownCommand

/-! ### The commands of the table -/

/-- LOAD (R178). -/
def execLoad (m : Arrival) (s : State) : Outcome State Fault Refusal :=
  .next (s.event fun s => s.receive 0x01 m fun s => s.deliverLoad m)

/-- COMMIT (R180). -/
def execCommit (m : Arrival) (s : State) : Outcome State Fault Refusal :=
  .next (s.event fun s => s.receive 0x02 m fun s => s.deliverCommit m)

/-- ABORT_LOAD (R179). -/
def execAbortLoad (m : Arrival) (s : State) : Outcome State Fault Refusal :=
  .next (s.event fun s => s.receive 0x03 m fun s => s.deliverAbortLoad m)

/-- LANE (R66). -/
def execLane (m : Arrival) (s : State) : Outcome State Fault Refusal :=
  .next (s.event fun s => s.receive 0x04 m fun s => s.deliverLane m)

/-- FREE_FLOW (R84). -/
def execFreeFlow (m : Arrival) (s : State) : Outcome State Fault Refusal :=
  .next (s.event fun s => s.receive 0x05 m fun s => s.deliverFreeFlow m)

/-- LOADING_HOLD (R105). -/
def execLoadingHold (m : Arrival) (s : State) : Outcome State Fault Refusal :=
  .next (s.event fun s => s.receive 0x06 m fun s => s.deliverLoadingHold m)

/-- READ_STATUS (R185). -/
def execReadStatus (m : Arrival) (s : State) : Outcome State Fault Refusal :=
  .next (s.event fun s => s.receive 0x07 m fun s => s.deliverReadStatus m)

/-- READ_COUNTS (R186). -/
def execReadCounts (m : Arrival) (s : State) : Outcome State Fault Refusal :=
  .next (s.event fun s => s.receive 0x08 m fun s => s.deliverReadCounts m)

/-- CLEAR_FLAGS (R184). -/
def execClearFlags (m : Arrival) (s : State) : Outcome State Fault Refusal :=
  .next (s.event fun s => s.receive 0x09 m fun s => s.deliverClearFlags m)

/-- REPORT_ENABLE (R184). -/
def execReportEnable (m : Arrival) (s : State) : Outcome State Fault Refusal :=
  .next (s.event fun s => s.receive 0x0A m fun s => s.deliverReportEnable m)

/-- PURGE_DEFERRED (R127). -/
def execPurgeDeferred (m : Arrival) (s : State) : Outcome State Fault Refusal :=
  .next (s.event fun s => s.receive 0x0B m fun s => s.deliverPurgeDeferred m)

/-- RESTART (R187). -/
def execRestart (m : Arrival) (s : State) : Outcome State Fault Refusal :=
  .next (s.event fun s => s.receive 0x0C m fun s => s.deliverRestart m)

/-- What R163 does with a message of this type that is consumed or broadcast. -/
def State.deliver (s : State) (type : Byte) (m : Arrival) : State :=
  match type.toNat with
  | 0x20 => s.timeNotice m
  | 0x21 => s.dayOpenNotice m
  | 0x22 => s.dayCloseNotice m
  | 0x23 => s.passageReceived m
  | 0x40 | 0x41 | 0x42 | 0x43 | 0x44 => s
  | 0x01 => s.deliverLoad m
  | 0x02 => s.deliverCommit m
  | 0x03 => s.deliverAbortLoad m
  | 0x04 => s.deliverLane m
  | 0x05 => s.deliverFreeFlow m
  | 0x06 => s.deliverLoadingHold m
  | 0x07 => s.deliverReadStatus m
  | 0x08 => s.deliverReadCounts m
  | 0x09 => s.deliverClearFlags m
  | 0x0A => s.deliverReportEnable m
  | 0x0B => s.deliverPurgeDeferred m
  | 0x0C => s.deliverRestart m
  | _ => s.deliverUnknown type m

/-- UNKNOWN_COMMAND (R176). -/
def execUnknownCommand (type : Byte) (m : Arrival) (s : State) : Outcome State Fault Refusal :=
  .next (s.event fun s => s.receive type m fun s => s.deliver type m)

/-- TRANSIT_MESSAGE (R162): a whole message of any type; one that is for this controller after all is
delivered by its type (R163). -/
def execTransitMessage (type : Byte) (m : Arrival) (s : State) : Outcome State Fault Refusal :=
  .next (s.event fun s => s.receive type m fun s => s.deliver type m)

end Sys2Proof.Machine
end

