-- ==== Sys2Proof/Machine/Readers.lean ====
section
/-! DEFINITION. The commands of the reader ports: CARD, GONE, WRITE_RESULT, WRITE_TIMER_EXPIRY, BEAT and
HEARTBEAT_TIMER_EXPIRY (R9 to R19). -/

namespace Sys2Proof.Machine

open Host (Outcome)

/-- What a CARD that is not taken is answered with (R13): the reason for the closure. -/
def State.closureReason (s : State) : Display :=
  if s.tables.laneTable.isNone || s.tables.settings.isNone then .noTables
  else match s.time.dayState with
    | .none => .noDay
    | .closed => .dayClosed
    | .opened => .laneClosed

/-- An answer without a transaction: one final VERDICT, RED, days remaining 0, amount 0 (R13). -/
def State.answerCard (s : State) (n : LaneId) (d : Display) : State :=
  s.send n (.verdict true d .red 0 0)

/-- A CARD at a lane in UNLOCKED or PASSING: ECHO with the days remaining of the open grant's final
VERDICT for its own serial, BUSY for another (R13). -/
def State.answerGranted (s : State) (n : LaneId) (serial : Serial) : State :=
  match s.txn n with
  | some t =>
    if t.serial = serial then s.send n (.verdict true .echo .green (t.finalDays.getD 0) 0)
    else s.answerCard n .busy
  | none => s.answerCard n .busy

/-- The transaction a taken CARD opens, with what it pins (R14, R22). -/
def State.openTransaction (s : State) (serial : Serial) (record : Record) : Transaction where
  serial := serial
  asRead := record
  present := true
  pinned := s.tables
  day := s.time.seasonDay
  minute := s.stationMinute
  card := record
  resolving := none
  row := none
  today := none
  reserved := false
  built := none
  refund := 0
  impaired := 0
  insertReserved := false
  finalDays := none

/-- A CARD is taken: the transaction is opened and its verdict runs (R14, R30, R129). -/
def State.takeCard (s : State) (n : LaneId) (serial : Serial) (record : Record) : State :=
  (s.modLane n fun l => { l with txn := some (s.openTransaction serial record) }).verdict n

/-- A CARD reaches its lane: the table of R13. -/
def State.presentCard (s : State) (n : LaneId) (serial : Serial) (record : Record) : State :=
  match (s.lane n).role with
  | some .exit | some .off => s.answerCard n .notHere
  | none => s.answerCard n s.closureReason
  | some .ticket | some .settle =>
    match (s.lane n).state with
    | .idle => s.takeCard n serial record
    | .unlocked | .passing => s.answerGranted n serial
    | .resolving | .held | .writing | .settling => s.answerCard n .busy
    | .fault => s.answerCard n .fault
    | .freeFlow => s.answerCard n .free
    | .closed => s.answerCard n s.closureReason
    | .exit => s.answerCard n .notHere

/-- CARD (R9, R13, R14). -/
def execCard (n : LaneId) (f : ReaderFrame) (s : State) : Outcome State Fault Refusal :=
  .next (match parseFrame f with
    | some (.card serial record) => s.event fun s => s.presentCard n serial record
    | some (.gone _) | some (.writeResult _ _) | some (.beat _) | none => s)

/-- A GONE for the open transaction: the card is absent, and a HELD transaction whose today is FREE ends
with GONE (R15, R43). -/
def State.cardGone (s : State) (n : LaneId) (serial : Serial) : State :=
  match s.txn n with
  | none => s
  | some t =>
    if t.serial = serial then
      let s1 := s.modTxn n fun t => { t with present := false }
      if (s.lane n).state = .held ∧ t.today = some .free then s1.refuse n .gone t.daysOnCard else s1
    else s

/-- GONE (R9, R15). -/
def execGone (n : LaneId) (f : ReaderFrame) (s : State) : Outcome State Fault Refusal :=
  .next (match parseFrame f with
    | some (.gone serial) => s.event fun s => s.cardGone n serial
    | some (.card _ _) | some (.writeResult _ _) | some (.beat _) | none => s)

/-- A WRITE_RESULT that carries the outstanding write's serial ends it; any other is discarded (R19). -/
def State.writeResult (s : State) (n : LaneId) (serial : Serial) (o : WriteOutcome) : State :=
  match (s.port n).write with
  | some w => if w.request.serial = serial then s.endWrite n w.request o else s
  | none => s

/-- WRITE_RESULT (R9, R19). -/
def execWriteResult (n : LaneId) (f : ReaderFrame) (s : State) : Outcome State Fault Refusal :=
  .next (match parseFrame f with
    | some (.writeResult serial o) => s.event fun s => s.writeResult n serial o
    | some (.card _ _) | some (.gone _) | some (.beat _) | none => s)

/-- The write timer has reached its end: TORN is delivered (R19). -/
def State.writeTimeout (s : State) (n : LaneId) : State :=
  match (s.port n).write with
  | some w => if w.timer.due s.ms then s.endWrite n w.request .torn else s
  | none => s

/-- WRITE_TIMER_EXPIRY (R19). A timer that has been stopped or is not yet due does not expire. -/
def execWriteTimerExpiry (n : LaneId) (s : State) : Outcome State Fault Refusal :=
  .next (s.event fun s => s.writeTimeout n)

/-- A good BEAT: the heartbeat timer restarts with the reader loss time in force and the status becomes
OK or FAULT (R11). -/
def State.goodBeat (s : State) (n : LaneId) (ok : Bool) : State :=
  (s.modPort n fun p => { p with heartbeat := some (s.timer s.settings.readerLossMs) }).setReaderStatus n
    (if ok then .ok else .fault)

/-- BEAT (R9, R11). -/
def execBeat (n : LaneId) (f : ReaderFrame) (s : State) : Outcome State Fault Refusal :=
  .next (match parseFrame f with
    | some (.beat ok) => s.event fun s => s.goodBeat n ok
    | some (.card _ _) | some (.gone _) | some (.writeResult _ _) | none => s)

/-- The heartbeat timer has reached its end: it stops and the status becomes LOST (R11). -/
def State.heartbeatLost (s : State) (n : LaneId) : State :=
  if timerDue (s.port n).heartbeat s.ms then
    (s.modPort n fun p => { p with heartbeat := none }).setReaderStatus n .lost
  else s

/-- HEARTBEAT_TIMER_EXPIRY (R11). -/
def execHeartbeatTimerExpiry (n : LaneId) (s : State) : Outcome State Fault Refusal :=
  .next (s.event fun s => s.heartbeatLost n)

end Sys2Proof.Machine
end

