-- ==== Sys2Proof/Machine/Dispatch.lean ====
section
/-! DEFINITION. exec: each command's meaning, one direct call for each row of spec/opcode_table.json. -/

namespace Sys2Proof.Machine

def exec (i : Instr) (s : State) : Host.Outcome State Fault Refusal :=
  match i with
  | .card n f => Sys2Proof.Machine.execCard n f s
  | .gone n f => Sys2Proof.Machine.execGone n f s
  | .writeResult n f => Sys2Proof.Machine.execWriteResult n f s
  | .writeTimerExpiry n => Sys2Proof.Machine.execWriteTimerExpiry n s
  | .beat n f => Sys2Proof.Machine.execBeat n f s
  | .heartbeatTimerExpiry n => Sys2Proof.Machine.execHeartbeatTimerExpiry n s
  | .rotateFwdStart n => Sys2Proof.Machine.execRotateFwdStart n s
  | .rotateFwdDone n => Sys2Proof.Machine.execRotateFwdDone n s
  | .rotateRevStart n => Sys2Proof.Machine.execRotateRevStart n s
  | .rotateRevDone n => Sys2Proof.Machine.execRotateRevDone n s
  | .rotateReturn n => Sys2Proof.Machine.execRotateReturn n s
  | .body n d => Sys2Proof.Machine.execBody n d s
  | .keyChange n b => Sys2Proof.Machine.execKeyChange n b s
  | .grantTimerExpiry n => Sys2Proof.Machine.execGrantTimerExpiry n s
  | .trailTimerExpiry n => Sys2Proof.Machine.execTrailTimerExpiry n s
  | .recoveryTimerExpiry n => Sys2Proof.Machine.execRecoveryTimerExpiry n s
  | .holdTimerExpiry n => Sys2Proof.Machine.execHoldTimerExpiry n s
  | .alarmTimerExpiry n => Sys2Proof.Machine.execAlarmTimerExpiry n s
  | .freeFlowPinChange b => Sys2Proof.Machine.execFreeFlowPinChange b s
  | .liftRunChange b => Sys2Proof.Machine.execLiftRunChange b s
  | .chair => Sys2Proof.Machine.execChair s
  | .windowTimerExpiry => Sys2Proof.Machine.execWindowTimerExpiry s
  | .lgBeamBody d => Sys2Proof.Machine.execLgBeamBody d s
  | .passbackEntryExpiry k g => Sys2Proof.Machine.execPassbackEntryExpiry k g s
  | .stationClockAdvance => Sys2Proof.Machine.execStationClockAdvance s
  | .intervalPrescalerExpiry => Sys2Proof.Machine.execIntervalPrescalerExpiry s
  | .intervalEnd => Sys2Proof.Machine.execIntervalEnd s
  | .time m => Sys2Proof.Machine.execTime m s
  | .dayOpen m => Sys2Proof.Machine.execDayOpen m s
  | .dayClose m => Sys2Proof.Machine.execDayClose m s
  | .passage m => Sys2Proof.Machine.execPassage m s
  | .transitMessage ty m => Sys2Proof.Machine.execTransitMessage ty m s
  | .idleFill => Sys2Proof.Machine.execIdleFill s
  | .silenceTimerExpiry => Sys2Proof.Machine.execSilenceTimerExpiry s
  | .trainingTimerExpiry => Sys2Proof.Machine.execTrainingTimerExpiry s
  | .sendEnd => Sys2Proof.Machine.execSendEnd s
  | .load m => Sys2Proof.Machine.execLoad m s
  | .commit m => Sys2Proof.Machine.execCommit m s
  | .abortLoad m => Sys2Proof.Machine.execAbortLoad m s
  | .lane m => Sys2Proof.Machine.execLane m s
  | .freeFlow m => Sys2Proof.Machine.execFreeFlow m s
  | .loadingHold m => Sys2Proof.Machine.execLoadingHold m s
  | .readStatus m => Sys2Proof.Machine.execReadStatus m s
  | .readCounts m => Sys2Proof.Machine.execReadCounts m s
  | .clearFlags m => Sys2Proof.Machine.execClearFlags m s
  | .reportEnable m => Sys2Proof.Machine.execReportEnable m s
  | .purgeDeferred m => Sys2Proof.Machine.execPurgeDeferred m s
  | .restart m => Sys2Proof.Machine.execRestart m s
  | .unknownCommand ty m => Sys2Proof.Machine.execUnknownCommand ty m s
  | .coldReset p => Sys2Proof.Machine.execColdReset p s

end Sys2Proof.Machine
end

