-- ==== Sys2Proof/Machine/Idle.lean ====
section
/-! DEFINITION. What the part does on its own while no command waits: the ms counter runs, and the
expiries that have fallen due become events (R146, R147, R157, log 3 and 5). -/

namespace Sys2Proof.Machine

/-- The expiry event, where its condition holds. -/
def dueEvent (due : Bool) (c : Instr) : List Instr := if due then [c] else []

/-- The expiry events of one lane and its port that are due. -/
def State.dueOfLane (s : State) (n : LaneId) : List Instr :=
  let l := s.lane n
  let p := s.port n
  dueEvent (timerDue (p.write.map (·.timer)) s.ms) (.writeTimerExpiry n)
    ++ dueEvent (timerDue p.heartbeat s.ms) (.heartbeatTimerExpiry n)
    ++ dueEvent (timerDue l.grantTimer s.ms) (.grantTimerExpiry n)
    ++ dueEvent (timerDue l.trailTimer s.ms) (.trailTimerExpiry n)
    ++ dueEvent (timerDue l.recoveryTimer s.ms) (.recoveryTimerExpiry n)
    ++ dueEvent (timerDue l.holdTimer s.ms) (.holdTimerExpiry n)
    ++ dueEvent (timerDue l.alarmTimer s.ms) (.alarmTimerExpiry n)

/-- Every expiry event that is due (R146). -/
def State.dueEvents (s : State) : List Instr :=
  (LaneId.all.map s.dueOfLane).flatten
    ++ dueEvent (timerDue (s.maze.window.map (·.timer)) s.ms) .windowTimerExpiry
    ++ ((s.passback.filter fun e => e.expiry ≤ s.ms).map fun e => Instr.passbackEntryExpiry e.serial e.group)
    ++ dueEvent (s.time.phase + 1000 ≤ s.ms) .stationClockAdvance
    ++ dueEvent (timerDue s.time.prescaler s.ms) .intervalPrescalerExpiry
    ++ dueEvent s.time.intervalDue .intervalEnd
    ++ dueEvent (timerDue s.loop.silence s.ms) .silenceTimerExpiry
    ++ dueEvent (timerDue s.loop.training s.ms) .trainingTimerExpiry

/-- The lane stands at rest in a state that its closure conditions no longer give: a change of the
operating day is on its way to it (R67). -/
def State.lagging (s : State) (n : LaneId) : Bool :=
  (s.lane n).state.atRest && (s.lane n).state != s.restingState n

/-- The ms counter after one more ms: 48 bits, wrapping (R146). -/
def nextMs (ms : Nat) : Nat := if ms + 1 = 2 ^ 48 then 0 else ms + 1

/-- One idle step: a change of the operating day that is on its way reaches the lanes; otherwise one of
the expiry events that are due enters the queue; otherwise the ms counter advances (log 3). -/
def State.idle (s : State) : State :=
  if LaneId.all.any s.lagging then s.event fun s => s.closureChangeAll
  else match s.dueEvents with
    | [] => { s with ms := nextMs s.ms }
    | [c] => { s with pending := [c] }
    | c :: d :: rest =>
      let due := c :: d :: rest
      { s with
        pending := [due.getD (Config.dueOrder s.choices % due.length) c]
        choices := s.choices + 1 }

end Sys2Proof.Machine
end

