-- ==== Sys2Proof/Safety.lean ====
section
/-! DEFINITION. What a safe run keeps: the laws that the spec states of the part between two events, in the
terms that the statements use. -/

namespace Sys2Proof.Machine

/-- No held lane waits beside a free place: "After every event, then, the held order is empty or the maze
count plus the reservations is at or above the maze limit" (R101). -/
def State.PlacesGiven (s : State) : Prop := s.heldOrder = [] ∨ s.placeFree = false

/-- No EVENT report waits for the end of an event, and none is pending beside a free general entry (R167,
R183). -/
def State.ReportsQueued (s : State) : Prop :=
  s.mgmt.raised = [] ∧ (s.loop.pendingEvents = [] ∨ s.generalFree = 0)

/-- The output sends a message, or both queues are empty (R168). -/
def State.OutputServed (s : State) : Prop :=
  s.loop.sending.isSome = true ∨ (s.loop.transit = [] ∧ s.loop.insertQueue = [])

/-- The part as an event leaves it: freed places are given, EVENT reports queued or pending, and a free
output has taken its message (R101, R167, R168). -/
def State.Settled (s : State) : Prop := s.PlacesGiven ∧ s.ReportsQueued ∧ s.OutputServed

/-- The maze count stays within 0-255 (R94, R97). -/
def State.MazeInRange (s : State) : Prop := s.maze.count ≤ 255

/-- The law of R49: at most 256 entries, at most one for each key, and only groups of the committed watch
set. -/
def State.PassbackLaw (s : State) : Prop :=
  s.passback.length ≤ 256
    ∧ (s.passback.map fun e => (e.serial, e.group)).Nodup
    ∧ ∀ e ∈ s.passback, (holdOf s.tables.watchSet e.group).isSome = true

/-- The entries stand in order of expiry, earliest first (R49). -/
def State.PassbackOrdered (s : State) : Prop :=
  s.passback.Pairwise fun a b => a.expiry ≤ b.expiry

/-- The law of R117: at most 32 entries and at most one for each serial. -/
def State.DeferredLaw (s : State) : Prop :=
  s.deferred.entries.length ≤ 32 ∧ (s.deferred.entries.map (·.serial)).Nodup

/-- The queues and counts of the loop side keep their bounds: 16 transit messages (R164), 4 ANSWER reports and
28 general entries, occupied and reserved together (R165), a fairness count of 0-4 (R168) and a bad run of 0-16
(R169). -/
def State.LoopBounds (s : State) : Prop :=
  s.loop.transit.length ≤ 16 ∧ s.answersOccupied ≤ 4 ∧ s.generalOccupied + s.generalReserved ≤ 28
    ∧ s.loop.fairness ≤ 4 ∧ s.loop.badRun ≤ 16

/-- What each gate state says of the lift and of loading (section 5.4). -/
def Maze.gateFits (m : Maze) : Bool :=
  match m.gate with
  | .stopped => !m.liftRun
  | .waiting | .opened => m.liftRun && !m.loadingHold
  | .held => m.liftRun && m.loadingHold

/-- The law of R103: the gate is open exactly while a chair window is open, and only while LIFT_RUN is high
and loading is not held. The gate of a pass-through chip stays STOPPED (R114). -/
def State.GateLaw (s : State) : Prop :=
  (s.maze.gate = .opened ↔ s.maze.window.isSome = true)
    ∧ (if s.passThrough then s.maze.gate = .stopped else s.maze.gateFits = true)

/-- No window counts more bodies than its seats: an open window has a seat left (R103, R108), and the seats
in force are at least 1 (R107). -/
def State.SeatsLaw (s : State) : Prop :=
  (∀ w ∈ s.maze.window, w.loaded < w.seats) ∧ 1 ≤ s.settings.seats

/-! ### Terms of the statements -/

/-- A latch of this flag makes no EVENT report: the flag is set already, or its enable is off (R183). -/
def State.LatchesSilently (s : State) (f : Flag) : Prop := s.flagSet f = true ∨ s.flagEnabled f = false

/-- `s` with the bit of a flag set. -/
def State.withFlag (s : State) (f : Flag) : State :=
  { s with mgmt := { s.mgmt with flags := s.mgmt.flags ||| f.bit } }

/-- `s` when one more message has been queued and the output has made its choice: the message stands last
in the send order while the output is busy, and is sent at once on an output that sent idle fill (R165,
R168). -/
def State.offered (s : State) (o : Outgoing) : State :=
  if s.loop.sending.isSome then
    { s with loop := { s.loop with insertQueue := s.loop.insertQueue ++ [o] } }
  else { s with loop := { s.loop with sending := some (o.message s.ownByte), fairness := 0 } }

/-- `s` when an event has made this EVENT report: it takes a free general entry, or is pending where none is free
(R167, R183). A pass-through chip originates none (R161). -/
def State.reported (s : State) (r : EventReport) : State :=
  if s.generalFree = 0 then { s with loop := { s.loop with pendingEvents := s.loop.pendingEvents ++ [r] } }
  else if s.ownAddress.isNone then s else s.offered (.event r)

/-- `s` with a flag latched at an event: it is set, and from clear to set with its enable on one EVENT report is
made with the station time and the detail, unless one of that flag is still pending (R182, R183). -/
def State.latched (s : State) (f : Flag) (detail : Nat) : State :=
  if s.flagSet f then s
  else if s.flagEnabled f && !s.eventPending f then
    (s.withFlag f).reported ⟨f, s.time.stationTime, detail⟩
  else s.withFlag f

/-- `s` after the part has heard a message that passes test 1 with its link UP: the bad run is 0 and the
silence timer runs afresh (R169). -/
def State.heard (s : State) : State :=
  { s with loop := { s.loop with badRun := 0, silence := some ⟨s.ms, 200⟩ } }

/-- The message reaches test 4 of R162 with the link UP: intact, of another source, and below 30 hops. -/
def State.Accepts (s : State) (type : Byte) (m : Arrival) : Prop :=
  s.loop.link = .up ∧ arrivalIntact type m = true ∧ s.isOwn m.source = false ∧ m.hops.toNat < 30

/-- The message is consumed by this controller (R162, test 4). -/
def State.Consumes (s : State) (type : Byte) (m : Arrival) : Prop :=
  s.Accepts type m ∧ s.isOwn m.destination = true

/-- The message is processed by this controller: it is consumed, or it is a broadcast that a controller with
an address processes (R161, R162, tests 4 and 5). -/
def State.Processes (s : State) (type : Byte) (m : Arrival) : Prop :=
  s.Accepts type m ∧ s.ownAddress.isSome = true ∧ (s.isOwn m.destination = true ∨ m.destination = 31)

/-- A command of this type is delivered to the Management Unit with an answer entry free (R163, R175). -/
def State.TakesCommand (s : State) (type : Byte) (m : Arrival) : Prop :=
  s.Settled ∧ s.Consumes type m ∧ m.source = 0 ∧ m.destination ≠ 31 ∧ s.answersOccupied < 4

/-- `s` with lane `n` replaced. -/
def State.withLane (s : State) (n : LaneId) (l : Lane) : State := { s with lanes := s.lanes.set n l }

/-- `s` with port `n` replaced. -/
def State.withPort (s : State) (n : LaneId) (p : Port) : State := { s with ports := s.ports.set n p }

/-- `l` with `k` added to a counter, in the day and in the interval (R90). -/
def Lane.counting (l : Lane) (c : LaneCounter) (k : Nat) : Lane :=
  { l with day := l.day.add c k, interval := l.interval.add c k }

/-- `p` after it has sent these frames. -/
def Port.sending (p : Port) (fs : List ReaderTx) : Port := { p with tx := p.tx ++ fs }

/-- A lane of this role that stands in IDLE and takes a CARD: it holds nothing, and its reader is up (R13, R14).
A DAY_CLOSE may still be on its way to it (R31, R67). -/
def State.Opens (s : State) (n : LaneId) (r : Role) : Prop :=
  (s.lane n).role = some r ∧ (s.lane n).state = .idle ∧ s.restingState n ≠ .fault
    ∧ (s.lane n).txn = none ∧ (s.lane n).pendingRole = none ∧ (s.lane n).holdTimer = none
    ∧ n ∉ s.heldOrder

/-- A lane of this role, TICKET or SETTLE, at rest that takes a CARD of this serial and reaches the resolution
step (R13, R14, R30 to R32, R129, R130): it stands in IDLE as its conditions give, holds nothing, the day is not
CLOSED and no other lane holds the serial. -/
def State.Resolves (s : State) (n : LaneId) (r : Role) (serial : Serial) : Prop :=
  (s.lane n).role = some r ∧ (s.lane n).state = .idle ∧ s.restingState n = .idle
    ∧ (s.lane n).txn = none ∧ (s.lane n).pendingRole = none ∧ (s.lane n).holdTimer = none
    ∧ n ∉ s.heldOrder ∧ s.time.dayState ≠ .closed ∧ s.openElsewhere n serial = false

/-- As Resolves, with no deferred entry for the serial (R33). -/
def State.TakesCard (s : State) (n : LaneId) (r : Role) (serial : Serial) : Prop :=
  s.Resolves n r serial ∧ s.deferredFind serial = none

/-- The display code of a CARD that a lane answers without a transaction, by the table of R13; none where
the lane takes the CARD or answers it for a grant at its barrier. -/
def State.cardAnswer (s : State) (n : LaneId) : Option Display :=
  match (s.lane n).role, (s.lane n).state with
  | some .exit, _ | some .off, _ => some .notHere
  | some .ticket, .resolving | some .ticket, .held | some .ticket, .writing | some .ticket, .settling
  | some .settle, .resolving | some .settle, .writing => some .busy
  | some .ticket, .fault | some .settle, .fault => some .fault
  | some .ticket, .freeFlow => some .free
  | some .ticket, .closed | some .settle, .closed =>
    some (if s.tables.laneTable.isNone ∨ s.tables.settings.isNone then .noTables
      else if s.time.dayState = .none then .noDay
      else if s.time.dayState = .closed then .dayClosed
      else .laneClosed)
  | none, _ => if s.tables.laneTable.isNone then some .noTables else none
  | _, _ => none

/-- `t` with MAZE_FULL set if the maze had a place free in `before` and has none in `t` (R100). -/
def State.markFull (t before : State) : State :=
  if before.placeFree = true ∧ t.placeFree = false then t.withFlag .mazeFull else t

/-- Counters that take a recorded chair window: its bin and its lost seats (R110). -/
def LoadingCounters.recording (c : LoadingCounters) (w : ChairWindow) : LoadingCounters :=
  { c.addBin w.loaded with lostSeats := satAdd16 c.lostSeats (min w.seats w.m0 - w.loaded) }

/-- `m` with its chair window recorded and closed, if one is open (R110). -/
def Maze.recorded (m : Maze) : Maze :=
  match m.window with
  | some w => { m with day := m.day.recording w, interval := m.interval.recording w, window := none }
  | none => m

/-- `s` with a message at the tail of the transit FIFO, or sent at once on an output that sent idle fill; a
full FIFO drops it (R164, R168). -/
def State.passedOn (s : State) (m : LoopMessage) : State :=
  if s.loop.sending.isNone then { s with loop := { s.loop with sending := some m, fairness := 0 } }
  else if s.loop.transit.length < 16 then { s with loop := { s.loop with transit := s.loop.transit ++ [m] } }
  else { s with loop := { s.loop with transitDrops := satAdd16 s.loop.transitDrops 1 } }

/-- `t`, the part after a message has been processed in `s`, with the message passed on if it was a broadcast
(R162, R164). -/
def State.onward (t s : State) (type : Byte) (m : Arrival) : State :=
  if s.isOwn m.destination then t
  else t.passedOn ⟨type, m.destination, m.source, m.hops + 1, m.payload⟩

/-- The frames that end a transaction without a grant: the final VERDICT and RELEASE (R16, R17). -/
def endFrames (d : Display) (serial : Serial) : List ReaderTx := [.verdict true d .red 0 0, .release serial]

/-- `p` without the request that waits, and with its outstanding write handed over: a grant write to `heir`, a
resolution write to nobody (R18, R34, R82, R85). -/
def Port.disowned (p : Port) (heir : WriteOwner) : Port :=
  { p with
    waiting := none
    write := p.write.map fun w => match w.request.owner with
      | .grant => { w with request := { w.request with owner := heir } }
      | .resolution => { w with request := { w.request with owner := .ended } }
      | _ => w }

/-- The lane with its transaction released (R17). -/
def Lane.released (l : Lane) : Lane := { l with txn := none, holdTimer := none }

/-- The lane after a lapse (R76): lapsed + 1, no window and no timer of the grant; a window before its
ROTATE_FWD_DONE leaves its bodies with the rotation. The trail timer of a free window that has outlived FREE_FLOW
runs on, the model's choice (log 29). -/
def Lane.lapsed (l : Lane) : Lane :=
  { l.released with
    window := none
    kept := match l.window with
      | some ⟨k, false⟩ => k
      | _ => l.kept
    grantTimer := none
    grantExpired := false
    trailTimer := if l.lateFree.isSome then l.trailTimer else none
    recoveryTimer := none }.counting .lapsed 1

/-- The maze credit of a lapse: the bodies of a window in its trail, at least 1 (R76). -/
def Lane.lapseCredit (l : Lane) : Nat :=
  match l.window with
  | some ⟨k, true⟩ => max 1 k
  | _ => 0

/-- The lane as an unlock leaves it (R46, R71): granted + 1 and the grant timer, in UNLOCKED, or in PASSING with
the arm's locked rotation and its bodies taken over. A rotation begun in FREE_FLOW is no locked one and is not
taken over, the model's reading (log 29). -/
def Lane.unlocking (l : Lane) (grant : Timer) : Lane :=
  let granted : Lane :=
    { l with state := .unlocked, grantTimer := some grant, grantExpired := false }.counting .granted 1
  if l.arm = .forward ∧ l.lateFree = none then
    { granted with state := .passing, window := some ⟨l.kept, false⟩, kept := 0 }
  else granted

/-- The moment of the grant of `t` on lane `n`, which stands as `l`: SETTLING while its recovery timer runs, and
otherwise the unlock with its passback entry (R46, R52), whose hold is the pinned one (log 49). -/
def State.grantedAt (s : State) (n : LaneId) (l : Lane) (t : Transaction) : State :=
  if l.recoveryTimer.isSome then s.withLane n { l with txn := some t, state := .settling }
  else (s.passbackUnlock n t).withLane n
    ({ l with txn := some t }.unlocking ⟨s.ms, t.pinned.settingsInForce.grantTimeS * 1000⟩)

/-- A decrement of 1 gives no held lane a place: none is held, or the maze count plus the reservations stands above
the limit, as after a COMMIT that has lowered it (R99, R101). -/
def State.NoPlaceDue (s : State) : Prop := s.heldOrder = [] ∨ s.mazeLimit < s.mazeSum

/-- Lane `m` waits first in the held order of a maze that is full to the last place, and its transaction `t` can
carry on at step 13: by the unlock, or with its card present (R41, R101). -/
def State.AwaitsPlace (s : State) (m : LaneId) (rest : List LaneId) (t : Transaction) : Prop :=
  s.heldOrder = m :: rest ∧ s.mazeSum = s.mazeLimit ∧ (s.lane m).txn = some t ∧ t.reserved = false
    ∧ (t.today = some .free → t.present = true)
    ∧ s.LatchesSilently .passbackEvict ∧ s.LatchesSilently .cloneSuspect

/-- The place that has fallen free in `s` is given to lane `m` with the transaction `t` (R41, R101): it leaves the
held order, its hold timer stops, its transaction takes the reservation, and step 13 follows: the day is written
to the card, or a day already USED is granted with the days remaining of the record now on the card (R44, log 48). -/
def State.placeGiven (s : State) (m : LaneId) (rest : List LaneId) (t : Transaction) : State :=
  let given : State := { s with heldOrder := rest }
  let l : Lane := { s.lane m with holdTimer := none }
  let p := s.port m
  if t.today = some .free then
    let marked := Record.dayMarked t.card (t.day - Record.first t.card)
    let request : WriteRequest := ⟨t.serial, marked, .grant⟩
    (given.withPort m (if p.write.isNone
        then { p.sending [.write t.serial marked] with write := some ⟨request, ⟨s.ms, 1000⟩⟩ }
        else { p with waiting := some request })).withLane m
      { l with txn := some { t with reserved := true, built := some marked }, state := .writing }
  else
    let days := Record.daysRemaining t.serial t.card
    (given.grantedAt m l { t with reserved := true, finalDays := some days }).withPort m
      (p.sending [.verdict true .grant .green days 0])

/-- READER_DOWN finds the lane in IDLE or CLOSED, or with an open transaction and no role pending; where the
transaction holds a place, no lane waits for it (R81). -/
def State.GoesDown (s : State) (n : LaneId) : Prop :=
  (s.lane n).state = .idle ∨ (s.lane n).state = .closed
    ∨ ((s.lane n).pendingRole = none ∧ ∃ t, (s.lane n).txn = some t ∧ t.insertReserved = false
      ∧ (((s.lane n).state = .resolving ∨ (s.lane n).state = .held) ∧ t.reserved = false
        ∨ s.heldOrder = [] ∧ ((s.lane n).role = some .ticket ∧ (s.lane n).state = .writing
          ∨ (s.lane n).state = .settling ∨ (s.lane n).state = .unlocked ∨ (s.lane n).state = .passing)))

/-- READER_DOWN on lane `n`, whose port then stands as `p`, by the table of R81: the lane is in FAULT, with
LANE_FAULT set. From rest nothing else happens; in RESOLVING and HELD the card is told FAULT and released; in
WRITING likewise, and the grant write becomes an orphan (R82); in SETTLING the transaction is released; in
UNLOCKED and PASSING the grant lapses (R76). -/
def State.wentDown (s : State) (n : LaneId) (p : Port) : State :=
  let l := s.lane n
  let down (p : Port) (l : Lane) : State :=
    ((s.withPort n p).withLane n { l with state := .fault, recoveryTimer := none }).withFlag .laneFault
  match l.state, l.txn with
  | .resolving, some t | .held, some t =>
    { down ((p.disowned .ended).sending (endFrames .fault t.serial)) l.released with
      heldOrder := s.heldOrder.filter (· != n) }
  | .writing, some t =>
    down ((p.disowned (.orphan (Record.issue t.card) t.day)).sending (endFrames .fault t.serial)) l.released
  | .settling, some t => down (p.sending [.release t.serial]) l.released
  | .unlocked, some t | .passing, some t =>
    { down (p.sending [.release t.serial]) l.lapsed with
      passback := s.passback.filter fun e : PassbackEntry => !e.isGrantOf n t
      maze := { s.maze with count := min 255 (s.maze.count + l.lapseCredit) } }
  | _, _ => down p l

/-- A TICKET lane that the begin of free-flow takes into FREE_FLOW: every one that does not stand in it already
(R85, R87). -/
def Lane.entersFreeFlow (l : Lane) : Bool := l.role == some .ticket && l.state != .freeFlow

/-- The lane has a grant at its barrier, which the begin of free-flow and READER_DOWN make lapse (R76). -/
def Lane.atBarrier (l : Lane) : Bool := l.txn.isSome && (l.state == .unlocked || l.state == .passing)

/-- The counters of a lane whose free window has outlived FREE_FLOW, if that window closes now: one in its trail
counts a free passage (R86; that it closes at a role change and at the begin of free-flow is log 29 and 31). -/
def Lane.trailCounted (l : Lane) : Lane := if l.lateFree.any (·.trail) then l.counting .free 1 else l

/-- The maze credit of that window (R86). -/
def Lane.trailCredit (l : Lane) : Nat :=
  match l.lateFree with
  | some ⟨k, true⟩ => max 1 k
  | _ => 0

/-- A lane taken into FREE_FLOW: its transaction ended, its timers stopped, and a rotation in progress taken over
into a free window with the bodies counted so far (R85). The free window of a rotation begun in an earlier
free-flow goes on as that rotation's; one in its trail, whose timer stops, closes with free + 1, the model's
choice (log 31). -/
def Lane.freed (l : Lane) : Lane :=
  let ended := if l.atBarrier then l.lapsed else l.released
  { ended.trailCounted with
    state := .freeFlow
    window := match l.lateFree with
      | some ⟨k, false⟩ => some ⟨k, false⟩
      | _ => if l.arm = .forward then some ⟨ended.kept, false⟩ else none
    lateFree := none
    kept := 0
    grantTimer := none
    grantExpired := false
    trailTimer := none
    holdTimer := none
    recoveryTimer := none }

/-- The maze credits of a lane taken into FREE_FLOW: its lapse's (R76, R85), and that of a free window closed in
its trail (log 31). -/
def Lane.freedCredit (l : Lane) : Nat :=
  (if l.atBarrier then l.lapseCredit else 0) + l.trailCredit

/-- The port of a lane taken into FREE_FLOW, with the frames that end its transaction and its write handed over
(R85). -/
def Port.freed (p : Port) (l : Lane) : Port :=
  match l.state, l.txn with
  | .resolving, some t | .held, some t => (p.disowned .ended).sending (endFrames .free t.serial)
  | .writing, some t =>
    (p.disowned (.freeFlowGrant (Record.issue t.card) t.day)).sending (endFrames .free t.serial)
  | .settling, some t | .unlocked, some t | .passing, some t => p.sending [.release t.serial]
  | _, _ => p

/-- No role is pending on a lane that free-flow takes, every transaction there stands in one of the states of
R85's table, and only such lanes are held (R40, R85). -/
def State.FreeFlowFinds (s : State) : Prop :=
  (∀ n, (s.lane n).entersFreeFlow = true → (s.lane n).pendingRole = none
    ∧ ∀ t, (s.lane n).txn = some t → t.insertReserved = false ∧ (s.lane n).state.atRest = false)
  ∧ ∀ n ∈ s.heldOrder, (s.lane n).entersFreeFlow = true ∧ (s.lane n).txn.isSome = true

/-- The begin of free-flow: every TICKET lane is taken into FREE_FLOW, no lane is held, the PENDING entries of the
grants that lapse are removed, and the maze takes the credits (R54, R76, R85). -/
def State.freeFlowBegun (s : State) : State :=
  let port (n : LaneId) : Port :=
    if (s.lane n).entersFreeFlow then (s.port n).freed (s.lane n) else s.port n
  let credit (n : LaneId) : Nat := if (s.lane n).entersFreeFlow then (s.lane n).freedCredit else 0
  { s with
    lanes := s.lanes.map fun l : Lane => if l.entersFreeFlow then l.freed else l
    ports := ⟨port .l1, port .l2, port .l3, port .l4⟩
    heldOrder := []
    passback := s.passback.filter fun e : PassbackEntry => !LaneId.all.any fun n : LaneId =>
      (s.lane n).entersFreeFlow && (s.lane n).atBarrier && (s.lane n).txn.any fun t => e.isGrantOf n t
    maze := { s.maze with count := min 255 (s.maze.count + credit .l1 + credit .l2 + credit .l3 + credit .l4) } }

/-- A TICKET lane with its free window closed and free-flow ended: it leaves FREE_FLOW for its resting state,
with its recovery timer started if that is IDLE (R77, R87). -/
def State.leftFree (s : State) (n : LaneId) (l : Lane) : Lane :=
  { l with
    state := s.restingState n
    recoveryTimer := match s.restingState n with
      | .idle =>
        if s.settings.recoveryTimeMs = 0 then l.recoveryTimer else some ⟨s.ms, s.settings.recoveryTimeMs⟩
      | .fault => none
      | _ => l.recoveryTimer }

/-- `p` after its outstanding write has ended: a request that waited is sent and is outstanding with its own timer
(R18, R19). -/
def Port.writeEnded (p : Port) (ms : Nat) : Port :=
  match p.waiting with
  | none => { p with write := none }
  | some w =>
    { p.sending [.write w.serial w.record] with waiting := none, write := some ⟨w, ⟨ms, 1000⟩⟩ }

/-- The deferred entry that the write outstanding on port `n` leaves when a warm reset abandons it, as though it had
ended TORN: none for a resolution write (R20, R118, R119). -/
def State.warmOffer (s : State) (n : LaneId) : Option DeferredEntry :=
  match (s.port n).write with
  | none => none
  | some w => match w.request.owner, (s.lane n).txn with
    | .grant, some t => some (dayMarkEntry t.serial (Record.issue t.card) w.request.record t.day n)
    | .settlement, some t => some (settlementEntry t w.request.record n)
    | .orphan issue day, _ | .freeFlowGrant issue day, _ =>
      some (dayMarkEntry w.request.serial issue w.request.record day n)
    | _, _ => none

/-- `x` after the entries that a warm reset of `s` offers for these lanes have met the table, one after the other
(R117, R120, R121). -/
def State.offering (x s : State) (lanes : List LaneId) : State :=
  lanes.foldl (fun x n => match s.warmOffer n with
    | some e => (x.deferredOffer e).1
    | none => x) x

/-- The SETTLEMENT entry that a warm reset offers for lane `n`, after those of the lanes before it, is not stored
(R121, R143). -/
def State.seesDesk (s : State) (n : LaneId) : Bool :=
  match s.warmOffer n with
  | some e => e.isSettlement && !((s.offering s (LaneId.all.take (n.num - 1))).deferredOffer e).2
  | none => false

/-- The frames with which a warm reset ends lane `n`'s transaction: RELEASE alone for a grant at its barrier and
where the final VERDICT has been sent, and else the final VERDICT RETRY, or SEE_DESK, before it (R16, R20, R93). -/
def State.warmFrames (s : State) (n : LaneId) : List ReaderTx :=
  match (s.lane n).txn with
  | none => []
  | some t =>
    if (s.lane n).atBarrier || t.finalDays.isSome then [.release t.serial]
    else endFrames (if s.seesDesk n then .seeDesk else .retry) t.serial

/-- The key and command conditions apart, the lane is open: tables committed, the day OPEN, the reader up
(R65). -/
def State.OtherwiseOpen (s : State) (n : LaneId) : Prop :=
  s.tables.laneTable.isSome = true ∧ s.tables.settings.isSome = true ∧ s.time.dayState = .opened
    ∧ s.readerUp n = true

/-- The lane stands in IDLE or CLOSED. -/
def State.Resting (s : State) (n : LaneId) : Prop :=
  (s.lane n).state = .idle ∨ (s.lane n).state = .closed

end Sys2Proof.Machine
end

