-- ==== Sys2Proof/WellFormed.lean ====
section
/-! DEFINITION. Which commands are well-formed: the operand is one that the command's own row stands for. -/

namespace Sys2Proof

/-- The type codes of the twelve commands, 01h to 0Ch (section 11.7). -/
def isCommandType (t : Byte) : Bool := 1 ≤ t.toNat && t.toNat ≤ 12

/-- The type codes of the four notices, 20h to 23h (section 11.4). -/
def isNoticeType (t : Byte) : Bool := 0x20 ≤ t.toNat && t.toNat ≤ 0x23

/-- The type codes of the reports and of REFUND, 40h to 44h (section 11.4). -/
def isReportType (t : Byte) : Bool := 0x40 ≤ t.toNat && t.toNat ≤ 0x44

/-- The frame belongs to the row with this type code: it carries that code, or a code that none of the
four received frames has and that R9 therefore discards. -/
def ReaderFrame.belongsTo (f : ReaderFrame) (code : Byte) : Bool :=
  f.type == code || f.type.toNat == 0 || 4 < f.type.toNat

/-- A command whose operand is one of its own row's. Everything else about an operand (a CRC, a length,
a value) is for the part to check, by R9, R162, R176 and R189. -/
def Instr.WellFormed : Instr → Bool
  | .card _ f => f.belongsTo 0x01
  | .gone _ f => f.belongsTo 0x02
  | .writeResult _ f => f.belongsTo 0x03
  | .beat _ f => f.belongsTo 0x04
  | .passbackEntryExpiry serial group => serial != 0 && group ≤ 63
  | .unknownCommand t _ => !(isCommandType t || isNoticeType t || isReportType t)
  | .writeTimerExpiry _ | .heartbeatTimerExpiry _ | .rotateFwdStart _ | .rotateFwdDone _
  | .rotateRevStart _ | .rotateRevDone _ | .rotateReturn _ | .body _ _ | .keyChange _ _
  | .grantTimerExpiry _ | .trailTimerExpiry _ | .recoveryTimerExpiry _ | .holdTimerExpiry _
  | .alarmTimerExpiry _ | .freeFlowPinChange _ | .liftRunChange _ | .chair | .windowTimerExpiry
  | .lgBeamBody _ | .stationClockAdvance | .intervalPrescalerExpiry | .intervalEnd
  | .time _ | .dayOpen _ | .dayClose _ | .passage _ | .transitMessage _ _ | .idleFill
  | .silenceTimerExpiry | .trainingTimerExpiry | .sendEnd | .load _ | .commit _ | .abortLoad _
  | .lane _ | .freeFlow _ | .loadingHold _ | .readStatus _ | .readCounts _ | .clearFlags _
  | .reportEnable _ | .purgeDeferred _ | .restart _ | .coldReset _ => true

end Sys2Proof
end

