-- ==== Sys2Proof/Certificates/Slice0/Obligations.lean ====
section
/-! DEFINITION. The statements for the provers. A result statement gives the exact state that the command
leaves, for every part that stands as an event leaves it (State.Settled, the law that SettledKept states), so
that it says at once what the command changes and that it changes nothing else. -/

open Sys2Proof Sys2Proof.Machine

/-! ### The part as a whole -/

/-- A step runs the command at the front of the queue on the state with the queue's rest, and an empty queue
makes an idle step (the model's choice, log 3 and 33). -/
def Obligations.StepRunsFrontCommand : Prop :=
  ∀ s : State,
    (∀ c rest, s.pending = c :: rest → step s = exec c { s with pending := rest })
      ∧ (s.pending = [] → step s = .next s.idle)

/-- COLD_RESET leaves each block at the state its chapter gives, with the pins as sampled (R11, R20, R21, R92,
R114, R117, R147, R149, R157, R161, R172, R182; also R40, R146, R153, R154 and R177). -/
def Obligations.ColdResetValues : Prop :=
  ∀ (pins : ResetPins) (s : State), ∃ t, exec (.coldReset pins) s = .next t
    ∧ t.ms = 0 ∧ t.time.stationTime = 0 ∧ t.time.clockSet = false
    ∧ t.time.dayState = .none ∧ t.time.seasonDay = 0 ∧ t.time.openMinute = 0 ∧ t.time.closeMinute = 0
    ∧ t.time.refundsCount = 0 ∧ t.time.refundsSum = 0 ∧ t.time.dayRun = 0 ∧ t.time.intervalRun = 0
    ∧ t.time.prescaler = none ∧ t.time.periodCount = 0 ∧ t.time.postscaleCount = 0 ∧ t.time.sequence = 0
    ∧ t.tables.generation = 0 ∧ t.tables.blockList = [] ∧ t.tables.watchSet = []
    ∧ t.tables.windows.length = 8
    ∧ (∀ w ∈ t.tables.windows, w.enable = false ∧ w.action = .refuse)
    ∧ t.tables.products = [] ∧ t.tables.categories = [1000, 1000, 1000, 1000, 1000]
    ∧ t.tables.dayQuality = [] ∧ t.tables.laneTable = none ∧ t.tables.settings = none
    ∧ (∀ n, (t.lane n).role = none ∧ (t.lane n).pendingRole = none ∧ (t.lane n).state = .closed
        ∧ (t.lane n).arm = .atRest ∧ (t.lane n).kept = 0 ∧ (t.lane n).txn = none
        ∧ (t.lane n).window = none ∧ (t.lane n).lateFree = none
        ∧ (t.lane n).grantTimer = none ∧ (t.lane n).grantExpired = false ∧ (t.lane n).trailTimer = none
        ∧ (t.lane n).recoveryTimer = none ∧ (t.lane n).holdTimer = none ∧ (t.lane n).alarmTimer = none
        ∧ (t.lane n).commandOpen = true ∧ (t.lane n).keyHigh = pins.keys.get n
        ∧ (t.lane n).day = .zero ∧ (t.lane n).interval = .zero)
    ∧ (∀ n, (t.port n).status = .none ∧ (t.port n).heartbeat = some ⟨0, 1000⟩ ∧ (t.port n).write = none
        ∧ (t.port n).waiting = none)
    ∧ t.heldOrder = [] ∧ t.passback = [] ∧ t.deferred.entries = []
    ∧ t.maze.count = 0 ∧ t.reservations = 0 ∧ t.maze.loadingHold = false ∧ t.maze.window = none
    ∧ t.maze.liftRun = pins.liftRun ∧ t.maze.day = .zero ∧ t.maze.interval = .zero
    ∧ t.ownAddress = (if pins.address = 0 ∨ pins.address = 31 then none else some pins.address)
    ∧ t.maze.gate = (if pins.liftRun ∧ t.ownAddress.isSome then .waiting else .stopped)
    ∧ t.loop.link = .down ∧ t.loop.silence = none ∧ t.loop.training = none ∧ t.loop.badRun = 0
    ∧ t.loop.transit = [] ∧ t.loop.insertQueue = [] ∧ t.loop.sending = none ∧ t.loop.fairness = 0
    ∧ t.loop.pendingEvents = [] ∧ t.loop.crcErrors = 0 ∧ t.loop.orphans = 0 ∧ t.loop.transitDrops = 0
    ∧ t.loop.noticeDrops = 0
    ∧ t.mgmt.flags = 0 ∧ t.mgmt.enables = 0 ∧ t.mgmt.overruns = 0 ∧ t.mgmt.shadows = .absent
    ∧ t.freeFlowPin = pins.freeFlow ∧ t.freeFlowSetting = false

/-- The laws of the part hold after every cold reset, and so at State.reset. -/
def Obligations.LawsHoldAtReset : Prop :=
  State.reset = State.cold resetPins
    ∧ ∀ pins : ResetPins,
      (State.cold pins).Settled ∧ (State.cold pins).MazeInRange ∧ (State.cold pins).GateLaw
        ∧ (State.cold pins).SeatsLaw ∧ (State.cold pins).PassbackLaw ∧ (State.cold pins).PassbackOrdered
        ∧ (State.cold pins).DeferredLaw ∧ (State.cold pins).LoopBounds

/-- After every step no held lane waits beside a free place (R101), no EVENT report waits beside a free
general entry (R167) and no queued message waits for a free output (R168). -/
def Obligations.SettledKept : Prop :=
  ∀ s t : State, s.Settled → step s = .next t → t.Settled

/-- Every step keeps the maze count within 0-255 (R94, R97), the gate as its inputs say and open exactly while
a window is open (R103), and an open window below its seats (R103, R108). -/
def Obligations.MazeLawsKept : Prop :=
  ∀ s t : State, step s = .next t →
    (s.MazeInRange → t.MazeInRange) ∧ (s.GateLaw → t.GateLaw) ∧ (s.SeatsLaw → t.SeatsLaw)

/-- Every step keeps the law of the Passback Table and the order of its entries (R49). -/
def Obligations.PassbackLawsKept : Prop :=
  ∀ s t : State, step s = .next t →
    (s.PassbackLaw → t.PassbackLaw) ∧ (s.PassbackOrdered → t.PassbackOrdered)

/-- Every step keeps the law of the Deferred Write Table (R117). -/
def Obligations.DeferredLawKept : Prop :=
  ∀ s t : State, s.DeferredLaw → step s = .next t → t.DeferredLaw

/-- Every step keeps the bounds of the transit FIFO, of the answer and the general entries of the insert queue,
of the fairness count and of the bad run (R164, R165, R168, R169). -/
def Obligations.LoopBoundsKept : Prop :=
  ∀ s t : State, s.LoopBounds → step s = .next t → t.LoopBounds

/-! ### Reader ports: frames, CARD and GONE -/

/-- A frame whose CRC or length byte does not fit its bytes, or whose type is none of 01h to 04h, has no
effect, whichever of the four rows it arrives on (R9). -/
def Obligations.BadFrameDiscarded : Prop :=
  ∀ (s : State) (n : LaneId) (f : ReaderFrame),
    (f.crc ≠ crc16 (f.type :: f.length :: f.fields) ∨ f.length.toNat ≠ f.fields.length
      ∨ f.type.toNat = 0 ∨ 4 < f.type.toNat) →
    exec (.card n f) s = .next s ∧ exec (.gone n f) s = .next s
      ∧ exec (.writeResult n f) s = .next s ∧ exec (.beat n f) s = .next s

/-- A CARD that opens no transaction is answered with one final VERDICT and changes nothing else: with the
code of R13's table; and at a grant's barrier with ECHO for the grant's own serial, with BUSY for another. -/
def Obligations.CardAnswered : Prop :=
  ∀ (s : State) (n : LaneId) (f : ReaderFrame) (serial : Serial) (record : Record),
    s.Settled → parseFrame f = some (.card serial record) →
    (∀ d, s.cardAnswer n = some d →
      exec (.card n f) s = .next (s.withPort n ((s.port n).sending [.verdict true d .red 0 0])))
    ∧ (∀ t, (s.lane n).role = some .ticket → (s.lane n).state = .unlocked ∨ (s.lane n).state = .passing →
        (s.lane n).txn = some t →
        exec (.card n f) s = .next (s.withPort n ((s.port n).sending
          [if t.serial = serial then .verdict true .echo .green (t.finalDays.getD 0) 0
            else .verdict true .busy .red 0 0])))

/-- A CARD whose checks pass on a day already USED takes a maze place and is granted at its own event: the final
VERDICT GRANT, and the unlock with granted + 1, the grant timer and the passback entry, or SETTLING while the
recovery timer runs. An arm already FORWARD in a locked rotation is taken over into the passage window. MAZE_FULL
is set where the last place went (R30 to R39, R44, R46, R52, R71, R100). -/
def Obligations.CardUnlocks : Prop :=
  ∀ (s : State) (n : LaneId) (f : ReaderFrame) (serial : Serial) (record : Record) (row : Nat),
    s.Settled → parseFrame f = some (.card serial record) → s.TakesCard n .ticket serial →
    ticketChecks s.tables n serial s.time.seasonDay s.stationMinute record = .ok (row, .used) →
    s.passbackHolds serial = false → s.placeFree = true →
    s.LatchesSilently .mazeFull → s.LatchesSilently .passbackEvict →
    let days := Record.daysRemaining serial record
    let t : Transaction := { s.openTransaction serial record with
      row := some row, today := some .used, reserved := true, finalDays := some days }
    exec (.card n f) s = .next
      (((s.grantedAt n (s.lane n) t).withPort n
        ((s.port n).sending [.verdict true .grant .green days 0])).markFull s)

/-- A CARD whose checks pass on a FREE day takes a maze place and enters WRITING, with the day-marked record
sent to the reader and its write outstanding for 1,000 ms (R7, R18, R39, R44). -/
def Obligations.CardWritesItsDay : Prop :=
  ∀ (s : State) (n : LaneId) (f : ReaderFrame) (serial : Serial) (record : Record) (row : Nat),
    s.Settled → parseFrame f = some (.card serial record) → s.TakesCard n .ticket serial →
    ticketChecks s.tables n serial s.time.seasonDay s.stationMinute record = .ok (row, .free) →
    s.passbackHolds serial = false → s.placeFree = true → (s.port n).write = none →
    s.LatchesSilently .mazeFull →
    let marked := Record.dayMarked record (s.time.seasonDay - Record.first record)
    let t : Transaction := { s.openTransaction serial record with
      row := some row, today := some .free, reserved := true, built := some marked }
    exec (.card n f) s = .next
      (((s.withPort n { (s.port n).sending [.write serial marked] with
            write := some ⟨⟨serial, marked, .grant⟩, ⟨s.ms, 1000⟩⟩ }).withLane n
          { s.lane n with txn := some t, state := .writing }).markFull s)

/-- A CARD whose checks pass while the maze is full enters HELD at the end of the held order, with WAIT to
the reader and its hold timer running, and takes no place (R39, R40). -/
def Obligations.CardHeld : Prop :=
  ∀ (s : State) (n : LaneId) (f : ReaderFrame) (serial : Serial) (record : Record) (row : Nat)
    (today : DayMark),
    s.Settled → parseFrame f = some (.card serial record) → s.TakesCard n .ticket serial →
    ticketChecks s.tables n serial s.time.seasonDay s.stationMinute record = .ok (row, today) →
    s.passbackHolds serial = false → s.placeFree = false →
    let t : Transaction := { s.openTransaction serial record with row := some row, today := some today }
    exec (.card n f) s = .next
      { (s.withPort n ((s.port n).sending [.verdict false .wait .none 0 0])).withLane n
          { s.lane n with
            txn := some t, state := .held
            holdTimer := some ⟨s.ms, s.settings.holdLimitS * 1000⟩ } with
        heldOrder := s.heldOrder ++ [n] }

/-- A CARD that a step refuses ends at its own event: the final VERDICT with the reason, RELEASE and refused + 1,
and the lane at rest (R30, R47, R129, R142). So does one taken between a DAY_CLOSE and its arrival at the lane,
DAY_CLOSED (R31), one whose serial another lane holds, DUPLICATE (R32, R130), a held pass, PASSBACK (R38), and one
that shows a completed SETTLEMENT entry while no general entry is free: QUEUE_FULL, and the entry stays (R33, R124,
R131). -/
def Obligations.CardRefused : Prop :=
  ∀ (s : State) (n : LaneId) (f : ReaderFrame) (serial : Serial) (record : Record) (r : Role) (e : Display),
    s.Settled → parseFrame f = some (.card serial record) → s.Opens n r → r = .ticket ∨ r = .settle →
    ((e = .dayClosed ∧ s.time.dayState = .closed)
      ∨ (e = .duplicate ∧ s.time.dayState ≠ .closed ∧ s.openElsewhere n serial = true)
      ∨ (s.time.dayState ≠ .closed ∧ s.openElsewhere n serial = false
        ∧ ((s.deferredFind serial = none ∧ r = .ticket
            ∧ (ticketChecks s.tables n serial s.time.seasonDay s.stationMinute record = .error e
              ∨ (e = .passback ∧ s.passbackHolds serial = true
                ∧ ∃ x, ticketChecks s.tables n serial s.time.seasonDay s.stationMinute record = .ok x)))
          ∨ (s.deferredFind serial = none ∧ r = .settle
            ∧ settleChecks s.tables n serial s.time.seasonDay record = .error e)
          ∨ (e = .queueFull ∧ s.generalFree = 0
            ∧ ∃ x, s.deferredFind serial = some x ∧ x.isSettlement = true ∧ record = x.intended)))) →
    exec (.card n f) s = .next
      ((s.withPort n ((s.port n).sending
          [.verdict true e .red (Record.daysRemaining serial record) 0, .release serial])).withLane n
        ({ s.lane n with state := s.restingState n }.counting .refused 1))

/-- A CARD on a SETTLE lane whose checks pass and whose refund is greater than 0 reserves a general entry and
enters WRITING with the settled record sent. A refund of 0 is refused NOTHING_DUE, and one that finds no general
entry free QUEUE_FULL. CAP_APPLIED is set where the cap lowered the refund (R8, R137 to R139). -/
def Obligations.CardSettles : Prop :=
  ∀ (s : State) (n : LaneId) (f : ReaderFrame) (serial : Serial) (record : Record) (row : Nat),
    s.Settled → parseFrame f = some (.card serial record) → s.TakesCard n .settle serial →
    settleChecks s.tables n serial s.time.seasonDay record = .ok row → s.LatchesSilently .capApplied →
    let x := recordRefund s.tables (s.tables.rowOf row) record
    let stamped := Record.settledRecord record x.refund s.time.seasonDay
    let t : Transaction := { s.openTransaction serial record with
      row := some row, refund := x.refund, impaired := x.impaired, insertReserved := true
      built := some stamped }
    let s' := if x.refund < x.rounded then s.withFlag .capApplied else s
    let refused (e : Display) : State :=
      (s'.withPort n ((s.port n).sending
          [.verdict true e .red (Record.daysRemaining serial record) 0, .release serial])).withLane n
        ((s.lane n).counting .refused 1)
    (x.refund = 0 → exec (.card n f) s = .next (refused .nothingDue))
    ∧ (0 < x.refund → s.generalFree = 0 → exec (.card n f) s = .next (refused .queueFull))
    ∧ (0 < x.refund → 0 < s.generalFree → (s.port n).write = none →
      exec (.card n f) s = .next
        ((s'.withPort n { (s.port n).sending [.write serial stamped] with
              write := some ⟨⟨serial, stamped, .settlement⟩, ⟨s.ms, 1000⟩⟩ }).withLane n
            { s.lane n with txn := some t, state := .writing }))

/-- GONE marks the open transaction's card absent and does nothing else, in every state but HELD with today
FREE; for another serial, or with no transaction open, it is discarded (R15). -/
def Obligations.GoneRecorded : Prop :=
  ∀ (s : State) (n : LaneId) (f : ReaderFrame) (serial : Serial),
    s.Settled → parseFrame f = some (.gone serial) →
    (∀ t, (s.lane n).txn = some t → t.serial = serial →
      ¬((s.lane n).state = .held ∧ t.today = some .free) →
      exec (.gone n f) s = .next (s.withLane n { s.lane n with txn := some { t with present := false } }))
    ∧ ((∀ t, (s.lane n).txn = some t → t.serial ≠ serial) → exec (.gone n f) s = .next s)

/-- A HELD transaction ends without a place by GONE with today FREE (GONE, R43) and by the end of its hold
timer (FULL, R42): the final VERDICT with the days remaining, RELEASE, refused + 1, out of the held order and
to its resting state. -/
def Obligations.HeldRefusals : Prop :=
  ∀ (s : State) (n : LaneId) (t : Transaction),
    s.Settled → (s.lane n).state = .held → (s.lane n).txn = some t → t.reserved = false →
    t.insertReserved = false → (s.lane n).pendingRole = none → s.restingState n ≠ .fault →
    let ended (e : Display) : State :=
      { (s.withPort n ((s.port n).sending
            [.verdict true e .red (Record.daysRemaining t.serial t.card) 0, .release t.serial])).withLane n
          ({ s.lane n with txn := none, holdTimer := none, state := s.restingState n }.counting .refused 1) with
        heldOrder := s.heldOrder.filter (· != n) }
    (∀ f, parseFrame f = some (.gone t.serial) → t.today = some .free →
      exec (.gone n f) s = .next (ended .gone))
    ∧ (∀ h, (s.lane n).holdTimer = some h → h.start + h.duration ≤ s.ms →
      exec (.holdTimerExpiry n) s = .next (ended .full))

/-! ### Reader ports: writes and the heartbeat -/

/-- A grant write that ends DONE grants with the days remaining of the day-marked record (R16, R19, R45, R46, R52,
R71): the lane unlocks, or enters SETTLING while its recovery timer runs. One that ends LOST or TORN, TORN also by the
end of its timer, grants in the same way under grant on lost write, and a DAY_MARK entry takes the last place (R118,
R120). With that setting no it is refused GONE and its place released: LOST with nothing stored, TORN with the
DAY_MARK entry (R45). A resolution write on a TICKET or SETTLE lane that ends LOST or TORN refuses the card RETRY,
with the days of the record as read and the entry kept; one that ends DONE removes its DAY_MARK entry, if the table
still holds it, and the verdict goes on from the record now on the card: stated for one that finds today USED and is
granted (R33, R34, R124, R125). A write that has outlived its transaction ends by itself: an orphan (R82) that ends
TORN, by its result or by the end of its timer, stores its DAY_MARK entry, and DONE and LOST store nothing; a grant
write that outlived free-flow entry (R85) stores it on LOST too; one whose entry was already written, or a resolution
write, stores nothing; and in each case the request that waits is sent and is outstanding with a timer of its own
(R18, R19). How the offered entry meets the table is DeferredOfferMeetsTable's. The model's choices: an orphan's end
is judged by the write and not by the lane's later role (log 20); this grant shows the days of the record now on the
card (log 48), and an unlock after a commit makes its passback entry with the pinned hold (log 49). -/
def Obligations.GrantWriteEnds : Prop :=
  (∀ (s : State) (n : LaneId) (t : Transaction) (record : Record) (timer : Timer) (owner : WriteOwner),
      s.Settled → (s.port n).write = some ⟨⟨t.serial, record, owner⟩, timer⟩ → (s.port n).waiting = none →
      (s.lane n).txn = some t →
      let days := Record.daysRemaining t.serial record
      let granted (t : Transaction) : State :=
        (s.grantedAt n (s.lane n) { t with finalDays := some days }).withPort n
          { (s.port n).sending [.verdict true .grant .green days 0] with write := none }
      let refused (e : Display) (days : Nat) : State :=
        (s.withPort n { (s.port n).sending [.verdict true e .red days 0, .release t.serial] with
            write := none }).withLane n
          ({ s.lane n with txn := none, holdTimer := none, state := s.restingState n }.counting .refused 1)
      let marked : DeferredTable :=
        ⟨s.deferred.entries ++ [⟨s.deferred.nextStamp, t.serial, .dayMark, Record.issue t.card, record, t.day, n⟩],
          s.deferred.nextStamp + 1⟩
      let outTime := timer.start + timer.duration ≤ s.ms
      (owner = .grant →
        (s.LatchesSilently .passbackEvict → s.LatchesSilently .cloneSuspect →
          (∀ f, parseFrame f = some (.writeResult t.serial .done) →
            exec (.writeResult n f) s = .next (granted t))
          ∧ (t.pinned.settingsInForce.grantOnLostWrite = true →
            s.deferredFind t.serial = none → s.deferred.entries.length < 32 →
            (∀ f o, o ≠ .done → parseFrame f = some (.writeResult t.serial o) →
              exec (.writeResult n f) s = .next { granted t with deferred := marked })
            ∧ (outTime → exec (.writeTimerExpiry n) s = .next { granted t with deferred := marked })))
        ∧ (t.pinned.settingsInForce.grantOnLostWrite = false → t.insertReserved = false → s.heldOrder = [] →
          (s.lane n).pendingRole = none → s.restingState n ≠ .fault →
          (∀ f, parseFrame f = some (.writeResult t.serial .lost) →
            exec (.writeResult n f) s = .next (refused .gone (Record.daysRemaining t.serial t.card)))
          ∧ (s.deferredFind t.serial = none → s.deferred.entries.length < 32 →
            (∀ f, parseFrame f = some (.writeResult t.serial .torn) →
              exec (.writeResult n f) s = .next { refused .gone days with deferred := marked })
            ∧ (outTime → exec (.writeTimerExpiry n) s = .next { refused .gone days with deferred := marked }))))
      ∧ (owner = .resolution → t.reserved = false → t.insertReserved = false →
        (s.lane n).pendingRole = none → s.restingState n ≠ .fault → n ∉ s.heldOrder →
        let retry := refused .retry (Record.daysRemaining t.serial t.asRead)
        (∀ f o, o ≠ .done → parseFrame f = some (.writeResult t.serial o) →
          exec (.writeResult n f) s = .next retry)
        ∧ (outTime → exec (.writeTimerExpiry n) s = .next retry))
      ∧ (∀ f row, owner = .resolution → parseFrame f = some (.writeResult t.serial .done) →
        (s.lane n).role = some .ticket →
        (∀ e ∈ s.deferred.entries, some e.stamp = t.resolving → e.kind = .dayMark) →
        ticketChecks t.pinned n t.serial t.day t.minute record = .ok (row, .used) →
        s.passbackHolds t.serial = false → s.placeFree = true →
        s.LatchesSilently .mazeFull → s.LatchesSilently .passbackEvict →
        exec (.writeResult n f) s = .next
          ({ granted { t with
                card := record, resolving := none, row := some row, today := some .used, reserved := true } with
              deferred := { s.deferred with
                entries := s.deferred.entries.filter fun e : DeferredEntry => some e.stamp != t.resolving }
              }.markFull s)))
  ∧ (∀ (s : State) (n : LaneId) (serial : Serial) (record : Record) (timer : Timer) (owner : WriteOwner),
    s.Settled → (s.port n).write = some ⟨⟨serial, record, owner⟩, timer⟩ →
    let nothing : State := s.withPort n ((s.port n).writeEnded s.ms)
    let stored (issue : BitVec 16) (day : Nat) : State :=
      (s.deferredOffer (dayMarkEntry serial issue record day n)).1.withPort n ((s.port n).writeEnded s.ms)
    let outTime := timer.start + timer.duration ≤ s.ms
    (∀ issue day, owner = .orphan issue day →
      (∀ f o, o ≠ .torn → parseFrame f = some (.writeResult serial o) →
        exec (.writeResult n f) s = .next nothing)
      ∧ (s.LatchesSilently .deferredLost →
        (∀ f, parseFrame f = some (.writeResult serial .torn) →
          exec (.writeResult n f) s = .next (stored issue day))
        ∧ (outTime → exec (.writeTimerExpiry n) s = .next (stored issue day))))
    ∧ (∀ issue day, owner = .freeFlowGrant issue day →
      (∀ f, parseFrame f = some (.writeResult serial .done) → exec (.writeResult n f) s = .next nothing)
      ∧ (s.LatchesSilently .deferredLost →
        (∀ f o, o ≠ .done → parseFrame f = some (.writeResult serial o) →
          exec (.writeResult n f) s = .next (stored issue day))
        ∧ (outTime → exec (.writeTimerExpiry n) s = .next (stored issue day))))
    ∧ (owner = .ended →
      (∀ f o, parseFrame f = some (.writeResult serial o) → exec (.writeResult n f) s = .next nothing)
      ∧ (outTime → exec (.writeTimerExpiry n) s = .next nothing)))

/-- A settlement write that ends DONE queues its REFUND notice, counts the refund into the day and ends the
transaction with REFUNDED (R140, R141, R153). One that ends LOST is refused RETRY, with the days of the record as
read and nothing stored (R140, log 38). One whose timer runs out is TORN: its reservation is released, a
SETTLEMENT entry takes the last place, and the card is refused RETRY with days remaining 0 (R19, R119, R120). A
resolution write of a SETTLEMENT entry that ends DONE on a SETTLE lane completes the entry and ends the
transaction as REFUNDED (R34, R124, R131). -/
def Obligations.SettlementWriteEnds : Prop :=
  ∀ (s : State) (n : LaneId) (t : Transaction) (record : Record) (timer : Timer) (owner : WriteOwner),
    s.Settled → s.loop.pendingEvents = [] →
    (s.port n).write = some ⟨⟨t.serial, record, owner⟩, timer⟩ → (s.port n).waiting = none →
    (s.lane n).txn = some t → t.reserved = false →
    (s.lane n).pendingRole = none → s.restingState n ≠ .fault → n ∉ s.heldOrder →
    let ended : Lane := { s.lane n with txn := none, holdTimer := none, state := s.restingState n }
    let refunded (amount : Nat) (notice : RefundNotice) : State :=
      ((({ s with time := { s.time with
            refundsCount := min 65535 (s.time.refundsCount + 1)
            refundsSum := min 4294967295 (s.time.refundsSum + amount) } }.withPort n
          { (s.port n).sending [.verdict true .refunded .green 0 amount, .release t.serial] with
            write := none }).withLane n ended).offered (.refund notice))
    (owner = .settlement →
      (∀ f, s.ownAddress.isSome = true → t.insertReserved = true →
        s.generalOccupied + s.generalReserved ≤ 28 → parseFrame f = some (.writeResult t.serial .done) →
        exec (.writeResult n f) s = .next (refunded t.refund
          { serial := t.serial, refund := t.refund, day := t.day, product := Record.product record
            category := Record.category record, used := Record.used record, impaired := t.impaired
            generation := t.pinned.generation, lane := n, chip := s.ownByte }))
      ∧ (∀ f, parseFrame f = some (.writeResult t.serial .lost) →
        exec (.writeResult n f) s = .next
          ((s.withPort n { (s.port n).sending [.verdict true .retry .red
              (Record.daysRemaining t.serial t.asRead) 0, .release t.serial] with write := none }).withLane n
            (ended.counting .refused 1)))
      ∧ (timer.start + timer.duration ≤ s.ms →
        s.deferredFind t.serial = none → s.deferred.entries.length < 32 →
        exec (.writeTimerExpiry n) s = .next
          { (s.withPort n { (s.port n).sending [.verdict true .retry .red 0 0, .release t.serial] with
                  write := none }).withLane n (ended.counting .refused 1) with
            deferred := ⟨s.deferred.entries ++ [⟨s.deferred.nextStamp, t.serial,
              .settlement t.refund t.impaired t.pinned.generation, Record.issue t.card, record, t.day, n⟩],
              s.deferred.nextStamp + 1⟩ }))
    ∧ (∀ f e refund impaired generation, owner = .resolution → s.ownAddress.isSome = true →
      (s.lane n).role = some .settle → t.insertReserved = false → 0 < s.generalFree →
      parseFrame f = some (.writeResult t.serial .done) →
      s.deferred.entries.find? (fun x => some x.stamp == t.resolving) = some e →
      e.kind = .settlement refund impaired generation →
      exec (.writeResult n f) s = .next { refunded refund
          { serial := e.serial, refund := refund, day := Record.settledDay e.intended
            product := Record.product e.intended, category := Record.category e.intended
            used := Record.used e.intended, impaired := impaired, generation := generation
            lane := e.lane, chip := s.ownByte } with
        deferred := { s.deferred with
          entries := s.deferred.entries.filter fun x : DeferredEntry => x.stamp != e.stamp } })

/-- A good BEAT restarts the heartbeat timer with the loss time in force and sets the reader status (R11). BEAT OK
brings a reader up: a TICKET or SETTLE lane in FAULT takes its resting state, and on any other lane only the port
changes (R12, R83). BEAT FAULT takes a reader that was up down: a TICKET or SETTLE lane goes down by the table of
R81, with LANE_FAULT and without READER_LOST, and one in FREE_FLOW, a SETTLE lane in WRITING and a lane of another
role stay as they are (R12, R81, R82).
That a lane takes FAULT, EXIT or FREE_FLOW before the settings are first committed too is the model's choice between
two rules (log 51). -/
def Obligations.BeatSetsStatus : Prop :=
  ∀ (s : State) (n : LaneId) (f : ReaderFrame) (ok : Bool),
    s.Settled → parseFrame f = some (.beat ok) →
    let heard : Port := { s.port n with
      heartbeat := some ⟨s.ms, s.settings.readerLossMs⟩, status := if ok then .ok else .fault }
    let consults := (s.lane n).role = some .ticket ∨ (s.lane n).role = some .settle
    (((s.port n).status = .ok ↔ ok = true) → exec (.beat n f) s = .next (s.withPort n heard))
    ∧ (ok = true → (s.port n).status ≠ .ok →
      (consults → (s.lane n).state = .fault →
        exec (.beat n f) s = .next ((s.withPort n heard).withLane n
          { s.lane n with state := if s.laneClosed n then .closed else .idle }))
      ∧ (¬consults ∨ (s.lane n).state ≠ .fault → exec (.beat n f) s = .next (s.withPort n heard)))
    ∧ (ok = false → (s.port n).status = .ok →
      (¬consults ∨ (s.lane n).state = .freeFlow
          ∨ ((s.lane n).role = some .settle ∧ (s.lane n).state = .writing) →
        exec (.beat n f) s = .next (s.withPort n heard))
      ∧ (consults → s.GoesDown n → s.LatchesSilently .laneFault →
        ((s.lane n).atBarrier = true → s.LatchesSilently .mazeFull) →
        exec (.beat n f) s = .next ((s.wentDown n heard).markFull s)))

/-- The end of the heartbeat timer makes the reader LOST and stops the timer, and touches no role but TICKET and
SETTLE (R11, R12). There READER_LOST is set, and a reader that was up goes down, with no role pending, by the table of
R81 as State.wentDown writes it out: a lane in IDLE or CLOSED enters FAULT; in RESOLVING and HELD the card is told
FAULT and released; a TICKET lane in WRITING likewise, its grant write becoming an orphan (R82); in SETTLING it is
released; in UNLOCKED and PASSING the grant lapses (R76); each of these sets LANE_FAULT. A SETTLE lane in WRITING and
a lane in FREE_FLOW stay as they are. The trail timer of a free window that has outlived FREE_FLOW runs on, the
model's choice (log 29). That a lane takes FAULT, EXIT or FREE_FLOW before the settings are first committed too is the
model's choice between two rules (log 51). -/
def Obligations.HeartbeatLoss : Prop :=
  ∀ (s : State) (n : LaneId) (h : Timer),
    s.Settled → (s.port n).heartbeat = some h → h.start + h.duration ≤ s.ms →
    let lost : Port := { s.port n with heartbeat := none, status := .lost }
    ((s.lane n).role ≠ some .ticket → (s.lane n).role ≠ some .settle →
      exec (.heartbeatTimerExpiry n) s = .next (s.withPort n lost))
    ∧ ((s.lane n).role = some .ticket ∨ (s.lane n).role = some .settle →
      ((s.port n).status ≠ .ok ∨ (s.lane n).state = .freeFlow
          ∨ ((s.lane n).role = some .settle ∧ (s.lane n).state = .writing) →
        exec (.heartbeatTimerExpiry n) s = .next ((s.withPort n lost).latched .readerLost n.num))
      ∧ ((s.port n).status = .ok → s.GoesDown n → s.LatchesSilently .readerLost → s.LatchesSilently .laneFault →
        ((s.lane n).atBarrier = true → s.LatchesSilently .mazeFull) →
        exec (.heartbeatTimerExpiry n) s = .next (((s.wentDown n lost).withFlag .readerLost).markFull s)))

/-! ### Lanes: the arm and the beam -/

/-- On a lane whose role is not TICKET the five arm events move the tracker by the table of R69 and do nothing
else. -/
def Obligations.ArmTracked : Prop :=
  ∀ (s : State) (n : LaneId), s.Settled → (s.lane n).role ≠ some .ticket →
    let moved (a : Arm) : State := s.withLane n { s.lane n with arm := a }
    exec (.rotateFwdStart n) s = .next (if (s.lane n).arm = .atRest then moved .forward else s)
    ∧ exec (.rotateFwdDone n) s = .next (if (s.lane n).arm = .forward then moved .atRest else s)
    ∧ exec (.rotateRevStart n) s = .next (if (s.lane n).arm = .atRest then moved .reverse else s)
    ∧ exec (.rotateRevDone n) s = .next (if (s.lane n).arm = .reverse then moved .atRest else s)
    ∧ exec (.rotateReturn n) s = .next (moved .atRest)

/-- A forward rotation begins on a TICKET lane with no window open: in UNLOCKED it opens the passage window,
in FREE_FLOW a free window, and elsewhere it is a locked rotation with no body kept (R69 to R71, R86). In a free
trail it closes the window with its count and opens a new one (R86); where free-flow has ended the lane leaves
FREE_FLOW at that close, and the new window is still a free one (R79, R87; what the model makes of the two rules
together is log 29); a window that has outlived FREE_FLOW so closes with its count at the next one. ROTATE_RETURN
before ROTATE_FWD_DONE ends the attempt: the lane is UNLOCKED again, its bodies are gone and its grant timer runs
on, or the grant lapses where its expiry has been recorded (R72, R76); a free window closes uncounted, and the lane
leaves FREE_FLOW where free-flow has ended (R86, R87); a locked rotation loses its bodies, and a free window that
has outlived FREE_FLOW (log 29) closes uncounted (R70, R86). -/
def Obligations.ForwardRotationBeginsOrReturns : Prop :=
  ∀ (s : State) (n : LaneId), s.Settled → (s.lane n).role = some .ticket →
    ((s.lane n).arm = .atRest →
      ((s.lane n).window = none → (s.lane n).lateFree = none →
        exec (.rotateFwdStart n) s = .next (s.withLane n (match (s.lane n).state with
          | .unlocked => { s.lane n with arm := .forward, state := .passing, window := some ⟨0, false⟩ }
          | .freeFlow => { s.lane n with arm := .forward, window := some ⟨0, false⟩ }
          | _ => { s.lane n with arm := .forward, kept := 0 })))
      ∧ (∀ k, (s.lane n).state = .freeFlow → (s.lane n).window = some ⟨k, true⟩ →
        (s.lane n).pendingRole = none → s.MazeInRange → s.LatchesSilently .mazeFull →
        let counted : Lane := { s.lane n with arm := .forward, trailTimer := none }.counting .free 1
        let credited : State := { s with maze := { s.maze with count := min 255 (s.maze.count + max 1 k) } }
        (s.freeFlowInForce = true →
          exec (.rotateFwdStart n) s = .next
            ((credited.withLane n { counted with window := some ⟨0, false⟩ }).markFull s))
        ∧ (s.freeFlowInForce = false → s.restingState n ≠ .fault →
          exec (.rotateFwdStart n) s = .next
            ((credited.withLane n (s.leftFree n { counted with
              window := none, kept := 0, lateFree := some ⟨0, false⟩ })).markFull s)))
      ∧ (∀ k, (s.lane n).state ≠ .freeFlow → (s.lane n).window = none → (s.lane n).lateFree = some ⟨k, true⟩ →
        s.MazeInRange → s.LatchesSilently .mazeFull →
        let counted : Lane := { s.lane n with
          arm := .forward, trailTimer := none, lateFree := none }.counting .free 1
        exec (.rotateFwdStart n) s = .next
          (({ s with maze := { s.maze with count := min 255 (s.maze.count + max 1 k) } }.withLane n
            (if (s.lane n).state = LaneState.unlocked then { counted with state := .passing, window := some ⟨0, false⟩ }
              else { counted with kept := 0 })).markFull s)))
    ∧ ((s.lane n).arm = .forward →
      ((s.lane n).lateFree = none →
        (∀ k, (s.lane n).state = .passing → (s.lane n).window = some ⟨k, false⟩ →
          (s.lane n).grantExpired = false →
          exec (.rotateReturn n) s = .next (s.withLane n { s.lane n with
            arm := .atRest, state := .unlocked, window := none }))
        ∧ (∀ k t, (s.lane n).state = .passing → (s.lane n).window = some ⟨k, false⟩ →
          (s.lane n).grantExpired = true → (s.lane n).txn = some t → t.insertReserved = false →
          (s.lane n).pendingRole = none → s.restingState n ≠ .fault → s.heldOrder = [] → s.MazeInRange →
          exec (.rotateReturn n) s = .next
            { (s.withPort n ((s.port n).sending [.release t.serial])).withLane n
                { ({ s.lane n with window := none } : Lane).lapsed with
                  arm := .atRest, state := s.restingState n } with
              passback := s.passback.filter fun e : PassbackEntry => !e.isGrantOf n t })
        ∧ (∀ k, (s.lane n).state = .freeFlow → (s.lane n).window = some ⟨k, false⟩ →
          (s.lane n).pendingRole = none →
          let closed : Lane := { s.lane n with arm := .atRest, window := none, trailTimer := none }
          (s.freeFlowInForce = true → exec (.rotateReturn n) s = .next (s.withLane n closed))
          ∧ (s.freeFlowInForce = false → s.restingState n ≠ .fault →
            exec (.rotateReturn n) s = .next (s.withLane n (s.leftFree n closed))))
        ∧ ((s.lane n).state ≠ .passing → (s.lane n).state ≠ .freeFlow →
          exec (.rotateReturn n) s = .next (s.withLane n { s.lane n with arm := .atRest, kept := 0 })))
      ∧ (∀ w, (s.lane n).lateFree = some w →
        exec (.rotateReturn n) s = .next (s.withLane n { s.lane n with arm := .atRest, lateFree := none })))

/-- A forward rotation completes on a TICKET lane: an open window begins its trail with the committed trail
time, a passage window forgetting its grant timer (R73, R86); a locked rotation is a forced passage with its
alarm, its maze credit and FORCED (R79, R90, R94). A rotation begun in FREE_FLOW is no forced passage on a lane
that has left it: its window begins its trail there too (R79; that the model keeps it beside the lane's state is
log 29). -/
def Obligations.ForwardRotationCompletes : Prop :=
  ∀ (s : State) (n : LaneId),
    s.Settled → (s.lane n).role = some .ticket → (s.lane n).arm = .forward →
    ((s.lane n).lateFree = none →
      (∀ k, (s.lane n).state = .passing → (s.lane n).window = some ⟨k, false⟩ →
        exec (.rotateFwdDone n) s = .next (s.withLane n { s.lane n with
          arm := .atRest, window := some ⟨k, true⟩, grantTimer := none, grantExpired := false
          trailTimer := some ⟨s.ms, s.settings.trailTimeMs⟩ }))
      ∧ (∀ k, (s.lane n).state = .freeFlow → (s.lane n).window = some ⟨k, false⟩ →
        exec (.rotateFwdDone n) s = .next (s.withLane n { s.lane n with
          arm := .atRest, window := some ⟨k, true⟩
          trailTimer := some ⟨s.ms, s.settings.trailTimeMs⟩ }))
      ∧ ((s.lane n).state ≠ .passing → (s.lane n).state ≠ .freeFlow → s.MazeInRange →
        s.LatchesSilently .forced → s.LatchesSilently .mazeFull →
        exec (.rotateFwdDone n) s = .next
          ((({ s with maze := { s.maze with
                count := min 255 (s.maze.count + max 1 (s.lane n).kept) } }.withLane n
            ({ s.lane n with
                arm := .atRest, kept := 0, alarmTimer := some ⟨s.ms, 1000⟩ }.counting .forced 1)).withFlag
              .forced).markFull s)))
    ∧ (∀ w, (s.lane n).lateFree = some w →
      exec (.rotateFwdDone n) s = .next (s.withLane n { s.lane n with
        arm := .atRest, lateFree := some ⟨w.k, true⟩
        trailTimer := some ⟨s.ms, s.settings.trailTimeMs⟩ }))

/-- Rotations out of the maze: the start and the return move the tracker alone on a lane of any role, and so does
the completion in FREE_FLOW and on a lane of another role. A reverse passage of a TICKET lane outside FREE_FLOW adds
1 to reverse and takes 1 from the maze count (R69, R80, R90, R94). Where the maze was full to the last place and
lanes are held, the place goes to the first of them, which carries on at step 13 (R41, R101); above the limit they
wait on (R99). What the held lane then does holds two choices of the model: the days that a grant without a write
shows (log 48), and the pinned hold of its passback entry where a commit has changed the hold (log 49). -/
def Obligations.ReverseRotations : Prop :=
  ∀ (s : State) (n : LaneId), s.Settled →
    ((s.lane n).arm = .atRest →
      exec (.rotateRevStart n) s = .next (s.withLane n { s.lane n with arm := .reverse }))
    ∧ ((s.lane n).arm = .reverse →
      exec (.rotateReturn n) s = .next (s.withLane n { s.lane n with arm := .atRest }))
    ∧ ((s.lane n).arm = .reverse → (s.lane n).role ≠ some .ticket ∨ (s.lane n).state = .freeFlow →
      exec (.rotateRevDone n) s = .next (s.withLane n { s.lane n with arm := .atRest }))
    ∧ ((s.lane n).arm = .reverse → (s.lane n).role = some .ticket → (s.lane n).state ≠ .freeFlow →
      0 < s.maze.count →
      let left : State := { s with maze := { s.maze with count := s.maze.count - 1 } }.withLane n
        ({ s.lane n with arm := .atRest }.counting .reverse 1)
      (s.NoPlaceDue → exec (.rotateRevDone n) s = .next left)
      ∧ (∀ m rest t, s.AwaitsPlace m rest t →
        exec (.rotateRevDone n) s = .next (left.placeGiven m rest t)))

/-- A decrement that finds the maze count at 0 leaves it at 0, adds 1 to the maze-underrun counter of the day
and of the interval, held at 65,535, and latches MAZE_UNDERRUN; the event that made it, a reverse passage, a
body on an EXIT lane or a body at LG_BEAM, is otherwise carried out in full (R95). -/
def Obligations.DecrementUnderruns : Prop :=
  ∀ s : State, s.Settled → s.maze.count = 0 →
    let counted (c : LoadingCounters) : LoadingCounters :=
      { c with mazeUnderrun := min 65535 (c.mazeUnderrun + 1) }
    let forced (c : LoadingCounters) : LoadingCounters :=
      { c with loadingForced := min 65535 (c.loadingForced + 1) }
    let under (m : Maze) : Maze := { m with day := counted m.day, interval := counted m.interval }
    let leaves (c : Instr) (lanes : PerLane Lane) (maze : Maze) : Prop :=
      ∃ t, exec c s = .next t ∧ t.lanes = lanes ∧ t.maze = maze ∧ t.flagSet .mazeUnderrun = true
        ∧ t.ports = s.ports ∧ t.heldOrder = s.heldOrder ∧ t.passback = s.passback
        ∧ t.deferred = s.deferred ∧ t.time = s.time ∧ t.tables = s.tables ∧ t.ms = s.ms
    (∀ n, (s.lane n).role = some .ticket → (s.lane n).state ≠ .freeFlow → (s.lane n).arm = .reverse →
      leaves (.rotateRevDone n) (s.lanes.set n ({ s.lane n with arm := .atRest }.counting .reverse 1))
        (under s.maze))
    ∧ (∀ n breakMs, (s.lane n).role = some .exit → (s.lane n).state = .exit →
      s.settings.beamMinimumMs ≤ min breakMs s.ms →
      leaves (.body n breakMs) (s.lanes.set n ((s.lane n).counting .exit 1)) (under s.maze))
    ∧ (∀ breakMs, s.ownAddress.isSome = true → s.settings.beamMinimumMs ≤ min breakMs s.ms →
      (∀ w, s.maze.window = some w →
        let taken : Maze := { under s.maze with window := some { w with loaded := w.loaded + 1 } }
        leaves (.lgBeamBody breakMs) s.lanes
          (if w.loaded + 1 = w.seats then { taken.recorded with gate := .waiting } else taken))
      ∧ (s.maze.window = none →
        leaves (.lgBeamBody breakMs) s.lanes
          (under { s.maze with day := forced s.maze.day, interval := forced s.maze.interval })))

/-- A break long enough is a body, attributed in the order of R70: to an open window, to a locked rotation,
or as an intrusion that enters the maze (R78); on an EXIT lane it leaves the maze (R89). A shorter break, and
a body on a lane of another role, does nothing. The free window of a lane that has left FREE_FLOW takes its
bodies as an open window (R70, R86, log 29). The place that a body leaves free on an EXIT lane goes to the first
held lane (R41, R101), while above the limit the held lanes wait on (R99). What the held lane then does holds two
choices of the model: the days that a grant without a write shows (log 48), and the pinned hold of its passback entry
where a commit has changed the hold (log 49). -/
def Obligations.BodyAttributed : Prop :=
  ∀ (s : State) (n : LaneId) (breakMs : Nat), s.Settled →
    ((min breakMs s.ms < s.settings.beamMinimumMs
        ∨ (s.lane n).role = none ∨ (s.lane n).role = some .settle ∨ (s.lane n).role = some .off
        ∨ ((s.lane n).role = some .exit ∧ (s.lane n).state ≠ .exit)) →
      exec (.body n breakMs) s = .next s)
    ∧ (s.settings.beamMinimumMs ≤ min breakMs s.ms → (s.lane n).role = some .ticket →
      (∀ w, (s.lane n).window = some w →
        exec (.body n breakMs) s = .next (s.withLane n { s.lane n with window := some ⟨w.k + 1, w.trail⟩ }))
      ∧ (∀ w, (s.lane n).window = none → (s.lane n).lateFree = some w →
        exec (.body n breakMs) s = .next (s.withLane n { s.lane n with lateFree := some ⟨w.k + 1, w.trail⟩ }))
      ∧ ((s.lane n).window = none → (s.lane n).lateFree = none → (s.lane n).arm = .forward →
        (s.lane n).state ≠ .freeFlow →
        exec (.body n breakMs) s = .next (s.withLane n { s.lane n with kept := (s.lane n).kept + 1 }))
      ∧ ((s.lane n).window = none → (s.lane n).lateFree = none →
        (s.lane n).arm ≠ .forward ∨ (s.lane n).state = .freeFlow → s.MazeInRange → s.LatchesSilently .mazeFull →
        exec (.body n breakMs) s = .next
          (({ s with maze := { s.maze with count := min 255 (s.maze.count + 1) } }.withLane n
            ((s.lane n).counting .intrusion 1)).markFull s)))
    ∧ (s.settings.beamMinimumMs ≤ min breakMs s.ms → (s.lane n).role = some .exit →
      (s.lane n).state = .exit → 0 < s.maze.count →
      let left : State := { s with maze := { s.maze with count := s.maze.count - 1 } }.withLane n
        ((s.lane n).counting .exit 1)
      (s.NoPlaceDue → exec (.body n breakMs) s = .next left)
      ∧ (∀ m rest t, s.AwaitsPlace m rest t → exec (.body n breakMs) s = .next (left.placeGiven m rest t)))

/-! ### Lanes: the key, the timers and free-flow -/

/-- KEY_CHANGE records the level. With key control clear it does nothing else, at rest or not (R66); with key control
set it closes and opens a resting TICKET or SETTLE lane whose other conditions hold, and an EXIT lane (R65 to R67).
That a lane takes FAULT, EXIT or FREE_FLOW before the settings are first committed too is the model's choice between
two rules (log 51). -/
def Obligations.KeyOpensAndCloses : Prop :=
  ∀ (s : State) (n : LaneId) (level : Bool), s.Settled →
    (s.keyControl n = false →
      exec (.keyChange n level) s = .next (s.withLane n { s.lane n with keyHigh := level }))
    ∧ (s.keyControl n = true → (s.lane n).role = some .ticket ∨ (s.lane n).role = some .settle →
      s.OtherwiseOpen n → s.Resting n →
      exec (.keyChange n level) s = .next (s.withLane n { s.lane n with
        keyHigh := level, state := if level then .idle else .closed }))
    ∧ (s.keyControl n = true → (s.lane n).role = some .exit →
      (s.lane n).state = .exit ∨ (s.lane n).state = .closed →
      exec (.keyChange n level) s = .next (s.withLane n { s.lane n with
        keyHigh := level, state := if level then .exit else .closed }))

/-- The end of the grant timer lapses a grant in UNLOCKED: lapsed + 1, RELEASE, the PENDING entry removed, no
maze credit, and the lane at rest without its recovery timer; in PASSING it is only recorded (R54, R72,
R76). The trail timer of a free window that has outlived FREE_FLOW runs on, the model's choice (log 29). -/
def Obligations.GrantTimerEnds : Prop :=
  ∀ (s : State) (n : LaneId) (g : Timer),
    s.Settled → (s.lane n).grantTimer = some g → g.start + g.duration ≤ s.ms →
    ((s.lane n).state = .passing →
      exec (.grantTimerExpiry n) s = .next (s.withLane n { s.lane n with
        grantTimer := none, grantExpired := true }))
    ∧ (∀ t, (s.lane n).state = .unlocked → (s.lane n).txn = some t → t.insertReserved = false →
      (s.lane n).window = none → (s.lane n).pendingRole = none → s.restingState n ≠ .fault →
      s.heldOrder = [] → s.MazeInRange →
      exec (.grantTimerExpiry n) s = .next
        { (s.withPort n ((s.port n).sending [.release t.serial])).withLane n
            ({ s.lane n with
                txn := none, state := s.restingState n, window := none, grantTimer := none
                grantExpired := false, recoveryTimer := none, holdTimer := none
                trailTimer := if (s.lane n).lateFree.isSome then (s.lane n).trailTimer else none
                }.counting .lapsed 1) with
          passback := s.passback.filter fun e : PassbackEntry => !e.isGrantOf n t })

/-- A passage window in its trail closes with its outcome, at the end of the trail timer or at a new
ROTATE_FWD_START, which begins a locked rotation: paid, beam-miss or tailgate, the maze credit with the
reservation, the passback entry confirmed, the PASSAGE notice offered, RELEASE, and the lane at rest with its
recovery timer if that is IDLE (R53, R73 to R75, R77). The end of the trail timer closes a free window with
free + 1 and its maze credit, and the lane then leaves FREE_FLOW where free-flow has ended (R86, R87), or has left
it already (log 29). -/
def Obligations.PassageCompletes : Prop :=
  ∀ (s : State) (n : LaneId) (k : Nat) (trail : Timer),
    s.Settled → (s.lane n).role = some .ticket → s.LatchesSilently .mazeFull →
    (∀ t, (s.lane n).state = .passing → (s.lane n).window = some ⟨k, true⟩ → (s.lane n).lateFree = none →
      s.ownAddress.isSome = true → 0 < s.generalFree →
      (s.lane n).txn = some t → t.reserved = true → t.insertReserved = false →
      (s.lane n).pendingRole = none → s.restingState n ≠ .fault → n ∉ s.heldOrder →
      s.maze.count + max 1 k ≤ 255 → s.LatchesSilently .tailgate →
      let rested : LaneState := s.restingState n
      let outcome := (s.lane n).counting .paid 1
      let counted := if k = 0 then outcome.counting .beamMiss 1 else outcome.counting .tailgate (k - 1)
      let flagged := if 1 < k then s.withFlag .tailgate else s
      let completed (arm : Arm) (kept : Nat) : State :=
        (({ flagged with
              maze := { s.maze with count := s.maze.count + max 1 k }
              passback := s.passback.map fun e : PassbackEntry =>
                if e.isGrantOf n t then { e with confirmed := true } else e }.withPort n
            ((s.port n).sending [.release t.serial])).withLane n
            { counted with
              arm := arm, kept := kept
              txn := none, state := rested, window := none, trailTimer := none, grantTimer := none
              grantExpired := false, holdTimer := none
              recoveryTimer := if rested = LaneState.idle ∧ s.settings.recoveryTimeMs ≠ 0
                then some ⟨s.ms, s.settings.recoveryTimeMs⟩ else (s.lane n).recoveryTimer }).markFull s
          |>.offered (.passage
            { serial := t.serial, group := t.pinned.settingsInForce.ownGroup, time := s.time.stationTime
              day := t.day, lane := n, bodies := k, generation := t.pinned.generation })
      ((s.lane n).trailTimer = some trail → trail.start + trail.duration ≤ s.ms →
        exec (.trailTimerExpiry n) s = .next (completed (s.lane n).arm (s.lane n).kept))
      ∧ ((s.lane n).arm = .atRest → exec (.rotateFwdStart n) s = .next (completed .forward 0)))
    ∧ (s.MazeInRange → (s.lane n).trailTimer = some trail → trail.start + trail.duration ≤ s.ms →
      let closed : Lane := { s.lane n with trailTimer := none }.counting .free 1
      let credited : State := { s with maze := { s.maze with count := min 255 (s.maze.count + max 1 k) } }
      ((s.lane n).state = .freeFlow → (s.lane n).window = some ⟨k, true⟩ → (s.lane n).lateFree = none →
        (s.lane n).pendingRole = none →
        (s.freeFlowInForce = true →
          exec (.trailTimerExpiry n) s = .next ((credited.withLane n { closed with window := none }).markFull s))
        ∧ (s.freeFlowInForce = false → s.restingState n ≠ .fault →
          exec (.trailTimerExpiry n) s = .next
            ((credited.withLane n (s.leftFree n { closed with window := none })).markFull s)))
      ∧ ((s.lane n).lateFree = some ⟨k, true⟩ →
        exec (.trailTimerExpiry n) s = .next
          ((credited.withLane n { closed with lateFree := none }).markFull s)))

/-- The end of the recovery timer stops it, and unlocks a lane in SETTLING, which takes over an arm already
FORWARD in a locked rotation with its bodies (R46, R71, R77); the end of the alarm timer silences the alarm
(R68). An expiry of either timer while it is stopped, and one of the alarm timer that is not yet due, does
nothing: no event of the part, and the model's reading of the rows (log 4). The hold of the passback entry that the
unlock makes is the pinned one (R52; the model's choice where a commit has changed it, log 49). -/
def Obligations.RecoveryAndAlarmTimersEnd : Prop :=
  ∀ (s : State) (n : LaneId), s.Settled →
    (∀ r, (s.lane n).recoveryTimer = some r → r.start + r.duration ≤ s.ms →
      ((s.lane n).state ≠ .settling →
        exec (.recoveryTimerExpiry n) s = .next (s.withLane n { s.lane n with recoveryTimer := none }))
      ∧ (∀ t, (s.lane n).state = .settling → (s.lane n).txn = some t →
        s.LatchesSilently .passbackEvict → s.LatchesSilently .cloneSuspect →
        exec (.recoveryTimerExpiry n) s = .next ((s.passbackUnlock n t).withLane n
          (({ s.lane n with recoveryTimer := none } : Lane).unlocking
            ⟨s.ms, t.pinned.settingsInForce.grantTimeS * 1000⟩))))
    ∧ (∀ a, (s.lane n).alarmTimer = some a →
      exec (.alarmTimerExpiry n) s = .next
        (if a.start + a.duration ≤ s.ms then s.withLane n { s.lane n with alarmTimer := none } else s))
    ∧ ((s.lane n).recoveryTimer = none → exec (.recoveryTimerExpiry n) s = .next s)
    ∧ ((s.lane n).alarmTimer = none → exec (.alarmTimerExpiry n) s = .next s)

/-- FREE_FLOW_PIN_CHANGE and the FREE_FLOW command. Where free-flow begins and no role is pending, every TICKET lane
enters FREE_FLOW, with its transaction ended by the table of R85 as State.freeFlowBegun writes it out, and no other
lane is touched: a card in RESOLVING, HELD or WRITING is told FREE and released, one in SETTLING released, a grant at
the barrier lapses (R76), and a rotation in progress goes on as a free one. The free window of a rotation begun in an
earlier free-flow goes on so too, and one in its trail, whose trail timer stops, closes with its count: the model's
choice (log 29 and 31). A lane still in FREE_FLOW remains there (R87, log 31). Where free-flow ends, every TICKET lane
in FREE_FLOW with no free window open and no role pending leaves for its resting state, with its recovery timer or
with LANE_FAULT, and a lane whose free window is open remains (R87); where the other of the two holds free-flow in
force, or the level or setting is the one already held, only the level or setting is recorded (R84, R85). That a lane
leaves CLOSED so before the settings are first committed is the model's choice between two rules (log 51). -/
def Obligations.FreeFlowBegins : Prop :=
  ∀ (s : State) (on : Bool), s.Settled →
    let leaves (n : LaneId) : Prop :=
      (s.lane n).role = some .ticket ∧ (s.lane n).state = .freeFlow ∧ (s.lane n).window = none
    let left (n : LaneId) : Lane :=
      if (s.lane n).role = some .ticket ∧ (s.lane n).state = .freeFlow ∧ (s.lane n).window = none
        then s.leftFree n (s.lane n) else s.lane n
    let ended : State := { s with lanes := ⟨left .l1, left .l2, left .l3, left .l4⟩ }
    let noFault : Prop := ∀ n, leaves n → s.restingState n ≠ .fault
    let someFault : Prop := ∃ n, leaves n ∧ s.restingState n = .fault
    (s.freeFlowSetting = true ∨ on = s.freeFlowPin →
      exec (.freeFlowPinChange on) s = .next { s with freeFlowPin := on })
    ∧ (s.freeFlowSetting = false → s.freeFlowPin = false → on = true → s.FreeFlowFinds →
      s.MazeInRange → s.LatchesSilently .mazeFull →
      exec (.freeFlowPinChange on) s = .next ({ s.freeFlowBegun with freeFlowPin := true }.markFull s))
    ∧ (s.freeFlowSetting = false → s.freeFlowPin = true → on = false →
      (∀ n, leaves n → (s.lane n).pendingRole = none) →
      (noFault → exec (.freeFlowPinChange on) s = .next { ended with freeFlowPin := false })
      ∧ (someFault → s.LatchesSilently .laneFault →
        exec (.freeFlowPinChange on) s = .next ({ ended with freeFlowPin := false }.withFlag .laneFault)))
    ∧ (∀ m, s.TakesCommand 0x05 m → onOffOf m.payload = some on →
      let answer : Outgoing := .answer ⟨0x05, .done, 0xFF, []⟩
      (s.freeFlowPin = true ∨ on = s.freeFlowSetting →
        exec (.freeFlow m) s = .next ({ s.heard with freeFlowSetting := on }.offered answer))
      ∧ (s.freeFlowPin = false → s.freeFlowSetting = false → on = true → s.FreeFlowFinds →
        s.MazeInRange → s.LatchesSilently .mazeFull →
        exec (.freeFlow m) s = .next
          (({ s.heard.freeFlowBegun with freeFlowSetting := true }.markFull s).offered answer))
      ∧ (s.freeFlowPin = false → s.freeFlowSetting = true → on = false →
        (∀ n, leaves n → (s.lane n).pendingRole = none) →
        let closed : State := { s.heard with freeFlowSetting := false, lanes := ended.lanes }
        (noFault → exec (.freeFlow m) s = .next (closed.offered answer))
        ∧ (someFault → s.LatchesSilently .laneFault →
          exec (.freeFlow m) s = .next ((closed.withFlag .laneFault).offered answer))))

/-! ### The loading gate and the Passback Table -/

/-- LIFT_RUN_CHANGE: a fall closes and records an open window and stops the gate, a rise leaves STOPPED for HELD or
WAITING, each with the run times brought up to date and with its flag latched: set, and from clear with its enable on
reported by one EVENT with detail 0 and the station time, queued or pending (R183); the level it already follows
changes nothing (R104, R110, R154). -/
def Obligations.LiftRunChanges : Prop :=
  ∀ (s : State) (level : Bool), s.Settled → s.ownAddress.isSome = true →
    (s.maze.liftRun = level → exec (.liftRunChange level) s = .next s)
    ∧ (s.maze.liftRun = false → level = true →
      exec (.liftRunChange level) s = .next ({ s with
        time := s.bringRunTimes.time
        maze := { s.maze with
          liftRun := true, gate := if s.maze.loadingHold then .held else .waiting } }.latched .liftRunning 0))
    ∧ (s.maze.liftRun = true → level = false →
      exec (.liftRunChange level) s = .next ({ s with
        time := s.bringRunTimes.time
        maze := { s.maze.recorded with liftRun := false, gate := .stopped } }.latched .liftStopped 0))

/-- A CHAIR pulse acts by the table of R106, and the end of the window timer closes its window into WAITING;
each window closed is recorded by R110 and each opened by R107. -/
def Obligations.ChairsAndWindows : Prop :=
  ∀ s : State, s.Settled → s.ownAddress.isSome = true →
    let opened (m : Maze) : Maze := { m with
      gate := .opened
      window := some ⟨s.maze.count, 0, s.settings.seats, ⟨s.ms, s.settings.loadingWindowMs⟩⟩ }
    exec .chair s = .next (match s.maze.gate with
      | .stopped => s
      | .waiting => { s with maze := opened s.maze }
      | .opened => { s with maze := opened s.maze.recorded }
      | .held => { s with maze := { s.maze with
          day := { s.maze.day with heldChairs := min 65535 (s.maze.day.heldChairs + 1) }
          interval := { s.maze.interval with heldChairs := min 65535 (s.maze.interval.heldChairs + 1) } } })
    ∧ (∀ w, s.maze.window = some w → w.timer.start + w.timer.duration ≤ s.ms →
      exec .windowTimerExpiry s = .next { s with maze := { s.maze.recorded with gate := .waiting } })

/-- A body at LG_BEAM is loaded in an open window, which its last seat closes, and is loading-forced with no
window open; either way the maze count falls by 1 (R94, R108 to R110), and the place it leaves free goes to the
first held lane (R41, R101), while above the limit the held lanes wait on (R99). A short break does nothing. What the
held lane then does holds two choices of the model: the days that a grant without a write shows (log 48), and the
pinned hold of its passback entry where a commit has changed the hold (log 49). -/
def Obligations.GateBodyCounted : Prop :=
  ∀ (s : State) (breakMs : Nat), s.Settled → s.ownAddress.isSome = true →
    (min breakMs s.ms < s.settings.beamMinimumMs → exec (.lgBeamBody breakMs) s = .next s)
    ∧ (s.settings.beamMinimumMs ≤ min breakMs s.ms → 0 < s.maze.count →
      let leaves (t : State) : Prop :=
        (s.NoPlaceDue → exec (.lgBeamBody breakMs) s = .next t)
        ∧ (∀ m rest x, s.AwaitsPlace m rest x → exec (.lgBeamBody breakMs) s = .next (t.placeGiven m rest x))
      (∀ w, s.maze.window = some w →
        let taken : Maze := { s.maze with
          count := s.maze.count - 1, window := some { w with loaded := w.loaded + 1 } }
        leaves { s with
          maze := if w.loaded + 1 = w.seats then { taken.recorded with gate := .waiting } else taken })
      ∧ (s.maze.window = none → s.LatchesSilently .loadingForced →
        leaves ({ s with maze := { s.maze with
          count := s.maze.count - 1
          day := { s.maze.day with loadingForced := min 65535 (s.maze.day.loadingForced + 1) }
          interval := { s.maze.interval with
            loadingForced := min 65535 (s.maze.interval.loadingForced + 1) } } }.withFlag .loadingForced)))

/-- PASSBACK_ENTRY_EXPIRY removes the entry of its key once the ms counter has reached the entry's expiry, and
no other entry (R58). An entry for a new key enters a full table by evicting the first entry in the order, with
PASSBACK_EVICT, and a table with room evicts nothing; in an ordered table it stands after every entry of an equal
or an earlier expiry (R49, R57). The unlock of a grant makes the PENDING LOCAL entry of R52, which replaces an
entry of its key, with CLONE_SUSPECT where that is a REMOTE one; the grant proceeds without one where the own
group is not in both watch sets or its hold is 0. Its hold is the pinned watch set's: where a commit in between has
changed the hold, R51 can be read otherwise, and this is the model's choice (log 49). -/
def Obligations.PassbackExpiryAndEviction : Prop :=
  ∀ s : State,
    (∀ (serial : Serial) (group : Nat), s.Settled →
      exec (.passbackEntryExpiry serial group) s = .next { s with
        passback := s.passback.filter fun e : PassbackEntry =>
          !(e.serial == serial && e.group == group && decide (e.expiry ≤ s.ms)) })
    ∧ (∀ e : PassbackEntry, s.passback.length < 256 →
      s.passbackInsert e = { s with passback := insertByExpiry e s.passback })
    ∧ (∀ (e first : PassbackEntry) (rest : List PassbackEntry), s.passback = first :: rest →
      s.passback.length = 256 → s.LatchesSilently .passbackEvict →
      s.passbackInsert e = { s with passback := insertByExpiry e rest }.withFlag .passbackEvict
        ∧ (s.passbackInsert e).passback.length = 256)
    ∧ (∀ e : PassbackEntry, s.PassbackOrdered →
      insertByExpiry e s.passback = s.passback.filter (fun x : PassbackEntry => decide (x.expiry ≤ e.expiry)) ++ e ::
        s.passback.filter (fun x : PassbackEntry => decide (e.expiry < x.expiry)))
    ∧ (∀ (n : LaneId) (t : Transaction),
      let group := t.pinned.settingsInForce.ownGroup
      let entry (hold : Nat) : PassbackEntry := ⟨t.serial, group, s.ms + hold * 1000, false, .lane n⟩
      let replaced (hold : Nat) : State := { s with
        passback := insertByExpiry (entry hold)
          (s.passback.filter fun x : PassbackEntry => !(x.serial == t.serial && x.group == group)) }
      (holdOf t.pinned.watchSet group = none ∨ holdOf t.pinned.watchSet group = some 0
          ∨ holdOf s.tables.watchSet group = none →
        s.passbackUnlock n t = s)
      ∧ (∀ hold, holdOf t.pinned.watchSet group = some hold → 0 < hold →
        (holdOf s.tables.watchSet group).isSome = true →
        (s.passbackFind t.serial group = none → s.passbackUnlock n t = s.passbackInsert (entry hold))
        ∧ (∀ old m, s.passbackFind t.serial group = some old → old.origin = .lane m →
          s.passbackUnlock n t = replaced hold)
        ∧ (∀ old chip, s.passbackFind t.serial group = some old → old.origin = .remote chip →
          s.LatchesSilently .cloneSuspect →
          s.passbackUnlock n t = (replaced hold).withFlag .cloneSuspect)))

/-! ### Records, the Deferred Write Table and the refund -/

/-- An offered entry meets the table by R120 and R121: it replaces an entry of its serial, but a day mark does
not displace a settlement; a full table gives up its oldest day mark, and one full of settlements stores
nothing. A CARD that reaches the resolution step with an entry for its serial meets it by R33 and R123. A record
equal to the intended one completes the entry: a DAY_MARK entry goes, and the verdict goes on as though there had
been none; a SETTLEMENT entry goes with its REFUND notice queued and counted, with the same on a TICKET lane, and
with REFUNDED on a SETTLE lane (R124, R131). A record of the base issue, or one whose check does not hold, has the
intended record written (Write). Any other entry is stale and goes, with DEFERRED_STALE. -/
def Obligations.DeferredOfferMeetsTable : Prop :=
  ∀ (s : State) (e : DeferredEntry), s.LatchesSilently .deferredLost →
    let stored (es : List DeferredEntry) : State := { s with
      deferred := ⟨es ++ [{ e with stamp := s.deferred.nextStamp }], s.deferred.nextStamp + 1⟩ }
    (∀ old, s.deferredFind e.serial = some old →
      s.deferredOffer e =
        if old.isSettlement ∧ ¬e.isSettlement then (s.withFlag .deferredLost, false)
        else
          let t := stored (s.deferred.entries.filter (·.stamp != old.stamp))
          (if old.isSettlement then t.withFlag .deferredLost else t, true))
    ∧ (s.deferredFind e.serial = none → s.deferred.entries.length < 32 →
      s.deferredOffer e = (stored s.deferred.entries, true))
    ∧ (∀ oldest, s.deferredFind e.serial = none → 32 ≤ s.deferred.entries.length →
      s.deferred.entries.find? (fun x => !x.isSettlement) = some oldest →
      s.deferredOffer e =
        ((stored (s.deferred.entries.filter (·.stamp != oldest.stamp))).withFlag .deferredLost, true))
    ∧ (s.deferredFind e.serial = none → 32 ≤ s.deferred.entries.length →
      (∀ x ∈ s.deferred.entries, x.isSettlement = true) →
      s.deferredOffer e = (s.withFlag .deferredLost, false))
    ∧ (∀ (n : LaneId) (f : ReaderFrame) (serial : Serial) (record : Record) (r : Role),
      parseFrame f = some (.card serial record) → s.Resolves n r serial → r = .ticket ∨ r = .settle →
      s.deferredFind serial = some e → (s.deferred.entries.map (·.serial)).Nodup →
      let gone : State := { s with deferred := { s.deferred with
        entries := s.deferred.entries.filter fun x : DeferredEntry => x.stamp != e.stamp } }
      (record = e.intended → e.kind = .dayMark → exec (.card n f) s = exec (.card n f) gone)
      ∧ (∀ refund impaired generation, record = e.intended → e.kind = .settlement refund impaired generation →
        s.ownAddress.isSome = true → 0 < s.generalFree →
        let notice : Outgoing := .refund
          { serial := e.serial, refund := refund, day := Record.settledDay e.intended
            product := Record.product e.intended, category := Record.category e.intended
            used := Record.used e.intended, impaired := impaired, generation := generation
            lane := e.lane, chip := s.ownByte }
        let counted : State := { gone with time := { s.time with
          refundsCount := min 65535 (s.time.refundsCount + 1)
          refundsSum := min 4294967295 (s.time.refundsSum + refund) } }
        (r = .ticket → exec (.card n f) s = exec (.card n f)
          { counted with loop := { s.loop with insertQueue := s.loop.insertQueue ++ [notice] } })
        ∧ (r = .settle → s.Settled → exec (.card n f) s = .next
          ((counted.withPort n ((s.port n).sending
            [.verdict true .refunded .green 0 refund, .release serial])).offered notice)))
      ∧ (record ≠ e.intended → Record.checkValid record = false ∨ Record.issue record = e.baseIssue → s.Settled →
        let request : WriteRequest := ⟨serial, e.intended, .resolution⟩
        exec (.card n f) s = .next
          ((s.withPort n (if (s.port n).write.isNone
              then { (s.port n).sending [.write serial e.intended] with write := some ⟨request, ⟨s.ms, 1000⟩⟩ }
              else { s.port n with waiting := some request })).withLane n
            { s.lane n with
              txn := some { s.openTransaction serial record with resolving := some e.stamp }
              state := .resolving }))
      ∧ (record ≠ e.intended → Record.checkValid record = true → Record.issue record ≠ e.baseIssue →
        s.LatchesSilently .deferredStale →
        exec (.card n f) s = exec (.card n f) (gone.withFlag .deferredStale)))

/-- The refund is the value of R135 to R137: the base, the price less the category ladder's price of the used
days; the weather credit of each impaired day at the daily rate of the full pass; the gross held at the price; the
net of the fee; rounded down to a rounding step, and held at the cap. So it is at most the price and at most the
cap, and it is a multiple of the rounding step or the cap itself. -/
def Obligations.RefundBounded : Prop :=
  ∀ (price days factor fee threshold step cap : Nat) (qualities ladder : List Nat),
    let x := computeRefund price days qualities factor ladder fee threshold step cap
    let categoryPrice (k : Nat) : Nat := if k = 0 then 0 else ladder.getD (k - 1) 0 * factor / 1000
    let used := qualities.length
    let base := if categoryPrice used < price then price - categoryPrice used else 0
    let rate := categoryPrice days / days
    let impaired := qualities.filter fun q : Nat => decide (q < threshold)
    let weather := (impaired.map fun q : Nat => rate * (1000 - q) / 1000).sum
    let gross := min price (base + weather)
    let net := if fee < gross then gross - fee else 0
    (x.rounded = step * (net / step) ∧ x.refund = min x.rounded cap ∧ x.impaired = impaired.length)
      ∧ x.refund ≤ price ∧ x.refund ≤ cap ∧ x.refund ≤ x.rounded
      ∧ (x.refund % step = 0 ∨ x.refund = cap) ∧ x.impaired ≤ qualities.length

/-- Steps 7 to 10 of the TICKET verdict on a record and a product row (R36, R37). -/
def Obligations.DayChecks : Prop :=
  ∀ (row : ProductRow) (day minute : Nat) (r : Record),
    let first := Record.first r
    let today := Record.dayMark r (day - first)
    (day < first → dayChecks row day minute r = .error .notYet)
    ∧ (first ≤ day → first + Record.window r - 1 < day → dayChecks row day minute r = .error .expired)
    ∧ (first ≤ day → day ≤ first + Record.window r - 1 →
      (minute < row.validFrom ∨ row.validTo < minute → dayChecks row day minute r = .error .hours)
      ∧ (row.validFrom ≤ minute → minute ≤ row.validTo →
        (Record.settled r = true ∨ today = .void → dayChecks row day minute r = .error .settled)
        ∧ (Record.settled r = false → today ≠ .void →
          (today = .free → Record.days r ≤ Record.used r → dayChecks row day minute r = .error .daysExhausted)
          ∧ (today = .free → Record.used r < Record.days r → dayChecks row day minute r = .ok .free)
          ∧ (today ≠ .free → dayChecks row day minute r = .ok today))))

/-- Every record built from a well-formed record by R7 or R8 is well-formed for its serial, keeps its USED and
VOID days, and has the next issue (R6 to R8): a day-marked record has one day more USED, and a settled record has
every FREE day of its window VOID. -/
def Obligations.BuiltRecordsWellFormed : Prop :=
  ∀ (serial : Serial) (base : Record), Record.wellFormed serial base = true →
    Record.settled base = false →
    (∀ i, i < Record.window base → Record.dayMark base i = .free → Record.used base < Record.days base →
      Record.wellFormed serial (Record.dayMarked base i) = true
        ∧ Record.dayMark (Record.dayMarked base i) i = .used
        ∧ (∀ j, j < 28 → j ≠ i → Record.dayMark (Record.dayMarked base i) j = Record.dayMark base j)
        ∧ Record.used (Record.dayMarked base i) = Record.used base + 1
        ∧ Record.issue (Record.dayMarked base i) = Record.issue base + 1)
    ∧ (∀ refund day, refund ≤ 2000000 → 1 ≤ day → day ≤ 366 →
      Record.wellFormed serial (Record.settledRecord base refund day) = true
        ∧ Record.settled (Record.settledRecord base refund day) = true
        ∧ Record.settledAmount (Record.settledRecord base refund day) = refund
        ∧ Record.settledDay (Record.settledRecord base refund day) = day
        ∧ (∀ j, j < 28 → Record.dayMark (Record.settledRecord base refund day) j =
          if j < Record.window base ∧ Record.dayMark base j = .free then .void else Record.dayMark base j)
        ∧ Record.used (Record.settledRecord base refund day) = Record.used base
        ∧ Record.issue (Record.settledRecord base refund day) = Record.issue base + 1)

/-! ### The Time Base -/

/-- STATION_CLOCK_ADVANCE moves the clock on by one second, from 86,399 to 0, once 1,000 ms have passed since
its phase (R147), with the run times brought up to date: the ms since they last were are added to the interval
run time while LIFT_RUN is high, and to the day run time while the day is OPEN and the station minute lies in the
schedule as well, each held at 32 bits (R154; that every advance does so is the model's choice, log 34). An
advance before its time does nothing (the model's reading, log 4). INTERVAL_PRESCALER_EXPIRY restarts the
prescaler and carries into the period count, the postscaler count and the end of the interval (R157; that the end
waits for its own event is the model's reading, log 26). -/
def Obligations.TimeBaseCounts : Prop :=
  ∀ s : State, s.Settled →
    let elapsed := s.ms - s.time.runMark
    let minute := s.time.stationTime / 60
    let grown : TimeBase := { s.time with
      intervalRun := if s.maze.liftRun = true then min 4294967295 (s.time.intervalRun + elapsed)
        else s.time.intervalRun
      dayRun := if s.time.dayState = .opened ∧ s.maze.liftRun = true ∧ s.time.openMinute ≤ minute
          ∧ minute < s.time.closeMinute
        then min 4294967295 (s.time.dayRun + elapsed) else s.time.dayRun
      runMark := s.ms }
    s.bringRunTimes = { s with time := grown }
    ∧ (s.time.stationTime ≤ 86399 → s.time.phase + 1000 ≤ s.ms →
      exec .stationClockAdvance s = .next { s with time := { grown with
        stationTime := (s.time.stationTime + 1) % 86400, phase := s.time.phase + 1000 } })
    ∧ (s.ms < s.time.phase + 1000 → exec .stationClockAdvance s = .next s)
    ∧ (∀ p, s.time.prescaler = some p → p.start + p.duration ≤ s.ms →
      exec .intervalPrescalerExpiry s = .next { s with time :=
        let time := { s.time with prescaler := some ⟨p.start + p.duration, 1000⟩ }
        if s.time.periodCount + 1 < s.settings.intervalPeriodS then
          { time with periodCount := s.time.periodCount + 1 }
        else if s.time.postscaleCount + 1 < s.settings.intervalPostscale then
          { time with periodCount := 0, postscaleCount := s.time.postscaleCount + 1 }
        else { time with periodCount := 0, postscaleCount := 0, intervalDue := true } })

/-- INTERVAL_END offers the COUNT report with the next sequence number and clears every interval accumulator,
the interval run time but for its ms under a second (R158). -/
def Obligations.IntervalEnds : Prop :=
  ∀ s : State, s.Settled → s.ownAddress.isSome = true → 0 < s.generalFree → s.time.intervalDue = true →
    let u := s.bringRunTimes
    exec .intervalEnd s = .next
      ({ s with
          lanes := s.lanes.map fun l : Lane => { l with interval := .zero }
          maze := { s.maze with interval := .zero }
          time := { u.time with
            sequence := s.time.sequence + 1, intervalRun := u.time.intervalRun % 1000
            intervalDue := false } }.offered (.count
        { sequence := s.time.sequence + 1, short := false
          seconds := s.settings.intervalPeriodS * s.settings.intervalPostscale
          seasonDay := s.time.seasonDay, dayState := s.time.dayState, stationTime := s.time.stationTime
          lanes := s.lanes.map (fun l : Lane => l.interval), loading := s.maze.interval, mazeCount := s.maze.count
          runSeconds := u.time.intervalRun / 1000
          exitBodies := s.lanes.l1.interval.exit + s.lanes.l2.interval.exit + s.lanes.l3.interval.exit
            + s.lanes.l4.interval.exit }))

/-- A TIME notice from the station computer sets the clock, the SET state and the second phase, and latches TIME_STEP
with the step as its detail where a clock that was SET steps by more than 2 seconds the shorter way around (R148,
R154). A TIME, DAY_OPEN or DAY_CLOSE notice of a wrong length is ignored and latches BAD_NOTICE with the type as its
detail (R189). Each latch makes its EVENT report (R183); TIME_STEP's carries the time before the setting (the model's
choice, log 45). Either way a broadcast is passed on (R162). Where a report and the broadcast could both take an idle
output, either may go first (log 8), and the statement leaves that case to a latch that makes no report. -/
def Obligations.TimeNoticeTaken : Prop :=
  ∀ (s : State) (m : Arrival), s.Settled → m.source = 0 →
    let ordered (f : Flag) : Prop :=
      s.LatchesSilently f ∨ s.loop.sending.isSome = true ∨ s.isOwn m.destination = true
    (s.Processes 0x20 m → m.payload.length = 4 → fieldLE m.payload 0 4 ≤ 86399 → ordered .timeStep →
      let v := fieldLE m.payload 0 4
      let d := max v s.time.stationTime - min v s.time.stationTime
      let step := min d (86400 - d)
      let heard := if s.time.clockSet = true ∧ 2 < step then s.heard.latched .timeStep step else s.heard
      exec (.time m) s = .next
        ({ heard with
          time := { s.bringRunTimes.time with stationTime := v, clockSet := true, phase := s.ms } }.onward s 0x20 m))
    ∧ (ordered .badNotice → s.Processes 0x20 m → m.payload.length ≠ 4 →
      exec (.time m) s = .next ((s.heard.latched .badNotice 0x20).onward s 0x20 m))
    ∧ (ordered .badNotice → s.Processes 0x21 m → m.payload.length ≠ 6 →
      exec (.dayOpen m) s = .next ((s.heard.latched .badNotice 0x21).onward s 0x21 m))
    ∧ (ordered .badNotice → s.Processes 0x22 m → m.payload.length ≠ 2 →
      exec (.dayClose m) s = .next ((s.heard.latched .badNotice 0x22).onward s 0x22 m))

/-- A valid DAY_OPEN opens its season day: the schedule is set, the day counters start afresh with a carried
grant counted, the refunds and the day run time are 0, and the deferred entries past their retention are gone
(R126, R150, R151). -/
def Obligations.DayOpens : Prop :=
  ∀ (s : State) (m : Arrival), s.Settled → s.Processes 0x21 m → m.source = 0 → m.payload.length = 6 →
    let day := fieldLE m.payload 0 2
    1 ≤ day → day ≤ 366 → fieldLE m.payload 2 2 ≤ fieldLE m.payload 4 2 → fieldLE m.payload 4 2 ≤ 1440 →
    ∃ t, exec (.dayOpen m) s = .next t
      ∧ t.time.dayState = .opened ∧ t.time.seasonDay = day
      ∧ t.time.openMinute = fieldLE m.payload 2 2 ∧ t.time.closeMinute = fieldLE m.payload 4 2
      ∧ t.time.dayRun = 0 ∧ t.time.refundsCount = 0 ∧ t.time.refundsSum = 0
      ∧ t.maze.day = .zero ∧ t.maze.interval = s.maze.interval ∧ t.maze.count = s.maze.count
      ∧ (∀ n, (t.lane n).day = (if (s.lane n).role = some .ticket
            ∧ ((s.lane n).state = .unlocked ∨ (s.lane n).state = .passing)
          then { LaneCounters.zero with granted := 1 } else .zero)
        ∧ (t.lane n).interval = (s.lane n).interval ∧ (t.lane n).txn = (s.lane n).txn)
      ∧ t.deferred.entries = s.deferred.entries.filter (fun e : DeferredEntry =>
          decide (day ≤ e.dayCreated + s.settings.retentionDays) && decide (e.dayCreated ≤ day))
      ∧ t.passback = s.passback ∧ t.tables = s.tables ∧ t.ms = s.ms

/-- A DAY_CLOSE for the open day closes it and queues its DAY report, with every figure as it stands; the day
counters, the season day and the schedule are kept (R152, R155, R156). A broadcast is passed on (R162). -/
def Obligations.DayCloses : Prop :=
  ∀ (s : State) (m : Arrival), s.Settled → s.Processes 0x22 m → m.source = 0 → m.payload.length = 2 →
    s.time.dayState = .opened → fieldLE m.payload 0 2 = s.time.seasonDay →
    1 ≤ s.time.seasonDay → s.time.seasonDay ≤ 366 →
    0 < s.generalFree → s.loop.sending.isSome = true → s.LatchesSilently .laneFault →
    let u := s.bringRunTimes
    let scheduled := (s.time.closeMinute - s.time.openMinute) * 60
    let run := min (u.time.dayRun / 1000) scheduled
    ∃ t : State, exec (.dayClose m) s = .next (t.onward s 0x22 m)
      ∧ t.time = { u.time with dayState := .closed }
      ∧ t.loop.insertQueue = s.loop.insertQueue ++ [.day
          { seasonDay := s.time.seasonDay, implicit := false, noSchedule := scheduled == 0
            openMinute := s.time.openMinute, closeMinute := s.time.closeMinute
            scheduledSeconds := scheduled, runSeconds := run
            availability := if scheduled = 0 then 1000 else run * 1000 / scheduled
            stationTime := s.time.stationTime, generation := s.tables.generation
            lanes := s.lanes.map (fun l : Lane => l.day), loading := s.maze.day, mazeCount := s.maze.count
            refundsCount := s.time.refundsCount, refundsSum := s.time.refundsSum
            deferredEntries := s.deferred.entries.length }]
      ∧ (∀ n, (t.lane n).day = (s.lane n).day ∧ (t.lane n).txn = (s.lane n).txn)
      ∧ t.maze = s.maze ∧ t.passback = s.passback ∧ t.deferred = s.deferred ∧ t.tables = s.tables
      ∧ t.ports = s.ports ∧ t.heldOrder = s.heldOrder
      ∧ t.loop.transit = s.loop.transit ∧ t.loop.sending = s.loop.sending ∧ t.ms = s.ms

/-- The availability of a day, at its DAY_CLOSE and at its implicit close: scheduled seconds, run seconds held
at them, the floor of the per-mille, and 1000 with NO_SCHEDULE where nothing was scheduled; every value within
the range of R155. -/
def Obligations.AvailabilityComputed : Prop :=
  ∀ (s : State) (implicit : Bool),
    let r := s.dayReport implicit
    r.scheduledSeconds = (s.time.closeMinute - s.time.openMinute) * 60
    ∧ r.runSeconds = min (s.time.dayRun / 1000) r.scheduledSeconds
    ∧ (0 < r.scheduledSeconds → r.noSchedule = false
      ∧ r.availability * r.scheduledSeconds ≤ r.runSeconds * 1000
      ∧ r.runSeconds * 1000 < (r.availability + 1) * r.scheduledSeconds)
    ∧ (r.scheduledSeconds = 0 → r.availability = 1000 ∧ r.noSchedule = true)
    ∧ (s.time.closeMinute ≤ 1440 → r.scheduledSeconds ≤ 86400 ∧ r.runSeconds * 1000 ≤ 86400000)
    ∧ r.availability ≤ 1000
    ∧ (0 < s.generalFree → s.ownAddress.isSome = true →
      let u := s.bringRunTimes
      .day (u.dayReport false) ∈ s.closeDay.loop.insertQueue
      ∧ ∀ day first last, s.time.dayState = .opened →
        .day (u.dayReport true) ∈ (s.openDay day first last).loop.insertQueue)

/-! ### The station loop -/

/-- A PASSAGE notice by R55 and R56. It is ignored where its source is 0, it has another length, the serial 0, a group
above 63 or not watched, a time above 86,399, or an age not below the hold. Otherwise, by the rows of R56: a new key
enters a CONFIRMED REMOTE entry for the hold that remains of its age, and displaces the entry that expires first from
a full table, with PASSBACK_EVICT and that entry's serial (R57); a CONFIRMED entry keeps its origin and takes the
later expiry; a PENDING entry is kept as it is, with CLONE_SUSPECT and the serial. Each latch makes its EVENT report
(R183), and a broadcast is passed on (R162); where both could take an idle output, either may go first (log 8), and
the statement leaves that case to a latch that makes no report. -/
def Obligations.PassageNoticeEnters : Prop :=
  ∀ (s : State) (m : Arrival), s.Settled → s.Processes 0x23 m →
    let ordered (f : Flag) : Prop :=
      s.LatchesSilently f ∨ s.loop.sending.isSome = true ∨ s.isOwn m.destination = true
    let serial : Serial := BitVec.ofNat 32 (fieldLE m.payload 0 4)
    let group := fieldLE m.payload 4 1
    let noticeTime := fieldLE m.payload 5 4
    let a := (s.time.stationTime + 86400 - noticeTime) % 86400
    let age := if 43200 < a then 0 else a
    let ignored := m.payload.length ≠ 15 ∨ m.source = 0 ∨ serial = 0 ∨ 63 < group ∨ 86399 < noticeTime
      ∨ (holdOf s.tables.watchSet group).all (fun hold => decide (hold ≤ age)) = true
    (ignored → exec (.passage m) s = .next (s.heard.onward s 0x23 m))
    ∧ (∀ hold, ¬ignored → holdOf s.tables.watchSet group = some hold →
      let expiry := s.ms + (hold - age) * 1000
      let offered : PassbackEntry := ⟨serial, group, expiry, true, .remote m.source⟩
      let table (entries : List PassbackEntry) : State := { s.heard with passback := entries }
      (s.passbackFind serial group = none →
        (s.passback.length < 256 →
          exec (.passage m) s = .next ((table (insertByExpiry offered s.passback)).onward s 0x23 m))
        ∧ (∀ first rest, s.passback = first :: rest → 256 ≤ s.passback.length → ordered .passbackEvict →
          exec (.passage m) s = .next
            (((table (insertByExpiry offered rest)).latched .passbackEvict first.serial.toNat).onward s 0x23 m)))
      ∧ (∀ old, s.passbackFind serial group = some old →
        (old.confirmed = true → exec (.passage m) s = .next
          ((table (if old.expiry < expiry
              then insertByExpiry { old with expiry := expiry }
                (s.passback.filter fun e : PassbackEntry => !e.hasKey serial group)
              else s.passback)).onward s 0x23 m))
        ∧ (old.confirmed = false → ordered .cloneSuspect →
          exec (.passage m) s = .next ((s.heard.latched .cloneSuspect serial.toNat).onward s 0x23 m))))

/-- With the link UP, a whole message for another address is passed on with its hop count raised by 1: sent at
once on an idle output, queued in the transit FIFO, or dropped from a full one. A message of its own source is
stripped, one with 30 hops or more is an orphan, and one that fails test 1 counts in CRC-errors and in the bad
run (R162, R164, R168, R169). -/
def Obligations.TransitMessageFates : Prop :=
  ∀ (s : State) (type : Byte) (m : Arrival), s.Settled → s.loop.link = .up →
    (s.Accepts type m → s.isOwn m.destination = false → m.destination ≠ 31 →
      exec (.transitMessage type m) s = .next
        (s.heard.passedOn ⟨type, m.destination, m.source, m.hops + 1, m.payload⟩))
    ∧ (arrivalIntact type m = true →
      (s.isOwn m.source = true → exec (.transitMessage type m) s = .next s.heard)
      ∧ (s.isOwn m.source = false → 30 ≤ m.hops.toNat →
        exec (.transitMessage type m) s = .next { s.heard with
          loop := { s.heard.loop with orphans := min 65535 (s.loop.orphans + 1) } }))
    ∧ (arrivalIntact type m = false → s.loop.badRun < 15 →
      exec (.transitMessage type m) s = .next { s with
        loop := { s.loop with
          crcErrors := min 65535 (s.loop.crcErrors + 1), badRun := s.loop.badRun + 1 } })

/-- The link by R169: valid input restarts the silence timer and takes DOWN to SYNC, the end of the training timer
takes SYNC to UP, with LINK_RECOVERED after a loss, and the end of the silence timer takes SYNC or UP to DOWN with
LINK_LOST. A message that fails test 1 of R162 adds 1 to CRC-errors and to the bad run: in DOWN that is all, in SYNC
it restarts the training timer, and as the sixteenth of its run it takes SYNC or UP to DOWN with LINK_LOST. Each flag
is latched, with its EVENT report of detail 0 (R182, R183). -/
def Obligations.LinkTrainsAndFalls : Prop :=
  ∀ s : State, s.Settled →
    exec .idleFill s = .next { s with loop :=
      if s.loop.link = .down then
        { s.loop with link := .sync, silence := some ⟨s.ms, 200⟩, training := some ⟨s.ms, 50⟩ }
      else { s.loop with silence := some ⟨s.ms, 200⟩ } }
    ∧ (∀ t, s.loop.link = .sync → s.loop.training = some t → t.start + t.duration ≤ s.ms →
      exec .trainingTimerExpiry s = .next
        (let up := { s with loop := { s.loop with link := .up, training := none } }
         if s.loop.downByLoss then up.latched .linkRecovered 0 else up))
    ∧ (∀ t, s.loop.link ≠ .down → s.loop.silence = some t → t.start + t.duration ≤ s.ms →
      exec .silenceTimerExpiry s = .next ({ s with loop := { s.loop with
        link := .down, silence := none, training := none, badRun := 0
        downByLoss := true } }.latched .linkLost 0))
    ∧ (∀ type m, arrivalIntact type m = false →
      let counted : Loop := { s.loop with
        crcErrors := min 65535 (s.loop.crcErrors + 1), badRun := min 16 (s.loop.badRun + 1) }
      (s.loop.link = .down → exec (.transitMessage type m) s = .next { s with loop := counted })
      ∧ (s.loop.link = .sync → s.loop.badRun < 15 →
        exec (.transitMessage type m) s = .next { s with loop := { counted with training := some ⟨s.ms, 50⟩ } })
      ∧ (s.loop.link ≠ .down → 15 ≤ s.loop.badRun →
        exec (.transitMessage type m) s = .next ({ s with loop := { counted with
          link := .down, silence := none, training := none, badRun := 0
          downByLoss := true } }.latched .linkLost 0)))

/-- At the end of a send the arbiter chooses by the table of R168: transit messages first, and an own message
after four of them. -/
def Obligations.ArbiterChooses : Prop :=
  ∀ s : State, s.Settled → s.loop.sending.isSome = true → s.loop.pendingEvents = [] →
    exec .sendEnd s = .next { s with loop := match s.loop.transit, s.loop.insertQueue with
      | [], [] => { s.loop with sending := none }
      | m :: rest, [] => { s.loop with transit := rest, sending := some m, fairness := 0 }
      | [], o :: rest =>
        { s.loop with insertQueue := rest, sending := some (o.message s.ownByte), fairness := 0 }
      | m :: rest, o :: own =>
        if s.loop.fairness < 4 then
          { s.loop with transit := rest, sending := some m, fairness := s.loop.fairness + 1 }
        else { s.loop with insertQueue := own, sending := some (o.message s.ownByte), fairness := 0 } }

/-- A COUNT or DAY report that finds no general entry free displaces the oldest queued PASSAGE, with notice-drops + 1
and NOTICE_DROP, and is lost with REPORT_LOST where none is queued (R166). An event that latches a flag sets it; from
clear to set with the enable on and no EVENT report of it pending it makes exactly one, with the flag's identifier,
the station time and the detail, sent at once by an idle output, else queued in a free general entry, else pending,
and a latch that finds the flag set, or its enable off, makes none; two flags latched in one event are reported in the
order of their identifiers (R167, R182, R183). The model's choices: the reports are queued at the end of the event
(log 7), and whether one is pending is judged at the latch (log 47). -/
def Obligations.ReportDisplacesPassage : Prop :=
  (∀ (s : State) (o : Outgoing), s.ownAddress.isSome = true → s.generalFree = 0 →
      s.LatchesSilently .noticeDrop → s.LatchesSilently .reportLost →
      (∀ before p after, s.loop.insertQueue = before ++ .passage p :: after →
        (∀ x ∈ before, x.type ≠ 0x23) →
        s.queueReport o = { s with loop := { s.loop with
          insertQueue := before ++ after ++ [o]
          noticeDrops := min 65535 (s.loop.noticeDrops + 1) } }.withFlag .noticeDrop)
      ∧ ((∀ x ∈ s.loop.insertQueue, x.type ≠ 0x23) → s.queueReport o = s.withFlag .reportLost))
  ∧ (∀ s : State, s.Settled →
    (∀ f d, s.event (fun x => x.latch f d) = s.latched f d)
    ∧ (∀ f g d e, f.id < g.id →
      s.event (fun x => (x.latch g e).latch f d) = (s.latched f d).latched g e))

/-! ### Commands -/

/-- A LOAD that fits stores its segment and is answered DONE with the segments held and the total; one that
does not fit is answered BAD_SEGMENT and stores nothing (R177, R178). -/
def Obligations.LoadStoresSegment : Prop :=
  ∀ (s : State) (m : Arrival) (t : TableId), s.TakesCommand 0x01 m → 3 ≤ m.payload.length →
    TableId.ofId (fieldLE m.payload 0 1) = some t →
    let number := fieldLE m.payload 1 1
    let total := fieldLE m.payload 2 1
    let entries := m.payload.drop 3
    let fits := 1 ≤ total ∧ total ≤ t.maxSegments ∧ number < total ∧ t.segmentFits entries = true
    let stored (segments : List (Nat × List Byte)) : State := { s.heard with
      mgmt := { s.mgmt with shadows := s.mgmt.shadows.set t (.loading total segments) } }
    let answered (segments : List (Nat × List Byte)) : Outgoing :=
      .answer ⟨0x01, .done, 0xFF, bytesLE 1 segments.length ++ bytesLE 1 total⟩
    (fits → s.mgmt.shadows.get t = .absent →
      exec (.load m) s = .next ((stored [(number, entries)]).offered (answered [(number, entries)])))
    ∧ (∀ held, fits → s.mgmt.shadows.get t = .loading total held →
      exec (.load m) s = .next ((stored (storeSegment number entries held)).offered
        (answered (storeSegment number entries held))))
    ∧ (¬fits ∨ (∃ other held, s.mgmt.shadows.get t = .loading other held ∧ other ≠ total) →
      exec (.load m) s = .next (s.heard.offered (.answer ⟨0x01, .badSegment, 0xFF, []⟩)))

/-- A COMMIT whose named shadows are complete and valid commits them together: the committed tables become those
named, each from its own shadow, and no other, with the generation advanced once; the named shadows become ABSENT, and
the ANSWER carries DONE and the new generation (R180, R181). Each owner acts at the swap. A raised maze limit gives
its places to held lanes, the earliest first: those given one leave the front of the held order with the hold timer
stopped and the reservation taken, and enter WRITING with today FREE, and SETTLING, PASSING or UNLOCKED with today
USED, until the sum has reached the new limit, and the others wait as they did; one whose card of a FREE day is gone
is refused in place of it (R44, R99, R101; this is stated where no such lane has a late free window as well; what such
a grant shows and how long its entry holds are the model's choices, logs 48 and 49). A lane whose role changes at once
closes a free window in its trail that has outlived FREE_FLOW, with free + 1 and its maze credit (R86, R89; the
model's choice, log 29), and that passage is counted in the interval that the COMMIT's own SHORT report closes, since
the roles are taken before the interval is judged (the model's choice, log 28). The first settings start the interval
timer; changed ones end the interval SHORT, with its COUNT report, and clear the accumulators of the lanes not held
and of the maze; others leave it and them alone (R158, R159). Where no lane is held, entries of groups no longer
watched are removed (R51); a lane whose role changes takes it at once from rest or from FREE_FLOW with no free window
open, and has it pending otherwise (R64); a lane at rest takes the resting state that the new tables give (R65, R67;
with a DAY_CLOSE on its way to it, log 9). That a lane takes FAULT, EXIT or FREE_FLOW before the settings are first
committed too is the model's choice between two rules (log 51). -/
def Obligations.CommitSwapsTables : Prop :=
  ∀ (s : State) (m : Arrival) (named : List TableId), s.TakesCommand 0x02 m →
    tableMaskOf m.payload = some named → firstIncomplete named s.mgmt.shadows = none →
    firstInvalid named s.mgmt.shadows s.tables = none →
    let answer : Outgoing := .answer ⟨0x02, .done, 0xFF, bytesLE 2 (s.tables.generation + 1).toNat⟩
    let standing (x : TableId) : TableSet :=
      if x ∈ named then decodeInto x (s.mgmt.shadows.get x) s.tables else s.tables
    let started (time : TimeBase) : TimeBase :=
      { time with prescaler := some ⟨s.ms, 1000⟩, periodCount := 0, postscaleCount := 0, intervalDue := false }
    let atOnce (n : LaneId) : Bool := (s.lane n).state.atRest
      || ((s.lane n).state == .freeFlow && (s.lane n).window.isNone)
    let changes (n : LaneId) : Bool := named.contains .laneTable && atOnce n
      && (standing .laneTable).laneTable.any fun x => (s.lane n).role != some (x.get n).role
    let counted (n : LaneId) : Lane := if changes n then (s.lane n).trailCounted else s.lane n
    let credit (n : LaneId) : Nat := if changes n then (s.lane n).trailCredit else 0
    let credits := credit .l1 + credit .l2 + credit .l3 + credit .l4
    let kept (t : State) : Prop :=
      (∀ n, n ∉ s.heldOrder → (t.lane n).interval = (counted n).interval) ∧ t.maze.interval = s.maze.interval
    let heldReady : Prop := ∀ n ∈ s.heldOrder, (s.lane n).state = .held
      ∧ ∀ x, (s.lane n).txn = some x → x.today = some .free → x.present = false → (s.lane n).lateFree = none
    ∃ t, exec (.commit m) s = .next t
      ∧ t.tables = { tablesAfter named s.mgmt.shadows s.tables with generation := s.tables.generation + 1 }
      ∧ t.tables.blockList = (standing .blockList).blockList ∧ t.tables.windows = (standing .windows).windows
      ∧ t.tables.products = (standing .products).products ∧ t.tables.categories = (standing .categories).categories
      ∧ t.tables.watchSet = (standing .watchSet).watchSet ∧ t.tables.dayQuality = (standing .dayQuality).dayQuality
      ∧ t.tables.laneTable = (standing .laneTable).laneTable ∧ t.tables.settings = (standing .settings).settings
      ∧ (∀ x, t.mgmt.shadows.get x = if x ∈ named then .absent else s.mgmt.shadows.get x)
      ∧ (answer ∈ t.loop.insertQueue ∨ t.loop.sending = some (answer.message s.ownByte))
      ∧ t.deferred = s.deferred ∧ t.ms = s.ms ∧ t.ownAddress = s.ownAddress
      ∧ (heldReady → t.maze.count = (if credits = 0 then s.maze.count else min 255 (s.maze.count + credits)))
      ∧ (s.heldOrder.Nodup → heldReady →
        t.heldOrder <:+ s.heldOrder ∧ (t.heldOrder ≠ [] → t.placeFree = false)
        ∧ (t.heldOrder ≠ s.heldOrder → t.mazeSum ≤ t.mazeLimit)
        ∧ (∀ n x, n ∈ s.heldOrder → (s.lane n).txn = some x →
          (n ∈ t.heldOrder → (t.lane n).txn = some x ∧ (t.lane n).state = .held
            ∧ (t.lane n).holdTimer = (s.lane n).holdTimer)
          ∧ (n ∉ t.heldOrder → x.today = some .free → x.present = false →
            (t.lane n).holdTimer = none ∧ (t.lane n).txn = none)
          ∧ (n ∉ t.heldOrder → x.today ≠ some .free ∨ x.present = true →
            (t.lane n).holdTimer = none
            ∧ (∃ y, (t.lane n).txn = some y ∧ y.serial = x.serial ∧ y.reserved = true)
            ∧ (t.lane n).state = (if x.today = some .free then .writing
              else if (s.lane n).recoveryTimer.isSome then .settling
              else if (s.lane n).arm = .forward ∧ (s.lane n).lateFree = none then .passing else .unlocked))))
      ∧ (s.heldOrder = [] →
        t.passback = (if TableId.watchSet ∈ named
            then s.passback.filter fun e : PassbackEntry => (holdOf t.tables.watchSet e.group).isSome
            else s.passback)
        ∧ (∀ n, (t.lane n).txn = (s.lane n).txn ∧ (t.lane n).day = (counted n).day
          ∧ (TableId.laneTable ∉ named →
            (t.lane n).role = (s.lane n).role ∧ (t.lane n).pendingRole = (s.lane n).pendingRole)
          ∧ (∀ x, TableId.laneTable ∈ named → t.tables.laneTable = some x →
            let r := (x.get n).role
            ((s.lane n).role = some r → (t.lane n).role = some r ∧ (t.lane n).pendingRole = none)
            ∧ ((s.lane n).role ≠ some r → atOnce n = true →
              (t.lane n).role = some r ∧ (t.lane n).pendingRole = none
              ∧ (t.lane n).state = (if r = .ticket ∧ s.freeFlowInForce = true then .freeFlow
                else t.restingState n))
            ∧ ((s.lane n).role ≠ some r → atOnce n = false →
              (t.lane n).role = (s.lane n).role ∧ (t.lane n).pendingRole = some r
              ∧ (t.lane n).state = (s.lane n).state))
          ∧ (TableId.laneTable ∈ named ∨ TableId.settings ∈ named → (t.lane n).state.atRest = true →
            (t.lane n).state = t.restingState n)))
      ∧ (TableId.settings ∉ named → t.time = s.time ∧ (heldReady → kept t))
      ∧ (∀ new, TableId.settings ∈ named → t.tables.settings = some new →
        (s.tables.settings = none → t.time = started s.time ∧ (heldReady → kept t))
        ∧ (∀ old, s.tables.settings = some old →
          let same := old.intervalPeriodS = new.intervalPeriodS ∧ old.intervalPostscale = new.intervalPostscale
          (same → t.time = s.time ∧ (heldReady → kept t))
          ∧ (¬same → s.time.intervalDue = false →
            let u := s.bringRunTimes.time
            t.time = started { u with sequence := s.time.sequence + 1, intervalRun := u.intervalRun % 1000 }
            ∧ (heldReady → (∀ n, n ∉ s.heldOrder → (t.lane n).interval = .zero) ∧ t.maze.interval = .zero)
            ∧ (0 < s.generalFree → ∃ r : CountReport,
              (.count r ∈ t.loop.insertQueue
                ∨ t.loop.sending = some ((Outgoing.count r).message s.ownByte))
              ∧ r.sequence = s.time.sequence + 1 ∧ r.short = true
              ∧ r.seconds = s.time.postscaleCount * old.intervalPeriodS + s.time.periodCount
              ∧ r.lanes = ⟨(counted .l1).interval, (counted .l2).interval, (counted .l3).interval,
                (counted .l4).interval⟩
              ∧ r.loading = s.maze.interval ∧ r.runSeconds = u.intervalRun / 1000))))

/-- ABORT_LOAD sets each named shadow ABSENT, whatever it was, and is answered DONE; the committed tables, the
generation, the shadows not named and everything else are not changed (R179). -/
def Obligations.AbortLoadClears : Prop :=
  ∀ (s : State) (m : Arrival) (named : List TableId), s.TakesCommand 0x03 m →
    tableMaskOf m.payload = some named →
    ∃ shadows : Shadows,
      (∀ x, shadows.get x = if x ∈ named then .absent else s.mgmt.shadows.get x)
      ∧ exec (.abortLoad m) s = .next ({ s.heard with mgmt := { s.mgmt with shadows := shadows } }.offered
          (.answer ⟨0x03, .done, 0xFF, []⟩))

/-- A COMMIT that names an incomplete shadow, or one that fails its owner's validation, is answered INCOMPLETE
or INVALID with the first failing table; a command of a type that is not tabled is answered UNKNOWN_COMMAND
under its type code; and a command that finds four answer entries occupied is not carried out and counts one
overrun, RESTART included (R163, R174 to R176, R180). -/
def Obligations.CommandsRefused : Prop :=
  ∀ (s : State) (m : Arrival),
    (∀ named x, s.TakesCommand 0x02 m → tableMaskOf m.payload = some named →
      (firstIncomplete named s.mgmt.shadows = some x →
        exec (.commit m) s = .next
          (s.heard.offered (.answer ⟨0x02, .incomplete, BitVec.ofNat 8 x.id, []⟩)))
      ∧ (firstIncomplete named s.mgmt.shadows = none → firstInvalid named s.mgmt.shadows s.tables = some x →
        exec (.commit m) s = .next
          (s.heard.offered (.answer ⟨0x02, .invalid, BitVec.ofNat 8 x.id, []⟩))))
    ∧ (∀ type, isCommandType type = false → isNoticeType type = false → isReportType type = false →
      s.TakesCommand type m →
      exec (.unknownCommand type m) s = .next
        (s.heard.offered (.answer ⟨type, .unknownCommand, 0xFF, []⟩)))
    ∧ (s.Settled → m.source = 0 → m.destination ≠ 31 → 4 ≤ s.answersOccupied →
      let overrun : State := { s.heard with
        mgmt := { s.mgmt with overruns := min 65535 (s.mgmt.overruns + 1) } }
      (s.Consumes 0x01 m → exec (.load m) s = .next overrun)
      ∧ (s.Consumes 0x02 m → exec (.commit m) s = .next overrun)
      ∧ (s.Consumes 0x04 m → exec (.lane m) s = .next overrun)
      ∧ (s.Consumes 0x0C m → m.payload = [] → exec (.restart m) s = .next overrun))

/-- LANE sets the lane's command setting, which opens and closes a resting TICKET or SETTLE lane whose other
conditions hold; a lane under key control is answered KEY_CONTROL and left alone (R66, R67). -/
def Obligations.LaneCommandActs : Prop :=
  ∀ (s : State) (m : Arrival) (n : LaneId) (opened : Bool), s.TakesCommand 0x04 m →
    laneCommandOf m.payload = some (n, opened) →
    (s.keyControl n = true →
      exec (.lane m) s = .next (s.heard.offered (.answer ⟨0x04, .keyControl, 0xFF, []⟩)))
    ∧ (s.keyControl n = false → (s.lane n).role = some .ticket ∨ (s.lane n).role = some .settle →
      s.OtherwiseOpen n → s.Resting n →
      exec (.lane m) s = .next
        ((s.heard.withLane n { s.lane n with
            commandOpen := opened, state := if opened then .idle else .closed }).offered
          (.answer ⟨0x04, .done, 0xFF, []⟩)))

/-- LOADING_HOLD sets the setting and moves the gate: ON takes WAITING and OPEN to HELD, recording an open
window, and OFF takes HELD to WAITING (R105, R110). -/
def Obligations.LoadingHoldActs : Prop :=
  ∀ (s : State) (m : Arrival) (on : Bool), s.TakesCommand 0x06 m → onOffOf m.payload = some on →
    exec (.loadingHold m) s = .next ({ s.heard with maze := match s.maze.gate, on with
        | .waiting, true => { s.maze with loadingHold := true, gate := .held }
        | .opened, true => { s.maze.recorded with loadingHold := true, gate := .held }
        | .held, false => { s.maze with loadingHold := false, gate := .waiting }
        | _, _ => { s.maze with loadingHold := on } }.offered (.answer ⟨0x06, .done, 0xFF, []⟩))

/-- READ_STATUS and READ_COUNTS answer the part's fields and the day counters as they stand and change nothing
but the run times brought up to date; each answer has the length its layout gives (R154, R185, R186, R191;
the choices of log 25 are the model's). The day counters appear in STATUS too (R153), after the fields of R185 in
the parts of the lanes and of the maze, the place being the model's (log 46). -/
def Obligations.ReadsAnswer : Prop :=
  ∀ (s : State) (m : Arrival),
    (∀ part fields, s.TakesCommand 0x07 m → oneByte m.payload = some part →
      s.heard.bringRunTimes.statusPart part = some fields →
      exec (.readStatus m) s = .next
        ({ s.heard with time := s.bringRunTimes.time }.offered
          (.answer ⟨0x07, .done, 0xFF, BitVec.ofNat 8 part :: fields⟩))
      ∧ some fields.length = [90, 144, 51, 35][part]?
      ∧ (part = 1 → fields.drop 56 = laneBlock (s.lanes.map (fun l : Lane => l.day)))
      ∧ (part = 2 → fields.drop 25 = s.maze.day.bytes))
    ∧ (s.TakesCommand 0x08 m → m.payload = [] →
      exec (.readCounts m) s = .next (s.heard.offered (.answer ⟨0x08, .done, 0xFF,
        bytesLE 2 s.time.seasonDay ++ bytesLE 1 s.time.dayState.code ++ laneBlock (s.lanes.map (fun l : Lane => l.day))
          ++ s.maze.day.bytes⟩)))

/-- CLEAR_FLAGS clears exactly the flags its mask names, and REPORT_ENABLE replaces every enable (R184).
PURGE_DEFERRED removes one serial's entry or all of them and answers DONE with the number removed (R127). -/
def Obligations.FlagAndPurgeCommandsAct : Prop :=
  ∀ (s : State) (m : Arrival),
    (∀ mask, flagMaskOf m.payload = some mask → s.TakesCommand 0x09 m →
      ∃ flags : BitVec 32, (∀ i, flags.getLsbD i = (s.mgmt.flags.getLsbD i && !mask.getLsbD i))
        ∧ exec (.clearFlags m) s = .next ({ s.heard with mgmt := { s.mgmt with flags := flags } }.offered
          (.answer ⟨0x09, .done, 0xFF, []⟩)))
    ∧ (∀ mask, flagMaskOf m.payload = some mask → s.TakesCommand 0x0A m →
      exec (.reportEnable m) s = .next ({ s.heard with mgmt := { s.mgmt with enables := mask } }.offered
        (.answer ⟨0x0A, .done, 0xFF, []⟩)))
    ∧ (∀ which, s.TakesCommand 0x0B m → purgeOf m.payload = some which →
      let gone (e : DeferredEntry) : Bool := decide (which = none ∨ which = some e.serial)
      exec (.purgeDeferred m) s = .next ({ s.heard with deferred := { s.deferred with
            entries := s.deferred.entries.filter fun e : DeferredEntry => !gone e } }.offered
        (.answer ⟨0x0B, .done, 0xFF, bytesLE 1 (s.deferred.entries.filter gone).length⟩)))

/-- RESTART makes the warm reset (R20, R187). Its ANSWER DONE is queued first, or being sent. Every open transaction
ends: a grant at its barrier lapses, with its counter, RELEASE alone and the credit of its bodies; one in SETTLING has
RELEASE alone; the others show RETRY, or SEE_DESK where a settlement finds no room in the table, and RELEASE (R93).
Every write is abandoned and leaves its entry as though it had ended TORN, in the order of the lanes (R119, R121).
Each lane takes its pending role and its first state, with no timer and no window but that of a rotation under way in
FREE_FLOW; the readers' heartbeats start again, and a LOST reader stays LOST. The held order is empty, the maze count
takes the credits, an open chair window is recorded and the gate stands as LIFT_RUN and the loading hold say (R115).
Only CONFIRMED passback entries stay (R61). The link is DOWN, the transit FIFO empty, the four loop counters, the
insert queue and the message being sent are kept (R173). The flags that the reset latches are DEFERRED_LOST,
LANE_FAULT, READER_LOST and MAZE_FULL, each with its EVENT report, after those pending; every other flag stays as it
was. Every shadow is ABSENT (R177); the enables, the tables, the clocks, the own address, FREE_FLOW's pin and setting
and the loading hold are as before. The model's choices: a pending role is taken before the lane could enter FAULT
(log 36), the lanes are taken in turn (log 52), and an EVENT report pending before the reset is queued at its end
where an entry has fallen free (log 53). -/
def Obligations.RestartResets : Prop :=
  ∀ (s : State) (m : Arrival), s.TakesCommand 0x0C m → m.payload = [] →
    let answer : Outgoing := .answer ⟨0x0C, .done, 0xFF, []⟩
    let lapses (n : LaneId) : Nat := if (s.lane n).atBarrier then (s.lane n).lapseCredit else 0
    ∃ t, exec (.restart m) s = .next t
      ∧ (∀ n, (t.lane n).txn = none ∧ (t.lane n).grantTimer = none ∧ (t.lane n).trailTimer = none
        ∧ (t.lane n).recoveryTimer = none ∧ (t.lane n).holdTimer = none ∧ (t.lane n).alarmTimer = none
        ∧ (t.lane n).arm = (s.lane n).arm ∧ (t.lane n).pendingRole = none ∧ (t.lane n).grantExpired = false
        ∧ (t.lane n).kept = 0 ∧ (t.lane n).lateFree = none
        ∧ (t.lane n).keyHigh = (s.lane n).keyHigh ∧ (t.lane n).commandOpen = (s.lane n).commandOpen)
      ∧ (∀ n, (t.lane n).role = ((s.lane n).pendingRole <|> (s.lane n).role)
        ∧ (t.lane n).state = (if (t.lane n).role = some .ticket ∧ s.freeFlowInForce = true then .freeFlow
          else t.restingState n)
        ∧ (t.lane n).window = (if (t.lane n).state = .freeFlow ∧ (s.lane n).arm = .forward then some ⟨0, false⟩
          else none)
        ∧ (let counted := if (s.lane n).atBarrier then (s.lane n).counting .lapsed 1 else s.lane n
          (t.lane n).day = counted.day ∧ (t.lane n).interval = counted.interval))
      ∧ (∀ n, (t.port n).write = none ∧ (t.port n).waiting = none ∧ (t.port n).status = (s.port n).status
        ∧ (t.port n).heartbeat = (if (s.port n).status = .lost then (s.port n).heartbeat
          else some ⟨s.ms, s.settings.readerLossMs⟩)
        ∧ (t.port n).tx = (s.port n).tx ++ s.warmFrames n)
      ∧ t.deferred = (s.offering s LaneId.all).deferred
      ∧ t.heldOrder = [] ∧ t.reservations = 0
      ∧ (s.MazeInRange → t.maze = { s.maze.recorded with
        count := min 255 (s.maze.count + lapses .l1 + lapses .l2 + lapses .l3 + lapses .l4)
        gate := if s.maze.liftRun then (if s.maze.loadingHold then .held else .waiting) else .stopped })
      ∧ t.maze.window = none ∧ t.maze.loadingHold = s.maze.loadingHold
      ∧ t.passback = s.passback.filter (·.confirmed)
      ∧ t.loop.link = .down ∧ t.loop.silence = none ∧ t.loop.training = none ∧ t.loop.badRun = 0
      ∧ t.loop.transit = [] ∧ t.loop.fairness = 0 ∧ t.loop.downByLoss = false
      ∧ t.loop.crcErrors = s.loop.crcErrors ∧ t.loop.orphans = s.loop.orphans
      ∧ t.loop.transitDrops = s.loop.transitDrops ∧ t.loop.noticeDrops = s.loop.noticeDrops
      ∧ (let newly (f : Flag) : Bool := match f with
          | .deferredLost => (s.offering s LaneId.all).flagSet .deferredLost
          | .laneFault => LaneId.all.any fun n =>
            (t.lane n).state == .fault && ((s.lane n).state != .fault || (s.lane n).pendingRole.isSome)
          | .readerLost => LaneId.all.any fun n =>
            (s.lane n).pendingRole.any (·.usesReader) && (s.port n).status == .lost
          | .mazeFull => s.placeFree && !t.placeFree
          | _ => false
        (∀ f, t.flagSet f = (s.flagSet f || newly f))
        ∧ (∃ sent new : List EventReport,
          t.loop.insertQueue = (s.offered answer).loop.insertQueue ++ sent.map Outgoing.event
          ∧ t.loop.sending = (s.offered answer).loop.sending
          ∧ sent ++ t.loop.pendingEvents = s.loop.pendingEvents ++ new
          ∧ new.map (fun r : EventReport => r.flag) = Flag.all.filter (fun f =>
              newly f && !s.flagSet f && s.flagEnabled f && !s.eventPending f)
          ∧ ∀ r ∈ new, r.time = s.time.stationTime))
      ∧ t.mgmt.shadows = .absent ∧ t.mgmt.enables = s.mgmt.enables ∧ t.mgmt.overruns = s.mgmt.overruns
      ∧ t.tables = s.tables ∧ t.time = s.time ∧ t.ms = s.ms ∧ t.ownAddress = s.ownAddress
      ∧ t.freeFlowSetting = s.freeFlowSetting ∧ t.freeFlowPin = s.freeFlowPin
end

