-- ==== Sys2Proof/Laws/State.lean ====
section
/-! SUPPORT. The small lemmas of State: what each update of State leaves alone, field by field. -/

namespace Sys2Proof.Machine

/-! ### One value for each lane -/

section PerLane

variable {α : Type}

@[simp] theorem PerLane.get_set_same (p : PerLane α) (n : LaneId) (a : α) : (p.set n a).get n = a := by
  cases n <;> rfl

@[simp] theorem PerLane.get_set_other (p : PerLane α) {n m : LaneId} (h : m ≠ n) (a : α) :
    (p.set n a).get m = p.get m := by
  cases n <;> cases m <;> first | rfl | exact absurd rfl h

@[simp] theorem PerLane.set_set (p : PerLane α) (n : LaneId) (a b : α) :
    (p.set n a).set n b = p.set n b := by
  cases n <;> rfl

@[simp] theorem PerLane.set_get (p : PerLane α) (n : LaneId) : p.set n (p.get n) = p := by
  cases n <;> rfl

@[simp] theorem PerLane.get_map {β : Type} (f : α → β) (p : PerLane α) (n : LaneId) :
    (p.map f).get n = f (p.get n) := by
  cases n <;> rfl

@[simp] theorem PerLane.get_const (a : α) (n : LaneId) : (PerLane.const a).get n = a := by
  cases n <;> rfl

theorem PerLane.ext_get {p q : PerLane α} (h : ∀ n, p.get n = q.get n) : p = q := by
  cases p; cases q
  have h1 := h .l1; have h2 := h .l2; have h3 := h .l3; have h4 := h .l4
  simp only [PerLane.get] at h1 h2 h3 h4
  subst h1 h2 h3 h4; rfl

end PerLane

/-! ### Lanes and ports after the primitive updates -/

@[simp] theorem State.modLane_lane_same (s : State) (n : LaneId) (f : Lane → Lane) :
    (s.modLane n f).lane n = f (s.lane n) := by simp [State.modLane, State.lane]

@[simp] theorem State.modLane_lane_other (s : State) {n m : LaneId} (h : m ≠ n) (f : Lane → Lane) :
    (s.modLane n f).lane m = s.lane m := by simp [State.modLane, State.lane, h]

@[simp] theorem State.modPort_port_same (s : State) (n : LaneId) (f : Port → Port) :
    (s.modPort n f).port n = f (s.port n) := by simp [State.modPort, State.port]

@[simp] theorem State.modPort_port_other (s : State) {n m : LaneId} (h : m ≠ n) (f : Port → Port) :
    (s.modPort n f).port m = s.port m := by simp [State.modPort, State.port, h]

@[simp] theorem State.modLane_modLane (s : State) (n : LaneId) (f g : Lane → Lane) :
    (s.modLane n f).modLane n g = s.modLane n fun l => g (f l) := by simp [State.modLane]

@[simp] theorem State.modPort_modPort (s : State) (n : LaneId) (f g : Port → Port) :
    (s.modPort n f).modPort n g = s.modPort n fun p => g (f p) := by simp [State.modPort]

theorem State.modLane_lanes (s : State) (n : LaneId) (f : Lane → Lane) :
    (s.modLane n f).lanes = s.lanes.set n (f (s.lanes.get n)) := rfl

theorem State.modPort_ports (s : State) (n : LaneId) (f : Port → Port) :
    (s.modPort n f).ports = s.ports.set n (f (s.ports.get n)) := rfl

/-! ### What each update leaves alone: one lemma for each update, one clause for each field -/

@[simp] theorem State.latch_frame (s : State) (f : Flag) (d : Nat) :
    (s.latch f d).ownAddress = s.ownAddress ∧ (s.latch f d).ms = s.ms ∧
    (s.latch f d).freeFlowPin = s.freeFlowPin ∧ (s.latch f d).freeFlowSetting = s.freeFlowSetting ∧
    (s.latch f d).heldOrder = s.heldOrder ∧ (s.latch f d).tables = s.tables ∧
    (s.latch f d).lanes = s.lanes ∧ (s.latch f d).ports = s.ports ∧
    (s.latch f d).passback = s.passback ∧ (s.latch f d).maze = s.maze ∧
    (s.latch f d).deferred = s.deferred ∧ (s.latch f d).time = s.time ∧ (s.latch f d).loop = s.loop ∧
    (s.latch f d).choices = s.choices ∧ (s.latch f d).pending = s.pending ∧
    (s.latch f d).mgmt.shadows = s.mgmt.shadows ∧ (s.latch f d).mgmt.enables = s.mgmt.enables ∧
    (s.latch f d).mgmt.overruns = s.mgmt.overruns := by
  simp only [State.latch]
  (repeat' split) <;> simp

@[simp] theorem State.clearFlagMask_frame (s : State) (m : BitVec 32) :
    (s.clearFlagMask m).ownAddress = s.ownAddress ∧ (s.clearFlagMask m).ms = s.ms ∧
    (s.clearFlagMask m).freeFlowPin = s.freeFlowPin ∧
    (s.clearFlagMask m).freeFlowSetting = s.freeFlowSetting ∧
    (s.clearFlagMask m).heldOrder = s.heldOrder ∧ (s.clearFlagMask m).tables = s.tables ∧
    (s.clearFlagMask m).lanes = s.lanes ∧ (s.clearFlagMask m).ports = s.ports ∧
    (s.clearFlagMask m).passback = s.passback ∧ (s.clearFlagMask m).maze = s.maze ∧
    (s.clearFlagMask m).deferred = s.deferred ∧ (s.clearFlagMask m).time = s.time ∧
    (s.clearFlagMask m).loop = s.loop ∧ (s.clearFlagMask m).choices = s.choices ∧
    (s.clearFlagMask m).pending = s.pending ∧ (s.clearFlagMask m).mgmt.shadows = s.mgmt.shadows ∧
    (s.clearFlagMask m).mgmt.enables = s.mgmt.enables ∧
    (s.clearFlagMask m).mgmt.overruns = s.mgmt.overruns := by
  simp only [State.clearFlagMask]
  simp

@[simp] theorem State.setEnables_frame (s : State) (m : BitVec 32) :
    (s.setEnables m).ownAddress = s.ownAddress ∧ (s.setEnables m).ms = s.ms ∧
    (s.setEnables m).freeFlowPin = s.freeFlowPin ∧
    (s.setEnables m).freeFlowSetting = s.freeFlowSetting ∧ (s.setEnables m).heldOrder = s.heldOrder ∧
    (s.setEnables m).tables = s.tables ∧ (s.setEnables m).lanes = s.lanes ∧
    (s.setEnables m).ports = s.ports ∧ (s.setEnables m).passback = s.passback ∧
    (s.setEnables m).maze = s.maze ∧ (s.setEnables m).deferred = s.deferred ∧
    (s.setEnables m).time = s.time ∧ (s.setEnables m).loop = s.loop ∧
    (s.setEnables m).choices = s.choices ∧ (s.setEnables m).pending = s.pending ∧
    (s.setEnables m).mgmt.shadows = s.mgmt.shadows ∧ (s.setEnables m).mgmt.overruns = s.mgmt.overruns := by
  simp only [State.setEnables]
  simp

@[simp] theorem State.modLane_frame (s : State) (n : LaneId) (f : Lane → Lane) :
    (s.modLane n f).ownAddress = s.ownAddress ∧ (s.modLane n f).ms = s.ms ∧
    (s.modLane n f).freeFlowPin = s.freeFlowPin ∧ (s.modLane n f).freeFlowSetting = s.freeFlowSetting ∧
    (s.modLane n f).heldOrder = s.heldOrder ∧ (s.modLane n f).tables = s.tables ∧
    (s.modLane n f).ports = s.ports ∧ (s.modLane n f).passback = s.passback ∧
    (s.modLane n f).maze = s.maze ∧ (s.modLane n f).deferred = s.deferred ∧
    (s.modLane n f).time = s.time ∧ (s.modLane n f).loop = s.loop ∧ (s.modLane n f).mgmt = s.mgmt ∧
    (s.modLane n f).choices = s.choices ∧ (s.modLane n f).pending = s.pending := by
  simp only [State.modLane]
  simp

@[simp] theorem State.modPort_frame (s : State) (n : LaneId) (f : Port → Port) :
    (s.modPort n f).ownAddress = s.ownAddress ∧ (s.modPort n f).ms = s.ms ∧
    (s.modPort n f).freeFlowPin = s.freeFlowPin ∧ (s.modPort n f).freeFlowSetting = s.freeFlowSetting ∧
    (s.modPort n f).heldOrder = s.heldOrder ∧ (s.modPort n f).tables = s.tables ∧
    (s.modPort n f).lanes = s.lanes ∧ (s.modPort n f).passback = s.passback ∧
    (s.modPort n f).maze = s.maze ∧ (s.modPort n f).deferred = s.deferred ∧
    (s.modPort n f).time = s.time ∧ (s.modPort n f).loop = s.loop ∧ (s.modPort n f).mgmt = s.mgmt ∧
    (s.modPort n f).choices = s.choices ∧ (s.modPort n f).pending = s.pending := by
  simp only [State.modPort]
  simp

@[simp] theorem State.modTxn_frame (s : State) (n : LaneId) (f : Transaction → Transaction) :
    (s.modTxn n f).ownAddress = s.ownAddress ∧ (s.modTxn n f).ms = s.ms ∧
    (s.modTxn n f).freeFlowPin = s.freeFlowPin ∧ (s.modTxn n f).freeFlowSetting = s.freeFlowSetting ∧
    (s.modTxn n f).heldOrder = s.heldOrder ∧ (s.modTxn n f).tables = s.tables ∧
    (s.modTxn n f).ports = s.ports ∧ (s.modTxn n f).passback = s.passback ∧
    (s.modTxn n f).maze = s.maze ∧ (s.modTxn n f).deferred = s.deferred ∧
    (s.modTxn n f).time = s.time ∧ (s.modTxn n f).loop = s.loop ∧ (s.modTxn n f).mgmt = s.mgmt ∧
    (s.modTxn n f).choices = s.choices ∧ (s.modTxn n f).pending = s.pending := by
  simp only [State.modTxn]
  simp

@[simp] theorem State.setLaneState_frame (s : State) (n : LaneId) (x : LaneState) :
    (s.setLaneState n x).ownAddress = s.ownAddress ∧ (s.setLaneState n x).ms = s.ms ∧
    (s.setLaneState n x).freeFlowPin = s.freeFlowPin ∧
    (s.setLaneState n x).freeFlowSetting = s.freeFlowSetting ∧
    (s.setLaneState n x).heldOrder = s.heldOrder ∧ (s.setLaneState n x).tables = s.tables ∧
    (s.setLaneState n x).ports = s.ports ∧ (s.setLaneState n x).passback = s.passback ∧
    (s.setLaneState n x).maze = s.maze ∧ (s.setLaneState n x).deferred = s.deferred ∧
    (s.setLaneState n x).time = s.time ∧ (s.setLaneState n x).loop = s.loop ∧
    (s.setLaneState n x).mgmt = s.mgmt ∧ (s.setLaneState n x).choices = s.choices ∧
    (s.setLaneState n x).pending = s.pending := by
  simp only [State.setLaneState]
  simp

@[simp] theorem State.count_frame (s : State) (n : LaneId) (c : LaneCounter) (k : Nat) :
    (s.count n c k).ownAddress = s.ownAddress ∧ (s.count n c k).ms = s.ms ∧
    (s.count n c k).freeFlowPin = s.freeFlowPin ∧ (s.count n c k).freeFlowSetting = s.freeFlowSetting ∧
    (s.count n c k).heldOrder = s.heldOrder ∧ (s.count n c k).tables = s.tables ∧
    (s.count n c k).ports = s.ports ∧ (s.count n c k).passback = s.passback ∧
    (s.count n c k).maze = s.maze ∧ (s.count n c k).deferred = s.deferred ∧
    (s.count n c k).time = s.time ∧ (s.count n c k).loop = s.loop ∧ (s.count n c k).mgmt = s.mgmt ∧
    (s.count n c k).choices = s.choices ∧ (s.count n c k).pending = s.pending := by
  simp only [State.count]
  simp

@[simp] theorem State.send_frame (s : State) (n : LaneId) (f : ReaderTx) :
    (s.send n f).ownAddress = s.ownAddress ∧ (s.send n f).ms = s.ms ∧
    (s.send n f).freeFlowPin = s.freeFlowPin ∧ (s.send n f).freeFlowSetting = s.freeFlowSetting ∧
    (s.send n f).heldOrder = s.heldOrder ∧ (s.send n f).tables = s.tables ∧
    (s.send n f).lanes = s.lanes ∧ (s.send n f).passback = s.passback ∧ (s.send n f).maze = s.maze ∧
    (s.send n f).deferred = s.deferred ∧ (s.send n f).time = s.time ∧ (s.send n f).loop = s.loop ∧
    (s.send n f).mgmt = s.mgmt ∧ (s.send n f).choices = s.choices ∧ (s.send n f).pending = s.pending := by
  simp only [State.send]
  simp

@[simp] theorem State.sendFinal_frame (s : State) (n : LaneId) (d : Display) (l : Lamp) (k a : Nat) :
    (s.sendFinal n d l k a).ownAddress = s.ownAddress ∧ (s.sendFinal n d l k a).ms = s.ms ∧
    (s.sendFinal n d l k a).freeFlowPin = s.freeFlowPin ∧
    (s.sendFinal n d l k a).freeFlowSetting = s.freeFlowSetting ∧
    (s.sendFinal n d l k a).heldOrder = s.heldOrder ∧ (s.sendFinal n d l k a).tables = s.tables ∧
    (s.sendFinal n d l k a).passback = s.passback ∧ (s.sendFinal n d l k a).maze = s.maze ∧
    (s.sendFinal n d l k a).deferred = s.deferred ∧ (s.sendFinal n d l k a).time = s.time ∧
    (s.sendFinal n d l k a).loop = s.loop ∧ (s.sendFinal n d l k a).mgmt = s.mgmt ∧
    (s.sendFinal n d l k a).choices = s.choices ∧ (s.sendFinal n d l k a).pending = s.pending := by
  simp only [State.sendFinal]
  simp

@[simp] theorem State.enqueue_frame (s : State) (o : Outgoing) :
    (s.enqueue o).ownAddress = s.ownAddress ∧ (s.enqueue o).ms = s.ms ∧
    (s.enqueue o).freeFlowPin = s.freeFlowPin ∧ (s.enqueue o).freeFlowSetting = s.freeFlowSetting ∧
    (s.enqueue o).heldOrder = s.heldOrder ∧ (s.enqueue o).tables = s.tables ∧
    (s.enqueue o).lanes = s.lanes ∧ (s.enqueue o).ports = s.ports ∧
    (s.enqueue o).passback = s.passback ∧ (s.enqueue o).maze = s.maze ∧
    (s.enqueue o).deferred = s.deferred ∧ (s.enqueue o).time = s.time ∧ (s.enqueue o).mgmt = s.mgmt ∧
    (s.enqueue o).choices = s.choices ∧ (s.enqueue o).pending = s.pending ∧
    (s.enqueue o).loop.link = s.loop.link ∧ (s.enqueue o).loop.silence = s.loop.silence ∧
    (s.enqueue o).loop.training = s.loop.training ∧ (s.enqueue o).loop.badRun = s.loop.badRun ∧
    (s.enqueue o).loop.downByLoss = s.loop.downByLoss ∧
    (s.enqueue o).loop.crcErrors = s.loop.crcErrors ∧ (s.enqueue o).loop.orphans = s.loop.orphans ∧
    (s.enqueue o).loop.transitDrops = s.loop.transitDrops := by
  simp only [State.enqueue]
  (repeat' split) <;> simp

@[simp] theorem State.noticeDropped_frame (s : State) :
    s.noticeDropped.ownAddress = s.ownAddress ∧ s.noticeDropped.ms = s.ms ∧
    s.noticeDropped.freeFlowPin = s.freeFlowPin ∧ s.noticeDropped.freeFlowSetting = s.freeFlowSetting ∧
    s.noticeDropped.heldOrder = s.heldOrder ∧ s.noticeDropped.tables = s.tables ∧
    s.noticeDropped.lanes = s.lanes ∧ s.noticeDropped.ports = s.ports ∧
    s.noticeDropped.passback = s.passback ∧ s.noticeDropped.maze = s.maze ∧
    s.noticeDropped.deferred = s.deferred ∧ s.noticeDropped.time = s.time ∧
    s.noticeDropped.choices = s.choices ∧ s.noticeDropped.pending = s.pending ∧
    s.noticeDropped.loop.link = s.loop.link ∧ s.noticeDropped.loop.silence = s.loop.silence ∧
    s.noticeDropped.loop.training = s.loop.training ∧ s.noticeDropped.loop.badRun = s.loop.badRun ∧
    s.noticeDropped.loop.downByLoss = s.loop.downByLoss ∧
    s.noticeDropped.loop.crcErrors = s.loop.crcErrors ∧ s.noticeDropped.loop.orphans = s.loop.orphans ∧
    s.noticeDropped.loop.transitDrops = s.loop.transitDrops ∧
    s.noticeDropped.mgmt.shadows = s.mgmt.shadows ∧ s.noticeDropped.mgmt.enables = s.mgmt.enables ∧
    s.noticeDropped.mgmt.overruns = s.mgmt.overruns := by
  simp only [State.noticeDropped]
  simp

@[simp] theorem State.queueReport_frame (s : State) (o : Outgoing) :
    (s.queueReport o).ownAddress = s.ownAddress ∧ (s.queueReport o).ms = s.ms ∧
    (s.queueReport o).freeFlowPin = s.freeFlowPin ∧
    (s.queueReport o).freeFlowSetting = s.freeFlowSetting ∧ (s.queueReport o).heldOrder = s.heldOrder ∧
    (s.queueReport o).tables = s.tables ∧ (s.queueReport o).lanes = s.lanes ∧
    (s.queueReport o).ports = s.ports ∧ (s.queueReport o).passback = s.passback ∧
    (s.queueReport o).maze = s.maze ∧ (s.queueReport o).deferred = s.deferred ∧
    (s.queueReport o).time = s.time ∧ (s.queueReport o).choices = s.choices ∧
    (s.queueReport o).pending = s.pending ∧ (s.queueReport o).loop.link = s.loop.link ∧
    (s.queueReport o).loop.silence = s.loop.silence ∧
    (s.queueReport o).loop.training = s.loop.training ∧ (s.queueReport o).loop.badRun = s.loop.badRun ∧
    (s.queueReport o).loop.downByLoss = s.loop.downByLoss ∧
    (s.queueReport o).loop.crcErrors = s.loop.crcErrors ∧
    (s.queueReport o).loop.orphans = s.loop.orphans ∧
    (s.queueReport o).loop.transitDrops = s.loop.transitDrops ∧
    (s.queueReport o).mgmt.shadows = s.mgmt.shadows ∧ (s.queueReport o).mgmt.enables = s.mgmt.enables ∧
    (s.queueReport o).mgmt.overruns = s.mgmt.overruns := by
  simp only [State.queueReport]
  (repeat' split) <;> simp

@[simp] theorem State.queuePassage_frame (s : State) (p : PassageNotice) :
    (s.queuePassage p).ownAddress = s.ownAddress ∧ (s.queuePassage p).ms = s.ms ∧
    (s.queuePassage p).freeFlowPin = s.freeFlowPin ∧
    (s.queuePassage p).freeFlowSetting = s.freeFlowSetting ∧
    (s.queuePassage p).heldOrder = s.heldOrder ∧ (s.queuePassage p).tables = s.tables ∧
    (s.queuePassage p).lanes = s.lanes ∧ (s.queuePassage p).ports = s.ports ∧
    (s.queuePassage p).passback = s.passback ∧ (s.queuePassage p).maze = s.maze ∧
    (s.queuePassage p).deferred = s.deferred ∧ (s.queuePassage p).time = s.time ∧
    (s.queuePassage p).choices = s.choices ∧ (s.queuePassage p).pending = s.pending ∧
    (s.queuePassage p).loop.link = s.loop.link ∧ (s.queuePassage p).loop.silence = s.loop.silence ∧
    (s.queuePassage p).loop.training = s.loop.training ∧
    (s.queuePassage p).loop.badRun = s.loop.badRun ∧
    (s.queuePassage p).loop.downByLoss = s.loop.downByLoss ∧
    (s.queuePassage p).loop.crcErrors = s.loop.crcErrors ∧
    (s.queuePassage p).loop.orphans = s.loop.orphans ∧
    (s.queuePassage p).loop.transitDrops = s.loop.transitDrops ∧
    (s.queuePassage p).mgmt.shadows = s.mgmt.shadows ∧
    (s.queuePassage p).mgmt.enables = s.mgmt.enables ∧
    (s.queuePassage p).mgmt.overruns = s.mgmt.overruns := by
  simp only [State.queuePassage]
  (repeat' split) <;> simp

@[simp] theorem State.queueEvent_frame (s : State) (r : EventReport) :
    (s.queueEvent r).ownAddress = s.ownAddress ∧ (s.queueEvent r).ms = s.ms ∧
    (s.queueEvent r).freeFlowPin = s.freeFlowPin ∧
    (s.queueEvent r).freeFlowSetting = s.freeFlowSetting ∧ (s.queueEvent r).heldOrder = s.heldOrder ∧
    (s.queueEvent r).tables = s.tables ∧ (s.queueEvent r).lanes = s.lanes ∧
    (s.queueEvent r).ports = s.ports ∧ (s.queueEvent r).passback = s.passback ∧
    (s.queueEvent r).maze = s.maze ∧ (s.queueEvent r).deferred = s.deferred ∧
    (s.queueEvent r).time = s.time ∧ (s.queueEvent r).mgmt = s.mgmt ∧
    (s.queueEvent r).choices = s.choices ∧ (s.queueEvent r).pending = s.pending ∧
    (s.queueEvent r).loop.link = s.loop.link ∧ (s.queueEvent r).loop.silence = s.loop.silence ∧
    (s.queueEvent r).loop.training = s.loop.training ∧ (s.queueEvent r).loop.badRun = s.loop.badRun ∧
    (s.queueEvent r).loop.downByLoss = s.loop.downByLoss ∧
    (s.queueEvent r).loop.crcErrors = s.loop.crcErrors ∧
    (s.queueEvent r).loop.orphans = s.loop.orphans ∧
    (s.queueEvent r).loop.transitDrops = s.loop.transitDrops := by
  simp only [State.queueEvent]
  (repeat' split) <;> simp

@[simp] theorem State.drainPending_frame (k : Nat) (s : State) :
    (State.drainPending k s).ownAddress = s.ownAddress ∧ (State.drainPending k s).ms = s.ms ∧
    (State.drainPending k s).freeFlowPin = s.freeFlowPin ∧
    (State.drainPending k s).freeFlowSetting = s.freeFlowSetting ∧
    (State.drainPending k s).heldOrder = s.heldOrder ∧ (State.drainPending k s).tables = s.tables ∧
    (State.drainPending k s).lanes = s.lanes ∧ (State.drainPending k s).ports = s.ports ∧
    (State.drainPending k s).passback = s.passback ∧ (State.drainPending k s).maze = s.maze ∧
    (State.drainPending k s).deferred = s.deferred ∧ (State.drainPending k s).time = s.time ∧
    (State.drainPending k s).mgmt = s.mgmt ∧ (State.drainPending k s).choices = s.choices ∧
    (State.drainPending k s).pending = s.pending ∧ (State.drainPending k s).loop.link = s.loop.link ∧
    (State.drainPending k s).loop.silence = s.loop.silence ∧
    (State.drainPending k s).loop.training = s.loop.training ∧
    (State.drainPending k s).loop.badRun = s.loop.badRun ∧
    (State.drainPending k s).loop.downByLoss = s.loop.downByLoss ∧
    (State.drainPending k s).loop.crcErrors = s.loop.crcErrors ∧
    (State.drainPending k s).loop.orphans = s.loop.orphans ∧
    (State.drainPending k s).loop.transitDrops = s.loop.transitDrops := by
  induction k generalizing s with
  | zero => simp [State.drainPending]
  | succ k ih =>
    simp only [State.drainPending]
    (repeat' split) <;> simp [ih]

@[simp] theorem State.queuePending_frame (s : State) :
    s.queuePending.ownAddress = s.ownAddress ∧ s.queuePending.ms = s.ms ∧
    s.queuePending.freeFlowPin = s.freeFlowPin ∧ s.queuePending.freeFlowSetting = s.freeFlowSetting ∧
    s.queuePending.heldOrder = s.heldOrder ∧ s.queuePending.tables = s.tables ∧
    s.queuePending.lanes = s.lanes ∧ s.queuePending.ports = s.ports ∧
    s.queuePending.passback = s.passback ∧ s.queuePending.maze = s.maze ∧
    s.queuePending.deferred = s.deferred ∧ s.queuePending.time = s.time ∧
    s.queuePending.mgmt = s.mgmt ∧ s.queuePending.choices = s.choices ∧
    s.queuePending.pending = s.pending ∧ s.queuePending.loop.link = s.loop.link ∧
    s.queuePending.loop.silence = s.loop.silence ∧ s.queuePending.loop.training = s.loop.training ∧
    s.queuePending.loop.badRun = s.loop.badRun ∧ s.queuePending.loop.downByLoss = s.loop.downByLoss ∧
    s.queuePending.loop.crcErrors = s.loop.crcErrors ∧ s.queuePending.loop.orphans = s.loop.orphans ∧
    s.queuePending.loop.transitDrops = s.loop.transitDrops := by
  simp only [State.queuePending]
  simp

@[simp] theorem State.flushFlags_frame (l : List Flag) (s : State) :
    (l.foldl State.flushFlag s).ownAddress = s.ownAddress ∧ (l.foldl State.flushFlag s).ms = s.ms ∧
    (l.foldl State.flushFlag s).freeFlowPin = s.freeFlowPin ∧
    (l.foldl State.flushFlag s).freeFlowSetting = s.freeFlowSetting ∧
    (l.foldl State.flushFlag s).heldOrder = s.heldOrder ∧
    (l.foldl State.flushFlag s).tables = s.tables ∧ (l.foldl State.flushFlag s).lanes = s.lanes ∧
    (l.foldl State.flushFlag s).ports = s.ports ∧ (l.foldl State.flushFlag s).passback = s.passback ∧
    (l.foldl State.flushFlag s).maze = s.maze ∧ (l.foldl State.flushFlag s).deferred = s.deferred ∧
    (l.foldl State.flushFlag s).time = s.time ∧ (l.foldl State.flushFlag s).choices = s.choices ∧
    (l.foldl State.flushFlag s).pending = s.pending ∧
    (l.foldl State.flushFlag s).loop.link = s.loop.link ∧
    (l.foldl State.flushFlag s).loop.silence = s.loop.silence ∧
    (l.foldl State.flushFlag s).loop.training = s.loop.training ∧
    (l.foldl State.flushFlag s).loop.badRun = s.loop.badRun ∧
    (l.foldl State.flushFlag s).loop.downByLoss = s.loop.downByLoss ∧
    (l.foldl State.flushFlag s).loop.crcErrors = s.loop.crcErrors ∧
    (l.foldl State.flushFlag s).loop.orphans = s.loop.orphans ∧
    (l.foldl State.flushFlag s).loop.transitDrops = s.loop.transitDrops ∧
    (l.foldl State.flushFlag s).mgmt = s.mgmt := by
  induction l generalizing s with
  | nil => simp
  | cons f l ih =>
    simp only [List.foldl, ih, State.flushFlag]
    split <;> simp

@[simp] theorem State.flushRaised_frame (s : State) :
    s.flushRaised.ownAddress = s.ownAddress ∧ s.flushRaised.ms = s.ms ∧
    s.flushRaised.freeFlowPin = s.freeFlowPin ∧ s.flushRaised.freeFlowSetting = s.freeFlowSetting ∧
    s.flushRaised.heldOrder = s.heldOrder ∧ s.flushRaised.tables = s.tables ∧
    s.flushRaised.lanes = s.lanes ∧ s.flushRaised.ports = s.ports ∧
    s.flushRaised.passback = s.passback ∧ s.flushRaised.maze = s.maze ∧
    s.flushRaised.deferred = s.deferred ∧ s.flushRaised.time = s.time ∧
    s.flushRaised.choices = s.choices ∧ s.flushRaised.pending = s.pending ∧
    s.flushRaised.loop.link = s.loop.link ∧ s.flushRaised.loop.silence = s.loop.silence ∧
    s.flushRaised.loop.training = s.loop.training ∧ s.flushRaised.loop.badRun = s.loop.badRun ∧
    s.flushRaised.loop.downByLoss = s.loop.downByLoss ∧
    s.flushRaised.loop.crcErrors = s.loop.crcErrors ∧ s.flushRaised.loop.orphans = s.loop.orphans ∧
    s.flushRaised.loop.transitDrops = s.loop.transitDrops ∧
    s.flushRaised.mgmt.shadows = s.mgmt.shadows ∧ s.flushRaised.mgmt.enables = s.mgmt.enables ∧
    s.flushRaised.mgmt.overruns = s.mgmt.overruns := by
  simp only [State.flushRaised]
  simp

@[simp] theorem State.startTransit_frame (s : State) (k : Nat) :
    (s.startTransit k).ownAddress = s.ownAddress ∧ (s.startTransit k).ms = s.ms ∧
    (s.startTransit k).freeFlowPin = s.freeFlowPin ∧
    (s.startTransit k).freeFlowSetting = s.freeFlowSetting ∧
    (s.startTransit k).heldOrder = s.heldOrder ∧ (s.startTransit k).tables = s.tables ∧
    (s.startTransit k).lanes = s.lanes ∧ (s.startTransit k).ports = s.ports ∧
    (s.startTransit k).passback = s.passback ∧ (s.startTransit k).maze = s.maze ∧
    (s.startTransit k).deferred = s.deferred ∧ (s.startTransit k).time = s.time ∧
    (s.startTransit k).mgmt = s.mgmt ∧ (s.startTransit k).choices = s.choices ∧
    (s.startTransit k).pending = s.pending ∧ (s.startTransit k).loop.link = s.loop.link ∧
    (s.startTransit k).loop.silence = s.loop.silence ∧
    (s.startTransit k).loop.training = s.loop.training ∧
    (s.startTransit k).loop.badRun = s.loop.badRun ∧
    (s.startTransit k).loop.downByLoss = s.loop.downByLoss ∧
    (s.startTransit k).loop.crcErrors = s.loop.crcErrors ∧
    (s.startTransit k).loop.orphans = s.loop.orphans ∧
    (s.startTransit k).loop.transitDrops = s.loop.transitDrops := by
  simp only [State.startTransit]
  (repeat' split) <;> simp

@[simp] theorem State.startInsert_frame (s : State) (k : Nat) :
    (s.startInsert k).ownAddress = s.ownAddress ∧ (s.startInsert k).ms = s.ms ∧
    (s.startInsert k).freeFlowPin = s.freeFlowPin ∧
    (s.startInsert k).freeFlowSetting = s.freeFlowSetting ∧ (s.startInsert k).heldOrder = s.heldOrder ∧
    (s.startInsert k).tables = s.tables ∧ (s.startInsert k).lanes = s.lanes ∧
    (s.startInsert k).ports = s.ports ∧ (s.startInsert k).passback = s.passback ∧
    (s.startInsert k).maze = s.maze ∧ (s.startInsert k).deferred = s.deferred ∧
    (s.startInsert k).time = s.time ∧ (s.startInsert k).mgmt = s.mgmt ∧
    (s.startInsert k).choices = s.choices ∧ (s.startInsert k).pending = s.pending ∧
    (s.startInsert k).loop.link = s.loop.link ∧ (s.startInsert k).loop.silence = s.loop.silence ∧
    (s.startInsert k).loop.training = s.loop.training ∧ (s.startInsert k).loop.badRun = s.loop.badRun ∧
    (s.startInsert k).loop.downByLoss = s.loop.downByLoss ∧
    (s.startInsert k).loop.crcErrors = s.loop.crcErrors ∧
    (s.startInsert k).loop.orphans = s.loop.orphans ∧
    (s.startInsert k).loop.transitDrops = s.loop.transitDrops := by
  simp only [State.startInsert]
  (repeat' split) <;> simp

@[simp] theorem State.arbitrate_frame (s : State) (b : Bool) :
    (s.arbitrate b).ownAddress = s.ownAddress ∧ (s.arbitrate b).ms = s.ms ∧
    (s.arbitrate b).freeFlowPin = s.freeFlowPin ∧ (s.arbitrate b).freeFlowSetting = s.freeFlowSetting ∧
    (s.arbitrate b).heldOrder = s.heldOrder ∧ (s.arbitrate b).tables = s.tables ∧
    (s.arbitrate b).lanes = s.lanes ∧ (s.arbitrate b).ports = s.ports ∧
    (s.arbitrate b).passback = s.passback ∧ (s.arbitrate b).maze = s.maze ∧
    (s.arbitrate b).deferred = s.deferred ∧ (s.arbitrate b).time = s.time ∧
    (s.arbitrate b).mgmt = s.mgmt ∧ (s.arbitrate b).pending = s.pending ∧
    (s.arbitrate b).loop.link = s.loop.link ∧ (s.arbitrate b).loop.silence = s.loop.silence ∧
    (s.arbitrate b).loop.training = s.loop.training ∧ (s.arbitrate b).loop.badRun = s.loop.badRun ∧
    (s.arbitrate b).loop.downByLoss = s.loop.downByLoss ∧
    (s.arbitrate b).loop.crcErrors = s.loop.crcErrors ∧ (s.arbitrate b).loop.orphans = s.loop.orphans ∧
    (s.arbitrate b).loop.transitDrops = s.loop.transitDrops := by
  simp only [State.arbitrate]
  (repeat' split) <;> simp

@[simp] theorem State.credit_frame (s : State) (k : Nat) :
    (s.credit k).ownAddress = s.ownAddress ∧ (s.credit k).ms = s.ms ∧
    (s.credit k).freeFlowPin = s.freeFlowPin ∧ (s.credit k).freeFlowSetting = s.freeFlowSetting ∧
    (s.credit k).heldOrder = s.heldOrder ∧ (s.credit k).tables = s.tables ∧
    (s.credit k).lanes = s.lanes ∧ (s.credit k).ports = s.ports ∧ (s.credit k).passback = s.passback ∧
    (s.credit k).deferred = s.deferred ∧ (s.credit k).time = s.time ∧ (s.credit k).loop = s.loop ∧
    (s.credit k).mgmt = s.mgmt ∧ (s.credit k).choices = s.choices ∧ (s.credit k).pending = s.pending ∧
    (s.credit k).maze.gate = s.maze.gate ∧ (s.credit k).maze.liftRun = s.maze.liftRun ∧
    (s.credit k).maze.loadingHold = s.maze.loadingHold ∧ (s.credit k).maze.window = s.maze.window ∧
    (s.credit k).maze.day = s.maze.day ∧ (s.credit k).maze.interval = s.maze.interval := by
  simp only [State.credit]
  simp

@[simp] theorem State.countLoading_frame (s : State) (f : LoadingCounters → LoadingCounters) :
    (s.countLoading f).ownAddress = s.ownAddress ∧ (s.countLoading f).ms = s.ms ∧
    (s.countLoading f).freeFlowPin = s.freeFlowPin ∧
    (s.countLoading f).freeFlowSetting = s.freeFlowSetting ∧
    (s.countLoading f).heldOrder = s.heldOrder ∧ (s.countLoading f).tables = s.tables ∧
    (s.countLoading f).lanes = s.lanes ∧ (s.countLoading f).ports = s.ports ∧
    (s.countLoading f).passback = s.passback ∧ (s.countLoading f).deferred = s.deferred ∧
    (s.countLoading f).time = s.time ∧ (s.countLoading f).loop = s.loop ∧
    (s.countLoading f).mgmt = s.mgmt ∧ (s.countLoading f).choices = s.choices ∧
    (s.countLoading f).pending = s.pending := by
  simp only [State.countLoading]
  simp

@[simp] theorem State.decrement_frame (s : State) :
    s.decrement.ownAddress = s.ownAddress ∧ s.decrement.ms = s.ms ∧
    s.decrement.freeFlowPin = s.freeFlowPin ∧ s.decrement.freeFlowSetting = s.freeFlowSetting ∧
    s.decrement.heldOrder = s.heldOrder ∧ s.decrement.tables = s.tables ∧ s.decrement.lanes = s.lanes ∧
    s.decrement.ports = s.ports ∧ s.decrement.passback = s.passback ∧
    s.decrement.deferred = s.deferred ∧ s.decrement.time = s.time ∧ s.decrement.loop = s.loop ∧
    s.decrement.choices = s.choices ∧ s.decrement.pending = s.pending ∧
    s.decrement.mgmt.shadows = s.mgmt.shadows ∧ s.decrement.mgmt.enables = s.mgmt.enables ∧
    s.decrement.mgmt.overruns = s.mgmt.overruns := by
  simp only [State.decrement]
  (repeat' split) <;> simp

@[simp] theorem State.passbackRemove_frame (s : State) (x : Serial) (g : Nat) :
    (s.passbackRemove x g).ownAddress = s.ownAddress ∧ (s.passbackRemove x g).ms = s.ms ∧
    (s.passbackRemove x g).freeFlowPin = s.freeFlowPin ∧
    (s.passbackRemove x g).freeFlowSetting = s.freeFlowSetting ∧
    (s.passbackRemove x g).heldOrder = s.heldOrder ∧ (s.passbackRemove x g).tables = s.tables ∧
    (s.passbackRemove x g).lanes = s.lanes ∧ (s.passbackRemove x g).ports = s.ports ∧
    (s.passbackRemove x g).maze = s.maze ∧ (s.passbackRemove x g).deferred = s.deferred ∧
    (s.passbackRemove x g).time = s.time ∧ (s.passbackRemove x g).loop = s.loop ∧
    (s.passbackRemove x g).mgmt = s.mgmt ∧ (s.passbackRemove x g).choices = s.choices ∧
    (s.passbackRemove x g).pending = s.pending := by
  simp only [State.passbackRemove]
  simp

@[simp] theorem State.passbackPlace_frame (s : State) (e : PassbackEntry) :
    (s.passbackPlace e).ownAddress = s.ownAddress ∧ (s.passbackPlace e).ms = s.ms ∧
    (s.passbackPlace e).freeFlowPin = s.freeFlowPin ∧
    (s.passbackPlace e).freeFlowSetting = s.freeFlowSetting ∧
    (s.passbackPlace e).heldOrder = s.heldOrder ∧ (s.passbackPlace e).tables = s.tables ∧
    (s.passbackPlace e).lanes = s.lanes ∧ (s.passbackPlace e).ports = s.ports ∧
    (s.passbackPlace e).maze = s.maze ∧ (s.passbackPlace e).deferred = s.deferred ∧
    (s.passbackPlace e).time = s.time ∧ (s.passbackPlace e).loop = s.loop ∧
    (s.passbackPlace e).mgmt = s.mgmt ∧ (s.passbackPlace e).choices = s.choices ∧
    (s.passbackPlace e).pending = s.pending := by
  simp only [State.passbackPlace]
  simp

@[simp] theorem State.passbackInsert_frame (s : State) (e : PassbackEntry) :
    (s.passbackInsert e).ownAddress = s.ownAddress ∧ (s.passbackInsert e).ms = s.ms ∧
    (s.passbackInsert e).freeFlowPin = s.freeFlowPin ∧
    (s.passbackInsert e).freeFlowSetting = s.freeFlowSetting ∧
    (s.passbackInsert e).heldOrder = s.heldOrder ∧ (s.passbackInsert e).tables = s.tables ∧
    (s.passbackInsert e).lanes = s.lanes ∧ (s.passbackInsert e).ports = s.ports ∧
    (s.passbackInsert e).maze = s.maze ∧ (s.passbackInsert e).deferred = s.deferred ∧
    (s.passbackInsert e).time = s.time ∧ (s.passbackInsert e).loop = s.loop ∧
    (s.passbackInsert e).choices = s.choices ∧ (s.passbackInsert e).pending = s.pending ∧
    (s.passbackInsert e).mgmt.shadows = s.mgmt.shadows ∧
    (s.passbackInsert e).mgmt.enables = s.mgmt.enables ∧
    (s.passbackInsert e).mgmt.overruns = s.mgmt.overruns := by
  simp only [State.passbackInsert]
  (repeat' split) <;> simp

@[simp] theorem State.passbackUnlock_frame (s : State) (n : LaneId) (t : Transaction) :
    (s.passbackUnlock n t).ownAddress = s.ownAddress ∧ (s.passbackUnlock n t).ms = s.ms ∧
    (s.passbackUnlock n t).freeFlowPin = s.freeFlowPin ∧
    (s.passbackUnlock n t).freeFlowSetting = s.freeFlowSetting ∧
    (s.passbackUnlock n t).heldOrder = s.heldOrder ∧ (s.passbackUnlock n t).tables = s.tables ∧
    (s.passbackUnlock n t).lanes = s.lanes ∧ (s.passbackUnlock n t).ports = s.ports ∧
    (s.passbackUnlock n t).maze = s.maze ∧ (s.passbackUnlock n t).deferred = s.deferred ∧
    (s.passbackUnlock n t).time = s.time ∧ (s.passbackUnlock n t).loop = s.loop ∧
    (s.passbackUnlock n t).choices = s.choices ∧ (s.passbackUnlock n t).pending = s.pending ∧
    (s.passbackUnlock n t).mgmt.shadows = s.mgmt.shadows ∧
    (s.passbackUnlock n t).mgmt.enables = s.mgmt.enables ∧
    (s.passbackUnlock n t).mgmt.overruns = s.mgmt.overruns := by
  simp only [State.passbackUnlock]
  (repeat' split) <;> simp

@[simp] theorem State.passbackConfirm_frame (s : State) (n : LaneId) (t : Transaction) :
    (s.passbackConfirm n t).ownAddress = s.ownAddress ∧ (s.passbackConfirm n t).ms = s.ms ∧
    (s.passbackConfirm n t).freeFlowPin = s.freeFlowPin ∧
    (s.passbackConfirm n t).freeFlowSetting = s.freeFlowSetting ∧
    (s.passbackConfirm n t).heldOrder = s.heldOrder ∧ (s.passbackConfirm n t).tables = s.tables ∧
    (s.passbackConfirm n t).lanes = s.lanes ∧ (s.passbackConfirm n t).ports = s.ports ∧
    (s.passbackConfirm n t).maze = s.maze ∧ (s.passbackConfirm n t).deferred = s.deferred ∧
    (s.passbackConfirm n t).time = s.time ∧ (s.passbackConfirm n t).loop = s.loop ∧
    (s.passbackConfirm n t).mgmt = s.mgmt ∧ (s.passbackConfirm n t).choices = s.choices ∧
    (s.passbackConfirm n t).pending = s.pending := by
  simp only [State.passbackConfirm]
  simp

@[simp] theorem State.passbackCancel_frame (s : State) (n : LaneId) (t : Transaction) :
    (s.passbackCancel n t).ownAddress = s.ownAddress ∧ (s.passbackCancel n t).ms = s.ms ∧
    (s.passbackCancel n t).freeFlowPin = s.freeFlowPin ∧
    (s.passbackCancel n t).freeFlowSetting = s.freeFlowSetting ∧
    (s.passbackCancel n t).heldOrder = s.heldOrder ∧ (s.passbackCancel n t).tables = s.tables ∧
    (s.passbackCancel n t).lanes = s.lanes ∧ (s.passbackCancel n t).ports = s.ports ∧
    (s.passbackCancel n t).maze = s.maze ∧ (s.passbackCancel n t).deferred = s.deferred ∧
    (s.passbackCancel n t).time = s.time ∧ (s.passbackCancel n t).loop = s.loop ∧
    (s.passbackCancel n t).mgmt = s.mgmt ∧ (s.passbackCancel n t).choices = s.choices ∧
    (s.passbackCancel n t).pending = s.pending := by
  simp only [State.passbackCancel]
  simp

@[simp] theorem State.passbackOffer_frame (s : State) (x : Serial) (g e : Nat) (c : Byte) :
    (s.passbackOffer x g e c).ownAddress = s.ownAddress ∧ (s.passbackOffer x g e c).ms = s.ms ∧
    (s.passbackOffer x g e c).freeFlowPin = s.freeFlowPin ∧
    (s.passbackOffer x g e c).freeFlowSetting = s.freeFlowSetting ∧
    (s.passbackOffer x g e c).heldOrder = s.heldOrder ∧ (s.passbackOffer x g e c).tables = s.tables ∧
    (s.passbackOffer x g e c).lanes = s.lanes ∧ (s.passbackOffer x g e c).ports = s.ports ∧
    (s.passbackOffer x g e c).maze = s.maze ∧ (s.passbackOffer x g e c).deferred = s.deferred ∧
    (s.passbackOffer x g e c).time = s.time ∧ (s.passbackOffer x g e c).loop = s.loop ∧
    (s.passbackOffer x g e c).choices = s.choices ∧ (s.passbackOffer x g e c).pending = s.pending ∧
    (s.passbackOffer x g e c).mgmt.shadows = s.mgmt.shadows ∧
    (s.passbackOffer x g e c).mgmt.enables = s.mgmt.enables ∧
    (s.passbackOffer x g e c).mgmt.overruns = s.mgmt.overruns := by
  simp only [State.passbackOffer]
  (repeat' split) <;> simp

@[simp] theorem State.deferredRemove_frame (s : State) (k : Nat) :
    (s.deferredRemove k).ownAddress = s.ownAddress ∧ (s.deferredRemove k).ms = s.ms ∧
    (s.deferredRemove k).freeFlowPin = s.freeFlowPin ∧
    (s.deferredRemove k).freeFlowSetting = s.freeFlowSetting ∧
    (s.deferredRemove k).heldOrder = s.heldOrder ∧ (s.deferredRemove k).tables = s.tables ∧
    (s.deferredRemove k).lanes = s.lanes ∧ (s.deferredRemove k).ports = s.ports ∧
    (s.deferredRemove k).passback = s.passback ∧ (s.deferredRemove k).maze = s.maze ∧
    (s.deferredRemove k).time = s.time ∧ (s.deferredRemove k).loop = s.loop ∧
    (s.deferredRemove k).mgmt = s.mgmt ∧ (s.deferredRemove k).choices = s.choices ∧
    (s.deferredRemove k).pending = s.pending := by
  simp only [State.deferredRemove]
  simp

@[simp] theorem State.deferredAppend_frame (s : State) (e : DeferredEntry) :
    (s.deferredAppend e).ownAddress = s.ownAddress ∧ (s.deferredAppend e).ms = s.ms ∧
    (s.deferredAppend e).freeFlowPin = s.freeFlowPin ∧
    (s.deferredAppend e).freeFlowSetting = s.freeFlowSetting ∧
    (s.deferredAppend e).heldOrder = s.heldOrder ∧ (s.deferredAppend e).tables = s.tables ∧
    (s.deferredAppend e).lanes = s.lanes ∧ (s.deferredAppend e).ports = s.ports ∧
    (s.deferredAppend e).passback = s.passback ∧ (s.deferredAppend e).maze = s.maze ∧
    (s.deferredAppend e).time = s.time ∧ (s.deferredAppend e).loop = s.loop ∧
    (s.deferredAppend e).mgmt = s.mgmt ∧ (s.deferredAppend e).choices = s.choices ∧
    (s.deferredAppend e).pending = s.pending := by
  simp only [State.deferredAppend]
  simp

@[simp] theorem State.deferredOffer_frame (s : State) (e : DeferredEntry) :
    (s.deferredOffer e).1.ownAddress = s.ownAddress ∧ (s.deferredOffer e).1.ms = s.ms ∧
    (s.deferredOffer e).1.freeFlowPin = s.freeFlowPin ∧
    (s.deferredOffer e).1.freeFlowSetting = s.freeFlowSetting ∧
    (s.deferredOffer e).1.heldOrder = s.heldOrder ∧ (s.deferredOffer e).1.tables = s.tables ∧
    (s.deferredOffer e).1.lanes = s.lanes ∧ (s.deferredOffer e).1.ports = s.ports ∧
    (s.deferredOffer e).1.passback = s.passback ∧ (s.deferredOffer e).1.maze = s.maze ∧
    (s.deferredOffer e).1.time = s.time ∧ (s.deferredOffer e).1.loop = s.loop ∧
    (s.deferredOffer e).1.choices = s.choices ∧ (s.deferredOffer e).1.pending = s.pending ∧
    (s.deferredOffer e).1.mgmt.shadows = s.mgmt.shadows ∧
    (s.deferredOffer e).1.mgmt.enables = s.mgmt.enables ∧
    (s.deferredOffer e).1.mgmt.overruns = s.mgmt.overruns := by
  simp only [State.deferredOffer]
  (repeat' split) <;> simp

@[simp] theorem State.countRefund_frame (s : State) (r : Nat) :
    (s.countRefund r).ownAddress = s.ownAddress ∧ (s.countRefund r).ms = s.ms ∧
    (s.countRefund r).freeFlowPin = s.freeFlowPin ∧
    (s.countRefund r).freeFlowSetting = s.freeFlowSetting ∧ (s.countRefund r).heldOrder = s.heldOrder ∧
    (s.countRefund r).tables = s.tables ∧ (s.countRefund r).lanes = s.lanes ∧
    (s.countRefund r).ports = s.ports ∧ (s.countRefund r).passback = s.passback ∧
    (s.countRefund r).maze = s.maze ∧ (s.countRefund r).deferred = s.deferred ∧
    (s.countRefund r).loop = s.loop ∧ (s.countRefund r).mgmt = s.mgmt ∧
    (s.countRefund r).choices = s.choices ∧ (s.countRefund r).pending = s.pending := by
  simp only [State.countRefund]
  simp

@[simp] theorem State.bringRunTimes_frame (s : State) :
    s.bringRunTimes.ownAddress = s.ownAddress ∧ s.bringRunTimes.ms = s.ms ∧
    s.bringRunTimes.freeFlowPin = s.freeFlowPin ∧ s.bringRunTimes.freeFlowSetting = s.freeFlowSetting ∧
    s.bringRunTimes.heldOrder = s.heldOrder ∧ s.bringRunTimes.tables = s.tables ∧
    s.bringRunTimes.lanes = s.lanes ∧ s.bringRunTimes.ports = s.ports ∧
    s.bringRunTimes.passback = s.passback ∧ s.bringRunTimes.maze = s.maze ∧
    s.bringRunTimes.deferred = s.deferred ∧ s.bringRunTimes.loop = s.loop ∧
    s.bringRunTimes.mgmt = s.mgmt ∧ s.bringRunTimes.choices = s.choices ∧
    s.bringRunTimes.pending = s.pending := by
  simp only [State.bringRunTimes]
  simp

end Sys2Proof.Machine
end

