-- ==== Sys2Proof/Laws/Frames.lean ====
section
/-! SUPPORT. What each block's operations leave alone: the fields of State that an operation does not own. -/

namespace Sys2Proof.Machine

@[simp] theorem State.enterFault_frame (s : State) (n : LaneId) :
    (s.enterFault n).ownAddress = s.ownAddress ∧ (s.enterFault n).ms = s.ms ∧
    (s.enterFault n).freeFlowPin = s.freeFlowPin ∧
    (s.enterFault n).freeFlowSetting = s.freeFlowSetting ∧ (s.enterFault n).heldOrder = s.heldOrder ∧
    (s.enterFault n).tables = s.tables ∧ (s.enterFault n).ports = s.ports ∧
    (s.enterFault n).passback = s.passback ∧ (s.enterFault n).maze = s.maze ∧
    (s.enterFault n).deferred = s.deferred ∧ (s.enterFault n).time = s.time ∧
    (s.enterFault n).loop = s.loop ∧ (s.enterFault n).choices = s.choices ∧
    (s.enterFault n).pending = s.pending ∧ (s.enterFault n).mgmt.shadows = s.mgmt.shadows ∧
    (s.enterFault n).mgmt.enables = s.mgmt.enables ∧ (s.enterFault n).mgmt.overruns = s.mgmt.overruns := by
  simp only [State.enterFault]
  simp

@[simp] theorem State.rest_frame (s : State) (n : LaneId) :
    (s.rest n).ownAddress = s.ownAddress ∧ (s.rest n).ms = s.ms ∧
    (s.rest n).freeFlowPin = s.freeFlowPin ∧ (s.rest n).freeFlowSetting = s.freeFlowSetting ∧
    (s.rest n).heldOrder = s.heldOrder ∧ (s.rest n).tables = s.tables ∧ (s.rest n).ports = s.ports ∧
    (s.rest n).passback = s.passback ∧ (s.rest n).maze = s.maze ∧ (s.rest n).deferred = s.deferred ∧
    (s.rest n).time = s.time ∧ (s.rest n).loop = s.loop ∧ (s.rest n).choices = s.choices ∧
    (s.rest n).pending = s.pending ∧ (s.rest n).mgmt.shadows = s.mgmt.shadows ∧
    (s.rest n).mgmt.enables = s.mgmt.enables ∧ (s.rest n).mgmt.overruns = s.mgmt.overruns := by
  simp only [State.rest]
  (repeat' split) <;> simp

@[simp] theorem State.closureChange_frame (s : State) (n : LaneId) :
    (s.closureChange n).ownAddress = s.ownAddress ∧ (s.closureChange n).ms = s.ms ∧
    (s.closureChange n).freeFlowPin = s.freeFlowPin ∧
    (s.closureChange n).freeFlowSetting = s.freeFlowSetting ∧
    (s.closureChange n).heldOrder = s.heldOrder ∧ (s.closureChange n).tables = s.tables ∧
    (s.closureChange n).ports = s.ports ∧ (s.closureChange n).passback = s.passback ∧
    (s.closureChange n).maze = s.maze ∧ (s.closureChange n).deferred = s.deferred ∧
    (s.closureChange n).time = s.time ∧ (s.closureChange n).loop = s.loop ∧
    (s.closureChange n).choices = s.choices ∧ (s.closureChange n).pending = s.pending ∧
    (s.closureChange n).mgmt.shadows = s.mgmt.shadows ∧
    (s.closureChange n).mgmt.enables = s.mgmt.enables ∧
    (s.closureChange n).mgmt.overruns = s.mgmt.overruns := by
  simp only [State.closureChange]
  (repeat' split) <;> simp

@[simp] theorem State.closureChangeAll_frame (s : State) :
    s.closureChangeAll.ownAddress = s.ownAddress ∧ s.closureChangeAll.ms = s.ms ∧
    s.closureChangeAll.freeFlowPin = s.freeFlowPin ∧
    s.closureChangeAll.freeFlowSetting = s.freeFlowSetting ∧
    s.closureChangeAll.heldOrder = s.heldOrder ∧ s.closureChangeAll.tables = s.tables ∧
    s.closureChangeAll.ports = s.ports ∧ s.closureChangeAll.passback = s.passback ∧
    s.closureChangeAll.maze = s.maze ∧ s.closureChangeAll.deferred = s.deferred ∧
    s.closureChangeAll.time = s.time ∧ s.closureChangeAll.loop = s.loop ∧
    s.closureChangeAll.choices = s.choices ∧ s.closureChangeAll.pending = s.pending ∧
    s.closureChangeAll.mgmt.shadows = s.mgmt.shadows ∧
    s.closureChangeAll.mgmt.enables = s.mgmt.enables ∧
    s.closureChangeAll.mgmt.overruns = s.mgmt.overruns := by
  simp only [State.closureChangeAll, LaneId.all, List.foldl]
  simp

@[simp] theorem State.enterFreeFlow_frame (s : State) (n : LaneId) :
    (s.enterFreeFlow n).ownAddress = s.ownAddress ∧ (s.enterFreeFlow n).ms = s.ms ∧
    (s.enterFreeFlow n).freeFlowPin = s.freeFlowPin ∧
    (s.enterFreeFlow n).freeFlowSetting = s.freeFlowSetting ∧
    (s.enterFreeFlow n).heldOrder = s.heldOrder ∧ (s.enterFreeFlow n).tables = s.tables ∧
    (s.enterFreeFlow n).ports = s.ports ∧ (s.enterFreeFlow n).passback = s.passback ∧
    (s.enterFreeFlow n).maze = s.maze ∧ (s.enterFreeFlow n).deferred = s.deferred ∧
    (s.enterFreeFlow n).time = s.time ∧ (s.enterFreeFlow n).loop = s.loop ∧
    (s.enterFreeFlow n).mgmt = s.mgmt ∧ (s.enterFreeFlow n).choices = s.choices ∧
    (s.enterFreeFlow n).pending = s.pending := by
  simp only [State.enterFreeFlow]
  simp

@[simp] theorem State.countFree_frame (s : State) (n : LaneId) (w : PassageWindow) :
    (s.countFree n w).ownAddress = s.ownAddress ∧ (s.countFree n w).ms = s.ms ∧
    (s.countFree n w).freeFlowPin = s.freeFlowPin ∧
    (s.countFree n w).freeFlowSetting = s.freeFlowSetting ∧
    (s.countFree n w).heldOrder = s.heldOrder ∧ (s.countFree n w).tables = s.tables ∧
    (s.countFree n w).ports = s.ports ∧ (s.countFree n w).passback = s.passback ∧
    (s.countFree n w).deferred = s.deferred ∧ (s.countFree n w).time = s.time ∧
    (s.countFree n w).loop = s.loop ∧ (s.countFree n w).choices = s.choices ∧
    (s.countFree n w).pending = s.pending ∧ (s.countFree n w).mgmt.shadows = s.mgmt.shadows ∧
    (s.countFree n w).mgmt.enables = s.mgmt.enables ∧
    (s.countFree n w).mgmt.overruns = s.mgmt.overruns ∧
    (s.countFree n w).maze.gate = s.maze.gate ∧ (s.countFree n w).maze.liftRun = s.maze.liftRun ∧
    (s.countFree n w).maze.loadingHold = s.maze.loadingHold ∧ (s.countFree n w).maze.window = s.maze.window ∧
    (s.countFree n w).maze.day = s.maze.day ∧ (s.countFree n w).maze.interval = s.maze.interval := by
  simp only [State.countFree]
  (repeat' split) <;> simp

@[simp] theorem State.closeLateTrail_frame (s : State) (n : LaneId) :
    (s.closeLateTrail n).ownAddress = s.ownAddress ∧ (s.closeLateTrail n).ms = s.ms ∧
    (s.closeLateTrail n).freeFlowPin = s.freeFlowPin ∧
    (s.closeLateTrail n).freeFlowSetting = s.freeFlowSetting ∧
    (s.closeLateTrail n).heldOrder = s.heldOrder ∧ (s.closeLateTrail n).tables = s.tables ∧
    (s.closeLateTrail n).ports = s.ports ∧ (s.closeLateTrail n).passback = s.passback ∧
    (s.closeLateTrail n).deferred = s.deferred ∧ (s.closeLateTrail n).time = s.time ∧
    (s.closeLateTrail n).loop = s.loop ∧ (s.closeLateTrail n).choices = s.choices ∧
    (s.closeLateTrail n).pending = s.pending ∧ (s.closeLateTrail n).mgmt.shadows = s.mgmt.shadows ∧
    (s.closeLateTrail n).mgmt.enables = s.mgmt.enables ∧
    (s.closeLateTrail n).mgmt.overruns = s.mgmt.overruns ∧
    (s.closeLateTrail n).maze.gate = s.maze.gate ∧ (s.closeLateTrail n).maze.liftRun = s.maze.liftRun ∧
    (s.closeLateTrail n).maze.loadingHold = s.maze.loadingHold ∧
    (s.closeLateTrail n).maze.window = s.maze.window ∧
    (s.closeLateTrail n).maze.day = s.maze.day ∧ (s.closeLateTrail n).maze.interval = s.maze.interval := by
  simp only [State.closeLateTrail]
  (repeat' split) <;> simp

@[simp] theorem State.takeRole_frame (s : State) (n : LaneId) (r : Role) :
    (s.takeRole n r).ownAddress = s.ownAddress ∧ (s.takeRole n r).ms = s.ms ∧
    (s.takeRole n r).freeFlowPin = s.freeFlowPin ∧
    (s.takeRole n r).freeFlowSetting = s.freeFlowSetting ∧ (s.takeRole n r).heldOrder = s.heldOrder ∧
    (s.takeRole n r).tables = s.tables ∧ (s.takeRole n r).ports = s.ports ∧
    (s.takeRole n r).passback = s.passback ∧ (s.takeRole n r).maze.gate = s.maze.gate ∧
    (s.takeRole n r).maze.liftRun = s.maze.liftRun ∧
    (s.takeRole n r).maze.loadingHold = s.maze.loadingHold ∧ (s.takeRole n r).maze.window = s.maze.window ∧
    (s.takeRole n r).maze.day = s.maze.day ∧ (s.takeRole n r).maze.interval = s.maze.interval ∧
    (s.takeRole n r).deferred = s.deferred ∧ (s.takeRole n r).time = s.time ∧
    (s.takeRole n r).loop = s.loop ∧ (s.takeRole n r).choices = s.choices ∧
    (s.takeRole n r).pending = s.pending ∧ (s.takeRole n r).mgmt.shadows = s.mgmt.shadows ∧
    (s.takeRole n r).mgmt.enables = s.mgmt.enables ∧ (s.takeRole n r).mgmt.overruns = s.mgmt.overruns := by
  simp only [State.takeRole]
  (repeat' split) <;> simp

@[simp] theorem State.comeToRest_frame (s : State) (n : LaneId) :
    (s.comeToRest n).ownAddress = s.ownAddress ∧ (s.comeToRest n).ms = s.ms ∧
    (s.comeToRest n).freeFlowPin = s.freeFlowPin ∧
    (s.comeToRest n).freeFlowSetting = s.freeFlowSetting ∧ (s.comeToRest n).heldOrder = s.heldOrder ∧
    (s.comeToRest n).tables = s.tables ∧ (s.comeToRest n).ports = s.ports ∧
    (s.comeToRest n).passback = s.passback ∧ (s.comeToRest n).maze.gate = s.maze.gate ∧
    (s.comeToRest n).maze.liftRun = s.maze.liftRun ∧
    (s.comeToRest n).maze.loadingHold = s.maze.loadingHold ∧ (s.comeToRest n).maze.window = s.maze.window ∧
    (s.comeToRest n).maze.day = s.maze.day ∧ (s.comeToRest n).maze.interval = s.maze.interval ∧
    (s.comeToRest n).deferred = s.deferred ∧ (s.comeToRest n).time = s.time ∧
    (s.comeToRest n).loop = s.loop ∧ (s.comeToRest n).choices = s.choices ∧
    (s.comeToRest n).pending = s.pending ∧ (s.comeToRest n).mgmt.shadows = s.mgmt.shadows ∧
    (s.comeToRest n).mgmt.enables = s.mgmt.enables ∧ (s.comeToRest n).mgmt.overruns = s.mgmt.overruns := by
  simp only [State.comeToRest]
  (repeat' split) <;> simp

@[simp] theorem State.release_frame (s : State) (n : LaneId) :
    (s.release n).ownAddress = s.ownAddress ∧ (s.release n).ms = s.ms ∧
    (s.release n).freeFlowPin = s.freeFlowPin ∧ (s.release n).freeFlowSetting = s.freeFlowSetting ∧
    (s.release n).tables = s.tables ∧ (s.release n).passback = s.passback ∧
    (s.release n).maze = s.maze ∧ (s.release n).deferred = s.deferred ∧ (s.release n).time = s.time ∧
    (s.release n).loop = s.loop ∧ (s.release n).mgmt = s.mgmt ∧ (s.release n).choices = s.choices ∧
    (s.release n).pending = s.pending := by
  simp only [State.release]
  (repeat' split) <;> simp

@[simp] theorem State.refuse_frame (s : State) (n : LaneId) (d : Display) (k : Nat) :
    (s.refuse n d k).ownAddress = s.ownAddress ∧ (s.refuse n d k).ms = s.ms ∧
    (s.refuse n d k).freeFlowPin = s.freeFlowPin ∧
    (s.refuse n d k).freeFlowSetting = s.freeFlowSetting ∧ (s.refuse n d k).tables = s.tables ∧
    (s.refuse n d k).passback = s.passback ∧ (s.refuse n d k).maze.gate = s.maze.gate ∧
    (s.refuse n d k).maze.liftRun = s.maze.liftRun ∧
    (s.refuse n d k).maze.loadingHold = s.maze.loadingHold ∧ (s.refuse n d k).maze.window = s.maze.window ∧
    (s.refuse n d k).maze.day = s.maze.day ∧ (s.refuse n d k).maze.interval = s.maze.interval ∧
    (s.refuse n d k).deferred = s.deferred ∧ (s.refuse n d k).time = s.time ∧
    (s.refuse n d k).loop = s.loop ∧ (s.refuse n d k).choices = s.choices ∧
    (s.refuse n d k).pending = s.pending ∧ (s.refuse n d k).mgmt.shadows = s.mgmt.shadows ∧
    (s.refuse n d k).mgmt.enables = s.mgmt.enables ∧ (s.refuse n d k).mgmt.overruns = s.mgmt.overruns := by
  simp only [State.refuse]
  simp

@[simp] theorem State.disownWrite_frame (s : State) (n : LaneId) (o : WriteOwner) :
    (s.disownWrite n o).ownAddress = s.ownAddress ∧ (s.disownWrite n o).ms = s.ms ∧
    (s.disownWrite n o).freeFlowPin = s.freeFlowPin ∧
    (s.disownWrite n o).freeFlowSetting = s.freeFlowSetting ∧
    (s.disownWrite n o).heldOrder = s.heldOrder ∧ (s.disownWrite n o).tables = s.tables ∧
    (s.disownWrite n o).lanes = s.lanes ∧ (s.disownWrite n o).passback = s.passback ∧
    (s.disownWrite n o).maze = s.maze ∧ (s.disownWrite n o).deferred = s.deferred ∧
    (s.disownWrite n o).time = s.time ∧ (s.disownWrite n o).loop = s.loop ∧
    (s.disownWrite n o).mgmt = s.mgmt ∧ (s.disownWrite n o).choices = s.choices ∧
    (s.disownWrite n o).pending = s.pending := by
  simp only [State.disownWrite]
  simp

@[simp] theorem State.unlock_frame (s : State) (n : LaneId) :
    (s.unlock n).ownAddress = s.ownAddress ∧ (s.unlock n).ms = s.ms ∧
    (s.unlock n).freeFlowPin = s.freeFlowPin ∧ (s.unlock n).freeFlowSetting = s.freeFlowSetting ∧
    (s.unlock n).heldOrder = s.heldOrder ∧ (s.unlock n).tables = s.tables ∧
    (s.unlock n).ports = s.ports ∧ (s.unlock n).maze = s.maze ∧ (s.unlock n).deferred = s.deferred ∧
    (s.unlock n).time = s.time ∧ (s.unlock n).loop = s.loop ∧ (s.unlock n).choices = s.choices ∧
    (s.unlock n).pending = s.pending ∧ (s.unlock n).mgmt.shadows = s.mgmt.shadows ∧
    (s.unlock n).mgmt.enables = s.mgmt.enables ∧ (s.unlock n).mgmt.overruns = s.mgmt.overruns := by
  simp only [State.unlock]
  (repeat' split) <;> simp

@[simp] theorem State.unlockOrSettle_frame (s : State) (n : LaneId) :
    (s.unlockOrSettle n).ownAddress = s.ownAddress ∧ (s.unlockOrSettle n).ms = s.ms ∧
    (s.unlockOrSettle n).freeFlowPin = s.freeFlowPin ∧
    (s.unlockOrSettle n).freeFlowSetting = s.freeFlowSetting ∧
    (s.unlockOrSettle n).heldOrder = s.heldOrder ∧ (s.unlockOrSettle n).tables = s.tables ∧
    (s.unlockOrSettle n).ports = s.ports ∧ (s.unlockOrSettle n).maze = s.maze ∧
    (s.unlockOrSettle n).deferred = s.deferred ∧ (s.unlockOrSettle n).time = s.time ∧
    (s.unlockOrSettle n).loop = s.loop ∧ (s.unlockOrSettle n).choices = s.choices ∧
    (s.unlockOrSettle n).pending = s.pending ∧ (s.unlockOrSettle n).mgmt.shadows = s.mgmt.shadows ∧
    (s.unlockOrSettle n).mgmt.enables = s.mgmt.enables ∧
    (s.unlockOrSettle n).mgmt.overruns = s.mgmt.overruns := by
  simp only [State.unlockOrSettle]
  (repeat' split) <;> simp

@[simp] theorem State.lapse_frame (s : State) (n : LaneId) :
    (s.lapse n).ownAddress = s.ownAddress ∧ (s.lapse n).ms = s.ms ∧
    (s.lapse n).freeFlowPin = s.freeFlowPin ∧ (s.lapse n).freeFlowSetting = s.freeFlowSetting ∧
    (s.lapse n).tables = s.tables ∧ (s.lapse n).deferred = s.deferred ∧ (s.lapse n).time = s.time ∧
    (s.lapse n).loop = s.loop ∧ (s.lapse n).mgmt = s.mgmt ∧ (s.lapse n).choices = s.choices ∧
    (s.lapse n).pending = s.pending := by
  simp only [State.lapse]
  (repeat' split) <;> simp

@[simp] theorem State.startRecovery_frame (s : State) (n : LaneId) :
    (s.startRecovery n).ownAddress = s.ownAddress ∧ (s.startRecovery n).ms = s.ms ∧
    (s.startRecovery n).freeFlowPin = s.freeFlowPin ∧
    (s.startRecovery n).freeFlowSetting = s.freeFlowSetting ∧
    (s.startRecovery n).heldOrder = s.heldOrder ∧ (s.startRecovery n).tables = s.tables ∧
    (s.startRecovery n).ports = s.ports ∧ (s.startRecovery n).passback = s.passback ∧
    (s.startRecovery n).maze = s.maze ∧ (s.startRecovery n).deferred = s.deferred ∧
    (s.startRecovery n).time = s.time ∧ (s.startRecovery n).loop = s.loop ∧
    (s.startRecovery n).mgmt = s.mgmt ∧ (s.startRecovery n).choices = s.choices ∧
    (s.startRecovery n).pending = s.pending := by
  simp only [State.startRecovery]
  (repeat' split) <;> simp

@[simp] theorem State.startRecoveryIfIdle_frame (s : State) (n : LaneId) :
    (s.startRecoveryIfIdle n).ownAddress = s.ownAddress ∧ (s.startRecoveryIfIdle n).ms = s.ms ∧
    (s.startRecoveryIfIdle n).freeFlowPin = s.freeFlowPin ∧
    (s.startRecoveryIfIdle n).freeFlowSetting = s.freeFlowSetting ∧
    (s.startRecoveryIfIdle n).heldOrder = s.heldOrder ∧ (s.startRecoveryIfIdle n).tables = s.tables ∧
    (s.startRecoveryIfIdle n).ports = s.ports ∧ (s.startRecoveryIfIdle n).passback = s.passback ∧
    (s.startRecoveryIfIdle n).maze = s.maze ∧ (s.startRecoveryIfIdle n).deferred = s.deferred ∧
    (s.startRecoveryIfIdle n).time = s.time ∧ (s.startRecoveryIfIdle n).loop = s.loop ∧
    (s.startRecoveryIfIdle n).mgmt = s.mgmt ∧ (s.startRecoveryIfIdle n).choices = s.choices ∧
    (s.startRecoveryIfIdle n).pending = s.pending := by
  simp only [State.startRecoveryIfIdle]
  (repeat' split) <;> simp

@[simp] theorem State.countPassage_frame (s : State) (n : LaneId) (k : Nat) :
    (s.countPassage n k).ownAddress = s.ownAddress ∧ (s.countPassage n k).ms = s.ms ∧
    (s.countPassage n k).freeFlowPin = s.freeFlowPin ∧
    (s.countPassage n k).freeFlowSetting = s.freeFlowSetting ∧
    (s.countPassage n k).heldOrder = s.heldOrder ∧ (s.countPassage n k).tables = s.tables ∧
    (s.countPassage n k).ports = s.ports ∧ (s.countPassage n k).passback = s.passback ∧
    (s.countPassage n k).maze = s.maze ∧ (s.countPassage n k).deferred = s.deferred ∧
    (s.countPassage n k).time = s.time ∧ (s.countPassage n k).loop = s.loop ∧
    (s.countPassage n k).choices = s.choices ∧ (s.countPassage n k).pending = s.pending ∧
    (s.countPassage n k).mgmt.shadows = s.mgmt.shadows ∧
    (s.countPassage n k).mgmt.enables = s.mgmt.enables ∧
    (s.countPassage n k).mgmt.overruns = s.mgmt.overruns := by
  simp only [State.countPassage]
  (repeat' split) <;> simp

@[simp] theorem State.passageOutcome_frame (s : State) (n : LaneId) :
    (s.passageOutcome n).ownAddress = s.ownAddress ∧ (s.passageOutcome n).ms = s.ms ∧
    (s.passageOutcome n).freeFlowPin = s.freeFlowPin ∧
    (s.passageOutcome n).freeFlowSetting = s.freeFlowSetting ∧ (s.passageOutcome n).tables = s.tables ∧
    (s.passageOutcome n).deferred = s.deferred ∧ (s.passageOutcome n).time = s.time ∧
    (s.passageOutcome n).choices = s.choices ∧ (s.passageOutcome n).pending = s.pending ∧
    (s.passageOutcome n).loop.link = s.loop.link ∧ (s.passageOutcome n).loop.silence = s.loop.silence ∧
    (s.passageOutcome n).loop.training = s.loop.training ∧
    (s.passageOutcome n).loop.badRun = s.loop.badRun ∧
    (s.passageOutcome n).loop.downByLoss = s.loop.downByLoss ∧
    (s.passageOutcome n).loop.crcErrors = s.loop.crcErrors ∧
    (s.passageOutcome n).loop.orphans = s.loop.orphans ∧
    (s.passageOutcome n).loop.transitDrops = s.loop.transitDrops ∧
    (s.passageOutcome n).mgmt.shadows = s.mgmt.shadows ∧
    (s.passageOutcome n).mgmt.enables = s.mgmt.enables ∧
    (s.passageOutcome n).mgmt.overruns = s.mgmt.overruns := by
  simp only [State.passageOutcome]
  (repeat' split) <;> simp

@[simp] theorem State.leaveFreeFlow_frame (s : State) (n : LaneId) :
    (s.leaveFreeFlow n).ownAddress = s.ownAddress ∧ (s.leaveFreeFlow n).ms = s.ms ∧
    (s.leaveFreeFlow n).freeFlowPin = s.freeFlowPin ∧
    (s.leaveFreeFlow n).freeFlowSetting = s.freeFlowSetting ∧
    (s.leaveFreeFlow n).heldOrder = s.heldOrder ∧ (s.leaveFreeFlow n).tables = s.tables ∧
    (s.leaveFreeFlow n).ports = s.ports ∧ (s.leaveFreeFlow n).passback = s.passback ∧
    (s.leaveFreeFlow n).maze.gate = s.maze.gate ∧ (s.leaveFreeFlow n).maze.liftRun = s.maze.liftRun ∧
    (s.leaveFreeFlow n).maze.loadingHold = s.maze.loadingHold ∧
    (s.leaveFreeFlow n).maze.window = s.maze.window ∧
    (s.leaveFreeFlow n).maze.day = s.maze.day ∧ (s.leaveFreeFlow n).maze.interval = s.maze.interval ∧
    (s.leaveFreeFlow n).deferred = s.deferred ∧
    (s.leaveFreeFlow n).time = s.time ∧ (s.leaveFreeFlow n).loop = s.loop ∧
    (s.leaveFreeFlow n).choices = s.choices ∧ (s.leaveFreeFlow n).pending = s.pending ∧
    (s.leaveFreeFlow n).mgmt.shadows = s.mgmt.shadows ∧
    (s.leaveFreeFlow n).mgmt.enables = s.mgmt.enables ∧
    (s.leaveFreeFlow n).mgmt.overruns = s.mgmt.overruns := by
  simp only [State.leaveFreeFlow]
  (repeat' split) <;> simp

@[simp] theorem State.closeFreeWindow_frame (s : State) (n : LaneId) :
    (s.closeFreeWindow n).ownAddress = s.ownAddress ∧ (s.closeFreeWindow n).ms = s.ms ∧
    (s.closeFreeWindow n).freeFlowPin = s.freeFlowPin ∧
    (s.closeFreeWindow n).freeFlowSetting = s.freeFlowSetting ∧
    (s.closeFreeWindow n).heldOrder = s.heldOrder ∧ (s.closeFreeWindow n).tables = s.tables ∧
    (s.closeFreeWindow n).ports = s.ports ∧ (s.closeFreeWindow n).passback = s.passback ∧
    (s.closeFreeWindow n).deferred = s.deferred ∧ (s.closeFreeWindow n).time = s.time ∧
    (s.closeFreeWindow n).loop = s.loop ∧ (s.closeFreeWindow n).choices = s.choices ∧
    (s.closeFreeWindow n).pending = s.pending ∧ (s.closeFreeWindow n).mgmt.shadows = s.mgmt.shadows ∧
    (s.closeFreeWindow n).mgmt.enables = s.mgmt.enables ∧
    (s.closeFreeWindow n).mgmt.overruns = s.mgmt.overruns := by
  simp only [State.closeFreeWindow]
  (repeat' split) <;> simp

@[simp] theorem State.endTransactionFree_frame (s : State) (n : LaneId) :
    (s.endTransactionFree n).ownAddress = s.ownAddress ∧ (s.endTransactionFree n).ms = s.ms ∧
    (s.endTransactionFree n).freeFlowPin = s.freeFlowPin ∧
    (s.endTransactionFree n).freeFlowSetting = s.freeFlowSetting ∧
    (s.endTransactionFree n).tables = s.tables ∧ (s.endTransactionFree n).deferred = s.deferred ∧
    (s.endTransactionFree n).time = s.time ∧ (s.endTransactionFree n).loop = s.loop ∧
    (s.endTransactionFree n).mgmt = s.mgmt ∧ (s.endTransactionFree n).choices = s.choices ∧
    (s.endTransactionFree n).pending = s.pending := by
  simp only [State.endTransactionFree]
  (repeat' split) <;> simp

@[simp] theorem State.stopTimers_frame (s : State) (n : LaneId) :
    (s.stopTimers n).ownAddress = s.ownAddress ∧ (s.stopTimers n).ms = s.ms ∧
    (s.stopTimers n).freeFlowPin = s.freeFlowPin ∧
    (s.stopTimers n).freeFlowSetting = s.freeFlowSetting ∧ (s.stopTimers n).heldOrder = s.heldOrder ∧
    (s.stopTimers n).tables = s.tables ∧ (s.stopTimers n).ports = s.ports ∧
    (s.stopTimers n).passback = s.passback ∧ (s.stopTimers n).maze = s.maze ∧
    (s.stopTimers n).deferred = s.deferred ∧ (s.stopTimers n).time = s.time ∧
    (s.stopTimers n).loop = s.loop ∧ (s.stopTimers n).mgmt = s.mgmt ∧
    (s.stopTimers n).choices = s.choices ∧ (s.stopTimers n).pending = s.pending := by
  simp only [State.stopTimers]
  simp

@[simp] theorem State.beginFreeFlowLane_frame (s : State) (n : LaneId) :
    (s.beginFreeFlowLane n).ownAddress = s.ownAddress ∧ (s.beginFreeFlowLane n).ms = s.ms ∧
    (s.beginFreeFlowLane n).freeFlowPin = s.freeFlowPin ∧
    (s.beginFreeFlowLane n).freeFlowSetting = s.freeFlowSetting ∧
    (s.beginFreeFlowLane n).tables = s.tables ∧ (s.beginFreeFlowLane n).deferred = s.deferred ∧
    (s.beginFreeFlowLane n).time = s.time ∧ (s.beginFreeFlowLane n).loop = s.loop ∧
    (s.beginFreeFlowLane n).choices = s.choices ∧ (s.beginFreeFlowLane n).pending = s.pending ∧
    (s.beginFreeFlowLane n).mgmt.shadows = s.mgmt.shadows ∧
    (s.beginFreeFlowLane n).mgmt.enables = s.mgmt.enables ∧
    (s.beginFreeFlowLane n).mgmt.overruns = s.mgmt.overruns := by
  simp only [State.beginFreeFlowLane]
  (repeat' split) <;> simp

@[simp] theorem State.endFreeFlowLane_frame (s : State) (n : LaneId) :
    (s.endFreeFlowLane n).ownAddress = s.ownAddress ∧ (s.endFreeFlowLane n).ms = s.ms ∧
    (s.endFreeFlowLane n).freeFlowPin = s.freeFlowPin ∧
    (s.endFreeFlowLane n).freeFlowSetting = s.freeFlowSetting ∧
    (s.endFreeFlowLane n).heldOrder = s.heldOrder ∧ (s.endFreeFlowLane n).tables = s.tables ∧
    (s.endFreeFlowLane n).ports = s.ports ∧ (s.endFreeFlowLane n).passback = s.passback ∧
    (s.endFreeFlowLane n).maze.gate = s.maze.gate ∧ (s.endFreeFlowLane n).maze.liftRun = s.maze.liftRun ∧
    (s.endFreeFlowLane n).maze.loadingHold = s.maze.loadingHold ∧
    (s.endFreeFlowLane n).maze.window = s.maze.window ∧
    (s.endFreeFlowLane n).maze.day = s.maze.day ∧ (s.endFreeFlowLane n).maze.interval = s.maze.interval ∧
    (s.endFreeFlowLane n).deferred = s.deferred ∧
    (s.endFreeFlowLane n).time = s.time ∧ (s.endFreeFlowLane n).loop = s.loop ∧
    (s.endFreeFlowLane n).choices = s.choices ∧ (s.endFreeFlowLane n).pending = s.pending ∧
    (s.endFreeFlowLane n).mgmt.shadows = s.mgmt.shadows ∧
    (s.endFreeFlowLane n).mgmt.enables = s.mgmt.enables ∧
    (s.endFreeFlowLane n).mgmt.overruns = s.mgmt.overruns := by
  simp only [State.endFreeFlowLane]
  (repeat' split) <;> simp

@[simp] theorem State.freeFlowChange_frame (s : State) (b : Bool) :
    (s.freeFlowChange b).ownAddress = s.ownAddress ∧ (s.freeFlowChange b).ms = s.ms ∧
    (s.freeFlowChange b).freeFlowPin = s.freeFlowPin ∧
    (s.freeFlowChange b).freeFlowSetting = s.freeFlowSetting ∧ (s.freeFlowChange b).tables = s.tables ∧
    (s.freeFlowChange b).deferred = s.deferred ∧ (s.freeFlowChange b).time = s.time ∧
    (s.freeFlowChange b).loop = s.loop ∧ (s.freeFlowChange b).choices = s.choices ∧
    (s.freeFlowChange b).pending = s.pending ∧ (s.freeFlowChange b).mgmt.shadows = s.mgmt.shadows ∧
    (s.freeFlowChange b).mgmt.enables = s.mgmt.enables ∧
    (s.freeFlowChange b).mgmt.overruns = s.mgmt.overruns := by
  simp only [State.freeFlowChange, LaneId.all, List.foldl]
  (repeat' split) <;> simp

@[simp] theorem State.startWrite_frame (s : State) (n : LaneId) (w : WriteRequest) :
    (s.startWrite n w).ownAddress = s.ownAddress ∧ (s.startWrite n w).ms = s.ms ∧
    (s.startWrite n w).freeFlowPin = s.freeFlowPin ∧
    (s.startWrite n w).freeFlowSetting = s.freeFlowSetting ∧
    (s.startWrite n w).heldOrder = s.heldOrder ∧ (s.startWrite n w).tables = s.tables ∧
    (s.startWrite n w).lanes = s.lanes ∧ (s.startWrite n w).passback = s.passback ∧
    (s.startWrite n w).maze = s.maze ∧ (s.startWrite n w).deferred = s.deferred ∧
    (s.startWrite n w).time = s.time ∧ (s.startWrite n w).loop = s.loop ∧
    (s.startWrite n w).mgmt = s.mgmt ∧ (s.startWrite n w).choices = s.choices ∧
    (s.startWrite n w).pending = s.pending := by
  simp only [State.startWrite]
  simp

@[simp] theorem State.requestWrite_frame (s : State) (n : LaneId) (w : WriteRequest) :
    (s.requestWrite n w).ownAddress = s.ownAddress ∧ (s.requestWrite n w).ms = s.ms ∧
    (s.requestWrite n w).freeFlowPin = s.freeFlowPin ∧
    (s.requestWrite n w).freeFlowSetting = s.freeFlowSetting ∧
    (s.requestWrite n w).heldOrder = s.heldOrder ∧ (s.requestWrite n w).tables = s.tables ∧
    (s.requestWrite n w).lanes = s.lanes ∧ (s.requestWrite n w).passback = s.passback ∧
    (s.requestWrite n w).maze = s.maze ∧ (s.requestWrite n w).deferred = s.deferred ∧
    (s.requestWrite n w).time = s.time ∧ (s.requestWrite n w).loop = s.loop ∧
    (s.requestWrite n w).mgmt = s.mgmt ∧ (s.requestWrite n w).choices = s.choices ∧
    (s.requestWrite n w).pending = s.pending := by
  simp only [State.requestWrite]
  (repeat' split) <;> simp

@[simp] theorem State.sendWaiting_frame (s : State) (n : LaneId) :
    (s.sendWaiting n).ownAddress = s.ownAddress ∧ (s.sendWaiting n).ms = s.ms ∧
    (s.sendWaiting n).freeFlowPin = s.freeFlowPin ∧
    (s.sendWaiting n).freeFlowSetting = s.freeFlowSetting ∧ (s.sendWaiting n).heldOrder = s.heldOrder ∧
    (s.sendWaiting n).tables = s.tables ∧ (s.sendWaiting n).lanes = s.lanes ∧
    (s.sendWaiting n).passback = s.passback ∧ (s.sendWaiting n).maze = s.maze ∧
    (s.sendWaiting n).deferred = s.deferred ∧ (s.sendWaiting n).time = s.time ∧
    (s.sendWaiting n).loop = s.loop ∧ (s.sendWaiting n).mgmt = s.mgmt ∧
    (s.sendWaiting n).choices = s.choices ∧ (s.sendWaiting n).pending = s.pending := by
  simp only [State.sendWaiting]
  (repeat' split) <;> simp

@[simp] theorem State.grant_frame (s : State) (n : LaneId) :
    (s.grant n).ownAddress = s.ownAddress ∧ (s.grant n).ms = s.ms ∧
    (s.grant n).freeFlowPin = s.freeFlowPin ∧ (s.grant n).freeFlowSetting = s.freeFlowSetting ∧
    (s.grant n).tables = s.tables ∧ (s.grant n).maze.gate = s.maze.gate ∧
    (s.grant n).maze.liftRun = s.maze.liftRun ∧
    (s.grant n).maze.loadingHold = s.maze.loadingHold ∧ (s.grant n).maze.window = s.maze.window ∧
    (s.grant n).maze.day = s.maze.day ∧ (s.grant n).maze.interval = s.maze.interval ∧
    (s.grant n).deferred = s.deferred ∧
    (s.grant n).time = s.time ∧ (s.grant n).loop = s.loop ∧ (s.grant n).choices = s.choices ∧
    (s.grant n).pending = s.pending ∧ (s.grant n).mgmt.shadows = s.mgmt.shadows ∧
    (s.grant n).mgmt.enables = s.mgmt.enables ∧ (s.grant n).mgmt.overruns = s.mgmt.overruns := by
  simp only [State.grant]
  (repeat' split) <;> simp

@[simp] theorem State.enterHeld_frame (s : State) (n : LaneId) (t : Transaction) :
    (s.enterHeld n t).ownAddress = s.ownAddress ∧ (s.enterHeld n t).ms = s.ms ∧
    (s.enterHeld n t).freeFlowPin = s.freeFlowPin ∧
    (s.enterHeld n t).freeFlowSetting = s.freeFlowSetting ∧ (s.enterHeld n t).tables = s.tables ∧
    (s.enterHeld n t).passback = s.passback ∧ (s.enterHeld n t).maze = s.maze ∧
    (s.enterHeld n t).deferred = s.deferred ∧ (s.enterHeld n t).time = s.time ∧
    (s.enterHeld n t).loop = s.loop ∧ (s.enterHeld n t).mgmt = s.mgmt ∧
    (s.enterHeld n t).choices = s.choices ∧ (s.enterHeld n t).pending = s.pending := by
  simp only [State.enterHeld]
  simp

@[simp] theorem State.reserve_frame (s : State) (n : LaneId) :
    (s.reserve n).ownAddress = s.ownAddress ∧ (s.reserve n).ms = s.ms ∧
    (s.reserve n).freeFlowPin = s.freeFlowPin ∧ (s.reserve n).freeFlowSetting = s.freeFlowSetting ∧
    (s.reserve n).heldOrder = s.heldOrder ∧ (s.reserve n).tables = s.tables ∧
    (s.reserve n).ports = s.ports ∧ (s.reserve n).passback = s.passback ∧ (s.reserve n).maze = s.maze ∧
    (s.reserve n).deferred = s.deferred ∧ (s.reserve n).time = s.time ∧ (s.reserve n).loop = s.loop ∧
    (s.reserve n).mgmt = s.mgmt ∧ (s.reserve n).choices = s.choices ∧ (s.reserve n).pending = s.pending := by
  simp only [State.reserve]
  simp

@[simp] theorem State.ticketCapacity_frame (s : State) (n : LaneId) :
    (s.ticketCapacity n).ownAddress = s.ownAddress ∧ (s.ticketCapacity n).ms = s.ms ∧
    (s.ticketCapacity n).freeFlowPin = s.freeFlowPin ∧
    (s.ticketCapacity n).freeFlowSetting = s.freeFlowSetting ∧ (s.ticketCapacity n).tables = s.tables ∧
    (s.ticketCapacity n).maze.gate = s.maze.gate ∧ (s.ticketCapacity n).maze.liftRun = s.maze.liftRun ∧
    (s.ticketCapacity n).maze.loadingHold = s.maze.loadingHold ∧
    (s.ticketCapacity n).maze.window = s.maze.window ∧
    (s.ticketCapacity n).maze.day = s.maze.day ∧ (s.ticketCapacity n).maze.interval = s.maze.interval ∧
    (s.ticketCapacity n).deferred = s.deferred ∧
    (s.ticketCapacity n).time = s.time ∧ (s.ticketCapacity n).loop = s.loop ∧
    (s.ticketCapacity n).choices = s.choices ∧ (s.ticketCapacity n).pending = s.pending ∧
    (s.ticketCapacity n).mgmt.shadows = s.mgmt.shadows ∧
    (s.ticketCapacity n).mgmt.enables = s.mgmt.enables ∧
    (s.ticketCapacity n).mgmt.overruns = s.mgmt.overruns := by
  simp only [State.ticketCapacity]
  (repeat' split) <;> simp

@[simp] theorem State.ticketFromRecord_frame (s : State) (n : LaneId) :
    (s.ticketFromRecord n).ownAddress = s.ownAddress ∧ (s.ticketFromRecord n).ms = s.ms ∧
    (s.ticketFromRecord n).freeFlowPin = s.freeFlowPin ∧
    (s.ticketFromRecord n).freeFlowSetting = s.freeFlowSetting ∧
    (s.ticketFromRecord n).tables = s.tables ∧ (s.ticketFromRecord n).maze.gate = s.maze.gate ∧
    (s.ticketFromRecord n).maze.liftRun = s.maze.liftRun ∧
    (s.ticketFromRecord n).maze.loadingHold = s.maze.loadingHold ∧
    (s.ticketFromRecord n).maze.window = s.maze.window ∧
    (s.ticketFromRecord n).maze.day = s.maze.day ∧ (s.ticketFromRecord n).maze.interval = s.maze.interval ∧
    (s.ticketFromRecord n).deferred = s.deferred ∧ (s.ticketFromRecord n).time = s.time ∧
    (s.ticketFromRecord n).loop = s.loop ∧ (s.ticketFromRecord n).choices = s.choices ∧
    (s.ticketFromRecord n).pending = s.pending ∧ (s.ticketFromRecord n).mgmt.shadows = s.mgmt.shadows ∧
    (s.ticketFromRecord n).mgmt.enables = s.mgmt.enables ∧
    (s.ticketFromRecord n).mgmt.overruns = s.mgmt.overruns := by
  simp only [State.ticketFromRecord]
  (repeat' split) <;> simp

@[simp] theorem State.settleWrite_frame (s : State) (n : LaneId) (t : Transaction) :
    (s.settleWrite n t).ownAddress = s.ownAddress ∧ (s.settleWrite n t).ms = s.ms ∧
    (s.settleWrite n t).freeFlowPin = s.freeFlowPin ∧
    (s.settleWrite n t).freeFlowSetting = s.freeFlowSetting ∧ (s.settleWrite n t).tables = s.tables ∧
    (s.settleWrite n t).passback = s.passback ∧ (s.settleWrite n t).maze.gate = s.maze.gate ∧
    (s.settleWrite n t).maze.liftRun = s.maze.liftRun ∧
    (s.settleWrite n t).maze.loadingHold = s.maze.loadingHold ∧
    (s.settleWrite n t).maze.window = s.maze.window ∧
    (s.settleWrite n t).maze.day = s.maze.day ∧ (s.settleWrite n t).maze.interval = s.maze.interval ∧
    (s.settleWrite n t).deferred = s.deferred ∧ (s.settleWrite n t).time = s.time ∧
    (s.settleWrite n t).loop = s.loop ∧ (s.settleWrite n t).choices = s.choices ∧
    (s.settleWrite n t).pending = s.pending ∧ (s.settleWrite n t).mgmt.shadows = s.mgmt.shadows ∧
    (s.settleWrite n t).mgmt.enables = s.mgmt.enables ∧
    (s.settleWrite n t).mgmt.overruns = s.mgmt.overruns := by
  simp only [State.settleWrite]
  (repeat' split) <;> simp

@[simp] theorem State.settleFromRecord_frame (s : State) (n : LaneId) :
    (s.settleFromRecord n).ownAddress = s.ownAddress ∧ (s.settleFromRecord n).ms = s.ms ∧
    (s.settleFromRecord n).freeFlowPin = s.freeFlowPin ∧
    (s.settleFromRecord n).freeFlowSetting = s.freeFlowSetting ∧
    (s.settleFromRecord n).tables = s.tables ∧ (s.settleFromRecord n).passback = s.passback ∧
    (s.settleFromRecord n).maze.gate = s.maze.gate ∧ (s.settleFromRecord n).maze.liftRun = s.maze.liftRun ∧
    (s.settleFromRecord n).maze.loadingHold = s.maze.loadingHold ∧
    (s.settleFromRecord n).maze.window = s.maze.window ∧
    (s.settleFromRecord n).maze.day = s.maze.day ∧ (s.settleFromRecord n).maze.interval = s.maze.interval ∧
    (s.settleFromRecord n).deferred = s.deferred ∧
    (s.settleFromRecord n).time = s.time ∧ (s.settleFromRecord n).loop = s.loop ∧
    (s.settleFromRecord n).choices = s.choices ∧ (s.settleFromRecord n).pending = s.pending ∧
    (s.settleFromRecord n).mgmt.shadows = s.mgmt.shadows ∧
    (s.settleFromRecord n).mgmt.enables = s.mgmt.enables ∧
    (s.settleFromRecord n).mgmt.overruns = s.mgmt.overruns := by
  simp only [State.settleFromRecord]
  (repeat' split) <;> simp

@[simp] theorem State.settled_frame (s : State) (n : LaneId) (a : Nat) :
    (s.settled n a).ownAddress = s.ownAddress ∧ (s.settled n a).ms = s.ms ∧
    (s.settled n a).freeFlowPin = s.freeFlowPin ∧ (s.settled n a).freeFlowSetting = s.freeFlowSetting ∧
    (s.settled n a).tables = s.tables ∧ (s.settled n a).passback = s.passback ∧
    (s.settled n a).maze.gate = s.maze.gate ∧ (s.settled n a).maze.liftRun = s.maze.liftRun ∧
    (s.settled n a).maze.loadingHold = s.maze.loadingHold ∧ (s.settled n a).maze.window = s.maze.window ∧
    (s.settled n a).maze.day = s.maze.day ∧ (s.settled n a).maze.interval = s.maze.interval ∧
    (s.settled n a).deferred = s.deferred ∧
    (s.settled n a).time = s.time ∧ (s.settled n a).loop = s.loop ∧
    (s.settled n a).choices = s.choices ∧ (s.settled n a).pending = s.pending ∧
    (s.settled n a).mgmt.shadows = s.mgmt.shadows ∧ (s.settled n a).mgmt.enables = s.mgmt.enables ∧
    (s.settled n a).mgmt.overruns = s.mgmt.overruns := by
  simp only [State.settled]
  simp

@[simp] theorem State.fromRecord_frame (s : State) (n : LaneId) :
    (s.fromRecord n).ownAddress = s.ownAddress ∧ (s.fromRecord n).ms = s.ms ∧
    (s.fromRecord n).freeFlowPin = s.freeFlowPin ∧
    (s.fromRecord n).freeFlowSetting = s.freeFlowSetting ∧ (s.fromRecord n).tables = s.tables ∧
    (s.fromRecord n).maze.gate = s.maze.gate ∧ (s.fromRecord n).maze.liftRun = s.maze.liftRun ∧
    (s.fromRecord n).maze.loadingHold = s.maze.loadingHold ∧ (s.fromRecord n).maze.window = s.maze.window ∧
    (s.fromRecord n).maze.day = s.maze.day ∧ (s.fromRecord n).maze.interval = s.maze.interval ∧
    (s.fromRecord n).deferred = s.deferred ∧
    (s.fromRecord n).time = s.time ∧ (s.fromRecord n).loop = s.loop ∧
    (s.fromRecord n).choices = s.choices ∧ (s.fromRecord n).pending = s.pending ∧
    (s.fromRecord n).mgmt.shadows = s.mgmt.shadows ∧ (s.fromRecord n).mgmt.enables = s.mgmt.enables ∧
    (s.fromRecord n).mgmt.overruns = s.mgmt.overruns := by
  simp only [State.fromRecord]
  (repeat' split) <;> simp

/-- What the completion of an entry leaves alone (R124). -/
theorem State.deferredComplete_frame (s s' : State) (e : DeferredEntry) (h : s.deferredComplete e = some s') :
    s'.ownAddress = s.ownAddress ∧ s'.ms = s.ms ∧ s'.freeFlowPin = s.freeFlowPin ∧
    s'.freeFlowSetting = s.freeFlowSetting ∧ s'.heldOrder = s.heldOrder ∧ s'.tables = s.tables ∧
    s'.lanes = s.lanes ∧ s'.ports = s.ports ∧ s'.passback = s.passback ∧ s'.maze = s.maze ∧
    s'.mgmt = s.mgmt ∧ s'.choices = s.choices ∧ s'.pending = s.pending ∧ s'.loop.link = s.loop.link ∧
    s'.loop.silence = s.loop.silence ∧ s'.loop.training = s.loop.training ∧
    s'.loop.badRun = s.loop.badRun ∧ s'.loop.downByLoss = s.loop.downByLoss ∧
    s'.loop.crcErrors = s.loop.crcErrors ∧ s'.loop.orphans = s.loop.orphans ∧
    s'.loop.transitDrops = s.loop.transitDrops := by
  simp only [State.deferredComplete] at h
  split at h
  · cases h; simp
  · split at h
    · cases h; simp
    · cases h

@[simp] theorem State.resolveComplete_frame (s : State) (n : LaneId) (e : DeferredEntry) :
    (s.resolveComplete n e).ownAddress = s.ownAddress ∧ (s.resolveComplete n e).ms = s.ms ∧
    (s.resolveComplete n e).freeFlowPin = s.freeFlowPin ∧
    (s.resolveComplete n e).freeFlowSetting = s.freeFlowSetting ∧
    (s.resolveComplete n e).tables = s.tables ∧ (s.resolveComplete n e).maze.gate = s.maze.gate ∧
    (s.resolveComplete n e).maze.liftRun = s.maze.liftRun ∧
    (s.resolveComplete n e).maze.loadingHold = s.maze.loadingHold ∧
    (s.resolveComplete n e).maze.window = s.maze.window ∧
    (s.resolveComplete n e).maze.day = s.maze.day ∧ (s.resolveComplete n e).maze.interval = s.maze.interval ∧
    (s.resolveComplete n e).choices = s.choices ∧ (s.resolveComplete n e).pending = s.pending ∧
    (s.resolveComplete n e).loop.link = s.loop.link ∧
    (s.resolveComplete n e).loop.silence = s.loop.silence ∧
    (s.resolveComplete n e).loop.training = s.loop.training ∧
    (s.resolveComplete n e).loop.badRun = s.loop.badRun ∧
    (s.resolveComplete n e).loop.downByLoss = s.loop.downByLoss ∧
    (s.resolveComplete n e).loop.crcErrors = s.loop.crcErrors ∧
    (s.resolveComplete n e).loop.orphans = s.loop.orphans ∧
    (s.resolveComplete n e).loop.transitDrops = s.loop.transitDrops ∧
    (s.resolveComplete n e).mgmt.shadows = s.mgmt.shadows ∧
    (s.resolveComplete n e).mgmt.enables = s.mgmt.enables ∧
    (s.resolveComplete n e).mgmt.overruns = s.mgmt.overruns := by
  simp only [State.resolveComplete]
  split
  · split <;> simp
  · rename_i s' h
    have hf := State.deferredComplete_frame s s' e h
    split
    · split <;> simp [hf]
    · simp [hf]

@[simp] theorem State.resolveStep_frame (s : State) (n : LaneId) :
    (s.resolveStep n).ownAddress = s.ownAddress ∧ (s.resolveStep n).ms = s.ms ∧
    (s.resolveStep n).freeFlowPin = s.freeFlowPin ∧
    (s.resolveStep n).freeFlowSetting = s.freeFlowSetting ∧ (s.resolveStep n).tables = s.tables ∧
    (s.resolveStep n).maze.gate = s.maze.gate ∧ (s.resolveStep n).maze.liftRun = s.maze.liftRun ∧
    (s.resolveStep n).maze.loadingHold = s.maze.loadingHold ∧ (s.resolveStep n).maze.window = s.maze.window ∧
    (s.resolveStep n).maze.day = s.maze.day ∧ (s.resolveStep n).maze.interval = s.maze.interval ∧
    (s.resolveStep n).choices = s.choices ∧
    (s.resolveStep n).pending = s.pending ∧ (s.resolveStep n).loop.link = s.loop.link ∧
    (s.resolveStep n).loop.silence = s.loop.silence ∧
    (s.resolveStep n).loop.training = s.loop.training ∧ (s.resolveStep n).loop.badRun = s.loop.badRun ∧
    (s.resolveStep n).loop.downByLoss = s.loop.downByLoss ∧
    (s.resolveStep n).loop.crcErrors = s.loop.crcErrors ∧
    (s.resolveStep n).loop.orphans = s.loop.orphans ∧
    (s.resolveStep n).loop.transitDrops = s.loop.transitDrops ∧
    (s.resolveStep n).mgmt.shadows = s.mgmt.shadows ∧ (s.resolveStep n).mgmt.enables = s.mgmt.enables ∧
    (s.resolveStep n).mgmt.overruns = s.mgmt.overruns := by
  simp only [State.resolveStep]
  (repeat' split) <;> simp

@[simp] theorem State.verdict_frame (s : State) (n : LaneId) :
    (s.verdict n).ownAddress = s.ownAddress ∧ (s.verdict n).ms = s.ms ∧
    (s.verdict n).freeFlowPin = s.freeFlowPin ∧ (s.verdict n).freeFlowSetting = s.freeFlowSetting ∧
    (s.verdict n).tables = s.tables ∧ (s.verdict n).maze.gate = s.maze.gate ∧
    (s.verdict n).maze.liftRun = s.maze.liftRun ∧
    (s.verdict n).maze.loadingHold = s.maze.loadingHold ∧ (s.verdict n).maze.window = s.maze.window ∧
    (s.verdict n).maze.day = s.maze.day ∧ (s.verdict n).maze.interval = s.maze.interval ∧
    (s.verdict n).choices = s.choices ∧
    (s.verdict n).pending = s.pending ∧ (s.verdict n).loop.link = s.loop.link ∧
    (s.verdict n).loop.silence = s.loop.silence ∧ (s.verdict n).loop.training = s.loop.training ∧
    (s.verdict n).loop.badRun = s.loop.badRun ∧ (s.verdict n).loop.downByLoss = s.loop.downByLoss ∧
    (s.verdict n).loop.crcErrors = s.loop.crcErrors ∧ (s.verdict n).loop.orphans = s.loop.orphans ∧
    (s.verdict n).loop.transitDrops = s.loop.transitDrops ∧
    (s.verdict n).mgmt.shadows = s.mgmt.shadows ∧ (s.verdict n).mgmt.enables = s.mgmt.enables ∧
    (s.verdict n).mgmt.overruns = s.mgmt.overruns := by
  simp only [State.verdict]
  (repeat' split) <;> simp

@[simp] theorem State.resolutionOutcome_frame (s : State) (n : LaneId) (r : Record) (o : WriteOutcome) :
    (s.resolutionOutcome n r o).ownAddress = s.ownAddress ∧ (s.resolutionOutcome n r o).ms = s.ms ∧
    (s.resolutionOutcome n r o).freeFlowPin = s.freeFlowPin ∧
    (s.resolutionOutcome n r o).freeFlowSetting = s.freeFlowSetting ∧
    (s.resolutionOutcome n r o).tables = s.tables ∧ (s.resolutionOutcome n r o).maze.gate = s.maze.gate ∧
    (s.resolutionOutcome n r o).maze.liftRun = s.maze.liftRun ∧
    (s.resolutionOutcome n r o).maze.loadingHold = s.maze.loadingHold ∧
    (s.resolutionOutcome n r o).maze.window = s.maze.window ∧
    (s.resolutionOutcome n r o).maze.day = s.maze.day ∧
    (s.resolutionOutcome n r o).maze.interval = s.maze.interval ∧
    (s.resolutionOutcome n r o).choices = s.choices ∧ (s.resolutionOutcome n r o).pending = s.pending ∧
    (s.resolutionOutcome n r o).loop.link = s.loop.link ∧
    (s.resolutionOutcome n r o).loop.silence = s.loop.silence ∧
    (s.resolutionOutcome n r o).loop.training = s.loop.training ∧
    (s.resolutionOutcome n r o).loop.badRun = s.loop.badRun ∧
    (s.resolutionOutcome n r o).loop.downByLoss = s.loop.downByLoss ∧
    (s.resolutionOutcome n r o).loop.crcErrors = s.loop.crcErrors ∧
    (s.resolutionOutcome n r o).loop.orphans = s.loop.orphans ∧
    (s.resolutionOutcome n r o).loop.transitDrops = s.loop.transitDrops ∧
    (s.resolutionOutcome n r o).mgmt.shadows = s.mgmt.shadows ∧
    (s.resolutionOutcome n r o).mgmt.enables = s.mgmt.enables ∧
    (s.resolutionOutcome n r o).mgmt.overruns = s.mgmt.overruns := by
  simp only [State.resolutionOutcome]
  (repeat' split) <;> simp

@[simp] theorem State.grantOutcome_frame (s : State) (n : LaneId) (r : Record) (o : WriteOutcome) :
    (s.grantOutcome n r o).ownAddress = s.ownAddress ∧ (s.grantOutcome n r o).ms = s.ms ∧
    (s.grantOutcome n r o).freeFlowPin = s.freeFlowPin ∧
    (s.grantOutcome n r o).freeFlowSetting = s.freeFlowSetting ∧
    (s.grantOutcome n r o).tables = s.tables ∧ (s.grantOutcome n r o).maze.gate = s.maze.gate ∧
    (s.grantOutcome n r o).maze.liftRun = s.maze.liftRun ∧
    (s.grantOutcome n r o).maze.loadingHold = s.maze.loadingHold ∧
    (s.grantOutcome n r o).maze.window = s.maze.window ∧
    (s.grantOutcome n r o).maze.day = s.maze.day ∧ (s.grantOutcome n r o).maze.interval = s.maze.interval ∧
    (s.grantOutcome n r o).time = s.time ∧ (s.grantOutcome n r o).loop = s.loop ∧
    (s.grantOutcome n r o).choices = s.choices ∧ (s.grantOutcome n r o).pending = s.pending ∧
    (s.grantOutcome n r o).mgmt.shadows = s.mgmt.shadows ∧
    (s.grantOutcome n r o).mgmt.enables = s.mgmt.enables ∧
    (s.grantOutcome n r o).mgmt.overruns = s.mgmt.overruns := by
  simp only [State.grantOutcome]
  (repeat' split) <;> simp

@[simp] theorem State.fillReservation_frame (s : State) (o : Outgoing) :
    (s.fillReservation o).ownAddress = s.ownAddress ∧ (s.fillReservation o).ms = s.ms ∧
    (s.fillReservation o).freeFlowPin = s.freeFlowPin ∧
    (s.fillReservation o).freeFlowSetting = s.freeFlowSetting ∧
    (s.fillReservation o).heldOrder = s.heldOrder ∧ (s.fillReservation o).tables = s.tables ∧
    (s.fillReservation o).lanes = s.lanes ∧ (s.fillReservation o).ports = s.ports ∧
    (s.fillReservation o).passback = s.passback ∧ (s.fillReservation o).maze = s.maze ∧
    (s.fillReservation o).deferred = s.deferred ∧ (s.fillReservation o).time = s.time ∧
    (s.fillReservation o).mgmt = s.mgmt ∧
    (s.fillReservation o).choices = s.choices ∧ (s.fillReservation o).pending = s.pending ∧
    (s.fillReservation o).loop.link = s.loop.link ∧ (s.fillReservation o).loop.silence = s.loop.silence ∧
    (s.fillReservation o).loop.training = s.loop.training ∧
    (s.fillReservation o).loop.badRun = s.loop.badRun ∧
    (s.fillReservation o).loop.downByLoss = s.loop.downByLoss ∧
    (s.fillReservation o).loop.crcErrors = s.loop.crcErrors ∧
    (s.fillReservation o).loop.orphans = s.loop.orphans ∧
    (s.fillReservation o).loop.transitDrops = s.loop.transitDrops := by
  simp only [State.fillReservation]
  (repeat' split) <;> simp

@[simp] theorem State.settlementOutcome_frame (s : State) (n : LaneId) (r : Record) (o : WriteOutcome) :
    (s.settlementOutcome n r o).ownAddress = s.ownAddress ∧ (s.settlementOutcome n r o).ms = s.ms ∧
    (s.settlementOutcome n r o).freeFlowPin = s.freeFlowPin ∧
    (s.settlementOutcome n r o).freeFlowSetting = s.freeFlowSetting ∧
    (s.settlementOutcome n r o).tables = s.tables ∧ (s.settlementOutcome n r o).passback = s.passback ∧
    (s.settlementOutcome n r o).maze.gate = s.maze.gate ∧
    (s.settlementOutcome n r o).maze.liftRun = s.maze.liftRun ∧
    (s.settlementOutcome n r o).maze.loadingHold = s.maze.loadingHold ∧
    (s.settlementOutcome n r o).maze.window = s.maze.window ∧
    (s.settlementOutcome n r o).maze.day = s.maze.day ∧
    (s.settlementOutcome n r o).maze.interval = s.maze.interval ∧
    (s.settlementOutcome n r o).choices = s.choices ∧
    (s.settlementOutcome n r o).pending = s.pending ∧
    (s.settlementOutcome n r o).loop.link = s.loop.link ∧
    (s.settlementOutcome n r o).loop.silence = s.loop.silence ∧
    (s.settlementOutcome n r o).loop.training = s.loop.training ∧
    (s.settlementOutcome n r o).loop.badRun = s.loop.badRun ∧
    (s.settlementOutcome n r o).loop.downByLoss = s.loop.downByLoss ∧
    (s.settlementOutcome n r o).loop.crcErrors = s.loop.crcErrors ∧
    (s.settlementOutcome n r o).loop.orphans = s.loop.orphans ∧
    (s.settlementOutcome n r o).loop.transitDrops = s.loop.transitDrops ∧
    (s.settlementOutcome n r o).mgmt.shadows = s.mgmt.shadows ∧
    (s.settlementOutcome n r o).mgmt.enables = s.mgmt.enables ∧
    (s.settlementOutcome n r o).mgmt.overruns = s.mgmt.overruns := by
  simp only [State.settlementOutcome]
  (repeat' split) <;> simp

@[simp] theorem State.deliverOutcome_frame (s : State) (n : LaneId) (w : WriteRequest) (o : WriteOutcome) :
    (s.deliverOutcome n w o).ownAddress = s.ownAddress ∧ (s.deliverOutcome n w o).ms = s.ms ∧
    (s.deliverOutcome n w o).freeFlowPin = s.freeFlowPin ∧
    (s.deliverOutcome n w o).freeFlowSetting = s.freeFlowSetting ∧
    (s.deliverOutcome n w o).tables = s.tables ∧ (s.deliverOutcome n w o).maze.gate = s.maze.gate ∧
    (s.deliverOutcome n w o).maze.liftRun = s.maze.liftRun ∧
    (s.deliverOutcome n w o).maze.loadingHold = s.maze.loadingHold ∧
    (s.deliverOutcome n w o).maze.window = s.maze.window ∧
    (s.deliverOutcome n w o).maze.day = s.maze.day ∧
    (s.deliverOutcome n w o).maze.interval = s.maze.interval ∧
    (s.deliverOutcome n w o).choices = s.choices ∧ (s.deliverOutcome n w o).pending = s.pending ∧
    (s.deliverOutcome n w o).loop.link = s.loop.link ∧
    (s.deliverOutcome n w o).loop.silence = s.loop.silence ∧
    (s.deliverOutcome n w o).loop.training = s.loop.training ∧
    (s.deliverOutcome n w o).loop.badRun = s.loop.badRun ∧
    (s.deliverOutcome n w o).loop.downByLoss = s.loop.downByLoss ∧
    (s.deliverOutcome n w o).loop.crcErrors = s.loop.crcErrors ∧
    (s.deliverOutcome n w o).loop.orphans = s.loop.orphans ∧
    (s.deliverOutcome n w o).loop.transitDrops = s.loop.transitDrops ∧
    (s.deliverOutcome n w o).mgmt.shadows = s.mgmt.shadows ∧
    (s.deliverOutcome n w o).mgmt.enables = s.mgmt.enables ∧
    (s.deliverOutcome n w o).mgmt.overruns = s.mgmt.overruns := by
  simp only [State.deliverOutcome]
  (repeat' split) <;> simp

@[simp] theorem State.endWrite_frame (s : State) (n : LaneId) (w : WriteRequest) (o : WriteOutcome) :
    (s.endWrite n w o).ownAddress = s.ownAddress ∧ (s.endWrite n w o).ms = s.ms ∧
    (s.endWrite n w o).freeFlowPin = s.freeFlowPin ∧
    (s.endWrite n w o).freeFlowSetting = s.freeFlowSetting ∧ (s.endWrite n w o).tables = s.tables ∧
    (s.endWrite n w o).maze.gate = s.maze.gate ∧ (s.endWrite n w o).maze.liftRun = s.maze.liftRun ∧
    (s.endWrite n w o).maze.loadingHold = s.maze.loadingHold ∧
    (s.endWrite n w o).maze.window = s.maze.window ∧
    (s.endWrite n w o).maze.day = s.maze.day ∧ (s.endWrite n w o).maze.interval = s.maze.interval ∧
    (s.endWrite n w o).choices = s.choices ∧
    (s.endWrite n w o).pending = s.pending ∧ (s.endWrite n w o).loop.link = s.loop.link ∧
    (s.endWrite n w o).loop.silence = s.loop.silence ∧
    (s.endWrite n w o).loop.training = s.loop.training ∧
    (s.endWrite n w o).loop.badRun = s.loop.badRun ∧
    (s.endWrite n w o).loop.downByLoss = s.loop.downByLoss ∧
    (s.endWrite n w o).loop.crcErrors = s.loop.crcErrors ∧
    (s.endWrite n w o).loop.orphans = s.loop.orphans ∧
    (s.endWrite n w o).loop.transitDrops = s.loop.transitDrops ∧
    (s.endWrite n w o).mgmt.shadows = s.mgmt.shadows ∧
    (s.endWrite n w o).mgmt.enables = s.mgmt.enables ∧
    (s.endWrite n w o).mgmt.overruns = s.mgmt.overruns := by
  simp only [State.endWrite]
  simp

@[simp] theorem State.readerDown_frame (s : State) (n : LaneId) :
    (s.readerDown n).ownAddress = s.ownAddress ∧ (s.readerDown n).ms = s.ms ∧
    (s.readerDown n).freeFlowPin = s.freeFlowPin ∧
    (s.readerDown n).freeFlowSetting = s.freeFlowSetting ∧ (s.readerDown n).tables = s.tables ∧
    (s.readerDown n).deferred = s.deferred ∧ (s.readerDown n).time = s.time ∧
    (s.readerDown n).loop = s.loop ∧ (s.readerDown n).choices = s.choices ∧
    (s.readerDown n).pending = s.pending ∧ (s.readerDown n).mgmt.shadows = s.mgmt.shadows ∧
    (s.readerDown n).mgmt.enables = s.mgmt.enables ∧ (s.readerDown n).mgmt.overruns = s.mgmt.overruns := by
  simp only [State.readerDown]
  (repeat' split) <;> simp

@[simp] theorem State.readerUpEvent_frame (s : State) (n : LaneId) :
    (s.readerUpEvent n).ownAddress = s.ownAddress ∧ (s.readerUpEvent n).ms = s.ms ∧
    (s.readerUpEvent n).freeFlowPin = s.freeFlowPin ∧
    (s.readerUpEvent n).freeFlowSetting = s.freeFlowSetting ∧
    (s.readerUpEvent n).heldOrder = s.heldOrder ∧ (s.readerUpEvent n).tables = s.tables ∧
    (s.readerUpEvent n).ports = s.ports ∧ (s.readerUpEvent n).passback = s.passback ∧
    (s.readerUpEvent n).maze = s.maze ∧ (s.readerUpEvent n).deferred = s.deferred ∧
    (s.readerUpEvent n).time = s.time ∧ (s.readerUpEvent n).loop = s.loop ∧
    (s.readerUpEvent n).choices = s.choices ∧ (s.readerUpEvent n).pending = s.pending ∧
    (s.readerUpEvent n).mgmt.shadows = s.mgmt.shadows ∧
    (s.readerUpEvent n).mgmt.enables = s.mgmt.enables ∧
    (s.readerUpEvent n).mgmt.overruns = s.mgmt.overruns := by
  simp only [State.readerUpEvent]
  (repeat' split) <;> simp

@[simp] theorem State.setReaderStatus_frame (s : State) (n : LaneId) (x : ReaderStatus) :
    (s.setReaderStatus n x).ownAddress = s.ownAddress ∧ (s.setReaderStatus n x).ms = s.ms ∧
    (s.setReaderStatus n x).freeFlowPin = s.freeFlowPin ∧
    (s.setReaderStatus n x).freeFlowSetting = s.freeFlowSetting ∧
    (s.setReaderStatus n x).tables = s.tables ∧ (s.setReaderStatus n x).deferred = s.deferred ∧
    (s.setReaderStatus n x).time = s.time ∧ (s.setReaderStatus n x).loop = s.loop ∧
    (s.setReaderStatus n x).choices = s.choices ∧ (s.setReaderStatus n x).pending = s.pending ∧
    (s.setReaderStatus n x).mgmt.shadows = s.mgmt.shadows ∧
    (s.setReaderStatus n x).mgmt.enables = s.mgmt.enables ∧
    (s.setReaderStatus n x).mgmt.overruns = s.mgmt.overruns := by
  simp only [State.setReaderStatus]
  (repeat' split) <;> simp

@[simp] theorem State.givePlaces_frame (k : Nat) (s : State) :
    (State.givePlaces k s).ownAddress = s.ownAddress ∧ (State.givePlaces k s).ms = s.ms ∧
    (State.givePlaces k s).freeFlowPin = s.freeFlowPin ∧
    (State.givePlaces k s).freeFlowSetting = s.freeFlowSetting ∧
    (State.givePlaces k s).tables = s.tables ∧ (State.givePlaces k s).maze.gate = s.maze.gate ∧
    (State.givePlaces k s).maze.liftRun = s.maze.liftRun ∧
    (State.givePlaces k s).maze.loadingHold = s.maze.loadingHold ∧
    (State.givePlaces k s).maze.window = s.maze.window ∧
    (State.givePlaces k s).maze.day = s.maze.day ∧ (State.givePlaces k s).maze.interval = s.maze.interval ∧
    (State.givePlaces k s).deferred = s.deferred ∧ (State.givePlaces k s).time = s.time ∧
    (State.givePlaces k s).loop = s.loop ∧ (State.givePlaces k s).choices = s.choices ∧
    (State.givePlaces k s).pending = s.pending ∧ (State.givePlaces k s).mgmt.shadows = s.mgmt.shadows ∧
    (State.givePlaces k s).mgmt.enables = s.mgmt.enables ∧
    (State.givePlaces k s).mgmt.overruns = s.mgmt.overruns := by
  induction k generalizing s with
  | zero => simp [State.givePlaces]
  | succ k ih =>
    simp only [State.givePlaces]
    (repeat' split) <;> simp [ih]

@[simp] theorem State.checkMazeFull_frame (s : State) (b : State) :
    (s.checkMazeFull b).ownAddress = s.ownAddress ∧ (s.checkMazeFull b).ms = s.ms ∧
    (s.checkMazeFull b).freeFlowPin = s.freeFlowPin ∧
    (s.checkMazeFull b).freeFlowSetting = s.freeFlowSetting ∧
    (s.checkMazeFull b).heldOrder = s.heldOrder ∧ (s.checkMazeFull b).tables = s.tables ∧
    (s.checkMazeFull b).lanes = s.lanes ∧ (s.checkMazeFull b).ports = s.ports ∧
    (s.checkMazeFull b).passback = s.passback ∧ (s.checkMazeFull b).maze = s.maze ∧
    (s.checkMazeFull b).deferred = s.deferred ∧ (s.checkMazeFull b).time = s.time ∧
    (s.checkMazeFull b).loop = s.loop ∧ (s.checkMazeFull b).choices = s.choices ∧
    (s.checkMazeFull b).pending = s.pending ∧ (s.checkMazeFull b).mgmt.shadows = s.mgmt.shadows ∧
    (s.checkMazeFull b).mgmt.enables = s.mgmt.enables ∧
    (s.checkMazeFull b).mgmt.overruns = s.mgmt.overruns := by
  simp only [State.checkMazeFull]
  (repeat' split) <;> simp

@[simp] theorem State.finish_frame (s : State) (b : State) :
    (s.finish b).ownAddress = s.ownAddress ∧ (s.finish b).ms = s.ms ∧
    (s.finish b).freeFlowPin = s.freeFlowPin ∧ (s.finish b).freeFlowSetting = s.freeFlowSetting ∧
    (s.finish b).tables = s.tables ∧ (s.finish b).maze.gate = s.maze.gate ∧
    (s.finish b).maze.liftRun = s.maze.liftRun ∧
    (s.finish b).maze.loadingHold = s.maze.loadingHold ∧ (s.finish b).maze.window = s.maze.window ∧
    (s.finish b).maze.day = s.maze.day ∧ (s.finish b).maze.interval = s.maze.interval ∧
    (s.finish b).deferred = s.deferred ∧
    (s.finish b).time = s.time ∧ (s.finish b).pending = s.pending ∧
    (s.finish b).loop.link = s.loop.link ∧ (s.finish b).loop.silence = s.loop.silence ∧
    (s.finish b).loop.training = s.loop.training ∧ (s.finish b).loop.badRun = s.loop.badRun ∧
    (s.finish b).loop.downByLoss = s.loop.downByLoss ∧ (s.finish b).loop.crcErrors = s.loop.crcErrors ∧
    (s.finish b).loop.orphans = s.loop.orphans ∧ (s.finish b).loop.transitDrops = s.loop.transitDrops ∧
    (s.finish b).mgmt.shadows = s.mgmt.shadows ∧ (s.finish b).mgmt.enables = s.mgmt.enables ∧
    (s.finish b).mgmt.overruns = s.mgmt.overruns := by
  simp only [State.finish]
  simp

@[simp] theorem State.answerCard_frame (s : State) (n : LaneId) (d : Display) :
    (s.answerCard n d).ownAddress = s.ownAddress ∧ (s.answerCard n d).ms = s.ms ∧
    (s.answerCard n d).freeFlowPin = s.freeFlowPin ∧
    (s.answerCard n d).freeFlowSetting = s.freeFlowSetting ∧
    (s.answerCard n d).heldOrder = s.heldOrder ∧ (s.answerCard n d).tables = s.tables ∧
    (s.answerCard n d).lanes = s.lanes ∧ (s.answerCard n d).passback = s.passback ∧
    (s.answerCard n d).maze = s.maze ∧ (s.answerCard n d).deferred = s.deferred ∧
    (s.answerCard n d).time = s.time ∧ (s.answerCard n d).loop = s.loop ∧
    (s.answerCard n d).mgmt = s.mgmt ∧ (s.answerCard n d).choices = s.choices ∧
    (s.answerCard n d).pending = s.pending := by
  simp only [State.answerCard]
  simp

@[simp] theorem State.answerGranted_frame (s : State) (n : LaneId) (x : Serial) :
    (s.answerGranted n x).ownAddress = s.ownAddress ∧ (s.answerGranted n x).ms = s.ms ∧
    (s.answerGranted n x).freeFlowPin = s.freeFlowPin ∧
    (s.answerGranted n x).freeFlowSetting = s.freeFlowSetting ∧
    (s.answerGranted n x).heldOrder = s.heldOrder ∧ (s.answerGranted n x).tables = s.tables ∧
    (s.answerGranted n x).lanes = s.lanes ∧ (s.answerGranted n x).passback = s.passback ∧
    (s.answerGranted n x).maze = s.maze ∧ (s.answerGranted n x).deferred = s.deferred ∧
    (s.answerGranted n x).time = s.time ∧ (s.answerGranted n x).loop = s.loop ∧
    (s.answerGranted n x).mgmt = s.mgmt ∧ (s.answerGranted n x).choices = s.choices ∧
    (s.answerGranted n x).pending = s.pending := by
  simp only [State.answerGranted]
  (repeat' split) <;> simp

@[simp] theorem State.takeCard_frame (s : State) (n : LaneId) (x : Serial) (r : Record) :
    (s.takeCard n x r).ownAddress = s.ownAddress ∧ (s.takeCard n x r).ms = s.ms ∧
    (s.takeCard n x r).freeFlowPin = s.freeFlowPin ∧
    (s.takeCard n x r).freeFlowSetting = s.freeFlowSetting ∧ (s.takeCard n x r).tables = s.tables ∧
    (s.takeCard n x r).maze.gate = s.maze.gate ∧ (s.takeCard n x r).maze.liftRun = s.maze.liftRun ∧
    (s.takeCard n x r).maze.loadingHold = s.maze.loadingHold ∧
    (s.takeCard n x r).maze.window = s.maze.window ∧
    (s.takeCard n x r).maze.day = s.maze.day ∧ (s.takeCard n x r).maze.interval = s.maze.interval ∧
    (s.takeCard n x r).choices = s.choices ∧
    (s.takeCard n x r).pending = s.pending ∧ (s.takeCard n x r).loop.link = s.loop.link ∧
    (s.takeCard n x r).loop.silence = s.loop.silence ∧
    (s.takeCard n x r).loop.training = s.loop.training ∧
    (s.takeCard n x r).loop.badRun = s.loop.badRun ∧
    (s.takeCard n x r).loop.downByLoss = s.loop.downByLoss ∧
    (s.takeCard n x r).loop.crcErrors = s.loop.crcErrors ∧
    (s.takeCard n x r).loop.orphans = s.loop.orphans ∧
    (s.takeCard n x r).loop.transitDrops = s.loop.transitDrops ∧
    (s.takeCard n x r).mgmt.shadows = s.mgmt.shadows ∧
    (s.takeCard n x r).mgmt.enables = s.mgmt.enables ∧
    (s.takeCard n x r).mgmt.overruns = s.mgmt.overruns := by
  simp only [State.takeCard]
  simp

@[simp] theorem State.presentCard_frame (s : State) (n : LaneId) (x : Serial) (r : Record) :
    (s.presentCard n x r).ownAddress = s.ownAddress ∧ (s.presentCard n x r).ms = s.ms ∧
    (s.presentCard n x r).freeFlowPin = s.freeFlowPin ∧
    (s.presentCard n x r).freeFlowSetting = s.freeFlowSetting ∧
    (s.presentCard n x r).tables = s.tables ∧ (s.presentCard n x r).maze.gate = s.maze.gate ∧
    (s.presentCard n x r).maze.liftRun = s.maze.liftRun ∧
    (s.presentCard n x r).maze.loadingHold = s.maze.loadingHold ∧
    (s.presentCard n x r).maze.window = s.maze.window ∧
    (s.presentCard n x r).maze.day = s.maze.day ∧ (s.presentCard n x r).maze.interval = s.maze.interval ∧
    (s.presentCard n x r).choices = s.choices ∧ (s.presentCard n x r).pending = s.pending ∧
    (s.presentCard n x r).loop.link = s.loop.link ∧
    (s.presentCard n x r).loop.silence = s.loop.silence ∧
    (s.presentCard n x r).loop.training = s.loop.training ∧
    (s.presentCard n x r).loop.badRun = s.loop.badRun ∧
    (s.presentCard n x r).loop.downByLoss = s.loop.downByLoss ∧
    (s.presentCard n x r).loop.crcErrors = s.loop.crcErrors ∧
    (s.presentCard n x r).loop.orphans = s.loop.orphans ∧
    (s.presentCard n x r).loop.transitDrops = s.loop.transitDrops ∧
    (s.presentCard n x r).mgmt.shadows = s.mgmt.shadows ∧
    (s.presentCard n x r).mgmt.enables = s.mgmt.enables ∧
    (s.presentCard n x r).mgmt.overruns = s.mgmt.overruns := by
  simp only [State.presentCard]
  (repeat' split) <;> simp

@[simp] theorem State.cardGone_frame (s : State) (n : LaneId) (x : Serial) :
    (s.cardGone n x).ownAddress = s.ownAddress ∧ (s.cardGone n x).ms = s.ms ∧
    (s.cardGone n x).freeFlowPin = s.freeFlowPin ∧
    (s.cardGone n x).freeFlowSetting = s.freeFlowSetting ∧ (s.cardGone n x).tables = s.tables ∧
    (s.cardGone n x).passback = s.passback ∧ (s.cardGone n x).maze.gate = s.maze.gate ∧
    (s.cardGone n x).maze.liftRun = s.maze.liftRun ∧
    (s.cardGone n x).maze.loadingHold = s.maze.loadingHold ∧ (s.cardGone n x).maze.window = s.maze.window ∧
    (s.cardGone n x).maze.day = s.maze.day ∧ (s.cardGone n x).maze.interval = s.maze.interval ∧
    (s.cardGone n x).deferred = s.deferred ∧ (s.cardGone n x).time = s.time ∧
    (s.cardGone n x).loop = s.loop ∧ (s.cardGone n x).choices = s.choices ∧
    (s.cardGone n x).pending = s.pending ∧ (s.cardGone n x).mgmt.shadows = s.mgmt.shadows ∧
    (s.cardGone n x).mgmt.enables = s.mgmt.enables ∧ (s.cardGone n x).mgmt.overruns = s.mgmt.overruns := by
  simp only [State.cardGone]
  (repeat' split) <;> simp

@[simp] theorem State.writeResult_frame (s : State) (n : LaneId) (x : Serial) (o : WriteOutcome) :
    (s.writeResult n x o).ownAddress = s.ownAddress ∧ (s.writeResult n x o).ms = s.ms ∧
    (s.writeResult n x o).freeFlowPin = s.freeFlowPin ∧
    (s.writeResult n x o).freeFlowSetting = s.freeFlowSetting ∧
    (s.writeResult n x o).tables = s.tables ∧ (s.writeResult n x o).maze.gate = s.maze.gate ∧
    (s.writeResult n x o).maze.liftRun = s.maze.liftRun ∧
    (s.writeResult n x o).maze.loadingHold = s.maze.loadingHold ∧
    (s.writeResult n x o).maze.window = s.maze.window ∧
    (s.writeResult n x o).maze.day = s.maze.day ∧ (s.writeResult n x o).maze.interval = s.maze.interval ∧
    (s.writeResult n x o).choices = s.choices ∧ (s.writeResult n x o).pending = s.pending ∧
    (s.writeResult n x o).loop.link = s.loop.link ∧
    (s.writeResult n x o).loop.silence = s.loop.silence ∧
    (s.writeResult n x o).loop.training = s.loop.training ∧
    (s.writeResult n x o).loop.badRun = s.loop.badRun ∧
    (s.writeResult n x o).loop.downByLoss = s.loop.downByLoss ∧
    (s.writeResult n x o).loop.crcErrors = s.loop.crcErrors ∧
    (s.writeResult n x o).loop.orphans = s.loop.orphans ∧
    (s.writeResult n x o).loop.transitDrops = s.loop.transitDrops ∧
    (s.writeResult n x o).mgmt.shadows = s.mgmt.shadows ∧
    (s.writeResult n x o).mgmt.enables = s.mgmt.enables ∧
    (s.writeResult n x o).mgmt.overruns = s.mgmt.overruns := by
  simp only [State.writeResult]
  (repeat' split) <;> simp

@[simp] theorem State.writeTimeout_frame (s : State) (n : LaneId) :
    (s.writeTimeout n).ownAddress = s.ownAddress ∧ (s.writeTimeout n).ms = s.ms ∧
    (s.writeTimeout n).freeFlowPin = s.freeFlowPin ∧
    (s.writeTimeout n).freeFlowSetting = s.freeFlowSetting ∧ (s.writeTimeout n).tables = s.tables ∧
    (s.writeTimeout n).maze.gate = s.maze.gate ∧ (s.writeTimeout n).maze.liftRun = s.maze.liftRun ∧
    (s.writeTimeout n).maze.loadingHold = s.maze.loadingHold ∧
    (s.writeTimeout n).maze.window = s.maze.window ∧
    (s.writeTimeout n).maze.day = s.maze.day ∧ (s.writeTimeout n).maze.interval = s.maze.interval ∧
    (s.writeTimeout n).choices = s.choices ∧
    (s.writeTimeout n).pending = s.pending ∧ (s.writeTimeout n).loop.link = s.loop.link ∧
    (s.writeTimeout n).loop.silence = s.loop.silence ∧
    (s.writeTimeout n).loop.training = s.loop.training ∧
    (s.writeTimeout n).loop.badRun = s.loop.badRun ∧
    (s.writeTimeout n).loop.downByLoss = s.loop.downByLoss ∧
    (s.writeTimeout n).loop.crcErrors = s.loop.crcErrors ∧
    (s.writeTimeout n).loop.orphans = s.loop.orphans ∧
    (s.writeTimeout n).loop.transitDrops = s.loop.transitDrops ∧
    (s.writeTimeout n).mgmt.shadows = s.mgmt.shadows ∧
    (s.writeTimeout n).mgmt.enables = s.mgmt.enables ∧
    (s.writeTimeout n).mgmt.overruns = s.mgmt.overruns := by
  simp only [State.writeTimeout]
  (repeat' split) <;> simp

@[simp] theorem State.goodBeat_frame (s : State) (n : LaneId) (b : Bool) :
    (s.goodBeat n b).ownAddress = s.ownAddress ∧ (s.goodBeat n b).ms = s.ms ∧
    (s.goodBeat n b).freeFlowPin = s.freeFlowPin ∧
    (s.goodBeat n b).freeFlowSetting = s.freeFlowSetting ∧ (s.goodBeat n b).tables = s.tables ∧
    (s.goodBeat n b).deferred = s.deferred ∧ (s.goodBeat n b).time = s.time ∧
    (s.goodBeat n b).loop = s.loop ∧ (s.goodBeat n b).choices = s.choices ∧
    (s.goodBeat n b).pending = s.pending ∧ (s.goodBeat n b).mgmt.shadows = s.mgmt.shadows ∧
    (s.goodBeat n b).mgmt.enables = s.mgmt.enables ∧ (s.goodBeat n b).mgmt.overruns = s.mgmt.overruns := by
  simp only [State.goodBeat]
  (repeat' split) <;> simp

@[simp] theorem State.heartbeatLost_frame (s : State) (n : LaneId) :
    (s.heartbeatLost n).ownAddress = s.ownAddress ∧ (s.heartbeatLost n).ms = s.ms ∧
    (s.heartbeatLost n).freeFlowPin = s.freeFlowPin ∧
    (s.heartbeatLost n).freeFlowSetting = s.freeFlowSetting ∧ (s.heartbeatLost n).tables = s.tables ∧
    (s.heartbeatLost n).deferred = s.deferred ∧ (s.heartbeatLost n).time = s.time ∧
    (s.heartbeatLost n).loop = s.loop ∧ (s.heartbeatLost n).choices = s.choices ∧
    (s.heartbeatLost n).pending = s.pending ∧ (s.heartbeatLost n).mgmt.shadows = s.mgmt.shadows ∧
    (s.heartbeatLost n).mgmt.enables = s.mgmt.enables ∧
    (s.heartbeatLost n).mgmt.overruns = s.mgmt.overruns := by
  simp only [State.heartbeatLost]
  (repeat' split) <;> simp

@[simp] theorem State.setArm_frame (s : State) (n : LaneId) (a : Arm) :
    (s.setArm n a).ownAddress = s.ownAddress ∧ (s.setArm n a).ms = s.ms ∧
    (s.setArm n a).freeFlowPin = s.freeFlowPin ∧ (s.setArm n a).freeFlowSetting = s.freeFlowSetting ∧
    (s.setArm n a).heldOrder = s.heldOrder ∧ (s.setArm n a).tables = s.tables ∧
    (s.setArm n a).ports = s.ports ∧ (s.setArm n a).passback = s.passback ∧
    (s.setArm n a).maze = s.maze ∧ (s.setArm n a).deferred = s.deferred ∧
    (s.setArm n a).time = s.time ∧ (s.setArm n a).loop = s.loop ∧ (s.setArm n a).mgmt = s.mgmt ∧
    (s.setArm n a).choices = s.choices ∧ (s.setArm n a).pending = s.pending := by
  simp only [State.setArm]
  simp

@[simp] theorem State.beginRotation_frame (s : State) (n : LaneId) (f : Bool) :
    (s.beginRotation n f).ownAddress = s.ownAddress ∧ (s.beginRotation n f).ms = s.ms ∧
    (s.beginRotation n f).freeFlowPin = s.freeFlowPin ∧
    (s.beginRotation n f).freeFlowSetting = s.freeFlowSetting ∧
    (s.beginRotation n f).heldOrder = s.heldOrder ∧ (s.beginRotation n f).tables = s.tables ∧
    (s.beginRotation n f).ports = s.ports ∧ (s.beginRotation n f).passback = s.passback ∧
    (s.beginRotation n f).maze = s.maze ∧ (s.beginRotation n f).deferred = s.deferred ∧
    (s.beginRotation n f).time = s.time ∧ (s.beginRotation n f).loop = s.loop ∧
    (s.beginRotation n f).mgmt = s.mgmt ∧ (s.beginRotation n f).choices = s.choices ∧
    (s.beginRotation n f).pending = s.pending := by
  simp only [State.beginRotation]
  (repeat' split) <;> simp

@[simp] theorem State.closeTrailWindow_frame (s : State) (n : LaneId) :
    (s.closeTrailWindow n).ownAddress = s.ownAddress ∧ (s.closeTrailWindow n).ms = s.ms ∧
    (s.closeTrailWindow n).freeFlowPin = s.freeFlowPin ∧
    (s.closeTrailWindow n).freeFlowSetting = s.freeFlowSetting ∧
    (s.closeTrailWindow n).tables = s.tables ∧ (s.closeTrailWindow n).deferred = s.deferred ∧
    (s.closeTrailWindow n).time = s.time ∧ (s.closeTrailWindow n).choices = s.choices ∧
    (s.closeTrailWindow n).pending = s.pending ∧ (s.closeTrailWindow n).loop.link = s.loop.link ∧
    (s.closeTrailWindow n).loop.silence = s.loop.silence ∧
    (s.closeTrailWindow n).loop.training = s.loop.training ∧
    (s.closeTrailWindow n).loop.badRun = s.loop.badRun ∧
    (s.closeTrailWindow n).loop.downByLoss = s.loop.downByLoss ∧
    (s.closeTrailWindow n).loop.crcErrors = s.loop.crcErrors ∧
    (s.closeTrailWindow n).loop.orphans = s.loop.orphans ∧
    (s.closeTrailWindow n).loop.transitDrops = s.loop.transitDrops ∧
    (s.closeTrailWindow n).mgmt.shadows = s.mgmt.shadows ∧
    (s.closeTrailWindow n).mgmt.enables = s.mgmt.enables ∧
    (s.closeTrailWindow n).mgmt.overruns = s.mgmt.overruns := by
  simp only [State.closeTrailWindow]
  (repeat' split) <;> simp

@[simp] theorem State.forwardStart_frame (s : State) (n : LaneId) :
    (s.forwardStart n).ownAddress = s.ownAddress ∧ (s.forwardStart n).ms = s.ms ∧
    (s.forwardStart n).freeFlowPin = s.freeFlowPin ∧
    (s.forwardStart n).freeFlowSetting = s.freeFlowSetting ∧ (s.forwardStart n).tables = s.tables ∧
    (s.forwardStart n).deferred = s.deferred ∧ (s.forwardStart n).time = s.time ∧
    (s.forwardStart n).choices = s.choices ∧ (s.forwardStart n).pending = s.pending ∧
    (s.forwardStart n).loop.link = s.loop.link ∧ (s.forwardStart n).loop.silence = s.loop.silence ∧
    (s.forwardStart n).loop.training = s.loop.training ∧
    (s.forwardStart n).loop.badRun = s.loop.badRun ∧
    (s.forwardStart n).loop.downByLoss = s.loop.downByLoss ∧
    (s.forwardStart n).loop.crcErrors = s.loop.crcErrors ∧
    (s.forwardStart n).loop.orphans = s.loop.orphans ∧
    (s.forwardStart n).loop.transitDrops = s.loop.transitDrops ∧
    (s.forwardStart n).mgmt.shadows = s.mgmt.shadows ∧
    (s.forwardStart n).mgmt.enables = s.mgmt.enables ∧
    (s.forwardStart n).mgmt.overruns = s.mgmt.overruns := by
  simp only [State.forwardStart]
  (repeat' split) <;> simp

@[simp] theorem State.forcedPassage_frame (s : State) (n : LaneId) :
    (s.forcedPassage n).ownAddress = s.ownAddress ∧ (s.forcedPassage n).ms = s.ms ∧
    (s.forcedPassage n).freeFlowPin = s.freeFlowPin ∧
    (s.forcedPassage n).freeFlowSetting = s.freeFlowSetting ∧
    (s.forcedPassage n).heldOrder = s.heldOrder ∧ (s.forcedPassage n).tables = s.tables ∧
    (s.forcedPassage n).ports = s.ports ∧ (s.forcedPassage n).passback = s.passback ∧
    (s.forcedPassage n).deferred = s.deferred ∧ (s.forcedPassage n).time = s.time ∧
    (s.forcedPassage n).loop = s.loop ∧ (s.forcedPassage n).choices = s.choices ∧
    (s.forcedPassage n).pending = s.pending ∧ (s.forcedPassage n).mgmt.shadows = s.mgmt.shadows ∧
    (s.forcedPassage n).mgmt.enables = s.mgmt.enables ∧
    (s.forcedPassage n).mgmt.overruns = s.mgmt.overruns := by
  simp only [State.forcedPassage]
  simp

@[simp] theorem State.completeWindow_frame (s : State) (n : LaneId) :
    (s.completeWindow n).ownAddress = s.ownAddress ∧ (s.completeWindow n).ms = s.ms ∧
    (s.completeWindow n).freeFlowPin = s.freeFlowPin ∧
    (s.completeWindow n).freeFlowSetting = s.freeFlowSetting ∧
    (s.completeWindow n).heldOrder = s.heldOrder ∧ (s.completeWindow n).tables = s.tables ∧
    (s.completeWindow n).ports = s.ports ∧ (s.completeWindow n).passback = s.passback ∧
    (s.completeWindow n).deferred = s.deferred ∧ (s.completeWindow n).time = s.time ∧
    (s.completeWindow n).loop = s.loop ∧ (s.completeWindow n).choices = s.choices ∧
    (s.completeWindow n).pending = s.pending ∧ (s.completeWindow n).mgmt.shadows = s.mgmt.shadows ∧
    (s.completeWindow n).mgmt.enables = s.mgmt.enables ∧
    (s.completeWindow n).mgmt.overruns = s.mgmt.overruns := by
  simp only [State.completeWindow]
  (repeat' split) <;> simp

@[simp] theorem State.completeRotation_frame (s : State) (n : LaneId) :
    (s.completeRotation n).ownAddress = s.ownAddress ∧ (s.completeRotation n).ms = s.ms ∧
    (s.completeRotation n).freeFlowPin = s.freeFlowPin ∧
    (s.completeRotation n).freeFlowSetting = s.freeFlowSetting ∧
    (s.completeRotation n).heldOrder = s.heldOrder ∧ (s.completeRotation n).tables = s.tables ∧
    (s.completeRotation n).ports = s.ports ∧ (s.completeRotation n).passback = s.passback ∧
    (s.completeRotation n).deferred = s.deferred ∧ (s.completeRotation n).time = s.time ∧
    (s.completeRotation n).loop = s.loop ∧ (s.completeRotation n).choices = s.choices ∧
    (s.completeRotation n).pending = s.pending ∧ (s.completeRotation n).mgmt.shadows = s.mgmt.shadows ∧
    (s.completeRotation n).mgmt.enables = s.mgmt.enables ∧
    (s.completeRotation n).mgmt.overruns = s.mgmt.overruns := by
  simp only [State.completeRotation]
  (repeat' split) <;> simp

@[simp] theorem State.forwardDone_frame (s : State) (n : LaneId) :
    (s.forwardDone n).ownAddress = s.ownAddress ∧ (s.forwardDone n).ms = s.ms ∧
    (s.forwardDone n).freeFlowPin = s.freeFlowPin ∧
    (s.forwardDone n).freeFlowSetting = s.freeFlowSetting ∧ (s.forwardDone n).heldOrder = s.heldOrder ∧
    (s.forwardDone n).tables = s.tables ∧ (s.forwardDone n).ports = s.ports ∧
    (s.forwardDone n).passback = s.passback ∧ (s.forwardDone n).deferred = s.deferred ∧
    (s.forwardDone n).time = s.time ∧ (s.forwardDone n).loop = s.loop ∧
    (s.forwardDone n).choices = s.choices ∧ (s.forwardDone n).pending = s.pending ∧
    (s.forwardDone n).mgmt.shadows = s.mgmt.shadows ∧ (s.forwardDone n).mgmt.enables = s.mgmt.enables ∧
    (s.forwardDone n).mgmt.overruns = s.mgmt.overruns := by
  simp only [State.forwardDone]
  (repeat' split) <;> simp

@[simp] theorem State.reverseStart_frame (s : State) (n : LaneId) :
    (s.reverseStart n).ownAddress = s.ownAddress ∧ (s.reverseStart n).ms = s.ms ∧
    (s.reverseStart n).freeFlowPin = s.freeFlowPin ∧
    (s.reverseStart n).freeFlowSetting = s.freeFlowSetting ∧
    (s.reverseStart n).heldOrder = s.heldOrder ∧ (s.reverseStart n).tables = s.tables ∧
    (s.reverseStart n).ports = s.ports ∧ (s.reverseStart n).passback = s.passback ∧
    (s.reverseStart n).maze = s.maze ∧ (s.reverseStart n).deferred = s.deferred ∧
    (s.reverseStart n).time = s.time ∧ (s.reverseStart n).loop = s.loop ∧
    (s.reverseStart n).mgmt = s.mgmt ∧ (s.reverseStart n).choices = s.choices ∧
    (s.reverseStart n).pending = s.pending := by
  simp only [State.reverseStart]
  (repeat' split) <;> simp

@[simp] theorem State.reverseDone_frame (s : State) (n : LaneId) :
    (s.reverseDone n).ownAddress = s.ownAddress ∧ (s.reverseDone n).ms = s.ms ∧
    (s.reverseDone n).freeFlowPin = s.freeFlowPin ∧
    (s.reverseDone n).freeFlowSetting = s.freeFlowSetting ∧ (s.reverseDone n).heldOrder = s.heldOrder ∧
    (s.reverseDone n).tables = s.tables ∧ (s.reverseDone n).ports = s.ports ∧
    (s.reverseDone n).passback = s.passback ∧ (s.reverseDone n).deferred = s.deferred ∧
    (s.reverseDone n).time = s.time ∧ (s.reverseDone n).loop = s.loop ∧
    (s.reverseDone n).choices = s.choices ∧ (s.reverseDone n).pending = s.pending ∧
    (s.reverseDone n).mgmt.shadows = s.mgmt.shadows ∧ (s.reverseDone n).mgmt.enables = s.mgmt.enables ∧
    (s.reverseDone n).mgmt.overruns = s.mgmt.overruns := by
  simp only [State.reverseDone]
  (repeat' split) <;> simp

@[simp] theorem State.abandonRotation_frame (s : State) (n : LaneId) :
    (s.abandonRotation n).ownAddress = s.ownAddress ∧ (s.abandonRotation n).ms = s.ms ∧
    (s.abandonRotation n).freeFlowPin = s.freeFlowPin ∧
    (s.abandonRotation n).freeFlowSetting = s.freeFlowSetting ∧
    (s.abandonRotation n).tables = s.tables ∧ (s.abandonRotation n).deferred = s.deferred ∧
    (s.abandonRotation n).time = s.time ∧ (s.abandonRotation n).loop = s.loop ∧
    (s.abandonRotation n).choices = s.choices ∧ (s.abandonRotation n).pending = s.pending ∧
    (s.abandonRotation n).mgmt.shadows = s.mgmt.shadows ∧
    (s.abandonRotation n).mgmt.enables = s.mgmt.enables ∧
    (s.abandonRotation n).mgmt.overruns = s.mgmt.overruns := by
  simp only [State.abandonRotation]
  (repeat' split) <;> simp

@[simp] theorem State.armReturn_frame (s : State) (n : LaneId) :
    (s.armReturn n).ownAddress = s.ownAddress ∧ (s.armReturn n).ms = s.ms ∧
    (s.armReturn n).freeFlowPin = s.freeFlowPin ∧ (s.armReturn n).freeFlowSetting = s.freeFlowSetting ∧
    (s.armReturn n).tables = s.tables ∧ (s.armReturn n).deferred = s.deferred ∧
    (s.armReturn n).time = s.time ∧ (s.armReturn n).loop = s.loop ∧
    (s.armReturn n).choices = s.choices ∧ (s.armReturn n).pending = s.pending ∧
    (s.armReturn n).mgmt.shadows = s.mgmt.shadows ∧ (s.armReturn n).mgmt.enables = s.mgmt.enables ∧
    (s.armReturn n).mgmt.overruns = s.mgmt.overruns := by
  simp only [State.armReturn]
  (repeat' split) <;> simp

@[simp] theorem State.ticketBody_frame (s : State) (n : LaneId) :
    (s.ticketBody n).ownAddress = s.ownAddress ∧ (s.ticketBody n).ms = s.ms ∧
    (s.ticketBody n).freeFlowPin = s.freeFlowPin ∧
    (s.ticketBody n).freeFlowSetting = s.freeFlowSetting ∧ (s.ticketBody n).heldOrder = s.heldOrder ∧
    (s.ticketBody n).tables = s.tables ∧ (s.ticketBody n).ports = s.ports ∧
    (s.ticketBody n).passback = s.passback ∧ (s.ticketBody n).deferred = s.deferred ∧
    (s.ticketBody n).time = s.time ∧ (s.ticketBody n).loop = s.loop ∧ (s.ticketBody n).mgmt = s.mgmt ∧
    (s.ticketBody n).choices = s.choices ∧ (s.ticketBody n).pending = s.pending := by
  simp only [State.ticketBody]
  (repeat' split) <;> simp

@[simp] theorem State.laneBody_frame (s : State) (n : LaneId) :
    (s.laneBody n).ownAddress = s.ownAddress ∧ (s.laneBody n).ms = s.ms ∧
    (s.laneBody n).freeFlowPin = s.freeFlowPin ∧ (s.laneBody n).freeFlowSetting = s.freeFlowSetting ∧
    (s.laneBody n).heldOrder = s.heldOrder ∧ (s.laneBody n).tables = s.tables ∧
    (s.laneBody n).ports = s.ports ∧ (s.laneBody n).passback = s.passback ∧
    (s.laneBody n).deferred = s.deferred ∧ (s.laneBody n).time = s.time ∧
    (s.laneBody n).loop = s.loop ∧ (s.laneBody n).choices = s.choices ∧
    (s.laneBody n).pending = s.pending ∧ (s.laneBody n).mgmt.shadows = s.mgmt.shadows ∧
    (s.laneBody n).mgmt.enables = s.mgmt.enables ∧ (s.laneBody n).mgmt.overruns = s.mgmt.overruns := by
  simp only [State.laneBody]
  (repeat' split) <;> simp

@[simp] theorem State.grantTimeout_frame (s : State) (n : LaneId) :
    (s.grantTimeout n).ownAddress = s.ownAddress ∧ (s.grantTimeout n).ms = s.ms ∧
    (s.grantTimeout n).freeFlowPin = s.freeFlowPin ∧
    (s.grantTimeout n).freeFlowSetting = s.freeFlowSetting ∧ (s.grantTimeout n).tables = s.tables ∧
    (s.grantTimeout n).deferred = s.deferred ∧ (s.grantTimeout n).time = s.time ∧
    (s.grantTimeout n).loop = s.loop ∧ (s.grantTimeout n).choices = s.choices ∧
    (s.grantTimeout n).pending = s.pending ∧ (s.grantTimeout n).mgmt.shadows = s.mgmt.shadows ∧
    (s.grantTimeout n).mgmt.enables = s.mgmt.enables ∧
    (s.grantTimeout n).mgmt.overruns = s.mgmt.overruns := by
  simp only [State.grantTimeout]
  (repeat' split) <;> simp

@[simp] theorem State.trailTimeout_frame (s : State) (n : LaneId) :
    (s.trailTimeout n).ownAddress = s.ownAddress ∧ (s.trailTimeout n).ms = s.ms ∧
    (s.trailTimeout n).freeFlowPin = s.freeFlowPin ∧
    (s.trailTimeout n).freeFlowSetting = s.freeFlowSetting ∧ (s.trailTimeout n).tables = s.tables ∧
    (s.trailTimeout n).deferred = s.deferred ∧ (s.trailTimeout n).time = s.time ∧
    (s.trailTimeout n).choices = s.choices ∧ (s.trailTimeout n).pending = s.pending ∧
    (s.trailTimeout n).loop.link = s.loop.link ∧ (s.trailTimeout n).loop.silence = s.loop.silence ∧
    (s.trailTimeout n).loop.training = s.loop.training ∧
    (s.trailTimeout n).loop.badRun = s.loop.badRun ∧
    (s.trailTimeout n).loop.downByLoss = s.loop.downByLoss ∧
    (s.trailTimeout n).loop.crcErrors = s.loop.crcErrors ∧
    (s.trailTimeout n).loop.orphans = s.loop.orphans ∧
    (s.trailTimeout n).loop.transitDrops = s.loop.transitDrops ∧
    (s.trailTimeout n).mgmt.shadows = s.mgmt.shadows ∧
    (s.trailTimeout n).mgmt.enables = s.mgmt.enables ∧
    (s.trailTimeout n).mgmt.overruns = s.mgmt.overruns := by
  simp only [State.trailTimeout]
  (repeat' split) <;> simp

@[simp] theorem State.recoveryTimeout_frame (s : State) (n : LaneId) :
    (s.recoveryTimeout n).ownAddress = s.ownAddress ∧ (s.recoveryTimeout n).ms = s.ms ∧
    (s.recoveryTimeout n).freeFlowPin = s.freeFlowPin ∧
    (s.recoveryTimeout n).freeFlowSetting = s.freeFlowSetting ∧
    (s.recoveryTimeout n).heldOrder = s.heldOrder ∧ (s.recoveryTimeout n).tables = s.tables ∧
    (s.recoveryTimeout n).ports = s.ports ∧ (s.recoveryTimeout n).maze = s.maze ∧
    (s.recoveryTimeout n).deferred = s.deferred ∧ (s.recoveryTimeout n).time = s.time ∧
    (s.recoveryTimeout n).loop = s.loop ∧ (s.recoveryTimeout n).choices = s.choices ∧
    (s.recoveryTimeout n).pending = s.pending ∧ (s.recoveryTimeout n).mgmt.shadows = s.mgmt.shadows ∧
    (s.recoveryTimeout n).mgmt.enables = s.mgmt.enables ∧
    (s.recoveryTimeout n).mgmt.overruns = s.mgmt.overruns := by
  simp only [State.recoveryTimeout]
  (repeat' split) <;> simp

@[simp] theorem State.holdTimeout_frame (s : State) (n : LaneId) :
    (s.holdTimeout n).ownAddress = s.ownAddress ∧ (s.holdTimeout n).ms = s.ms ∧
    (s.holdTimeout n).freeFlowPin = s.freeFlowPin ∧
    (s.holdTimeout n).freeFlowSetting = s.freeFlowSetting ∧ (s.holdTimeout n).tables = s.tables ∧
    (s.holdTimeout n).passback = s.passback ∧ (s.holdTimeout n).maze.gate = s.maze.gate ∧
    (s.holdTimeout n).maze.liftRun = s.maze.liftRun ∧
    (s.holdTimeout n).maze.loadingHold = s.maze.loadingHold ∧ (s.holdTimeout n).maze.window = s.maze.window ∧
    (s.holdTimeout n).maze.day = s.maze.day ∧ (s.holdTimeout n).maze.interval = s.maze.interval ∧
    (s.holdTimeout n).deferred = s.deferred ∧ (s.holdTimeout n).time = s.time ∧
    (s.holdTimeout n).loop = s.loop ∧ (s.holdTimeout n).choices = s.choices ∧
    (s.holdTimeout n).pending = s.pending ∧ (s.holdTimeout n).mgmt.shadows = s.mgmt.shadows ∧
    (s.holdTimeout n).mgmt.enables = s.mgmt.enables ∧ (s.holdTimeout n).mgmt.overruns = s.mgmt.overruns := by
  simp only [State.holdTimeout]
  (repeat' split) <;> simp

@[simp] theorem State.closeChairWindow_frame (s : State) :
    s.closeChairWindow.ownAddress = s.ownAddress ∧ s.closeChairWindow.ms = s.ms ∧
    s.closeChairWindow.freeFlowPin = s.freeFlowPin ∧
    s.closeChairWindow.freeFlowSetting = s.freeFlowSetting ∧
    s.closeChairWindow.heldOrder = s.heldOrder ∧ s.closeChairWindow.tables = s.tables ∧
    s.closeChairWindow.lanes = s.lanes ∧ s.closeChairWindow.ports = s.ports ∧
    s.closeChairWindow.passback = s.passback ∧ s.closeChairWindow.deferred = s.deferred ∧
    s.closeChairWindow.time = s.time ∧ s.closeChairWindow.loop = s.loop ∧
    s.closeChairWindow.mgmt = s.mgmt ∧ s.closeChairWindow.choices = s.choices ∧
    s.closeChairWindow.pending = s.pending := by
  simp only [State.closeChairWindow]
  (repeat' split) <;> simp

@[simp] theorem State.openChairWindow_frame (s : State) :
    s.openChairWindow.ownAddress = s.ownAddress ∧ s.openChairWindow.ms = s.ms ∧
    s.openChairWindow.freeFlowPin = s.freeFlowPin ∧
    s.openChairWindow.freeFlowSetting = s.freeFlowSetting ∧ s.openChairWindow.heldOrder = s.heldOrder ∧
    s.openChairWindow.tables = s.tables ∧ s.openChairWindow.lanes = s.lanes ∧
    s.openChairWindow.ports = s.ports ∧ s.openChairWindow.passback = s.passback ∧
    s.openChairWindow.deferred = s.deferred ∧ s.openChairWindow.time = s.time ∧
    s.openChairWindow.loop = s.loop ∧ s.openChairWindow.mgmt = s.mgmt ∧
    s.openChairWindow.choices = s.choices ∧ s.openChairWindow.pending = s.pending := by
  simp only [State.openChairWindow]
  simp

@[simp] theorem State.setGate_frame (s : State) (g : GateState) :
    (s.setGate g).ownAddress = s.ownAddress ∧ (s.setGate g).ms = s.ms ∧
    (s.setGate g).freeFlowPin = s.freeFlowPin ∧ (s.setGate g).freeFlowSetting = s.freeFlowSetting ∧
    (s.setGate g).heldOrder = s.heldOrder ∧ (s.setGate g).tables = s.tables ∧
    (s.setGate g).lanes = s.lanes ∧ (s.setGate g).ports = s.ports ∧
    (s.setGate g).passback = s.passback ∧ (s.setGate g).deferred = s.deferred ∧
    (s.setGate g).time = s.time ∧ (s.setGate g).loop = s.loop ∧ (s.setGate g).mgmt = s.mgmt ∧
    (s.setGate g).choices = s.choices ∧ (s.setGate g).pending = s.pending := by
  simp only [State.setGate]
  simp

@[simp] theorem State.liftChange_frame (s : State) (b : Bool) :
    (s.liftChange b).ownAddress = s.ownAddress ∧ (s.liftChange b).ms = s.ms ∧
    (s.liftChange b).freeFlowPin = s.freeFlowPin ∧
    (s.liftChange b).freeFlowSetting = s.freeFlowSetting ∧ (s.liftChange b).heldOrder = s.heldOrder ∧
    (s.liftChange b).tables = s.tables ∧ (s.liftChange b).lanes = s.lanes ∧
    (s.liftChange b).ports = s.ports ∧ (s.liftChange b).passback = s.passback ∧
    (s.liftChange b).deferred = s.deferred ∧ (s.liftChange b).loop = s.loop ∧
    (s.liftChange b).choices = s.choices ∧ (s.liftChange b).pending = s.pending ∧
    (s.liftChange b).mgmt.shadows = s.mgmt.shadows ∧ (s.liftChange b).mgmt.enables = s.mgmt.enables ∧
    (s.liftChange b).mgmt.overruns = s.mgmt.overruns := by
  simp only [State.liftChange]
  (repeat' split) <;> simp

@[simp] theorem State.chairPulse_frame (s : State) :
    s.chairPulse.ownAddress = s.ownAddress ∧ s.chairPulse.ms = s.ms ∧
    s.chairPulse.freeFlowPin = s.freeFlowPin ∧ s.chairPulse.freeFlowSetting = s.freeFlowSetting ∧
    s.chairPulse.heldOrder = s.heldOrder ∧ s.chairPulse.tables = s.tables ∧
    s.chairPulse.lanes = s.lanes ∧ s.chairPulse.ports = s.ports ∧ s.chairPulse.passback = s.passback ∧
    s.chairPulse.deferred = s.deferred ∧ s.chairPulse.time = s.time ∧ s.chairPulse.loop = s.loop ∧
    s.chairPulse.mgmt = s.mgmt ∧ s.chairPulse.choices = s.choices ∧ s.chairPulse.pending = s.pending := by
  simp only [State.chairPulse]
  (repeat' split) <;> simp

@[simp] theorem State.chairTimeout_frame (s : State) :
    s.chairTimeout.ownAddress = s.ownAddress ∧ s.chairTimeout.ms = s.ms ∧
    s.chairTimeout.freeFlowPin = s.freeFlowPin ∧ s.chairTimeout.freeFlowSetting = s.freeFlowSetting ∧
    s.chairTimeout.heldOrder = s.heldOrder ∧ s.chairTimeout.tables = s.tables ∧
    s.chairTimeout.lanes = s.lanes ∧ s.chairTimeout.ports = s.ports ∧
    s.chairTimeout.passback = s.passback ∧ s.chairTimeout.deferred = s.deferred ∧
    s.chairTimeout.time = s.time ∧ s.chairTimeout.loop = s.loop ∧ s.chairTimeout.mgmt = s.mgmt ∧
    s.chairTimeout.choices = s.choices ∧ s.chairTimeout.pending = s.pending := by
  simp only [State.chairTimeout]
  (repeat' split) <;> simp

@[simp] theorem State.gateBody_frame (s : State) :
    s.gateBody.ownAddress = s.ownAddress ∧ s.gateBody.ms = s.ms ∧
    s.gateBody.freeFlowPin = s.freeFlowPin ∧ s.gateBody.freeFlowSetting = s.freeFlowSetting ∧
    s.gateBody.heldOrder = s.heldOrder ∧ s.gateBody.tables = s.tables ∧ s.gateBody.lanes = s.lanes ∧
    s.gateBody.ports = s.ports ∧ s.gateBody.passback = s.passback ∧ s.gateBody.deferred = s.deferred ∧
    s.gateBody.time = s.time ∧ s.gateBody.loop = s.loop ∧ s.gateBody.choices = s.choices ∧
    s.gateBody.pending = s.pending ∧ s.gateBody.mgmt.shadows = s.mgmt.shadows ∧
    s.gateBody.mgmt.enables = s.mgmt.enables ∧ s.gateBody.mgmt.overruns = s.mgmt.overruns := by
  simp only [State.gateBody]
  (repeat' split) <;> simp

@[simp] theorem State.passbackExpire_frame (s : State) (x : Serial) (g : Nat) :
    (s.passbackExpire x g).ownAddress = s.ownAddress ∧ (s.passbackExpire x g).ms = s.ms ∧
    (s.passbackExpire x g).freeFlowPin = s.freeFlowPin ∧
    (s.passbackExpire x g).freeFlowSetting = s.freeFlowSetting ∧
    (s.passbackExpire x g).heldOrder = s.heldOrder ∧ (s.passbackExpire x g).tables = s.tables ∧
    (s.passbackExpire x g).lanes = s.lanes ∧ (s.passbackExpire x g).ports = s.ports ∧
    (s.passbackExpire x g).maze = s.maze ∧ (s.passbackExpire x g).deferred = s.deferred ∧
    (s.passbackExpire x g).time = s.time ∧ (s.passbackExpire x g).loop = s.loop ∧
    (s.passbackExpire x g).mgmt = s.mgmt ∧ (s.passbackExpire x g).choices = s.choices ∧
    (s.passbackExpire x g).pending = s.pending := by
  simp only [State.passbackExpire]
  simp

@[simp] theorem State.clockAdvance_frame (s : State) :
    s.clockAdvance.ownAddress = s.ownAddress ∧ s.clockAdvance.ms = s.ms ∧
    s.clockAdvance.freeFlowPin = s.freeFlowPin ∧ s.clockAdvance.freeFlowSetting = s.freeFlowSetting ∧
    s.clockAdvance.heldOrder = s.heldOrder ∧ s.clockAdvance.tables = s.tables ∧
    s.clockAdvance.lanes = s.lanes ∧ s.clockAdvance.ports = s.ports ∧
    s.clockAdvance.passback = s.passback ∧ s.clockAdvance.maze = s.maze ∧
    s.clockAdvance.deferred = s.deferred ∧ s.clockAdvance.loop = s.loop ∧
    s.clockAdvance.mgmt = s.mgmt ∧ s.clockAdvance.choices = s.choices ∧
    s.clockAdvance.pending = s.pending := by
  simp only [State.clockAdvance]
  (repeat' split) <;> simp

@[simp] theorem State.setClock_frame (s : State) (t : Nat) :
    (s.setClock t).ownAddress = s.ownAddress ∧ (s.setClock t).ms = s.ms ∧
    (s.setClock t).freeFlowPin = s.freeFlowPin ∧ (s.setClock t).freeFlowSetting = s.freeFlowSetting ∧
    (s.setClock t).heldOrder = s.heldOrder ∧ (s.setClock t).tables = s.tables ∧
    (s.setClock t).lanes = s.lanes ∧ (s.setClock t).ports = s.ports ∧
    (s.setClock t).passback = s.passback ∧ (s.setClock t).maze = s.maze ∧
    (s.setClock t).deferred = s.deferred ∧ (s.setClock t).loop = s.loop ∧
    (s.setClock t).choices = s.choices ∧ (s.setClock t).pending = s.pending ∧
    (s.setClock t).mgmt.shadows = s.mgmt.shadows ∧ (s.setClock t).mgmt.enables = s.mgmt.enables ∧
    (s.setClock t).mgmt.overruns = s.mgmt.overruns := by
  simp only [State.setClock]
  (repeat' split) <;> simp

@[simp] theorem State.clearDayCounters_frame (s : State) :
    s.clearDayCounters.ownAddress = s.ownAddress ∧ s.clearDayCounters.ms = s.ms ∧
    s.clearDayCounters.freeFlowPin = s.freeFlowPin ∧
    s.clearDayCounters.freeFlowSetting = s.freeFlowSetting ∧
    s.clearDayCounters.heldOrder = s.heldOrder ∧ s.clearDayCounters.tables = s.tables ∧
    s.clearDayCounters.ports = s.ports ∧ s.clearDayCounters.passback = s.passback ∧
    s.clearDayCounters.deferred = s.deferred ∧ s.clearDayCounters.loop = s.loop ∧
    s.clearDayCounters.mgmt = s.mgmt ∧ s.clearDayCounters.choices = s.choices ∧
    s.clearDayCounters.pending = s.pending := by
  simp only [State.clearDayCounters]
  simp

@[simp] theorem State.purgeOld_frame (s : State) (d : Nat) :
    (s.purgeOld d).ownAddress = s.ownAddress ∧ (s.purgeOld d).ms = s.ms ∧
    (s.purgeOld d).freeFlowPin = s.freeFlowPin ∧ (s.purgeOld d).freeFlowSetting = s.freeFlowSetting ∧
    (s.purgeOld d).heldOrder = s.heldOrder ∧ (s.purgeOld d).tables = s.tables ∧
    (s.purgeOld d).lanes = s.lanes ∧ (s.purgeOld d).ports = s.ports ∧
    (s.purgeOld d).passback = s.passback ∧ (s.purgeOld d).maze = s.maze ∧
    (s.purgeOld d).time = s.time ∧ (s.purgeOld d).loop = s.loop ∧ (s.purgeOld d).choices = s.choices ∧
    (s.purgeOld d).pending = s.pending ∧ (s.purgeOld d).mgmt.shadows = s.mgmt.shadows ∧
    (s.purgeOld d).mgmt.enables = s.mgmt.enables ∧ (s.purgeOld d).mgmt.overruns = s.mgmt.overruns := by
  simp only [State.purgeOld]
  (repeat' split) <;> simp

@[simp] theorem State.openDay_frame (s : State) (d o c : Nat) :
    (s.openDay d o c).ownAddress = s.ownAddress ∧ (s.openDay d o c).ms = s.ms ∧
    (s.openDay d o c).freeFlowPin = s.freeFlowPin ∧
    (s.openDay d o c).freeFlowSetting = s.freeFlowSetting ∧ (s.openDay d o c).heldOrder = s.heldOrder ∧
    (s.openDay d o c).tables = s.tables ∧ (s.openDay d o c).ports = s.ports ∧
    (s.openDay d o c).passback = s.passback ∧ (s.openDay d o c).choices = s.choices ∧
    (s.openDay d o c).pending = s.pending ∧ (s.openDay d o c).loop.link = s.loop.link ∧
    (s.openDay d o c).loop.silence = s.loop.silence ∧
    (s.openDay d o c).loop.training = s.loop.training ∧ (s.openDay d o c).loop.badRun = s.loop.badRun ∧
    (s.openDay d o c).loop.downByLoss = s.loop.downByLoss ∧
    (s.openDay d o c).loop.crcErrors = s.loop.crcErrors ∧
    (s.openDay d o c).loop.orphans = s.loop.orphans ∧
    (s.openDay d o c).loop.transitDrops = s.loop.transitDrops ∧
    (s.openDay d o c).mgmt.shadows = s.mgmt.shadows ∧ (s.openDay d o c).mgmt.enables = s.mgmt.enables ∧
    (s.openDay d o c).mgmt.overruns = s.mgmt.overruns := by
  simp only [State.openDay]
  (repeat' split) <;> simp

@[simp] theorem State.dayChangeArrives_frame (s : State) (k : Nat) (n : LaneId) :
    (s.dayChangeArrives k n).ownAddress = s.ownAddress ∧ (s.dayChangeArrives k n).ms = s.ms ∧
    (s.dayChangeArrives k n).freeFlowPin = s.freeFlowPin ∧
    (s.dayChangeArrives k n).freeFlowSetting = s.freeFlowSetting ∧
    (s.dayChangeArrives k n).heldOrder = s.heldOrder ∧ (s.dayChangeArrives k n).tables = s.tables ∧
    (s.dayChangeArrives k n).ports = s.ports ∧ (s.dayChangeArrives k n).passback = s.passback ∧
    (s.dayChangeArrives k n).maze = s.maze ∧ (s.dayChangeArrives k n).deferred = s.deferred ∧
    (s.dayChangeArrives k n).time = s.time ∧ (s.dayChangeArrives k n).loop = s.loop ∧
    (s.dayChangeArrives k n).choices = s.choices ∧ (s.dayChangeArrives k n).pending = s.pending ∧
    (s.dayChangeArrives k n).mgmt.shadows = s.mgmt.shadows ∧
    (s.dayChangeArrives k n).mgmt.enables = s.mgmt.enables ∧
    (s.dayChangeArrives k n).mgmt.overruns = s.mgmt.overruns := by
  simp only [State.dayChangeArrives]
  (repeat' split) <;> simp

@[simp] theorem State.closeDay_frame (s : State) :
    s.closeDay.ownAddress = s.ownAddress ∧ s.closeDay.ms = s.ms ∧
    s.closeDay.freeFlowPin = s.freeFlowPin ∧ s.closeDay.freeFlowSetting = s.freeFlowSetting ∧
    s.closeDay.heldOrder = s.heldOrder ∧ s.closeDay.tables = s.tables ∧ s.closeDay.ports = s.ports ∧
    s.closeDay.passback = s.passback ∧ s.closeDay.maze = s.maze ∧ s.closeDay.deferred = s.deferred ∧
    s.closeDay.pending = s.pending ∧ s.closeDay.loop.link = s.loop.link ∧
    s.closeDay.loop.silence = s.loop.silence ∧ s.closeDay.loop.training = s.loop.training ∧
    s.closeDay.loop.badRun = s.loop.badRun ∧ s.closeDay.loop.downByLoss = s.loop.downByLoss ∧
    s.closeDay.loop.crcErrors = s.loop.crcErrors ∧ s.closeDay.loop.orphans = s.loop.orphans ∧
    s.closeDay.loop.transitDrops = s.loop.transitDrops ∧ s.closeDay.mgmt.shadows = s.mgmt.shadows ∧
    s.closeDay.mgmt.enables = s.mgmt.enables ∧ s.closeDay.mgmt.overruns = s.mgmt.overruns := by
  simp only [State.closeDay, LaneId.all, List.foldl]
  simp

@[simp] theorem State.endInterval_frame (s : State) (b : Bool) (k : Nat) :
    (s.endInterval b k).ownAddress = s.ownAddress ∧ (s.endInterval b k).ms = s.ms ∧
    (s.endInterval b k).freeFlowPin = s.freeFlowPin ∧
    (s.endInterval b k).freeFlowSetting = s.freeFlowSetting ∧
    (s.endInterval b k).heldOrder = s.heldOrder ∧ (s.endInterval b k).tables = s.tables ∧
    (s.endInterval b k).ports = s.ports ∧ (s.endInterval b k).passback = s.passback ∧
    (s.endInterval b k).deferred = s.deferred ∧ (s.endInterval b k).choices = s.choices ∧
    (s.endInterval b k).pending = s.pending ∧ (s.endInterval b k).loop.link = s.loop.link ∧
    (s.endInterval b k).loop.silence = s.loop.silence ∧
    (s.endInterval b k).loop.training = s.loop.training ∧
    (s.endInterval b k).loop.badRun = s.loop.badRun ∧
    (s.endInterval b k).loop.downByLoss = s.loop.downByLoss ∧
    (s.endInterval b k).loop.crcErrors = s.loop.crcErrors ∧
    (s.endInterval b k).loop.orphans = s.loop.orphans ∧
    (s.endInterval b k).loop.transitDrops = s.loop.transitDrops ∧
    (s.endInterval b k).mgmt.shadows = s.mgmt.shadows ∧
    (s.endInterval b k).mgmt.enables = s.mgmt.enables ∧
    (s.endInterval b k).mgmt.overruns = s.mgmt.overruns := by
  simp only [State.endInterval]
  simp

@[simp] theorem State.prescalerTimeout_frame (s : State) :
    s.prescalerTimeout.ownAddress = s.ownAddress ∧ s.prescalerTimeout.ms = s.ms ∧
    s.prescalerTimeout.freeFlowPin = s.freeFlowPin ∧
    s.prescalerTimeout.freeFlowSetting = s.freeFlowSetting ∧
    s.prescalerTimeout.heldOrder = s.heldOrder ∧ s.prescalerTimeout.tables = s.tables ∧
    s.prescalerTimeout.lanes = s.lanes ∧ s.prescalerTimeout.ports = s.ports ∧
    s.prescalerTimeout.passback = s.passback ∧ s.prescalerTimeout.maze = s.maze ∧
    s.prescalerTimeout.deferred = s.deferred ∧ s.prescalerTimeout.loop = s.loop ∧
    s.prescalerTimeout.mgmt = s.mgmt ∧ s.prescalerTimeout.choices = s.choices ∧
    s.prescalerTimeout.pending = s.pending := by
  simp only [State.prescalerTimeout]
  (repeat' split) <;> simp

@[simp] theorem State.intervalEndEvent_frame (s : State) :
    s.intervalEndEvent.ownAddress = s.ownAddress ∧ s.intervalEndEvent.ms = s.ms ∧
    s.intervalEndEvent.freeFlowPin = s.freeFlowPin ∧
    s.intervalEndEvent.freeFlowSetting = s.freeFlowSetting ∧
    s.intervalEndEvent.heldOrder = s.heldOrder ∧ s.intervalEndEvent.tables = s.tables ∧
    s.intervalEndEvent.ports = s.ports ∧ s.intervalEndEvent.passback = s.passback ∧
    s.intervalEndEvent.deferred = s.deferred ∧ s.intervalEndEvent.choices = s.choices ∧
    s.intervalEndEvent.pending = s.pending ∧ s.intervalEndEvent.loop.link = s.loop.link ∧
    s.intervalEndEvent.loop.silence = s.loop.silence ∧
    s.intervalEndEvent.loop.training = s.loop.training ∧
    s.intervalEndEvent.loop.badRun = s.loop.badRun ∧
    s.intervalEndEvent.loop.downByLoss = s.loop.downByLoss ∧
    s.intervalEndEvent.loop.crcErrors = s.loop.crcErrors ∧
    s.intervalEndEvent.loop.orphans = s.loop.orphans ∧
    s.intervalEndEvent.loop.transitDrops = s.loop.transitDrops ∧
    s.intervalEndEvent.mgmt.shadows = s.mgmt.shadows ∧
    s.intervalEndEvent.mgmt.enables = s.mgmt.enables ∧
    s.intervalEndEvent.mgmt.overruns = s.mgmt.overruns := by
  simp only [State.intervalEndEvent]
  (repeat' split) <;> simp

@[simp] theorem State.startInterval_frame (s : State) :
    s.startInterval.ownAddress = s.ownAddress ∧ s.startInterval.ms = s.ms ∧
    s.startInterval.freeFlowPin = s.freeFlowPin ∧ s.startInterval.freeFlowSetting = s.freeFlowSetting ∧
    s.startInterval.heldOrder = s.heldOrder ∧ s.startInterval.tables = s.tables ∧
    s.startInterval.lanes = s.lanes ∧ s.startInterval.ports = s.ports ∧
    s.startInterval.passback = s.passback ∧ s.startInterval.maze = s.maze ∧
    s.startInterval.deferred = s.deferred ∧ s.startInterval.loop = s.loop ∧
    s.startInterval.mgmt = s.mgmt ∧ s.startInterval.choices = s.choices ∧
    s.startInterval.pending = s.pending := by
  simp only [State.startInterval]
  simp

@[simp] theorem State.intervalCommit_frame (s : State) (o : Option Settings) :
    (s.intervalCommit o).ownAddress = s.ownAddress ∧ (s.intervalCommit o).ms = s.ms ∧
    (s.intervalCommit o).freeFlowPin = s.freeFlowPin ∧
    (s.intervalCommit o).freeFlowSetting = s.freeFlowSetting ∧
    (s.intervalCommit o).heldOrder = s.heldOrder ∧ (s.intervalCommit o).tables = s.tables ∧
    (s.intervalCommit o).ports = s.ports ∧ (s.intervalCommit o).passback = s.passback ∧
    (s.intervalCommit o).deferred = s.deferred ∧ (s.intervalCommit o).choices = s.choices ∧
    (s.intervalCommit o).pending = s.pending ∧ (s.intervalCommit o).loop.link = s.loop.link ∧
    (s.intervalCommit o).loop.silence = s.loop.silence ∧
    (s.intervalCommit o).loop.training = s.loop.training ∧
    (s.intervalCommit o).loop.badRun = s.loop.badRun ∧
    (s.intervalCommit o).loop.downByLoss = s.loop.downByLoss ∧
    (s.intervalCommit o).loop.crcErrors = s.loop.crcErrors ∧
    (s.intervalCommit o).loop.orphans = s.loop.orphans ∧
    (s.intervalCommit o).loop.transitDrops = s.loop.transitDrops ∧
    (s.intervalCommit o).mgmt.shadows = s.mgmt.shadows ∧
    (s.intervalCommit o).mgmt.enables = s.mgmt.enables ∧
    (s.intervalCommit o).mgmt.overruns = s.mgmt.overruns := by
  simp only [State.intervalCommit]
  (repeat' split) <;> simp

@[simp] theorem State.abandonWrite_frame (s : State) (n : LaneId) :
    (s.abandonWrite n).1.ownAddress = s.ownAddress ∧ (s.abandonWrite n).1.ms = s.ms ∧
    (s.abandonWrite n).1.freeFlowPin = s.freeFlowPin ∧
    (s.abandonWrite n).1.freeFlowSetting = s.freeFlowSetting ∧
    (s.abandonWrite n).1.heldOrder = s.heldOrder ∧ (s.abandonWrite n).1.tables = s.tables ∧
    (s.abandonWrite n).1.lanes = s.lanes ∧ (s.abandonWrite n).1.passback = s.passback ∧
    (s.abandonWrite n).1.maze = s.maze ∧ (s.abandonWrite n).1.time = s.time ∧
    (s.abandonWrite n).1.loop = s.loop ∧ (s.abandonWrite n).1.choices = s.choices ∧
    (s.abandonWrite n).1.pending = s.pending ∧ (s.abandonWrite n).1.mgmt.shadows = s.mgmt.shadows ∧
    (s.abandonWrite n).1.mgmt.enables = s.mgmt.enables ∧
    (s.abandonWrite n).1.mgmt.overruns = s.mgmt.overruns := by
  simp only [State.abandonWrite]
  (repeat' split) <;> simp

@[simp] theorem State.endTransactionWarm_frame (s : State) (n : LaneId) (b : Bool) :
    (s.endTransactionWarm n b).ownAddress = s.ownAddress ∧ (s.endTransactionWarm n b).ms = s.ms ∧
    (s.endTransactionWarm n b).freeFlowPin = s.freeFlowPin ∧
    (s.endTransactionWarm n b).freeFlowSetting = s.freeFlowSetting ∧
    (s.endTransactionWarm n b).tables = s.tables ∧ (s.endTransactionWarm n b).deferred = s.deferred ∧
    (s.endTransactionWarm n b).time = s.time ∧ (s.endTransactionWarm n b).loop = s.loop ∧
    (s.endTransactionWarm n b).mgmt = s.mgmt ∧ (s.endTransactionWarm n b).choices = s.choices ∧
    (s.endTransactionWarm n b).pending = s.pending := by
  simp only [State.endTransactionWarm]
  (repeat' split) <;> simp

@[simp] theorem State.warmLaneRest_frame (s : State) (n : LaneId) :
    (s.warmLaneRest n).ownAddress = s.ownAddress ∧ (s.warmLaneRest n).ms = s.ms ∧
    (s.warmLaneRest n).freeFlowPin = s.freeFlowPin ∧
    (s.warmLaneRest n).freeFlowSetting = s.freeFlowSetting ∧
    (s.warmLaneRest n).heldOrder = s.heldOrder ∧ (s.warmLaneRest n).tables = s.tables ∧
    (s.warmLaneRest n).ports = s.ports ∧ (s.warmLaneRest n).passback = s.passback ∧
    (s.warmLaneRest n).maze.gate = s.maze.gate ∧ (s.warmLaneRest n).maze.liftRun = s.maze.liftRun ∧
    (s.warmLaneRest n).maze.loadingHold = s.maze.loadingHold ∧
    (s.warmLaneRest n).maze.window = s.maze.window ∧
    (s.warmLaneRest n).maze.day = s.maze.day ∧ (s.warmLaneRest n).maze.interval = s.maze.interval ∧
    (s.warmLaneRest n).deferred = s.deferred ∧
    (s.warmLaneRest n).time = s.time ∧ (s.warmLaneRest n).loop = s.loop ∧
    (s.warmLaneRest n).choices = s.choices ∧ (s.warmLaneRest n).pending = s.pending ∧
    (s.warmLaneRest n).mgmt.shadows = s.mgmt.shadows ∧
    (s.warmLaneRest n).mgmt.enables = s.mgmt.enables ∧
    (s.warmLaneRest n).mgmt.overruns = s.mgmt.overruns := by
  simp only [State.warmLaneRest]
  (repeat' split) <;> simp

@[simp] theorem State.restartHeartbeat_frame (s : State) (n : LaneId) :
    (s.restartHeartbeat n).ownAddress = s.ownAddress ∧ (s.restartHeartbeat n).ms = s.ms ∧
    (s.restartHeartbeat n).freeFlowPin = s.freeFlowPin ∧
    (s.restartHeartbeat n).freeFlowSetting = s.freeFlowSetting ∧
    (s.restartHeartbeat n).heldOrder = s.heldOrder ∧ (s.restartHeartbeat n).tables = s.tables ∧
    (s.restartHeartbeat n).lanes = s.lanes ∧ (s.restartHeartbeat n).passback = s.passback ∧
    (s.restartHeartbeat n).maze = s.maze ∧ (s.restartHeartbeat n).deferred = s.deferred ∧
    (s.restartHeartbeat n).time = s.time ∧ (s.restartHeartbeat n).loop = s.loop ∧
    (s.restartHeartbeat n).mgmt = s.mgmt ∧ (s.restartHeartbeat n).choices = s.choices ∧
    (s.restartHeartbeat n).pending = s.pending := by
  simp only [State.restartHeartbeat]
  (repeat' split) <;> simp

@[simp] theorem State.warmLane_frame (s : State) (n : LaneId) :
    (s.warmLane n).ownAddress = s.ownAddress ∧ (s.warmLane n).ms = s.ms ∧
    (s.warmLane n).freeFlowPin = s.freeFlowPin ∧ (s.warmLane n).freeFlowSetting = s.freeFlowSetting ∧
    (s.warmLane n).tables = s.tables ∧ (s.warmLane n).time = s.time ∧ (s.warmLane n).loop = s.loop ∧
    (s.warmLane n).choices = s.choices ∧ (s.warmLane n).pending = s.pending ∧
    (s.warmLane n).mgmt.shadows = s.mgmt.shadows ∧ (s.warmLane n).mgmt.enables = s.mgmt.enables ∧
    (s.warmLane n).mgmt.overruns = s.mgmt.overruns := by
  simp only [State.warmLane]
  simp

@[simp] theorem State.warmMaze_frame (s : State) :
    s.warmMaze.ownAddress = s.ownAddress ∧ s.warmMaze.ms = s.ms ∧
    s.warmMaze.freeFlowPin = s.freeFlowPin ∧ s.warmMaze.freeFlowSetting = s.freeFlowSetting ∧
    s.warmMaze.heldOrder = s.heldOrder ∧ s.warmMaze.tables = s.tables ∧ s.warmMaze.lanes = s.lanes ∧
    s.warmMaze.ports = s.ports ∧ s.warmMaze.passback = s.passback ∧ s.warmMaze.deferred = s.deferred ∧
    s.warmMaze.time = s.time ∧ s.warmMaze.loop = s.loop ∧ s.warmMaze.mgmt = s.mgmt ∧
    s.warmMaze.choices = s.choices ∧ s.warmMaze.pending = s.pending := by
  simp only [State.warmMaze]
  (repeat' split) <;> simp

@[simp] theorem State.warmPassback_frame (s : State) :
    s.warmPassback.ownAddress = s.ownAddress ∧ s.warmPassback.ms = s.ms ∧
    s.warmPassback.freeFlowPin = s.freeFlowPin ∧ s.warmPassback.freeFlowSetting = s.freeFlowSetting ∧
    s.warmPassback.heldOrder = s.heldOrder ∧ s.warmPassback.tables = s.tables ∧
    s.warmPassback.lanes = s.lanes ∧ s.warmPassback.ports = s.ports ∧ s.warmPassback.maze = s.maze ∧
    s.warmPassback.deferred = s.deferred ∧ s.warmPassback.time = s.time ∧
    s.warmPassback.loop = s.loop ∧ s.warmPassback.mgmt = s.mgmt ∧ s.warmPassback.choices = s.choices ∧
    s.warmPassback.pending = s.pending := by
  simp only [State.warmPassback]
  simp

end Sys2Proof.Machine
end

