-- ==== Sys2Proof/Laws/Finish.lean ====
section
/-! SUPPORT. The end of an event: what finish does to a part that is already settled, to one message that
waits for the output, and to the blocks it never reaches. -/

namespace Sys2Proof.Machine

/-! ### Each part of finish on a part that leaves it nothing to do -/

theorem State.givePlaces_of_given (k : Nat) (s : State) (h : s.PlacesGiven) : s.givePlaces k = s := by
  cases k with
  | zero => rfl
  | succ k =>
    simp only [State.givePlaces]
    split
    · rfl
    · rename_i n rest hl
      rcases h with h | h
      · rw [h] at hl; cases hl
      · simp [h]

theorem State.queuePending_of_queued (s : State) (h : s.loop.pendingEvents = [] ∨ s.generalFree = 0) :
    s.queuePending = s := by
  simp only [State.queuePending]
  cases hp : s.loop.pendingEvents with
  | nil => rfl
  | cons r rest =>
    have hf : s.generalFree = 0 := by
      rcases h with h | h
      · rw [hp] at h; cases h
      · exact h
    simp [State.drainPending, hp, hf]

theorem State.flushFlags_of_none (l : List Flag) (s : State) (h : s.mgmt.raised = []) :
    l.foldl State.flushFlag s = s := by
  induction l with
  | nil => rfl
  | cons f l ih => simpa [State.flushFlag, h] using ih

theorem State.flushRaised_of_none (s : State) (h : s.mgmt.raised = []) : s.flushRaised = s := by
  simp only [State.flushRaised, State.flushFlags_of_none _ _ h]
  rw [← h]

theorem State.arbitrate_of_served (s : State) (b : Bool) (h : s.OutputServed) : s.arbitrate b = s := by
  simp only [State.arbitrate]
  rcases h with h | ⟨ht, hi⟩
  · simp [h]
  · simp [ht, hi]

theorem State.checkMazeFull_of_kept (s before : State)
    (h : before.placeFree = true → s.placeFree = true) : s.checkMazeFull before = s := by
  simp only [State.checkMazeFull]
  cases hb : before.placeFree with
  | false => simp
  | true => simp [h hb]

/-! ### finish on a settled part -/

/-- A settled part with no MAZE_FULL to latch is left as it is. -/
theorem State.finish_of_settled (s before : State) (h : s.Settled)
    (hp : before.placeFree = true → s.placeFree = true) : s.finish before = s := by
  obtain ⟨hg, ⟨hr, hq⟩, ho⟩ := h
  simp only [State.finish, State.givePlaces_of_given _ _ hg, State.checkMazeFull_of_kept _ _ hp,
    State.queuePending_of_queued _ hq, State.flushRaised_of_none _ hr,
    State.arbitrate_of_served _ _ ho]

/-- An event whose effect leaves the part settled ends as that effect leaves it. -/
theorem State.event_of_settled (s : State) (f : State → State) (h : (f s).Settled)
    (hp : s.placeFree = true → (f s).placeFree = true) : s.event f = f s :=
  State.finish_of_settled (f s) s h hp

/-- Where no place is to be given, finish leaves the rider side alone. -/
theorem State.finish_keeps_of_given (s before : State) (h : s.PlacesGiven) :
    (s.finish before).heldOrder = s.heldOrder ∧ (s.finish before).lanes = s.lanes ∧
    (s.finish before).ports = s.ports ∧ (s.finish before).passback = s.passback := by
  simp only [State.finish, State.givePlaces_of_given _ _ h]
  simp

/-! ### Settled states that differ in what finish does not read -/

/-- A place is free exactly while the sum is below the limit (R97). -/
theorem State.placeFree_iff (s : State) :
    s.placeFree = true ↔ s.maze.count + s.reservations < s.settings.mazeLimit := by
  rw [State.placeFree, decide_eq_true_iff]
  exact Iff.rfl

/-- Whether a place is free depends on the maze count, the lanes and the tables alone. -/
theorem State.placeFree_congr {s t : State} (hm : t.maze.count = s.maze.count)
    (hr : t.reservations = s.reservations) (ht : t.tables = s.tables) : t.placeFree = s.placeFree := by
  have h1 : t.mazeSum = s.mazeSum := by simp [State.mazeSum, hm, hr]
  have h2 : t.mazeLimit = s.mazeLimit := by simp [State.mazeLimit, State.settings, ht]
  simp [State.placeFree, h1, h2]

/-- A state that agrees with a settled one in what R101, R167 and R168 read is settled. -/
theorem State.Settled.congr {s t : State} (h : s.Settled) (hh : t.heldOrder = s.heldOrder)
    (hp : t.placeFree = s.placeFree) (hr : t.mgmt.raised = s.mgmt.raised)
    (he : t.loop.pendingEvents = s.loop.pendingEvents) (hf : t.generalFree = s.generalFree)
    (hs : t.loop.sending = s.loop.sending) (ht : t.loop.transit = s.loop.transit)
    (hi : t.loop.insertQueue = s.loop.insertQueue) : t.Settled := by
  simpa [State.Settled, State.PlacesGiven, State.ReportsQueued, State.OutputServed,
    hh, hp, hr, he, hf, hs, ht, hi] using h

/-- General entries occupied and reserved are read from the insert queue and the lanes. -/
theorem State.generalFree_congr {s t : State} (hi : t.loop.insertQueue = s.loop.insertQueue)
    (hr : t.generalReserved = s.generalReserved) : t.generalFree = s.generalFree := by
  simp [State.generalFree, State.generalOccupied, hi, hr]

/-- A lane replaced by one with the same reservations leaves the sums as they are. -/
theorem State.withLane_reservations (s : State) (n : LaneId) (l : Lane)
    (h : l.reservation = (s.lanes.get n).reservation) : (s.withLane n l).reservations = s.reservations := by
  cases n <;> simp_all [State.withLane, State.reservations, PerLane.set, PerLane.get]

theorem State.withLane_generalReserved (s : State) (n : LaneId) (l : Lane)
    (h : l.insertReservation = (s.lanes.get n).insertReservation) :
    (s.withLane n l).generalReserved = s.generalReserved := by
  cases n <;> simp_all [State.withLane, State.generalReserved, PerLane.set, PerLane.get]

/-- A lane replaced by one with the same transaction keeps a settled part settled. -/
theorem State.Settled.withLane {s : State} (h : s.Settled) (n : LaneId) (l : Lane)
    (hl : l.txn = (s.lanes.get n).txn) : (s.withLane n l).Settled := by
  have h1 := State.withLane_reservations s n l (by simp [Lane.reservation, hl])
  have h2 := State.withLane_generalReserved s n l (by simp [Lane.insertReservation, hl])
  exact h.congr rfl (State.placeFree_congr rfl h1 rfl) rfl rfl (State.generalFree_congr rfl h2) rfl rfl rfl

/-- A port replaced keeps a settled part settled. -/
theorem State.Settled.withPort {s : State} (h : s.Settled) (n : LaneId) (p : Port) :
    (s.withPort n p).Settled :=
  h.congr rfl rfl rfl rfl rfl rfl rfl rfl

/-- Whether a place is free after a lane is replaced by one with the same reservation. -/
theorem State.withLane_placeFree (s : State) (n : LaneId) (l : Lane)
    (h : l.reservation = (s.lanes.get n).reservation) : (s.withLane n l).placeFree = s.placeFree :=
  State.placeFree_congr rfl (State.withLane_reservations s n l h) rfl

/-! ### A latch without a report -/

/-- A silent latch sets the flag's bit and does nothing else (R182, R183). -/
theorem State.latch_of_silent (s : State) (f : Flag) (d : Nat) (h : s.LatchesSilently f) :
    s.latch f d = s.withFlag f := by
  by_cases hs : s.flagSet f = true
  · have hb : s.mgmt.flags ||| f.bit = s.mgmt.flags := by
      ext i hi
      simp only [State.flagSet] at hs
      simp only [Flag.bit, BitVec.getElem_or, BitVec.getElem_shiftLeft]
      by_cases hif : i = f.id
      · subst hif
        simp [← BitVec.getLsbD_eq_getElem, hs]
      · cases hc : s.mgmt.flags[i] with
        | true => rfl
        | false =>
          by_cases hlt : i < f.id
          · simp [hlt]
          · have : i - f.id ≠ 0 := by omega
            simp [hlt]
            omega
    simp only [State.latch, hs, if_true, State.withFlag, hb]
  · rcases h with h | h
    · exact absurd h hs
    · simp [State.latch, hs, h, State.withFlag]

/-- A latch whose flag is set or whose enable is off makes no EVENT report (R182, R183). -/
theorem State.latched_of_silent (s : State) (f : Flag) (d : Nat) (h : s.LatchesSilently f) :
    s.latched f d = s.withFlag f := by
  by_cases hs : s.flagSet f = true
  · rw [← State.latch_of_silent s f d h]
    simp [State.latched, State.latch, hs]
  · simp [State.latched, hs, h.resolve_left hs]

/-- A flag's bit keeps a settled part settled. -/
theorem State.Settled.withFlag {s : State} (h : s.Settled) (f : Flag) : (s.withFlag f).Settled :=
  h.congr rfl rfl rfl rfl rfl rfl rfl rfl

/-- An event that leaves the part settled, and may fill the maze, sets MAZE_FULL and nothing else where that
latch makes no report. -/
theorem State.finish_of_settled_full (s before : State) (h : s.Settled) (hf : s.LatchesSilently .mazeFull) :
    s.finish before = s.markFull before := by
  obtain ⟨hg, ⟨hr, hq⟩, ho⟩ := h
  have hc : s.checkMazeFull before = s.markFull before := by
    simp only [State.checkMazeFull, State.markFull, State.latch_of_silent _ _ _ hf]
    cases before.placeFree <;> cases s.placeFree <;> simp
  have hm : (s.markFull before).Settled := by
    simp only [State.markFull]
    split
    · exact State.Settled.withFlag ⟨hg, ⟨hr, hq⟩, ho⟩ _
    · exact ⟨hg, ⟨hr, hq⟩, ho⟩
  obtain ⟨-, ⟨hr', hq'⟩, ho'⟩ := hm
  simp only [State.finish, State.givePlaces_of_given _ _ hg, hc,
    State.queuePending_of_queued _ hq', State.flushRaised_of_none _ hr',
    State.arbitrate_of_served _ _ ho']

/-! ### One message for the output -/

/-- A part whose queues are empty has a general entry free, since at most four are reserved (R165). -/
theorem State.generalFree_of_empty (s : State) (h : s.loop.insertQueue = []) : 0 < s.generalFree := by
  have hl : ∀ l : Lane, l.insertReservation ≤ 1 := by
    intro l; simp only [Lane.insertReservation]; split <;> omega
  have h1 := hl s.lanes.l1; have h2 := hl s.lanes.l2
  have h3 := hl s.lanes.l3; have h4 := hl s.lanes.l4
  simp only [State.generalFree, State.generalOccupied, State.generalReserved, h, List.filter_nil,
    List.length_nil]
  omega

/-- The event that queues one message on a settled part ends with that message offered to the output. The
message is an ANSWER, or no EVENT report is pending. -/
theorem State.finish_enqueue (s before : State) (o : Outgoing) (h : s.Settled)
    (hm : s.LatchesSilently .mazeFull ∨ (before.placeFree = true → s.placeFree = true))
    (hown : s.ownAddress.isSome = true) (hroom : o.isAnswer = true ∨ s.loop.pendingEvents = []) :
    (s.enqueue o).finish before = (s.markFull before).offered o := by
  obtain ⟨hg, ⟨hr, hq⟩, ho⟩ := h
  have hn : s.ownAddress.isNone = false := by
    cases hs : s.ownAddress <;> simp_all
  have he : ∀ x : State, x.ownAddress = s.ownAddress → x.enqueue o =
      { x with loop := { x.loop with insertQueue := x.loop.insertQueue ++ [o] } } := by
    intro x hx; simp [State.enqueue, hx, hn]
  have hg' : (s.enqueue o).PlacesGiven := by rw [he s rfl]; exact hg
  have hc : (s.enqueue o).checkMazeFull before = (s.markFull before).enqueue o := by
    have hpf : (s.enqueue o).placeFree = s.placeFree := by rw [he s rfl]; rfl
    simp only [State.checkMazeFull, State.markFull, hpf]
    rcases hm with hm | hm
    · have hs : (s.enqueue o).LatchesSilently .mazeFull := by rw [he s rfl]; exact hm
      rw [State.latch_of_silent _ _ _ hs]
      cases before.placeFree <;> cases s.placeFree <;> simp [State.withFlag, State.enqueue, hn]
    · cases hb : before.placeFree with
      | false => simp
      | true => simp [hm hb]
  simp only [State.finish, State.givePlaces_of_given _ _ hg', hc]
  have hmark : s.markFull before = s ∨ s.markFull before = s.withFlag .mazeFull := by
    simp only [State.markFull]; split <;> simp
  have key : ∀ x : State, x.Settled → x.ownAddress = s.ownAddress →
      x.loop.pendingEvents = s.loop.pendingEvents →
      ((x.enqueue o).queuePending.flushRaised.arbitrate before.loop.sending.isNone).queuePending
        = x.offered o := by
    intro x hx hox hpx
    obtain ⟨-, ⟨hr, hq⟩, ho⟩ := hx
    have he := he x hox
    have hq' : (x.enqueue o).loop.pendingEvents = [] ∨ (x.enqueue o).generalFree = 0 := by
      rcases hroom with ha | ha
      · rcases hq with hq | hq
        · left; rw [he]; exact hq
        · right
          rw [he]
          simpa [State.generalFree, State.generalOccupied, State.generalReserved, List.filter_append, ha]
            using hq
      · left; rw [he]; simpa [hpx] using ha
    have hr' : (x.enqueue o).mgmt.raised = [] := by rw [he]; exact hr
    rw [State.queuePending_of_queued _ hq', State.flushRaised_of_none _ hr']
    cases hs : x.loop.sending with
    | some m =>
      have hbusy : (x.enqueue o).loop.sending.isSome = true := by rw [he]; simp [hs]
      rw [State.arbitrate_of_served _ _ (Or.inl hbusy), State.queuePending_of_queued _ hq', he]
      simp [State.offered, hs]
    | none =>
      rcases ho with ho | ⟨ht, hi⟩
      · simp [hs] at ho
      · have hpe : x.loop.pendingEvents = [] := by
          rcases hq with hq | hq
          · exact hq
          · have := State.generalFree_of_empty x hi; omega
        have ha : (x.enqueue o).arbitrate before.loop.sending.isNone = x.offered o := by
          rw [he]
          simp [State.arbitrate, hs, ht, hi, State.startInsert, State.offered, State.ownByte]
        rw [ha, State.queuePending_of_queued]
        left
        simp [State.offered, hs, hpe]
  have hset : s.Settled := ⟨hg, ⟨hr, hq⟩, ho⟩
  rcases hmark with h | h <;> rw [h]
  · exact key s hset rfl rfl
  · exact key _ (hset.withFlag _) rfl rfl

end Sys2Proof.Machine
end

