-- ==== Sys2Proof/Laws/Events.lean ====
section
/-! SUPPORT. Events in the forms that the statements use: an effect written with withLane, withPort, enqueue
and forward, and what the end of the event makes of it. -/

namespace Sys2Proof.Machine

/-! ### An event from its effect -/

/-- An event whose effect is `t`, settled and with no place newly taken, ends as `t`. -/
theorem State.event_eq {s t : State} {f : State → State} (hf : f s = t) (ht : t.Settled)
    (hp : s.placeFree = true → t.placeFree = true) : s.event f = t := by
  subst hf; exact State.event_of_settled s f ht hp

/-- An event whose effect is `t`, settled, ends as `t` with MAZE_FULL where the last place went. -/
theorem State.event_eq_full {s t : State} {f : State → State} (hf : f s = t) (ht : t.Settled)
    (hs : t.LatchesSilently .mazeFull) : s.event f = t.markFull s := by
  subst hf; exact State.finish_of_settled_full _ _ ht hs

/-- An event that changes nothing leaves a settled part as it is. -/
theorem State.event_same {s : State} {f : State → State} (hf : f s = s) (ht : s.Settled) :
    s.event f = s :=
  State.event_eq hf ht id

/-- With no place newly taken MAZE_FULL is not judged. -/
theorem State.markFull_of_kept {s t : State} (h : s.placeFree = true → t.placeFree = true) :
    t.markFull s = t := by
  simp only [State.markFull]
  split
  · rename_i hh; simp [h hh.1] at hh
  · rfl

/-- An event whose effect queues one message on a settled part ends with that message offered. -/
theorem State.event_eq_offered {s t : State} {o : Outgoing} {f : State → State} (hf : f s = t.enqueue o)
    (h : t.Settled) (hm : s.placeFree = true → t.placeFree = true) (hown : t.ownAddress.isSome = true)
    (hroom : o.isAnswer = true ∨ t.loop.pendingEvents = []) : s.event f = t.offered o := by
  simp only [State.event, hf, State.finish_enqueue t s o h (Or.inr hm) hown hroom, State.markFull_of_kept hm]

/-- The same, where the event may take the last place. -/
theorem State.event_eq_offered_full {s t : State} {o : Outgoing} {f : State → State}
    (hf : f s = t.enqueue o) (h : t.Settled) (hm : t.LatchesSilently .mazeFull)
    (hown : t.ownAddress.isSome = true) (hroom : o.isAnswer = true ∨ t.loop.pendingEvents = []) :
    s.event f = (t.markFull s).offered o := by
  simp only [State.event, hf, State.finish_enqueue t s o h (Or.inl hm) hown hroom]

/-! ### A write that ends -/

/-- With no request waiting, the end of a write leaves the port with none outstanding (R18). -/
theorem Port.writeEnded_of_none {p : Port} (h : p.waiting = none) (ms : Nat) :
    p.writeEnded ms = { p with write := none } := by
  simp [Port.writeEnded, h]

/-- A request that waited is sent at the end of a write, and its own write timer starts (R18, R19). -/
theorem Port.writeEnded_of_some {p : Port} {w : WriteRequest} (h : p.waiting = some w) (ms : Nat) :
    p.writeEnded ms = { p.sending [.write w.serial w.record] with
      waiting := none, write := some ⟨w, ⟨ms, 1000⟩⟩ } := by
  simp [Port.writeEnded, h]

/-! ### The maze replaced -/

/-- A maze whose count has not fallen, or a part with no lane held, leaves no place ungiven (R101). -/
theorem State.Settled.withMaze {s : State} (h : s.Settled) (m : Maze)
    (hm : s.maze.count ≤ m.count ∨ s.heldOrder = []) : ({ s with maze := m } : State).Settled := by
  obtain ⟨hg, hq, ho⟩ := h
  refine ⟨?_, hq, ho⟩
  rcases hm with hm | hm
  · rcases hg with hg | hg
    · exact .inl hg
    · right
      have hlt := (State.placeFree_iff s).not.1 (by simp [hg])
      have : ¬({ s with maze := m } : State).placeFree = true := by
        rw [State.placeFree_iff]
        show ¬m.count + s.reservations < s.settings.mazeLimit
        omega
      simpa using this
  · exact .inl hm

/-- A maze whose count has not risen keeps a free place free (R97). -/
theorem State.withMaze_placeFree {s : State} (m : Maze) (hm : m.count ≤ s.maze.count)
    (h : s.placeFree = true) : ({ s with maze := m } : State).placeFree = true := by
  rw [State.placeFree_iff] at h ⊢
  show m.count + s.reservations < s.settings.mazeLimit
  omega

/-! ### withLane and withPort -/

theorem State.modLane_eq (s : State) (n : LaneId) (f : Lane → Lane) :
    s.modLane n f = s.withLane n (f (s.lane n)) := rfl

theorem State.modPort_eq (s : State) (n : LaneId) (f : Port → Port) :
    s.modPort n f = s.withPort n (f (s.port n)) := rfl

theorem State.withLane_self (s : State) (n : LaneId) : s.withLane n (s.lane n) = s := by
  cases s; simp [State.withLane, State.lane]

theorem State.withPort_self (s : State) (n : LaneId) : s.withPort n (s.port n) = s := by
  cases s; simp [State.withPort, State.port]

@[simp] theorem State.withLane_lane_same (s : State) (n : LaneId) (l : Lane) :
    (s.withLane n l).lane n = l := by simp [State.withLane, State.lane]

@[simp] theorem State.withLane_lane_other (s : State) {n m : LaneId} (h : m ≠ n) (l : Lane) :
    (s.withLane n l).lane m = s.lane m := by simp [State.withLane, State.lane, h]

@[simp] theorem State.withPort_port_same (s : State) (n : LaneId) (p : Port) :
    (s.withPort n p).port n = p := by simp [State.withPort, State.port]

@[simp] theorem State.withPort_port_other (s : State) {n m : LaneId} (h : m ≠ n) (p : Port) :
    (s.withPort n p).port m = s.port m := by simp [State.withPort, State.port, h]

@[simp] theorem State.withLane_withLane (s : State) (n : LaneId) (l l' : Lane) :
    (s.withLane n l).withLane n l' = s.withLane n l' := by simp [State.withLane]

@[simp] theorem State.withPort_withPort (s : State) (n : LaneId) (p p' : Port) :
    (s.withPort n p).withPort n p' = s.withPort n p' := by simp [State.withPort]

/-- Ports before lanes: the form in which the statements write both. -/
theorem State.withPort_withLane (s : State) (n m : LaneId) (l : Lane) (p : Port) :
    (s.withLane n l).withPort m p = (s.withPort m p).withLane n l := rfl

@[simp] theorem State.withLane_ownAddress (s : State) (n : LaneId) (l : Lane) :
    (s.withLane n l).ownAddress = s.ownAddress := rfl

@[simp] theorem State.withLane_ms (s : State) (n : LaneId) (l : Lane) :
    (s.withLane n l).ms = s.ms := rfl

@[simp] theorem State.withLane_freeFlowPin (s : State) (n : LaneId) (l : Lane) :
    (s.withLane n l).freeFlowPin = s.freeFlowPin := rfl

@[simp] theorem State.withLane_freeFlowSetting (s : State) (n : LaneId) (l : Lane) :
    (s.withLane n l).freeFlowSetting = s.freeFlowSetting := rfl

@[simp] theorem State.withLane_heldOrder (s : State) (n : LaneId) (l : Lane) :
    (s.withLane n l).heldOrder = s.heldOrder := rfl

@[simp] theorem State.withLane_tables (s : State) (n : LaneId) (l : Lane) :
    (s.withLane n l).tables = s.tables := rfl

@[simp] theorem State.withLane_passback (s : State) (n : LaneId) (l : Lane) :
    (s.withLane n l).passback = s.passback := rfl

@[simp] theorem State.withLane_maze (s : State) (n : LaneId) (l : Lane) :
    (s.withLane n l).maze = s.maze := rfl

@[simp] theorem State.withLane_deferred (s : State) (n : LaneId) (l : Lane) :
    (s.withLane n l).deferred = s.deferred := rfl

@[simp] theorem State.withLane_time (s : State) (n : LaneId) (l : Lane) :
    (s.withLane n l).time = s.time := rfl

@[simp] theorem State.withLane_loop (s : State) (n : LaneId) (l : Lane) :
    (s.withLane n l).loop = s.loop := rfl

@[simp] theorem State.withLane_mgmt (s : State) (n : LaneId) (l : Lane) :
    (s.withLane n l).mgmt = s.mgmt := rfl

@[simp] theorem State.withLane_choices (s : State) (n : LaneId) (l : Lane) :
    (s.withLane n l).choices = s.choices := rfl

@[simp] theorem State.withLane_pending (s : State) (n : LaneId) (l : Lane) :
    (s.withLane n l).pending = s.pending := rfl

@[simp] theorem State.withLane_ports (s : State) (n : LaneId) (l : Lane) :
    (s.withLane n l).ports = s.ports := rfl

@[simp] theorem State.withPort_ownAddress (s : State) (n : LaneId) (p : Port) :
    (s.withPort n p).ownAddress = s.ownAddress := rfl

@[simp] theorem State.withPort_ms (s : State) (n : LaneId) (p : Port) :
    (s.withPort n p).ms = s.ms := rfl

@[simp] theorem State.withPort_freeFlowPin (s : State) (n : LaneId) (p : Port) :
    (s.withPort n p).freeFlowPin = s.freeFlowPin := rfl

@[simp] theorem State.withPort_freeFlowSetting (s : State) (n : LaneId) (p : Port) :
    (s.withPort n p).freeFlowSetting = s.freeFlowSetting := rfl

@[simp] theorem State.withPort_heldOrder (s : State) (n : LaneId) (p : Port) :
    (s.withPort n p).heldOrder = s.heldOrder := rfl

@[simp] theorem State.withPort_tables (s : State) (n : LaneId) (p : Port) :
    (s.withPort n p).tables = s.tables := rfl

@[simp] theorem State.withPort_passback (s : State) (n : LaneId) (p : Port) :
    (s.withPort n p).passback = s.passback := rfl

@[simp] theorem State.withPort_maze (s : State) (n : LaneId) (p : Port) :
    (s.withPort n p).maze = s.maze := rfl

@[simp] theorem State.withPort_deferred (s : State) (n : LaneId) (p : Port) :
    (s.withPort n p).deferred = s.deferred := rfl

@[simp] theorem State.withPort_time (s : State) (n : LaneId) (p : Port) :
    (s.withPort n p).time = s.time := rfl

@[simp] theorem State.withPort_loop (s : State) (n : LaneId) (p : Port) :
    (s.withPort n p).loop = s.loop := rfl

@[simp] theorem State.withPort_mgmt (s : State) (n : LaneId) (p : Port) :
    (s.withPort n p).mgmt = s.mgmt := rfl

@[simp] theorem State.withPort_choices (s : State) (n : LaneId) (p : Port) :
    (s.withPort n p).choices = s.choices := rfl

@[simp] theorem State.withPort_pending (s : State) (n : LaneId) (p : Port) :
    (s.withPort n p).pending = s.pending := rfl

@[simp] theorem State.withPort_lanes (s : State) (n : LaneId) (p : Port) :
    (s.withPort n p).lanes = s.lanes := rfl

@[simp] theorem State.withLane_port (s : State) (n m : LaneId) (l : Lane) :
    (s.withLane n l).port m = s.port m := rfl

@[simp] theorem State.withPort_lane (s : State) (n m : LaneId) (p : Port) :
    (s.withPort n p).lane m = s.lane m := rfl

/-! ### What the verdicts and the resting state read of a lane -/

/-- Another lane's transaction is not this lane's (R32). -/
theorem State.openElsewhere_withLane (s : State) (n : LaneId) (l : Lane) (serial : Serial) :
    (s.withLane n l).openElsewhere n serial = s.openElsewhere n serial := by
  cases n <;>
    simp [State.openElsewhere, LaneId.all, State.txn, State.lane, State.withLane, PerLane.get, PerLane.set]

/-- The resting state reads a lane's role, key and command setting, its reader, the tables and the day (R65). -/
theorem State.restingState_congr {s t : State} (n : LaneId) (hr : (t.lane n).role = (s.lane n).role)
    (hk : (t.lane n).keyHigh = (s.lane n).keyHigh) (hc : (t.lane n).commandOpen = (s.lane n).commandOpen)
    (ht : t.tables = s.tables) (hd : t.time.dayState = s.time.dayState)
    (hp : (t.port n).status = (s.port n).status) : t.restingState n = s.restingState n := by
  have hs : t.shut n = s.shut n := by rw [State.shut, State.shut, State.keyControl, State.keyControl, hk, hc, ht]
  have hl : t.laneClosed n = s.laneClosed n := by rw [State.laneClosed, State.laneClosed, hs, ht, hd]
  have hu : t.readerUp n = s.readerUp n := by rw [State.readerUp, State.readerUp, hp]
  rw [State.restingState, State.restingState, hr, hs, hl, hu]

/-- The resting state of a lane replaced by one that agrees in role, key and command setting. -/
theorem State.restingState_withLane (s : State) (n : LaneId) (l : Lane) (hr : l.role = (s.lane n).role)
    (hk : l.keyHigh = (s.lane n).keyHigh) (hc : l.commandOpen = (s.lane n).commandOpen) :
    (s.withLane n l).restingState n = s.restingState n :=
  State.restingState_congr n (by simpa) (by simpa) (by simpa) rfl rfl rfl

/-- A lane that is not held leaves the held order as it is (R40). -/
theorem filter_ne_of_not_mem {n : LaneId} {l : List LaneId} (h : n ∉ l) : l.filter (· != n) = l := by
  apply List.filter_eq_self.2
  intro a ha
  simp only [bne_iff_ne, ne_eq]
  rintro rfl
  exact h ha

end Sys2Proof.Machine
end

