-- ==== Sys2Proof/Laws/Ops.lean ====
section
/-! SUPPORT. What each shared operation of the lanes, the ports and the verdicts makes of a state, written
with withLane and withPort: the equations that proofs cite instead of unfolding the operations. -/

namespace Sys2Proof.Machine

/-! ### Frames to the readers and counters -/

theorem State.send_eq (s : State) (n : LaneId) (f : ReaderTx) :
    s.send n f = s.withPort n ((s.port n).sending [f]) := rfl

theorem State.count_eq (s : State) (n : LaneId) (c : LaneCounter) (k : Nat) :
    s.count n c k = s.withLane n ((s.lane n).counting c k) := rfl

@[simp] theorem Port.sending_sending (p : Port) (a b : List ReaderTx) :
    (p.sending a).sending b = p.sending (a ++ b) := by simp [Port.sending]

/-- The final VERDICT of an open transaction (R16). -/
theorem State.sendFinal_eq {s : State} {n : LaneId} {t : Transaction} (d : Display) (lamp : Lamp)
    (days amount : Nat) (h : (s.lane n).txn = some t) :
    s.sendFinal n d lamp days amount =
      (s.withPort n ((s.port n).sending [.verdict true d lamp days amount])).withLane n
        { s.lane n with txn := some { t with finalDays := some days } } := by
  simp [State.sendFinal, State.modTxn, State.modLane_eq, State.send_eq, h]

/-- RELEASE ends the open transaction and takes the lane out of the held order (R17, R40). -/
theorem State.release_eq {s : State} {n : LaneId} {t : Transaction} (h : (s.lane n).txn = some t) :
    s.release n =
      { (s.withPort n ((s.port n).sending [.release t.serial])).withLane n
          { s.lane n with txn := none, holdTimer := none } with
        heldOrder := s.heldOrder.filter (· != n) } := by
  simp [State.release, State.txn, h, State.send_eq, State.modLane_eq]

/-- The same for a lane that is not held. -/
theorem State.release_of_free {s : State} {n : LaneId} {t : Transaction} (h : (s.lane n).txn = some t)
    (hn : n ∉ s.heldOrder) :
    s.release n = (s.withPort n ((s.port n).sending [.release t.serial])).withLane n
      { s.lane n with txn := none, holdTimer := none } := by
  rw [State.release_eq h, filter_ne_of_not_mem hn]
  rfl

/-! ### Coming to rest -/

/-- A lane whose resting state is not FAULT enters it, with nothing else (R65). -/
theorem State.rest_eq {s : State} {n : LaneId} (h : s.restingState n ≠ .fault) :
    s.rest n = s.withLane n { s.lane n with state := s.restingState n } := by
  simp only [State.rest]
  split
  · rename_i he
    rw [← he]
    exact (s.withLane_self n).symm
  · cases hst : s.restingState n <;> trivial

/-- A lane without a pending role comes to its resting state (R64, R65). -/
theorem State.comeToRest_eq {s : State} {n : LaneId} (hp : (s.lane n).pendingRole = none)
    (h : s.restingState n ≠ .fault) :
    s.comeToRest n = s.withLane n { s.lane n with state := s.restingState n } := by
  simp only [State.comeToRest, hp, State.rest_eq h]

/-! ### Free windows (R85 to R87) -/

/-- A REFUND notice fills the entry that is free (R140, R165). -/
theorem State.fillReservation_of_room {s : State} (o : Outgoing) (h : 0 < s.generalFree) :
    s.fillReservation o = s.enqueue o := if_pos h

theorem Lane.entryWindow_of_none {l : Lane} (h : l.lateFree = none) :
    l.entryWindow = if l.arm = .forward then some ⟨l.kept, false⟩ else none := by simp [Lane.entryWindow, h]

/-- A free window in its trail counts a free passage, with its maze credit (R86). -/
theorem State.countFree_eq (s : State) (n : LaneId) (k : Nat) :
    s.countFree n ⟨k, true⟩ =
      { s with maze := { s.maze with count := min 255 (s.maze.count + max 1 k) } }.withLane n
        ((s.lane n).counting .free 1) := rfl

/-- Where no free window has outlived FREE_FLOW there is none to close. -/
theorem State.closeLateTrail_of_none {s : State} {n : LaneId} (h : (s.lane n).lateFree = none) :
    s.closeLateTrail n = s := by simp [State.closeLateTrail, h]

/-- A free window in its trail that has outlived FREE_FLOW closes: free + 1 and its maze credit (R86). -/
theorem State.closeLateTrail_eq {s : State} {n : LaneId} {k : Nat}
    (h : (s.lane n).lateFree = some ⟨k, true⟩) :
    s.closeLateTrail n =
      { s with maze := { s.maze with count := min 255 (s.maze.count + max 1 k) } }.withLane n
        ({ s.lane n with lateFree := none, trailTimer := none }.counting .free 1) := by
  simp only [State.closeLateTrail, h, State.modLane_eq, State.countFree_eq, if_true, State.withLane_lane_same,
    State.withLane_maze]
  exact State.withLane_withLane { s with maze := { s.maze with count := min 255 (s.maze.count + max 1 k) } } n _ _

/-- The leaving of FREE_FLOW once free-flow has ended, with no role pending (R87). -/
theorem State.leaveFreeFlow_eq {s : State} {n : LaneId} (hr : (s.lane n).role = some .ticket)
    (hp : (s.lane n).pendingRole = none) (hf : s.freeFlowInForce = false) (h : s.restingState n ≠ .fault) :
    s.leaveFreeFlow n = s.withLane n (s.leftFree n (s.lane n)) := by
  have hset (l : Lane) : (s.withLane n l).settings = s.settings := rfl
  simp only [State.leaveFreeFlow, hp, hf, State.rest_eq h, State.startRecoveryIfIdle, State.startRecovery,
    State.modLane_eq, State.withLane_lane_same, hr, State.leftFree, hset]
  cases hst : s.restingState n
  case fault => exact absurd hst h
  case idle => by_cases hz : s.settings.recoveryTimeMs = 0 <;> simp [hz, State.timer]
  all_goals simp

/-- A refusal, for a lane that may stand in the held order (R47, R142). -/
theorem State.refuse_eq {s : State} {n : LaneId} {t : Transaction} (e : Display) (days : Nat)
    (h : (s.lane n).txn = some t) (hp : (s.lane n).pendingRole = none) (hr : s.restingState n ≠ .fault) :
    s.refuse n e days =
      { (s.withPort n ((s.port n).sending [.verdict true e .red days 0, .release t.serial])).withLane n
          ({ s.lane n with txn := none, holdTimer := none, state := s.restingState n }.counting .refused 1) with
        heldOrder := s.heldOrder.filter (· != n) } := by
  simp only [State.refuse]
  rw [State.sendFinal_eq e .red days 0 h, State.release_eq (t := { t with finalDays := some days }) (by simp)]
  simp only [State.withPort_withLane, State.count_eq]
  generalize hx : State.withLane _ n _ = x
  have hl : x.lane n = { s.lane n with txn := none, holdTimer := none }.counting .refused 1 := by
    subst hx; simp [State.lane, State.withLane]
  have hrs : x.restingState n = s.restingState n := by
    subst hx
    refine State.restingState_congr n ?_ ?_ ?_ rfl rfl ?_ <;>
      simp [State.lane, State.port, State.withLane, State.withPort, Lane.counting, Port.sending]
  rw [State.comeToRest_eq (by simp [hl, Lane.counting, hp]) (by rw [hrs]; exact hr), hrs, hl]
  subst hx
  simp [State.lane, State.port, State.withLane, State.withPort, Lane.counting]

/-- A refusal of a lane that is not held. -/
theorem State.refuse_of_free {s : State} {n : LaneId} {t : Transaction} (e : Display) (days : Nat)
    (h : (s.lane n).txn = some t) (hp : (s.lane n).pendingRole = none) (hr : s.restingState n ≠ .fault)
    (hn : n ∉ s.heldOrder) :
    s.refuse n e days =
      (s.withPort n ((s.port n).sending [.verdict true e .red days 0, .release t.serial])).withLane n
        ({ s.lane n with txn := none, holdTimer := none, state := s.restingState n }.counting .refused 1) := by
  rw [State.refuse_eq e days h hp hr, filter_ne_of_not_mem hn]
  rfl

/-! ### Latches -/

/-- A latch commutes with what a lane or a port takes (R182, R183). -/
theorem State.latch_withLane (x : State) (m : LaneId) (l : Lane) (f : Flag) (d : Nat) :
    (x.withLane m l).latch f d = (x.latch f d).withLane m l := by
  by_cases h : x.flagSet f = true
  · have h' : (x.withLane m l).flagSet f = true := h
    rw [State.latch, State.latch, if_pos h, if_pos h']
  · have h' : ¬(x.withLane m l).flagSet f = true := h
    rw [State.latch, State.latch, if_neg h, if_neg h']
    rfl

theorem State.latch_withPort (x : State) (m : LaneId) (p : Port) (f : Flag) (d : Nat) :
    (x.withPort m p).latch f d = (x.latch f d).withPort m p := by
  by_cases h : x.flagSet f = true
  · have h' : (x.withPort m p).flagSet f = true := h
    rw [State.latch, State.latch, if_pos h, if_pos h']
  · have h' : ¬(x.withPort m p).flagSet f = true := h
    rw [State.latch, State.latch, if_neg h, if_neg h']
    rfl

/-! ### The Passback Table (R49, R52, R57) -/

/-- A table with room takes an entry into its place. -/
theorem State.passbackInsert_of_room {s : State} (e : PassbackEntry) (h : s.passback.length < 256) :
    s.passbackInsert e = s.passbackPlace e := by
  simp only [State.passbackInsert]
  split
  · rw [if_neg (by omega)]
  · rfl

/-- A full table first gives up its first entry, with PASSBACK_EVICT. -/
theorem State.passbackInsert_of_full {s : State} (e : PassbackEntry) {first : PassbackEntry}
    {rest : List PassbackEntry} (hp : s.passback = first :: rest) (h : 256 ≤ s.passback.length) :
    s.passbackInsert e =
      ({ s with passback := rest }.latch .passbackEvict first.serial.toNat).passbackPlace e := by
  simp only [State.passbackInsert, hp]
  rw [if_pos (by rw [← hp]; exact h)]

@[simp] theorem insertByExpiry_length (e : PassbackEntry) (l : List PassbackEntry) :
    (insertByExpiry e l).length = l.length + 1 := by
  induction l with
  | nil => rfl
  | cons x l ih => simp only [insertByExpiry]; split <;> simp [ih]

theorem mem_insertByExpiry {x e : PassbackEntry} {l : List PassbackEntry} :
    x ∈ insertByExpiry e l ↔ x = e ∨ x ∈ l := by
  induction l with
  | nil => simp [insertByExpiry]
  | cons y l ih =>
    simp only [insertByExpiry]
    split
    · simp
    · simp [ih, or_left_comm]

theorem State.passbackInsert_withLane (s : State) (m : LaneId) (l : Lane) (e : PassbackEntry) :
    (s.withLane m l).passbackInsert e = (s.passbackInsert e).withLane m l := by
  by_cases h : s.passback.length < 256
  · rw [State.passbackInsert_of_room e h, State.passbackInsert_of_room e (s := s.withLane m l) h]
    rfl
  · cases hp : s.passback with
    | nil => rw [hp] at h; exact absurd (by decide) h
    | cons first rest =>
      rw [State.passbackInsert_of_full e hp (by omega),
        State.passbackInsert_of_full e (s := s.withLane m l) hp (by simp; omega)]
      exact congrArg (State.passbackPlace · e)
        (State.latch_withLane { s with passback := rest } m l .passbackEvict first.serial.toNat)

/-- The entry made at the unlock commutes with what a lane takes. -/
theorem State.passbackUnlock_withLane (s : State) (n m : LaneId) (l : Lane) (t : Transaction) :
    (s.withLane m l).passbackUnlock n t = (s.passbackUnlock n t).withLane m l := by
  simp only [State.passbackUnlock, State.withLane_tables, State.withLane_ms]
  split <;> try rfl
  split <;> try rfl
  simp only [State.passbackFind, State.withLane_passback]
  split
  · exact State.passbackInsert_withLane s m l _
  · split
    · rfl
    · exact State.latch_withLane ((s.passbackRemove _ _).passbackPlace _) m l _ _

theorem State.passbackInsert_withPort (s : State) (m : LaneId) (p : Port) (e : PassbackEntry) :
    (s.withPort m p).passbackInsert e = (s.passbackInsert e).withPort m p := by
  by_cases h : s.passback.length < 256
  · rw [State.passbackInsert_of_room e h, State.passbackInsert_of_room e (s := s.withPort m p) h]
    rfl
  · cases hp : s.passback with
    | nil => rw [hp] at h; exact absurd (by decide) h
    | cons first rest =>
      rw [State.passbackInsert_of_full e hp (by omega),
        State.passbackInsert_of_full e (s := s.withPort m p) hp (by simp; omega)]
      exact congrArg (State.passbackPlace · e)
        (State.latch_withPort { s with passback := rest } m p .passbackEvict first.serial.toNat)

/-- The entry made at the unlock commutes with what a port takes. -/
theorem State.passbackUnlock_withPort (s : State) (n m : LaneId) (p : Port) (t : Transaction) :
    (s.withPort m p).passbackUnlock n t = (s.passbackUnlock n t).withPort m p := by
  simp only [State.passbackUnlock, State.withPort_tables, State.withPort_ms]
  split <;> try rfl
  split <;> try rfl
  simp only [State.passbackFind, State.withPort_passback]
  split
  · exact State.passbackInsert_withPort s m p _
  · split
    · rfl
    · exact State.latch_withPort ((s.passbackRemove _ _).passbackPlace _) m p _ _

/-- The outstanding write of lane `n` handed over (R34, R82, R85). -/
theorem State.disownWrite_eq (s : State) (n : LaneId) (heir : WriteOwner) :
    s.disownWrite n heir = s.withPort n ((s.port n).disowned heir) := by
  show s.withPort n _ = _
  congr 1
  simp only [Port.disowned, State.port]
  congr 1
  congr 1
  funext w
  split <;> simp_all

/-! ### The unlock -/

/-- The unlock of a grant: its passback entry, and the lane as R46 and R71 leave it. -/
theorem State.unlock_eq {s : State} {n : LaneId} {t : Transaction} (h : (s.lane n).txn = some t) :
    s.unlock n = (s.passbackUnlock n t).withLane n
      ((s.lane n).unlocking ⟨s.ms, t.pinned.settingsInForce.grantTimeS * 1000⟩) := by
  simp only [State.unlock, State.txn, h, State.modLane_eq, State.count_eq, State.passbackUnlock_withLane,
    State.timer, Lane.unlocking, Lane.counting]
  by_cases ha : (s.lane n).arm = .forward <;> cases hl : (s.lane n).lateFree <;> simp [ha]

/-- The moment of the grant of lane `n`'s transaction (R46). -/
theorem State.unlockOrSettle_eq {s : State} {n : LaneId} {t : Transaction} (h : (s.lane n).txn = some t) :
    s.unlockOrSettle n = s.grantedAt n (s.lane n) t := by
  have hl : ({ s.lane n with txn := some t } : Lane) = s.lane n := by rw [← h]
  unfold State.unlockOrSettle State.grantedAt
  split
  · simp [State.setLaneState, State.modLane_eq, ← h]
  · rw [hl]; exact State.unlock_eq h

/-! ### The lapse -/

/-- A lapse: the frames, the lane, the passback table and the maze as R76 leaves them. -/
theorem State.lapse_eq {s : State} {n : LaneId} {t : Transaction} (h : (s.lane n).txn = some t) :
    s.lapse n = { (s.withPort n ((s.port n).sending [.release t.serial])).withLane n (s.lane n).lapsed with
      heldOrder := s.heldOrder.filter (· != n)
      passback := s.passback.filter fun e : PassbackEntry => !e.isGrantOf n t
      maze := { s.maze with count := min 255 (s.maze.count + (s.lane n).lapseCredit) } } := by
  have hc : ∀ (u : State) (l : Lane) (p : List PassbackEntry), l.txn = some t →
      State.release { u.withLane n l with passback := p } n =
        { (u.withPort n ((u.port n).sending [.release t.serial])).withLane n l.released with
          heldOrder := u.heldOrder.filter (· != n), passback := p } := by
    intro u l p hl
    rw [State.release_eq (t := t) (by show ((u.withLane n l).lane n).txn = some t; simp [hl])]
    simp [State.withPort, State.withLane, State.port, State.lane, Lane.released]
  simp only [State.lapse, State.txn, h, State.modLane_eq, State.count_eq, State.passbackCancel]
  simp only [State.withLane_lane_same, State.withLane_withLane]
  rw [hc s _ _ (by simp [Lane.counting])]
  simp [State.credit, Lane.lapsed, Lane.released, Lane.lapseCredit, Lane.counting]
  cases hw : (s.lane n).window with
  | none => simp
  | some w => obtain ⟨k, b⟩ := w; cases b <;> simp [windowCredit]

end Sys2Proof.Machine
end

