-- ==== Sys2Proof/Laws/Loop.lean ====
section
/-! SUPPORT. Messages from the loop: what the receive tests make of a message that is consumed, broadcast or
passed on, and the event of a command and of a forwarded message. -/

namespace Sys2Proof.Machine

/-! ### The receive tests (R162) -/

/-- A good message with the link UP is heard (R169). -/
theorem State.goodMessage_of_up {s : State} (h : s.loop.link = .up) : s.goodMessage = s.heard := by
  simp [State.goodMessage, State.validInput, State.heard, State.timer, h]

@[simp] theorem State.heard_isOwn (s : State) (a : Byte) : s.heard.isOwn a = s.isOwn a := rfl

@[simp] theorem State.heard_passThrough (s : State) : s.heard.passThrough = s.passThrough := rfl

@[simp] theorem State.heard_lane (s : State) (n : LaneId) : s.heard.lane n = s.lane n := rfl

@[simp] theorem State.heard_port (s : State) (n : LaneId) : s.heard.port n = s.port n := rfl

@[simp] theorem State.heard_placeFree (s : State) : s.heard.placeFree = s.placeFree := rfl

/-- Hearing a message keeps a settled part settled. -/
theorem State.Settled.heard {s : State} (h : s.Settled) : s.heard.Settled :=
  h.congr rfl rfl rfl rfl rfl rfl rfl rfl

/-- A message that reaches test 4 is delivered, delivered and passed on, or passed on (R162, tests 4 to 6). -/
theorem State.receive_of_accepts {s : State} {type : Byte} {m : Arrival} (f : State → State)
    (h : s.Accepts type m) :
    s.receive type m f =
      if s.isOwn m.destination then f s.heard
      else if m.destination = 31 then (if s.passThrough then s.heard else f s.heard).forward type m
      else s.heard.forward type m := by
  obtain ⟨hl, hi, ho, hh⟩ := h
  simp [State.receive, hi, State.goodMessage_of_up hl, hl, ho, Nat.not_le.2 hh]

/-- A message consumed is delivered. -/
theorem State.receive_of_consumes {s : State} {type : Byte} {m : Arrival} (f : State → State)
    (h : s.Consumes type m) : s.receive type m f = f s.heard := by
  simp [State.receive_of_accepts f h.1, h.2]

/-- A message processed is delivered, and passed on unless it was addressed to this controller alone. -/
theorem State.receive_of_processes {s : State} {type : Byte} {m : Arrival} (f : State → State)
    (h : s.Processes type m) :
    s.receive type m f =
      if s.isOwn m.destination then f s.heard else (f s.heard).forward type m := by
  obtain ⟨ha, ho, hd⟩ := h
  have hp : s.passThrough = false := by
    simp only [State.passThrough]
    cases hs : s.ownAddress <;> simp_all
  rw [State.receive_of_accepts f ha]
  split
  · rfl
  · rcases hd with hd | hd
    · contradiction
    · simp [hd, hp]

/-! ### A message passed on -/

/-- The event that forwards one message on a settled part ends with it passed on (R164, R168). -/
theorem State.finish_forward {t s : State} (type : Byte) (m : Arrival) (h : t.Settled)
    (hp : s.placeFree = true → t.placeFree = true) :
    (t.forward type m).finish s
      = t.passedOn ⟨type, m.destination, m.source, m.hops + 1, m.payload⟩ := by
  obtain ⟨hg, ⟨hr, hq⟩, ho⟩ := h
  by_cases hfull : t.loop.transit.length < 16
  · have hf : t.forward type m = { t with loop := { t.loop with
        transit := t.loop.transit ++ [⟨type, m.destination, m.source, m.hops + 1, m.payload⟩] } } := by
      rw [State.forward, if_pos hfull]
    rw [hf]
    generalize hx : ({ t with loop := _ } : State) = x
    have hgx : x.PlacesGiven := by subst hx; exact hg
    have hpx : s.placeFree = true → x.placeFree = true := by subst hx; exact hp
    have hqx : x.loop.pendingEvents = [] ∨ x.generalFree = 0 := by subst hx; exact hq
    have hrx : x.mgmt.raised = [] := by subst hx; exact hr
    simp only [State.finish, State.givePlaces_of_given _ _ hgx, State.checkMazeFull_of_kept _ _ hpx,
      State.queuePending_of_queued _ hqx, State.flushRaised_of_none _ hrx]
    cases hsend : t.loop.sending with
    | some y =>
      have : x.OutputServed := .inl (by subst hx; simp [hsend])
      rw [State.arbitrate_of_served _ _ this, State.queuePending_of_queued _ hqx]
      subst hx
      simp [State.passedOn, hsend, hfull]
    | none =>
      rcases ho with ho | ⟨ht, hi⟩
      · simp [hsend] at ho
      · have ha : x.arbitrate s.loop.sending.isNone
            = t.passedOn ⟨type, m.destination, m.source, m.hops + 1, m.payload⟩ := by
          subst hx
          simp [State.arbitrate, hsend, ht, hi, State.startTransit, State.passedOn]
        rw [ha, State.queuePending_of_queued]
        have hpe : t.loop.pendingEvents = [] := by
          rcases hq with hq | hq
          · exact hq
          · have := State.generalFree_of_empty t hi; omega
        left
        simp [State.passedOn, hsend, hpe]
  · have hf : t.forward type m
        = { t with loop := { t.loop with transitDrops := satAdd16 t.loop.transitDrops 1 } } := by
      rw [State.forward, if_neg hfull]
    have hsome : t.loop.sending.isNone = false := by
      rcases ho with ho | ⟨ht, -⟩
      · cases hsend : t.loop.sending <;> simp_all
      · rw [ht] at hfull; exact absurd (by decide) hfull
    rw [hf, State.finish_of_settled]
    · simp [State.passedOn, hsome, hfull]
    · exact State.Settled.congr ⟨hg, ⟨hr, hq⟩, ho⟩ rfl rfl rfl rfl rfl rfl rfl rfl
    · exact hp

/-- The event of a notice that is processed: its delivery, passed on if it was a broadcast. -/
theorem State.event_of_processes {s t : State} {type : Byte} {m : Arrival} {f : State → State}
    (h : s.Processes type m) (hf : f s.heard = t) (ht : t.Settled)
    (hp : s.placeFree = true → t.placeFree = true) :
    (s.event fun x => x.receive type m f) = t.onward s type m := by
  simp only [State.event, State.receive_of_processes f h, hf, State.onward]
  split
  · exact State.finish_of_settled t s ht hp
  · exact State.finish_forward type m ht hp

/-! ### Commands (R163, R174, R175) -/

/-- The event of a command that is carried out or refused: what its body leaves, with its ANSWER offered. -/
theorem State.event_of_command {s t : State} {type code : Byte} {m : Arrival} {body : State → CommandResult}
    (h : s.TakesCommand type m) (hb : (body s.heard).state = t) (ht : t.Settled)
    (hp : s.placeFree = true → t.placeFree = true) (ho : t.ownAddress = s.ownAddress) :
    (s.event fun x => x.receive type m fun x => x.commandDelivered m fun x => x.takeCommand code body)
      = t.offered (.answer ⟨code, (body s.heard).status, (body s.heard).table, (body s.heard).data⟩) := by
  obtain ⟨-, hc, hm, hd, ha⟩ := h
  have hown : t.ownAddress.isSome = true := by
    have := hc.2
    rw [ho]
    cases hs : s.ownAddress with
    | none => rw [State.isOwn, hs] at this; exact absurd this (by simp)
    | some a => rfl
  refine State.event_eq_offered (t := t) ?_ ht hp hown (.inl rfl)
  rw [State.receive_of_consumes _ hc]
  have ha' : ¬4 ≤ s.heard.answersOccupied := by
    have : s.heard.answersOccupied = s.answersOccupied := rfl
    omega
  simp only [State.commandDelivered, hm, hd, ne_eq, not_false_eq_true, and_self, if_true, State.takeCommand,
    ha', if_false, hb]

/-- The event of a command that finds four answer entries occupied: one overrun (R175). -/
theorem State.event_of_overrun {s : State} {type code : Byte} {m : Arrival} (body : State → CommandResult)
    (hs : s.Settled) (hc : s.Consumes type m) (hm : m.source = 0) (hd : m.destination ≠ 31)
    (ha : 4 ≤ s.answersOccupied) :
    (s.event fun x => x.receive type m fun x => x.commandDelivered m fun x => x.takeCommand code body)
      = { s.heard with mgmt := { s.mgmt with overruns := min 65535 (s.mgmt.overruns + 1) } } := by
  have ha' : 4 ≤ s.heard.answersOccupied := ha
  refine State.event_eq ?_ (hs.heard.congr rfl rfl rfl rfl rfl rfl rfl rfl) id
  rw [State.receive_of_consumes _ hc]
  simp only [State.commandDelivered, hm, hd, ne_eq, not_false_eq_true, and_self, if_true, State.takeCommand,
    ha', satAdd16]
  rfl

end Sys2Proof.Machine
end

