-- ==== Sys2Proof/Laws/PerInstr.lean ====
section
/-! SUPPORT. RowFits, one lemma for each constructor: the operand of a well-formed command is one of its own
row's, so that a frame the part accepts carries the row's own message. -/

namespace Sys2Proof.Laws.RowFits

open Sys2Proof Sys2Proof.Machine

/-- What a well-formed command's operand is, row by row. -/
def Statement (i : Instr) : Prop :=
  i.WellFormed = true →
    match i with
    | .card _ f => ∀ m, parseFrame f = some m → ∃ serial record, m = .card serial record
    | .gone _ f => ∀ m, parseFrame f = some m → ∃ serial, m = .gone serial
    | .writeResult _ f => ∀ m, parseFrame f = some m → ∃ serial outcome, m = .writeResult serial outcome
    | .beat _ f => ∀ m, parseFrame f = some m → ∃ ok, m = .beat ok
    | .passbackEntryExpiry serial group => serial ≠ 0 ∧ group < 64
    | .unknownCommand t _ => t.toNat = 0 ∨ (12 < t.toNat ∧ t.toNat < 0x20)
        ∨ (0x23 < t.toNat ∧ t.toNat < 0x40) ∨ 0x44 < t.toNat
    | _ => True

/-- A frame that the part accepts has one of the four types, and its message is that type's (R9). -/
theorem parseFrame_type {f : ReaderFrame} {m : ReaderMessage} (h : parseFrame f = some m) :
    (f.type = 1 ∧ ∃ serial record, m = .card serial record) ∨ (f.type = 2 ∧ ∃ serial, m = .gone serial)
      ∨ (f.type = 3 ∧ ∃ serial outcome, m = .writeResult serial outcome)
      ∨ (f.type = 4 ∧ ∃ ok, m = .beat ok) := by
  unfold parseFrame at h
  split at h
  · cases h
  · split at h
    · rename_i ht
      rw [Option.map_eq_some_iff] at h
      obtain ⟨s, -, rfl⟩ := h
      exact .inl ⟨ht.1, _, _, rfl⟩
    · split at h
      · rename_i ht
        rw [Option.map_eq_some_iff] at h
        obtain ⟨s, -, rfl⟩ := h
        exact .inr (.inl ⟨ht.1, _, rfl⟩)
      · split at h
        · rename_i ht
          split at h
          · cases h
            exact .inr (.inr (.inl ⟨ht.1, _, _, rfl⟩))
          · cases h
        · split at h
          · rename_i ht
            split at h
            · cases h
              exact .inr (.inr (.inr ⟨ht.1, _, rfl⟩))
            · split at h
              · cases h
                exact .inr (.inr (.inr ⟨ht.1, _, rfl⟩))
              · cases h
          · cases h

/-- A frame that belongs to a row and that the part accepts has the row's type. -/
theorem type_of_belongs {f : ReaderFrame} {m : ReaderMessage} {code : Byte} (hb : f.belongsTo code = true)
    (h : parseFrame f = some m) : f.type = code := by
  simp only [ReaderFrame.belongsTo, Bool.or_eq_true, beq_iff_eq, decide_eq_true_eq] at hb
  rcases hb with (hb | hb) | hb
  · exact hb
  · rcases parseFrame_type h with ⟨ht, -⟩ | ⟨ht, -⟩ | ⟨ht, -⟩ | ⟨ht, -⟩ <;> (rw [ht] at hb; exact absurd hb (by decide))
  · rcases parseFrame_type h with ⟨ht, -⟩ | ⟨ht, -⟩ | ⟨ht, -⟩ | ⟨ht, -⟩ <;> (rw [ht] at hb; exact absurd hb (by decide))

theorem card (lane : LaneId) (frame : ReaderFrame) : Statement (.card lane frame) := by
  intro hw m h
  have ht := type_of_belongs hw h
  rcases parseFrame_type h with ⟨-, hm⟩ | ⟨hc, -⟩ | ⟨hc, -⟩ | ⟨hc, -⟩
  · exact hm
  all_goals exact absurd (ht.symm.trans hc) (by decide)

theorem gone (lane : LaneId) (frame : ReaderFrame) : Statement (.gone lane frame) := by
  intro hw m h
  have ht := type_of_belongs hw h
  rcases parseFrame_type h with ⟨hc, -⟩ | ⟨-, hm⟩ | ⟨hc, -⟩ | ⟨hc, -⟩
  · exact absurd (ht.symm.trans hc) (by decide)
  · exact hm
  all_goals exact absurd (ht.symm.trans hc) (by decide)

theorem writeResult (lane : LaneId) (frame : ReaderFrame) : Statement (.writeResult lane frame) := by
  intro hw m h
  have ht := type_of_belongs hw h
  rcases parseFrame_type h with ⟨hc, -⟩ | ⟨hc, -⟩ | ⟨-, hm⟩ | ⟨hc, -⟩
  · exact absurd (ht.symm.trans hc) (by decide)
  · exact absurd (ht.symm.trans hc) (by decide)
  · exact hm
  · exact absurd (ht.symm.trans hc) (by decide)

theorem writeTimerExpiry (lane : LaneId) : Statement (.writeTimerExpiry lane) := fun _ => trivial

theorem beat (lane : LaneId) (frame : ReaderFrame) : Statement (.beat lane frame) := by
  intro hw m h
  have ht := type_of_belongs hw h
  rcases parseFrame_type h with ⟨hc, -⟩ | ⟨hc, -⟩ | ⟨hc, -⟩ | ⟨-, hm⟩
  · exact absurd (ht.symm.trans hc) (by decide)
  · exact absurd (ht.symm.trans hc) (by decide)
  · exact absurd (ht.symm.trans hc) (by decide)
  · exact hm

theorem heartbeatTimerExpiry (lane : LaneId) : Statement (.heartbeatTimerExpiry lane) := fun _ => trivial

theorem rotateFwdStart (lane : LaneId) : Statement (.rotateFwdStart lane) := fun _ => trivial

theorem rotateFwdDone (lane : LaneId) : Statement (.rotateFwdDone lane) := fun _ => trivial

theorem rotateRevStart (lane : LaneId) : Statement (.rotateRevStart lane) := fun _ => trivial

theorem rotateRevDone (lane : LaneId) : Statement (.rotateRevDone lane) := fun _ => trivial

theorem rotateReturn (lane : LaneId) : Statement (.rotateReturn lane) := fun _ => trivial

theorem body (lane : LaneId) (breakMs : Nat) : Statement (.body lane breakMs) := fun _ => trivial

theorem keyChange (lane : LaneId) (level : Bool) : Statement (.keyChange lane level) := fun _ => trivial

theorem grantTimerExpiry (lane : LaneId) : Statement (.grantTimerExpiry lane) := fun _ => trivial

theorem trailTimerExpiry (lane : LaneId) : Statement (.trailTimerExpiry lane) := fun _ => trivial

theorem recoveryTimerExpiry (lane : LaneId) : Statement (.recoveryTimerExpiry lane) := fun _ => trivial

theorem holdTimerExpiry (lane : LaneId) : Statement (.holdTimerExpiry lane) := fun _ => trivial

theorem alarmTimerExpiry (lane : LaneId) : Statement (.alarmTimerExpiry lane) := fun _ => trivial

theorem freeFlowPinChange (level : Bool) : Statement (.freeFlowPinChange level) := fun _ => trivial

theorem liftRunChange (level : Bool) : Statement (.liftRunChange level) := fun _ => trivial

theorem chair : Statement .chair := fun _ => trivial

theorem windowTimerExpiry : Statement .windowTimerExpiry := fun _ => trivial

theorem lgBeamBody (breakMs : Nat) : Statement (.lgBeamBody breakMs) := fun _ => trivial

theorem passbackEntryExpiry (serial : Serial) (group : Nat) : Statement (.passbackEntryExpiry serial group) := by
  intro hw
  simp only [Instr.WellFormed, Bool.and_eq_true, bne_iff_ne, ne_eq, decide_eq_true_eq] at hw
  exact ⟨hw.1, by omega⟩

theorem stationClockAdvance : Statement .stationClockAdvance := fun _ => trivial

theorem intervalPrescalerExpiry : Statement .intervalPrescalerExpiry := fun _ => trivial

theorem intervalEnd : Statement .intervalEnd := fun _ => trivial

theorem time (message : Arrival) : Statement (.time message) := fun _ => trivial

theorem dayOpen (message : Arrival) : Statement (.dayOpen message) := fun _ => trivial

theorem dayClose (message : Arrival) : Statement (.dayClose message) := fun _ => trivial

theorem passage (message : Arrival) : Statement (.passage message) := fun _ => trivial

theorem transitMessage (type : Byte) (message : Arrival) : Statement (.transitMessage type message) := fun _ => trivial

theorem idleFill : Statement .idleFill := fun _ => trivial

theorem silenceTimerExpiry : Statement .silenceTimerExpiry := fun _ => trivial

theorem trainingTimerExpiry : Statement .trainingTimerExpiry := fun _ => trivial

theorem sendEnd : Statement .sendEnd := fun _ => trivial

theorem load (message : Arrival) : Statement (.load message) := fun _ => trivial

theorem commit (message : Arrival) : Statement (.commit message) := fun _ => trivial

theorem abortLoad (message : Arrival) : Statement (.abortLoad message) := fun _ => trivial

theorem lane (message : Arrival) : Statement (.lane message) := fun _ => trivial

theorem freeFlow (message : Arrival) : Statement (.freeFlow message) := fun _ => trivial

theorem loadingHold (message : Arrival) : Statement (.loadingHold message) := fun _ => trivial

theorem readStatus (message : Arrival) : Statement (.readStatus message) := fun _ => trivial

theorem readCounts (message : Arrival) : Statement (.readCounts message) := fun _ => trivial

theorem clearFlags (message : Arrival) : Statement (.clearFlags message) := fun _ => trivial

theorem reportEnable (message : Arrival) : Statement (.reportEnable message) := fun _ => trivial

theorem purgeDeferred (message : Arrival) : Statement (.purgeDeferred message) := fun _ => trivial

theorem restart (message : Arrival) : Statement (.restart message) := fun _ => trivial

theorem unknownCommand (type : Byte) (message : Arrival) : Statement (.unknownCommand type message) := by
  intro hw
  simp only [Instr.WellFormed, isCommandType, isNoticeType, isReportType, Bool.not_eq_true',
    Bool.or_eq_false_iff, Bool.and_eq_false_iff, decide_eq_false_iff_not] at hw
  show type.toNat = 0 ∨ _
  omega

theorem coldReset (pins : ResetPins) : Statement (.coldReset pins) := fun _ => trivial

end Sys2Proof.Laws.RowFits
end

