-- ==== Sys2Proof/Laws/Record.lean ====
section
/-! SUPPORT. Fields of a card record: a field set reads as set, and every other field reads as before. -/

namespace Sys2Proof.Machine

/-- A bit of a record after one field has been set. -/
theorem Record.getLsbD_setField (r : Record) (pos : Nat) {w : Nat} (v : BitVec w) (h : pos + w ≤ 256) (i : Nat) :
    (Record.setField r pos v).getLsbD i
      = if pos ≤ i ∧ i < pos + w then v.getLsbD (i - pos) else r.getLsbD i := by
  by_cases hi : i < 256
  · simp only [Record.setField, BitVec.getLsbD_or, BitVec.getLsbD_and, BitVec.getLsbD_not,
      BitVec.getLsbD_shiftLeft, BitVec.getLsbD_setWidth, BitVec.getLsbD_allOnes, hi, decide_true, Bool.true_and]
    by_cases hp : pos ≤ i
    · by_cases hw : i < pos + w
      · have h1 : ¬i < pos := by omega
        have h2 : i - pos < w := by omega
        have h3 : i - pos < 256 := by omega
        simp [hp, hw, h1, h2, h3]
      · have h1 : ¬i < pos := by omega
        have h2 : ¬i - pos < w := by omega
        simp [hw, h1, h2, BitVec.getLsbD_of_ge v (i - pos) (by omega)]
    · have h1 : i < pos := by omega
      simp [hp, h1]
  · rw [if_neg (by omega), BitVec.getLsbD_of_ge _ _ (by omega), BitVec.getLsbD_of_ge _ _ (by omega)]

/-- The field that was set. -/
theorem Record.field_setField_same (r : Record) (pos : Nat) {w : Nat} (v : BitVec w) (h : pos + w ≤ 256) :
    Record.field (Record.setField r pos v) pos w = v := by
  ext i hi
  rw [← BitVec.getLsbD_eq_getElem, ← BitVec.getLsbD_eq_getElem, Record.field, BitVec.getLsbD_extractLsb',
    Record.getLsbD_setField r pos v h, if_pos (by omega)]
  simp [hi]

/-- A field that does not overlap the one that was set. -/
theorem Record.field_setField_other (r : Record) (pos : Nat) {w : Nat} (v : BitVec w) (h : pos + w ≤ 256)
    (pos' w' : Nat) (hd : pos + w ≤ pos' ∨ pos' + w' ≤ pos) :
    Record.field (Record.setField r pos v) pos' w' = Record.field r pos' w' := by
  ext i hi
  rw [← BitVec.getLsbD_eq_getElem, ← BitVec.getLsbD_eq_getElem, Record.field, Record.field,
    BitVec.getLsbD_extractLsb', BitVec.getLsbD_extractLsb', Record.getLsbD_setField r pos v h,
    if_neg (by omega)]

/-- The bytes below a field do not change when it is set. -/
theorem bytesLE_take_setField (r : Record) (pos : Nat) {w : Nat} (v : BitVec w) (h : pos + w ≤ 256) (k : Nat)
    (hk : 8 * k ≤ pos) : (Record.setField r pos v).toNat % 2 ^ (8 * k) = r.toNat % 2 ^ (8 * k) := by
  apply Nat.eq_of_testBit_eq
  intro i
  rw [Nat.testBit_mod_two_pow, Nat.testBit_mod_two_pow]
  by_cases hi : i < 8 * k
  · have hb := Record.getLsbD_setField r pos v h i
    rw [if_neg (by omega)] at hb
    simpa [hi, BitVec.getLsbD] using hb
  · simp [hi]

/-- The low `n` bytes of a number depend on it modulo 256 to the `n` alone. -/
theorem bytesLE_mod (n v : Nat) : bytesLE n (v % 2 ^ (8 * n)) = bytesLE n v := by
  induction n generalizing v with
  | zero => rfl
  | succ n ih =>
    have h1 : BitVec.ofNat 8 (v % 2 ^ (8 * (n + 1))) = BitVec.ofNat 8 v := by
      apply BitVec.eq_of_toNat_eq
      simp only [BitVec.toNat_ofNat]
      exact Nat.mod_mod_of_dvd v (Nat.pow_dvd_pow 2 (by omega : 8 ≤ 8 * (n + 1)))
    have h2 : v % 2 ^ (8 * (n + 1)) / 256 = v / 256 % 2 ^ (8 * n) := by
      rw [show 8 * (n + 1) = 8 + 8 * n by ring, Nat.pow_add, show (2 : Nat) ^ 8 = 256 from rfl,
        Nat.mod_mul_right_div_self]
    rw [bytesLE, bytesLE, h1, h2, ih]

/-- The first `k` of `n` bytes. -/
theorem bytesLE_take (k n v : Nat) (h : k ≤ n) : (bytesLE n v).take k = bytesLE k v := by
  induction k generalizing n v with
  | zero => simp [bytesLE]
  | succ k ih =>
    obtain ⟨n, rfl⟩ : ∃ m, n = m + 1 := ⟨n - 1, by omega⟩
    simp [bytesLE, ih n (v / 256) (by omega)]

/-- The bytes that the check code covers do not change when the check code is set (R4, R6). -/
theorem Record.bytes_take_setField (r : Record) (v : BitVec 16) :
    (Record.bytes (Record.setField r 240 v)).take 30 = (Record.bytes r).take 30 := by
  rw [Record.bytes, Record.bytes, bytesLE_take _ _ _ (by omega), bytesLE_take _ _ _ (by omega),
    ← bytesLE_mod 30 r.toNat,
    ← bytesLE_mod 30 (BitVec.toNat (Record.setField r 240 v)), bytesLE_take_setField r 240 v (by omega) 30 (by omega)]

/-- Every record that finish completes is check-valid (R4, R6). -/
theorem Record.finish_checkValid (base r : Record) : Record.checkValid (Record.finish base r) = true := by
  simp only [Record.checkValid, Record.finish, Record.check]
  rw [Record.field_setField_same _ _ _ (by omega), Record.bytes_take_setField]
  simp

end Sys2Proof.Machine
end

