-- ==== Sys2Proof/Tests/Slice0.lean ====
section
/-! SUPPORT. Tests: the worked examples of the spec, the WellFormed smoke test, one small step per command, and
for each statement with hypotheses a concrete state that meets them. -/

namespace Sys2Proof.Tests

set_option Elab.async false

open Sys2Proof Sys2Proof.Machine

/-! ### Operands and states -/

/-- A frame of this type with these fields, its length and CRC as section 11.3 has them. -/
def frame (type : Byte) (fields : List Byte) : ReaderFrame :=
  ⟨type, BitVec.ofNat 8 fields.length, fields, crc16 (type :: BitVec.ofNat 8 fields.length :: fields)⟩

/-- A message to this destination, its length and CRC as section 11.4 has them. -/
def message (type : Byte) (payload : List Byte) (source destination hops : Byte) : Arrival :=
  ⟨destination, source, hops, BitVec.ofNat 16 payload.length, payload,
    crc16 (messageHeader type destination source hops payload.length ++ payload)⟩

/-- A command or notice from the station computer to address 4. -/
def order (type : Byte) (payload : List Byte) : Arrival := message type payload 0 4 0

/-- The card of the worked case (section 7.3): 7,340,118, first day 40, window 7, 5 days, price 25,600,
issue 52, with this day map. -/
def card (map : List Byte) : Record :=
  let bytes := bytesLE 4 7340118 ++ [40, 0] ++ bytesLE 2 40 ++ [7, 5] ++ bytesLE 4 25600 ++ map
    ++ bytesLE 2 52 ++ List.replicate 7 0
  Record.ofBytes (bytes ++ bytesLE 2 (crc16 bytes).toNat)

/-- Days 40 and 42 used: the worked case. -/
def freeCard : Record := card [0x11, 0, 0, 0, 0, 0, 0]

/-- Day 44 used as well. -/
def usedCard : Record := card [0x11, 0x01, 0, 0, 0, 0, 0]

/-- The serial of the worked case. -/
def serial : Serial := 7340118

/-- The ladder of the worked case. -/
def ladder : List Nat := [6200, 11800, 16900, 21500] ++ List.replicate 10 25600

/-- The product row of the worked case. -/
def row : ProductRow := ⟨true, 2, 500, 0, 1439, ladder⟩

/-- Tables of the worked case: lanes 1 and 2 TICKET (2 under key control), 3 EXIT, 4 SETTLE. -/
def tables : TableSet :=
  { TableSet.cold with
    generation := 19
    windows := ⟨true, 0, 0, 31, 15, .row 6⟩ :: List.replicate 7 .disabled
    products := [(6, row)]
    watchSet := [⟨3, 600⟩]
    dayQuality := [⟨40, 400⟩, ⟨42, 850⟩]
    laneTable := some ⟨⟨.ticket, false⟩, ⟨.ticket, true⟩, ⟨.exit, false⟩, ⟨.settle, false⟩⟩
    settings := some { Settings.beforeCommit with trailTimeMs := 300, ownGroup := 3, roundingStep := 50, refundCap := 100000 } }

/-- A lane at rest in this role and state. -/
def laneAt (r : Role) (st : LaneState) : Lane := { Lane.cold true with role := some r, state := st }

/-- A running part on season day 44 at 08:30, with its readers up, its link UP and its output idle. -/
def ready : State :=
  { State.reset with
    ms := 100000
    tables := tables
    lanes := ⟨laneAt .ticket .idle, laneAt .ticket .idle, laneAt .exit .exit, laneAt .settle .idle⟩
    ports := .const { Port.cold with status := .ok, heartbeat := some ⟨99900, 1000⟩ }
    maze := { Maze.cold false true with count := 5 }
    time := { TimeBase.cold with
      stationTime := 30600, clockSet := true, phase := 99000, dayState := .opened, seasonDay := 44
      openMinute := 510, closeMinute := 990, prescaler := some ⟨99000, 1000⟩ }
    loop := { Loop.cold with link := .up, silence := some ⟨99900, 200⟩ } }

/-- `ready` with the maze at its limit of 60. -/
def fullMaze : State := { ready with maze := { ready.maze with count := 60 } }

/-- A transaction of the worked card on `ready`. -/
def txn (record : Record) : Transaction := ready.openTransaction serial record

/-- The state after one command, or the state before it where the command gives none. -/
def after (c : Instr) (s : State) : State :=
  match exec c s with
  | .next t => t
  | .fault _ | .refused _ => s

/-- `ready` is settled, and stays so with lanes, ports, tables and times replaced, while nothing waits. -/
theorem settled_of_idle {s : State} (h1 : s.heldOrder = []) (h2 : s.mgmt.raised = [])
    (h3 : s.loop.pendingEvents = []) (h4 : s.loop.transit = []) (h5 : s.loop.insertQueue = []) :
    s.Settled := ⟨.inl h1, ⟨h2, .inl h3⟩, .inr ⟨h4, h5⟩⟩

theorem ready_settled : ready.Settled := settled_of_idle rfl rfl rfl rfl rfl

/-- No flag makes a report while every enable is off. -/
theorem silent_of_off {s : State} (h : s.mgmt.enables = 0) (f : Flag) : s.LatchesSilently f := by
  right; simp [State.flagEnabled, h]

/-! ### WellFormed: one ill-formed term for each check -/

theorem test_wf_card_type : (Instr.card .l1 (frame 0x02 [])).WellFormed = false := by decide
theorem test_wf_gone_type : (Instr.gone .l1 (frame 0x01 [])).WellFormed = false := by decide
theorem test_wf_writeResult_type : (Instr.writeResult .l1 (frame 0x04 [])).WellFormed = false := by decide
theorem test_wf_beat_type : (Instr.beat .l1 (frame 0x03 [])).WellFormed = false := by decide
theorem test_wf_expiry_serial : (Instr.passbackEntryExpiry 0 3).WellFormed = false := by decide
theorem test_wf_expiry_group : (Instr.passbackEntryExpiry 1 64).WellFormed = false := by decide
theorem test_wf_unknown_command : (Instr.unknownCommand 0x0C (order 0x0C [])).WellFormed = false := by decide
theorem test_wf_unknown_notice : (Instr.unknownCommand 0x23 (order 0x23 [])).WellFormed = false := by decide
theorem test_wf_unknown_report : (Instr.unknownCommand 0x40 (order 0x40 [])).WellFormed = false := by decide
theorem test_wf_unknown : (Instr.unknownCommand 0x0D (order 0x0D [])).WellFormed = true := by decide

/-! ### Formats (chapters 1, 7, 8 and 11) -/

/-- R188's check value: the CRC-16 of the digits 1 to 9. -/
theorem test_crc16_check :
    crc16 [0x31, 0x32, 0x33, 0x34, 0x35, 0x36, 0x37, 0x38, 0x39] = 0x29B1 := by decide +kernel

/-- Section 7.3: the worked card is well-formed, with 2 days used and 3 remaining. -/
theorem test_card_wellFormed : Record.wellFormed serial freeCard = true := by decide +kernel
theorem test_card_days : Record.daysRemaining serial freeCard = 3 := by decide +kernel
theorem test_card_other_serial : Record.wellFormed 7340119 freeCard = false := by decide +kernel

/-- Section 7.3: the settled record has issue 53, indexes 1, 3, 4, 5 and 6 VOID and amount 16,350. -/
theorem test_card_settled :
    (let r := Record.settledRecord freeCard 16350 44
     (Record.wellFormed serial r, Record.issue r, Record.settledAmount r, Record.settledDay r,
       (List.range 8).map (Record.dayMark r)))
      = (true, 53, 16350, 44, [.used, .void, .used, .void, .void, .void, .void, .free]) := by
  decide +kernel

/-- R7: day index 4 marked USED, with the next issue. -/
theorem test_card_dayMarked :
    (let r := Record.dayMarked freeCard 4
     (Record.wellFormed serial r, Record.issue r, Record.dayMark r 4, Record.used r))
      = (true, 53, .used, 3) := by decide +kernel

/-- Section 7.3, and the limit cases of section 7.4. -/
theorem test_refund_worked : (recordRefund tables row freeCard) = ⟨16350, 16350, 1⟩ := by decide +kernel
theorem test_refund_promotional :
    (computeRefund 9000 5 [400, 850] 1000 ladder 500 600 50 100000).refund = 2550 := by decide
theorem test_refund_child :
    (computeRefund 15360 5 [400, 850] 600 ladder 500 600 50 100000).refund = 9600 := by decide
theorem test_refund_cap :
    (computeRefund 25600 5 [400, 850] 1000 ladder 500 600 50 9999).refund = 9999 := by decide
theorem test_refund_threshold :
    (computeRefund 25600 5 [400, 850] 1000 ladder 500 0 50 100000).refund = 13300 := by decide

/-- Section 3.4: the ages of notices. -/
theorem test_notice_ages :
    [noticeAge 30610 30550, noticeAge 300 86100, noticeAge 300 86250, noticeAge 36000 36005]
      = [60, 600, 450, 0] := by decide

/-- Section 11.4: a DAY payload has 145 bytes and a COUNT payload 133. -/
theorem test_report_lengths :
    ((ready.dayReport false).bytes.length, (ready.countReport 0 false 0).bytes.length) = (145, 133) := by
  decide +kernel

/-- No row of the table gives bits. -/
theorem test_no_word_spells_a_command : decodeTableWord 32 0 = none := by decide

/-! ### States for the commands and the witnesses -/

/-- `ready` with lane `n` replaced. -/
def readyWith (n : LaneId) (l : Lane) : State := ready.withLane n l

/-- Lane 1 unlocked by a grant whose timer has just run out. -/
def unlocked : State :=
  readyWith .l1 { laneAt .ticket .unlocked with
    txn := some { txn usedCard with reserved := true, today := some .used, finalDays := some 2 }
    grantTimer := some ⟨92000, 8000⟩ }

/-- Lane 1 in its passage window with `k` bodies, in the trail or before it; both timers have just run out. -/
def passing (k : Nat) (trail : Bool) : State :=
  readyWith .l1 { laneAt .ticket .passing with
    txn := some { txn usedCard with reserved := true, today := some .used, finalDays := some 2 }
    arm := if trail then .atRest else .forward
    window := some ⟨k, trail⟩
    grantTimer := if trail then none else some ⟨92000, 8000⟩
    trailTimer := if trail then some ⟨99700, 300⟩ else none }

/-- Lane 1 held with the maze full and its hold timer just run out. -/
def held : State :=
  { fullMaze.withLane .l1 { laneAt .ticket .held with
      txn := some { txn freeCard with row := some 6, today := some .free }, holdTimer := some ⟨90000, 10000⟩ } with
    heldOrder := [.l1] }

/-- Lane 1 with its grant write outstanding, the write timer just run out. -/
def grantWriting : State :=
  (readyWith .l1 { laneAt .ticket .writing with
    txn := some { txn freeCard with reserved := true, row := some 6, today := some .free } }).withPort .l1
      { ready.port .l1 with
        write := some ⟨⟨serial, Record.dayMarked freeCard 4, .grant⟩, ⟨99000, 1000⟩⟩ }

/-- Lane 4 with its settlement write outstanding, the write timer just run out. -/
def settleWriting : State :=
  (readyWith .l4 { laneAt .settle .writing with
    txn := some { txn freeCard with refund := 16350, impaired := 1, insertReserved := true } }).withPort .l4
      { ready.port .l4 with
        write := some ⟨⟨serial, Record.settledRecord freeCard 16350 44, .settlement⟩, ⟨99000, 1000⟩⟩ }

/-- A CARD frame. -/
def cardFrame (record : Record) : ReaderFrame := frame 0x01 (bytesLE 4 7340118 ++ Record.bytes record)

/-- A GONE frame. -/
def goneFrame : ReaderFrame := frame 0x02 (bytesLE 4 7340118)

/-- A WRITE_RESULT frame with this outcome code. -/
def resultFrame (code : Byte) : ReaderFrame := frame 0x03 (bytesLE 4 7340118 ++ [code])

/-- An open chair window with `loaded` bodies, its timer just run out. -/
def chairOpen (loaded : Nat) : State :=
  { ready with maze := { ready.maze with gate := .opened, window := some ⟨5, loaded, 6, ⟨97000, 3000⟩⟩ } }

/-- `ready` with four answers queued and a message on the output. -/
def answersFull : State :=
  { ready with loop := { ready.loop with
      sending := some ⟨0x40, 0, 4, 0, []⟩
      insertQueue := List.replicate 4 (.answer ⟨0x07, .done, 0xFF, []⟩) } }

/-! ### One small step for each command -/

/-- R13, R44, R46: a day already used unlocks at once. -/
theorem test_card_used : ((after (.card .l1 (cardFrame usedCard)) ready).lane .l1).state = .unlocked := by
  decide +kernel
/-- R39: a full maze holds the lane. -/
theorem test_card_held : (after (.card .l1 (cardFrame freeCard)) fullMaze).heldOrder = [.l1] := by
  decide +kernel
theorem test_gone_held : ((after (.gone .l1 goneFrame) held).lane .l1).state = .idle := by decide +kernel
theorem test_writeResult_done :
    ((after (.writeResult .l4 (resultFrame 0)) settleWriting).time.refundsSum = 16350) := by decide +kernel
theorem test_writeTimer_torn :
    (after (.writeTimerExpiry .l1) grantWriting).deferred.entries.map (·.intended)
      = [Record.dayMarked freeCard 4] := by decide +kernel
theorem test_beat_fault :
    ((after (.beat .l1 (frame 0x04 [1])) ready).lane .l1).state = .fault := by decide +kernel
theorem test_heartbeat_lost :
    ((after (.heartbeatTimerExpiry .l1) { ready with ms := 100900 }).port .l1).status = .lost := by
  decide +kernel
theorem test_rotateFwdStart : ((after (.rotateFwdStart .l1) unlocked).lane .l1).state = .passing := by
  decide +kernel
/-- R79: a locked rotation that completes with no body kept puts one body in the maze. -/
theorem test_rotateFwdDone_forced :
    (after (.rotateFwdDone .l1) (readyWith .l1 { laneAt .ticket .idle with arm := .forward })).maze.count
      = 6 := by decide +kernel
theorem test_rotateRevStart : ((after (.rotateRevStart .l1) ready).lane .l1).arm = .reverse := by
  decide +kernel
theorem test_rotateRevDone :
    (after (.rotateRevDone .l1) (readyWith .l1 { laneAt .ticket .idle with arm := .reverse })).maze.count
      = 4 := by decide +kernel
theorem test_rotateReturn :
    ((after (.rotateReturn .l1) (passing 2 false)).lane .l1).state = .unlocked := by decide +kernel
/-- R78: a body without a window or a rotation is an intrusion; R70: 39 ms are no body. -/
theorem test_body_intrusion : (after (.body .l1 40) ready).maze.count = 6 := by decide +kernel
theorem test_body_short : (after (.body .l1 39) ready).maze.count = 5 := by decide +kernel
theorem test_keyChange : ((after (.keyChange .l2 false) ready).lane .l2).state = .closed := by decide +kernel
theorem test_grantTimer : ((after (.grantTimerExpiry .l1) unlocked).lane .l1).day.lapsed = 1 := by
  decide +kernel
/-- R74: three bodies are one paid and two tailgates. -/
theorem test_trailTimer :
    (let l := (after (.trailTimerExpiry .l1) (passing 3 true)).lane .l1
     (l.day.paid, l.day.tailgate, l.state)) = (1, 2, .idle) := by decide +kernel
theorem test_recoveryTimer :
    ((after (.recoveryTimerExpiry .l1) (readyWith .l1 { laneAt .ticket .settling with
      txn := some (txn usedCard), recoveryTimer := some ⟨99600, 400⟩ })).lane .l1).state = .unlocked := by
  decide +kernel
theorem test_holdTimer : (after (.holdTimerExpiry .l1) held).heldOrder = [] := by decide +kernel
theorem test_alarmTimer :
    ((after (.alarmTimerExpiry .l1) (readyWith .l1 { laneAt .ticket .idle with
      alarmTimer := some ⟨99000, 1000⟩ })).lane .l1).alarm = false := by decide +kernel
theorem test_freeFlowPin :
    (LaneId.all.map fun n => ((after (.freeFlowPinChange true) ready).lane n).state)
      = [.freeFlow, .freeFlow, .exit, .idle] := by decide +kernel
theorem test_liftRun : (after (.liftRunChange false) (chairOpen 2)).maze.gate = .stopped := by decide +kernel
theorem test_chair : (after .chair ready).maze.gate = .opened := by decide +kernel
/-- R110: bin 2 and 5 - 2 lost seats. -/
theorem test_windowTimer :
    (let m := (after .windowTimerExpiry (chairOpen 2)).maze
     (m.day.bins, m.day.lostSeats)) = ([0, 0, 1, 0, 0, 0, 0, 0, 0], 3) := by decide +kernel
/-- R108: the sixth body closes a window of six seats. -/
theorem test_lgBeam_last_seat : (after (.lgBeamBody 40) (chairOpen 5)).maze.gate = .waiting := by
  decide +kernel
theorem test_lgBeam_forced : (after (.lgBeamBody 40) ready).maze.day.loadingForced = 1 := by decide +kernel
theorem test_passbackExpiry :
    (after (.passbackEntryExpiry serial 3)
      { ready with passback := [⟨serial, 3, 100000, true, .lane .l1⟩] }).passback = [] := by decide +kernel
theorem test_clock_midnight :
    (after .stationClockAdvance { ready with time := { ready.time with stationTime := 86399 } }).time.stationTime
      = 0 := by decide +kernel
theorem test_prescaler :
    (after .intervalPrescalerExpiry { ready with time := { ready.time with
      periodCount := 59, postscaleCount := 14 } }).time.intervalDue = true := by decide +kernel
theorem test_intervalEnd :
    (after .intervalEnd { ready with time := { ready.time with intervalDue := true } }).time.sequence = 1 := by
  decide +kernel
theorem test_time_step :
    ((after (.time (order 0x20 (bytesLE 4 30603))) ready).flagSet .timeStep,
      (after (.time (order 0x20 (bytesLE 4 30602))) ready).flagSet .timeStep) = (true, false) := by
  decide +kernel
theorem test_dayOpen :
    (after (.dayOpen (order 0x21 (bytesLE 2 366 ++ bytesLE 2 0 ++ bytesLE 2 1440))) ready).time.seasonDay
      = 366 := by decide +kernel
/-- R152: a DAY_CLOSE for another day closes nothing and is a bad notice. -/
theorem test_dayClose_other_day :
    (let s := after (.dayClose (order 0x22 (bytesLE 2 45))) ready
     (s.time.dayState, s.flagSet .badNotice)) = (.opened, true) := by decide +kernel
/-- Section 3.4: a notice of age 60 against a hold of 600 s expires in 540 s. -/
theorem test_passage :
    (after (.passage (message 0x23 (bytesLE 4 9 ++ [3] ++ bytesLE 4 30540 ++ List.replicate 6 1) 7 31 0))
      ready).passback.map (·.expiry) = [640000] := by decide +kernel
theorem test_transit :
    (after (.transitMessage 0x23 (message 0x23 [1] 7 9 28)) ready).loop.sending
      = some ⟨0x23, 9, 7, 29, [1]⟩ := by decide +kernel
theorem test_idleFill : (after .idleFill State.reset).loop.link = .sync := by decide +kernel
theorem test_silence :
    (after .silenceTimerExpiry { ready with ms := 100100 }).loop.link = .down := by decide +kernel
theorem test_training :
    (after .trainingTimerExpiry { ready with loop := { ready.loop with
      link := .sync, training := some ⟨99950, 50⟩ } }).loop.link = .up := by decide +kernel
theorem test_sendEnd : (after .sendEnd answersFull).loop.insertQueue.length = 3 := by decide +kernel
theorem test_load_bad_segment :
    (after (.load (order 0x01 [6, 1, 1, 0, 0])) ready).mgmt.shadows = .absent := by decide +kernel
theorem test_load : ((after (.load (order 0x01 ([3, 0, 1] ++ List.replicate 10 0))) ready).mgmt.shadows.get
    .categories).complete = true := by decide +kernel
theorem test_commit :
    (after (.commit (order 0x02 [8])) { ready with mgmt := { ready.mgmt with
      shadows := { Shadows.absent with
        categories := .loading 1 [(0, List.replicate 10 0)] } } }).tables.generation = 20 := by
  decide +kernel
theorem test_abortLoad :
    (after (.abortLoad (order 0x03 [8])) { ready with mgmt := { ready.mgmt with
      shadows := { Shadows.absent with categories := .loading 1 [] } } }).mgmt.shadows = .absent := by
  decide +kernel
theorem test_lane : ((after (.lane (order 0x04 [1, 0])) ready).lane .l1).state = .closed := by decide +kernel
theorem test_lane_key :
    (after (.lane (order 0x04 [2, 0])) ready).loop.sending
      = some ⟨0x40, 0, 4, 0, [0x04, 6, 0xFF]⟩ := by decide +kernel
theorem test_freeFlow : (after (.freeFlow (order 0x05 [1])) ready).freeFlowInForce = true := by decide +kernel
theorem test_loadingHold : (after (.loadingHold (order 0x06 [1])) (chairOpen 2)).maze.gate = .held := by
  decide +kernel
/-- R185, R191: 25 bytes of part 2 with a head of 4; R153: and the loading counter block of 26. -/
theorem test_readStatus :
    ((after (.readStatus (order 0x07 [2])) ready).loop.sending.map (·.payload.length)) = some 55 := by
  decide +kernel
theorem test_readCounts :
    ((after (.readCounts (order 0x08 [])) ready).loop.sending.map (·.payload.length)) = some 120 := by
  decide +kernel
theorem test_clearFlags :
    (after (.clearFlags (order 0x09 [4, 0, 0, 0])) { ready with mgmt := { ready.mgmt with
      flags := 0x0E } }).mgmt.flags = 0x0A := by decide +kernel
theorem test_reportEnable :
    (after (.reportEnable (order 0x0A [0xFF, 0xFF, 0x1F, 0])) ready).mgmt.enables = 0x1FFFFF := by
  decide +kernel
theorem test_purge_absent :
    (after (.purgeDeferred (order 0x0B (0 :: bytesLE 4 0))) ready).loop.sending
      = some ⟨0x40, 0, 4, 0, [0x0B, 0, 0xFF, 0]⟩ := by decide +kernel
/-- R20, R143: an abandoned settlement is stored and the card told RETRY. -/
theorem test_restart :
    (let s := after (.restart (order 0x0C [])) settleWriting
     (s.deferred.entries.map (·.isSettlement), (s.port .l4).tx))
      = ([true], [.verdict true .retry .red 0 0, .release serial]) := by decide +kernel
theorem test_unknown :
    (after (.unknownCommand 0x0D (order 0x0D [])) ready).loop.sending
      = some ⟨0x40, 0, 4, 0, [0x0D, 1, 0xFF]⟩ := by decide +kernel
theorem test_coldReset :
    (after (.coldReset ⟨31, .const true, false, true⟩) ready).ownAddress = none := by decide +kernel
/-- An idle step with nothing due advances the ms counter (log 3). -/
theorem test_idle : State.reset.idle.ms = 1 := by decide +kernel

/-! ### Witnesses: states and operands that meet the hypotheses of each statement -/

/-- A whole message has the CRC and the length that `message` gives it (R162, test 1). -/
theorem message_intact (type : Byte) (payload : List Byte) (source destination hops : Byte)
    (h : payload.length ≤ 259) (hs : source.toNat ≤ 30) (hd : destination.toNat ≤ 31) :
    arrivalIntact type (message type payload source destination hops) = true := by
  have hl : payload.length % 65536 = payload.length := Nat.mod_eq_of_lt (by omega)
  simp [arrivalIntact, message, hl, h, hs, hd]

/-- `ready` takes every command of the station computer. -/
theorem ready_takes (type : Byte) (payload : List Byte) (h : payload.length ≤ 259) :
    ready.TakesCommand type (order type payload) :=
  ⟨ready_settled, ⟨⟨rfl, message_intact _ _ _ _ _ h (by decide) (by decide), rfl,
    (by decide : (0 : Byte).toNat < 30)⟩, rfl⟩, rfl, (by decide : (4 : Byte) ≠ 31), by decide +kernel⟩

/-- `ready` processes every notice addressed to it. -/
theorem ready_processes (type : Byte) (payload : List Byte) (h : payload.length ≤ 259) :
    ready.Processes type (order type payload) :=
  ⟨(ready_takes type payload h).2.1.1, rfl, .inl (ready_takes type payload h).2.1.2⟩

/-- Every flag of `ready` latches silently. -/
theorem ready_silent (f : Flag) : ready.LatchesSilently f := silent_of_off rfl f

theorem witness_StepRunsFrontCommand :
    { ready with pending := [.chair] }.pending = .chair :: [] ∧ ready.pending = [] := ⟨rfl, rfl⟩

theorem witness_SettledKept :
    { ready with pending := [.chair] }.Settled ∧ ∃ t, step { ready with pending := [.chair] } = .next t :=
  ⟨settled_of_idle rfl rfl rfl rfl rfl, _, rfl⟩

theorem witness_MazeLawsKept :
    ready.maze.count ≤ 255 ∧ (chairOpen 5).GateLaw ∧ (chairOpen 5).SeatsLaw
      ∧ ∃ t, step { chairOpen 5 with pending := [.lgBeamBody 40] } = .next t := by
  refine ⟨?_, ⟨?_, ?_⟩, ⟨?_, ?_⟩, _, rfl⟩ <;> decide +kernel

/-- A table with one entry of the watched group. -/
def watched : State := { ready with passback := [⟨serial, 3, 700000, true, .lane .l1⟩] }

theorem witness_PassbackLawsKept :
    watched.PassbackLaw ∧ watched.PassbackOrdered ∧ ∃ t, step { watched with pending := [.chair] } = .next t := by
  refine ⟨⟨?_, ?_, ?_⟩, ?_, _, rfl⟩
  · decide +kernel
  · decide +kernel
  · decide +kernel
  · exact List.pairwise_singleton _ _

/-- A Deferred Write Table with this many entries, the last one a SETTLEMENT entry. -/
def deferredFull : State :=
  { ready with deferred := ⟨(List.range 32).map fun i =>
      ⟨i, BitVec.ofNat 32 (i + 1), if i = 31 then .settlement 100 0 19 else .dayMark, 52, freeCard, 44, .l1⟩,
    32⟩ }

theorem witness_DeferredLawKept :
    deferredFull.DeferredLaw ∧ ∃ t, step { deferredFull with pending := [.chair] } = .next t := by
  refine ⟨⟨?_, ?_⟩, _, rfl⟩ <;> decide +kernel

theorem witness_LoopBoundsKept :
    answersFull.LoopBounds ∧ ∃ t, step { answersFull with pending := [.sendEnd] } = .next t := by
  refine ⟨⟨?_, ?_, ?_, ?_, ?_⟩, _, rfl⟩ <;> decide +kernel

theorem witness_BadFrameDiscarded :
    let good := frame 0x04 [0]
    { good with crc := good.crc + 1 }.crc ≠ crc16 (good.type :: good.length :: good.fields)
      ∧ ({ good with length := 2 }.length.toNat ≠ good.fields.length) ∧ (frame 0x00 []).type.toNat = 0
      ∧ 4 < (frame 0x05 []).type.toNat := by decide +kernel

theorem witness_CardAnswered :
    ready.Settled ∧ parseFrame (cardFrame freeCard) = some (.card serial freeCard)
      ∧ ready.cardAnswer .l3 = some .notHere ∧ State.reset.cardAnswer .l1 = some .noTables
      ∧ held.cardAnswer .l1 = some .busy
      ∧ (unlocked.lane .l1).role = some .ticket ∧ (unlocked.lane .l1).state = .unlocked
      ∧ (unlocked.lane .l1).txn.map (·.serial) = some serial ∧ unlocked.Settled := by
  refine ⟨ready_settled, ?_, ?_, ?_, ?_, ?_, ?_, ?_, settled_of_idle rfl rfl rfl rfl rfl⟩ <;> decide +kernel

theorem ready_takesCard : ready.TakesCard .l1 .ticket serial := by
  refine ⟨⟨?_, ?_, ?_, ?_, ?_, ?_, ?_, ?_, ?_⟩, ?_⟩ <;> decide +kernel

theorem fullMaze_takesCard : fullMaze.TakesCard .l1 .ticket serial := by
  refine ⟨⟨?_, ?_, ?_, ?_, ?_, ?_, ?_, ?_, ?_⟩, ?_⟩ <;> decide +kernel

theorem ready_takesSettle : ready.TakesCard .l4 .settle serial := by
  refine ⟨⟨?_, ?_, ?_, ?_, ?_, ?_, ?_, ?_, ?_⟩, ?_⟩ <;> decide +kernel

theorem witness_CardUnlocks :
    parseFrame (cardFrame usedCard) = some (.card serial usedCard) ∧ ready.TakesCard .l1 .ticket serial
      ∧ ticketChecks ready.tables .l1 serial 44 510 usedCard = .ok (6, .used)
      ∧ ready.time.seasonDay = 44 ∧ ready.stationMinute = 510
      ∧ ready.passbackHolds serial = false ∧ ready.placeFree = true
      ∧ (ready.lane .l1).recoveryTimer = none ∧ (ready.lane .l1).arm ≠ .forward := by
  refine ⟨?_, ready_takesCard, ?_, ?_, ?_, ?_, ?_, ?_, ?_⟩ <;> decide +kernel

/-- `ready` with the recovery timer of lane 1 running. -/
def recovering : State := readyWith .l1 { laneAt .ticket .idle with recoveryTimer := some ⟨99900, 400⟩ }

/-- Lane 1 at rest with a locked rotation under way and two bodies kept, with this maze count. -/
def locked (count : Nat) : State :=
  { readyWith .l1 { laneAt .ticket .idle with arm := .forward, kept := 2 } with
    maze := { ready.maze with count := count } }

theorem witness_CardUnlocks_settling_and_taking_over :
    recovering.TakesCard .l1 .ticket serial ∧ (recovering.lane .l1).recoveryTimer.isSome = true
      ∧ recovering.placeFree = true ∧ (locked 5).TakesCard .l1 .ticket serial
      ∧ ((locked 5).lane .l1).arm = .forward ∧ ((locked 5).lane .l1).lateFree = none
      ∧ (locked 5).placeFree = true := by
  refine ⟨⟨⟨?_, ?_, ?_, ?_, ?_, ?_, ?_, ?_, ?_⟩, ?_⟩, ?_, ?_, ⟨⟨?_, ?_, ?_, ?_, ?_, ?_, ?_, ?_, ?_⟩, ?_⟩, ?_, ?_,
    ?_⟩ <;> decide +kernel

theorem witness_CardWritesItsDay :
    parseFrame (cardFrame freeCard) = some (.card serial freeCard) ∧ ready.TakesCard .l1 .ticket serial
      ∧ ticketChecks ready.tables .l1 serial 44 510 freeCard = .ok (6, .free)
      ∧ ready.passbackHolds serial = false ∧ ready.placeFree = true ∧ (ready.port .l1).write = none := by
  refine ⟨?_, ready_takesCard, ?_, ?_, ?_, ?_⟩ <;> decide +kernel

theorem witness_CardHeld :
    fullMaze.Settled ∧ fullMaze.TakesCard .l1 .ticket serial
      ∧ ticketChecks fullMaze.tables .l1 serial 44 510 freeCard = .ok (6, .free)
      ∧ fullMaze.passbackHolds serial = false ∧ fullMaze.placeFree = false := by
  refine ⟨settled_of_idle rfl rfl rfl rfl rfl, fullMaze_takesCard, ?_, ?_, ?_⟩ <;> decide +kernel

/-- `s` with one deferred entry for the worked card's serial, of this kind and intended record. -/
def owing (s : State) (kind : DeferredKind) (intended : Record) : State :=
  { s with deferred := ⟨[⟨0, serial, kind, Record.issue freeCard, intended, 43, .l2⟩], 1⟩ }

/-- The settlement of the worked case, as an entry keeps it. -/
def owed : DeferredKind := .settlement 16350 1 19

/-- The settled record of the worked case. -/
def settledCard : Record := Record.settledRecord freeCard 16350 44

/-- No general entry is free: the queue holds 28 EVENT reports. -/
def noRoom : State :=
  { ready with loop := { ready.loop with
      sending := some ⟨0x40, 0, 4, 0, []⟩, insertQueue := List.replicate 28 (.event ⟨.forced, 30000, 1⟩) } }

theorem noRoom_settled : noRoom.Settled := ⟨.inl rfl, ⟨rfl, .inl rfl⟩, .inl rfl⟩

theorem witness_CardRefused :
    ticketChecks ready.tables .l1 serial 44 510 (freeCard ^^^ 1) = .error .corrupt
      ∧ ready.Opens .l1 .ticket ∧ watched.Opens .l1 .ticket
      ∧ watched.passbackHolds serial = true
      ∧ ticketChecks watched.tables .l1 serial 44 510 freeCard = .ok (6, .free)
      ∧ ready.Opens .l4 .settle
      ∧ settleChecks ready.tables .l4 serial 44 settledCard = .error .settled
      ∧ (owing noRoom owed settledCard).Settled ∧ (owing noRoom owed settledCard).generalFree = 0
      ∧ (owing noRoom owed settledCard).Opens .l1 .ticket
      ∧ ((owing noRoom owed settledCard).deferredFind serial).map (fun e => (e.isSettlement, e.intended))
        = some (true, settledCard) := by
  refine ⟨?_, ?_, ?_, ?_, ?_, ?_, ?_, noRoom_settled, ?_, ?_, ?_⟩ <;>
    first | decide +kernel | (unfold State.Opens; decide +kernel)

/-- A DAY_CLOSE is on its way to the lanes (R67). -/
def closing : State := { ready with time := { ready.time with dayState := .closed } }

/-- Lane 2 holds the worked card's serial. -/
def doubled : State := readyWith .l2 { laneAt .ticket .writing with txn := some (txn freeCard) }

theorem witness_CardRefused_first_steps :
    closing.Settled ∧ closing.Opens .l1 .ticket ∧ closing.Opens .l4 .settle
      ∧ closing.time.dayState = .closed ∧ doubled.Settled ∧ doubled.Opens .l1 .ticket
      ∧ doubled.Opens .l4 .settle ∧ doubled.openElsewhere .l1 serial = true
      ∧ doubled.openElsewhere .l4 serial = true ∧ doubled.time.dayState ≠ .closed := by
  refine ⟨settled_of_idle rfl rfl rfl rfl rfl, ?_, ?_, ?_, settled_of_idle rfl rfl rfl rfl rfl, ?_, ?_, ?_, ?_,
    ?_⟩ <;> first | decide +kernel | (unfold State.Opens; decide +kernel)

/-- `ready` with this refund cap. -/
def capped (cap : Nat) : State :=
  { ready with tables := { ready.tables with
      settings := ready.tables.settings.map fun st => { st with refundCap := cap } } }

theorem noRoom_takesSettle : noRoom.TakesCard .l4 .settle serial := by
  refine ⟨⟨?_, ?_, ?_, ?_, ?_, ?_, ?_, ?_, ?_⟩, ?_⟩ <;> decide +kernel

theorem capped_takesSettle : (capped 0).TakesCard .l4 .settle serial := by
  refine ⟨⟨?_, ?_, ?_, ?_, ?_, ?_, ?_, ?_, ?_⟩, ?_⟩ <;> decide +kernel

theorem witness_CardSettles :
    ready.TakesCard .l4 .settle serial ∧ settleChecks ready.tables .l4 serial 44 freeCard = .ok 6
      ∧ (recordRefund ready.tables (ready.tables.rowOf 6) freeCard).refund = 16350 ∧ 0 < ready.generalFree
      ∧ (ready.port .l4).write = none
      ∧ (capped 0).Settled ∧ (capped 0).TakesCard .l4 .settle serial
      ∧ settleChecks (capped 0).tables .l4 serial 44 freeCard = .ok 6
      ∧ (recordRefund (capped 0).tables ((capped 0).tables.rowOf 6) freeCard).refund = 0
      ∧ noRoom.Settled ∧ noRoom.TakesCard .l4 .settle serial ∧ noRoom.generalFree = 0 := by
  refine ⟨ready_takesSettle, ?_, ?_, ?_, ?_, settled_of_idle rfl rfl rfl rfl rfl, capped_takesSettle, ?_, ?_,
    noRoom_settled, noRoom_takesSettle, ?_⟩ <;> decide +kernel

theorem witness_GoneRecorded :
    grantWriting.Settled ∧ parseFrame goneFrame = some (.gone serial)
      ∧ (grantWriting.lane .l1).txn.map (·.serial) = some serial ∧ (grantWriting.lane .l1).state ≠ .held
      ∧ (ready.lane .l1).txn = none := by
  refine ⟨settled_of_idle rfl rfl rfl rfl rfl, ?_, ?_, ?_, ?_⟩ <;> decide +kernel

theorem held_settled : held.Settled := ⟨.inr (by decide +kernel), ⟨rfl, .inl rfl⟩, .inr ⟨rfl, rfl⟩⟩

theorem witness_HeldRefusals :
    held.Settled ∧ (held.lane .l1).state = .held ∧ (held.lane .l1).pendingRole = none
      ∧ (held.lane .l1).txn = some { txn freeCard with row := some 6, today := some .free }
      ∧ held.restingState .l1 ≠ .fault ∧ parseFrame goneFrame = some (.gone serial)
      ∧ (held.lane .l1).holdTimer = some ⟨90000, 10000⟩ ∧ 90000 + 10000 ≤ held.ms := by
  refine ⟨held_settled, ?_, ?_, ?_, ?_, ?_, ?_, ?_⟩ <;> decide +kernel

/-- Lane `n` with this record's resolution write outstanding for the one deferred entry, of this kind; the write
timer has just run out. -/
def resolving (n : LaneId) (r : Role) (kind : DeferredKind) (intended : Record) : State :=
  ((owing ready kind intended).withLane n { laneAt r .resolving with
    txn := some { txn freeCard with resolving := some 0 } }).withPort n
      { ready.port n with write := some ⟨⟨serial, intended, .resolution⟩, ⟨99000, 1000⟩⟩ }

theorem witness_GrantWriteEnds :
    grantWriting.Settled
      ∧ (grantWriting.port .l1).write = some ⟨⟨serial, Record.dayMarked freeCard 4, .grant⟩, ⟨99000, 1000⟩⟩
      ∧ (grantWriting.port .l1).waiting = none ∧ (grantWriting.lane .l1).recoveryTimer = none
      ∧ (grantWriting.lane .l1).arm ≠ .forward
      ∧ parseFrame (resultFrame 0) = some (.writeResult serial .done) ∧ 99000 + 1000 ≤ grantWriting.ms
      ∧ grantWriting.deferredFind serial = none ∧ grantWriting.deferred.entries.length < 32
      ∧ grantWriting.tables.settingsInForce.grantOnLostWrite = true
      ∧ (grantWriting.lane .l1).txn.map (·.serial) = some serial := by
  refine ⟨settled_of_idle rfl rfl rfl rfl rfl, ?_, ?_, ?_, ?_, ?_, ?_, ?_, ?_, ?_, ?_⟩ <;> decide +kernel

/-- `grantWriting` under the setting that grants nothing on a lost write. -/
def strict : State :=
  grantWriting.withLane .l1 { grantWriting.lane .l1 with
    txn := ((grantWriting.lane .l1).txn).map fun t => { t with pinned := { t.pinned with
      settings := t.pinned.settings.map fun x => { x with grantOnLostWrite := false } } } }

theorem witness_GrantWriteEnds_lost :
    strict.Settled ∧ (strict.port .l1).write.map (·.request.owner) = some .grant
      ∧ (strict.lane .l1).txn.map (fun t => (t.serial, t.pinned.settingsInForce.grantOnLostWrite, t.insertReserved))
        = some (serial, false, false)
      ∧ strict.heldOrder = [] ∧ (strict.lane .l1).pendingRole = none ∧ strict.restingState .l1 ≠ .fault
      ∧ strict.deferredFind serial = none ∧ strict.deferred.entries.length < 32
      ∧ parseFrame (resultFrame 1) = some (.writeResult serial .lost)
      ∧ parseFrame (resultFrame 2) = some (.writeResult serial .torn)
      ∧ ((grantWriting.withLane .l1 { grantWriting.lane .l1 with
          recoveryTimer := some ⟨99900, 400⟩ }).lane .l1).recoveryTimer.isSome = true := by
  refine ⟨settled_of_idle rfl rfl rfl rfl rfl, ?_, ?_, ?_, ?_, ?_, ?_, ?_, ?_, ?_, ?_⟩ <;> decide +kernel

theorem witness_GrantWriteEnds_resolution :
    let s := resolving .l1 .ticket .dayMark usedCard
    s.Settled ∧ (s.port .l1).write = some ⟨⟨serial, usedCard, .resolution⟩, ⟨99000, 1000⟩⟩
      ∧ (s.port .l1).waiting = none ∧ 99000 + 1000 ≤ s.ms
      ∧ (s.lane .l1).txn.map (fun t => (t.serial, t.reserved, t.insertReserved, t.resolving))
        = some (serial, false, false, some 0)
      ∧ (s.lane .l1).pendingRole = none ∧ s.restingState .l1 ≠ .fault ∧ .l1 ∉ s.heldOrder
      ∧ parseFrame (resultFrame 1) = some (.writeResult serial .lost)
      ∧ (s.lane .l1).role = some .ticket ∧ (s.lane .l1).recoveryTimer = none ∧ (s.lane .l1).arm ≠ .forward
      ∧ s.deferred.entries.map (fun e => (e.stamp, e.kind)) = [(0, .dayMark)]
      ∧ ticketChecks s.tables .l1 serial 44 510 usedCard = .ok (6, .used)
      ∧ s.passbackHolds serial = false ∧ s.placeFree = true := by
  refine ⟨settled_of_idle rfl rfl rfl rfl rfl, ?_, ?_, ?_, ?_, ?_, ?_, ?_, ?_, ?_, ?_, ?_, ?_, ?_, ?_, ?_⟩ <;>
    decide +kernel

/-- Lane 1 with a write that its transaction has left behind, its timer just run out, and a resolution write of the
next card waiting for it (R18, R82, R85). -/
def outlived (owner : WriteOwner) : State :=
  grantWriting.withPort .l1 { ready.port .l1 with
    write := some ⟨⟨500, Record.dayMarked freeCard 4, owner⟩, ⟨99000, 1000⟩⟩
    waiting := some ⟨serial, usedCard, .resolution⟩ }

theorem witness_GrantWriteEnds_outlived :
    (∀ o, (outlived o).Settled) ∧ 99000 + 1000 ≤ (outlived .ended).ms ∧ (outlived .ended).mgmt.enables = 0
      ∧ parseFrame (frame 0x03 (bytesLE 4 500 ++ [0])) = some (.writeResult 500 .done)
      ∧ parseFrame (frame 0x03 (bytesLE 4 500 ++ [1])) = some (.writeResult 500 .lost)
      ∧ parseFrame (frame 0x03 (bytesLE 4 500 ++ [2])) = some (.writeResult 500 .torn) := by
  refine ⟨fun _ => settled_of_idle rfl rfl rfl rfl rfl, ?_, ?_, ?_, ?_, ?_⟩ <;> decide +kernel

/-- R18, R82: LOST and TORN of an orphan; the waiting write is sent. -/
theorem test_orphan_ends :
    ([1, 2].map fun c : Byte =>
      (let s := after (.writeResult .l1 (frame 0x03 (bytesLE 4 500 ++ [c]))) (outlived (.orphan 52 43))
       (s.deferred.entries.map fun e => (e.serial, e.baseIssue, e.dayCreated), (s.port .l1).write.map (·.request.serial),
        (s.port .l1).waiting, (s.port .l1).tx)))
      = [([], some serial, none, [.write serial usedCard]),
        ([(500, 52, 43)], some serial, none, [.write serial usedCard])] := by decide +kernel

theorem witness_SettlementWriteEnds :
    settleWriting.Settled ∧ settleWriting.loop.pendingEvents = [] ∧ settleWriting.ownAddress.isSome = true
      ∧ (settleWriting.port .l4).write
        = some ⟨⟨serial, Record.settledRecord freeCard 16350 44, .settlement⟩, ⟨99000, 1000⟩⟩
      ∧ (settleWriting.port .l4).waiting = none ∧ (settleWriting.lane .l4).state = .writing
      ∧ (settleWriting.lane .l4).txn.map (fun t => (t.serial, t.reserved, t.insertReserved))
        = some (serial, false, true)
      ∧ settleWriting.generalOccupied + settleWriting.generalReserved ≤ 28
      ∧ (settleWriting.lane .l4).pendingRole = none ∧ settleWriting.restingState .l4 ≠ .fault
      ∧ .l4 ∉ settleWriting.heldOrder ∧ 99000 + 1000 ≤ settleWriting.ms
      ∧ settleWriting.deferredFind serial = none := by
  refine ⟨settled_of_idle rfl rfl rfl rfl rfl, ?_, ?_, ?_, ?_, ?_, ?_, ?_, ?_, ?_, ?_, ?_, ?_⟩ <;> decide +kernel

theorem witness_SettlementWriteEnds_resolution :
    let s := resolving .l4 .settle owed settledCard
    s.Settled ∧ (s.port .l4).write = some ⟨⟨serial, settledCard, .resolution⟩, ⟨99000, 1000⟩⟩
      ∧ (s.lane .l4).role = some .settle ∧ 0 < s.generalFree ∧ s.restingState .l4 ≠ .fault
      ∧ (s.lane .l4).txn.map (fun t => (t.reserved, t.insertReserved, t.resolving)) = some (false, false, some 0)
      ∧ (s.deferred.entries.find? fun x => some x.stamp == some 0).map (·.kind) = some owed := by
  refine ⟨settled_of_idle rfl rfl rfl rfl rfl, ?_, ?_, ?_, ?_, ?_, ?_⟩ <;> decide +kernel

/-- Lane 1 in FAULT with its reader in FAULT. -/
def readerFault : State :=
  (readyWith .l1 (laneAt .ticket .fault)).withPort .l1 { ready.port .l1 with status := .fault }

theorem witness_BeatSetsStatus :
    parseFrame (frame 0x04 [0]) = some (.beat true) ∧ parseFrame (frame 0x04 [1]) = some (.beat false)
      ∧ (ready.port .l1).status = .ok ∧ readerFault.Settled ∧ (readerFault.port .l1).status = .fault
      ∧ (readerFault.lane .l1).role = some .ticket ∧ (readerFault.lane .l1).state = .fault
      ∧ (State.reset.port .l1).status = .none ∧ (State.reset.lane .l1).role = none
      ∧ ready.GoesDown .l1 ∧ unlocked.GoesDown .l1 ∧ (unlocked.lane .l1).atBarrier = true := by
  refine ⟨?_, ?_, ?_, settled_of_idle rfl rfl rfl rfl rfl, ?_, ?_, ?_, rfl, rfl, .inl rfl,
    .inr (.inr ⟨rfl, _, rfl, rfl, .inr ⟨rfl, .inr (.inr (.inl rfl))⟩⟩), rfl⟩ <;> decide +kernel

theorem witness_HeartbeatLoss :
    (ready.port .l1).heartbeat = some ⟨99900, 1000⟩ ∧ 99900 + 1000 ≤ { ready with ms := 100900 }.ms
      ∧ { ready with ms := 100900 }.Settled ∧ (ready.lane .l1).role = some .ticket ∧ ready.GoesDown .l1
      ∧ (ready.port .l1).status = .ok ∧ (ready.port .l3).heartbeat = some ⟨99900, 1000⟩
      ∧ (ready.lane .l3).role ≠ some .ticket ∧ (ready.lane .l3).role ≠ some .settle := by
  refine ⟨rfl, by decide, settled_of_idle rfl rfl rfl rfl rfl, rfl, .inl rfl, rfl, rfl, ?_, ?_⟩ <;>
    decide +kernel

/-- Each row of R81 has a lane that stands in it. -/
theorem witness_HeartbeatLoss_rows :
    (resolving .l1 .ticket .dayMark usedCard).GoesDown .l1 ∧ held.GoesDown .l1 ∧ grantWriting.GoesDown .l1
      ∧ (readyWith .l1 { laneAt .ticket .settling with
          txn := some { txn usedCard with reserved := true } }).GoesDown .l1
      ∧ unlocked.GoesDown .l1 ∧ (passing 2 true).GoesDown .l1
      ∧ (settleWriting.lane .l4).role = some .settle ∧ (settleWriting.lane .l4).state = .writing
      ∧ (readyWith .l1 (laneAt .ticket .freeFlow)).Settled ∧ (readerFault.port .l1).status ≠ .ok := by
  refine ⟨.inr (.inr ⟨rfl, _, rfl, rfl, .inl ⟨.inl rfl, rfl⟩⟩), .inr (.inr ⟨rfl, _, rfl, rfl, .inl ⟨.inr rfl, rfl⟩⟩),
    .inr (.inr ⟨rfl, _, rfl, rfl, .inr ⟨rfl, .inl ⟨rfl, rfl⟩⟩⟩),
    .inr (.inr ⟨rfl, _, rfl, rfl, .inr ⟨rfl, .inr (.inl rfl)⟩⟩),
    .inr (.inr ⟨rfl, _, rfl, rfl, .inr ⟨rfl, .inr (.inr (.inl rfl))⟩⟩),
    .inr (.inr ⟨rfl, _, rfl, rfl, .inr ⟨rfl, .inr (.inr (.inr rfl))⟩⟩), rfl, rfl,
    settled_of_idle rfl rfl rfl rfl rfl, ?_⟩
  decide +kernel

theorem witness_ArmTracked : ready.Settled ∧ (ready.lane .l4).role ≠ some .ticket :=
  ⟨ready_settled, by decide +kernel⟩

/-- Free-flow by the pin, or ended, with lane 1 in FREE_FLOW and this window, its trail timer just run out. -/
def free (inForce : Bool) (w : Option PassageWindow) : State :=
  { readyWith .l1 { laneAt .ticket .freeFlow with window := w, trailTimer := some ⟨99700, 300⟩ } with
    freeFlowPin := inForce }

/-- Lane 1 back in IDLE with the free window of a rotation begun in FREE_FLOW. -/
def late (trail : Bool) : State :=
  readyWith .l1 { laneAt .ticket .idle with
    arm := if trail then .atRest else .forward
    lateFree := some ⟨2, trail⟩, trailTimer := if trail then some ⟨99700, 300⟩ else none }

/-- R79: a rotation begun in FREE_FLOW is a free passage on a lane that has left it. -/
theorem test_rotateFwdDone_late :
    ((after (.rotateFwdDone .l1) (late false)).lane .l1).lateFree = some ⟨2, true⟩ := by decide +kernel

/-- R85, log 31: a free window in its trail closes with its count as the lane enters FREE_FLOW again. -/
theorem test_freeFlowPin_late :
    (let s := after (.freeFlowPinChange true) (late true)
     ((s.lane .l1).day.free, s.maze.count, (s.lane .l1).trailTimer)) = (1, 7, none) := by decide +kernel

/-- R86: its trail closes with one free passage and its bodies in the maze. -/
theorem test_trailTimer_late :
    (let s := after (.trailTimerExpiry .l1) (late true)
     ((s.lane .l1).day.free, s.maze.count)) = (1, 7) := by decide +kernel

theorem witness_ForwardRotationBeginsOrReturns :
    unlocked.Settled ∧ (unlocked.lane .l1).role = some .ticket ∧ (unlocked.lane .l1).arm = .atRest
      ∧ (unlocked.lane .l1).window = none ∧ (unlocked.lane .l1).lateFree = none
      ∧ ((passing 2 false).lane .l1).arm = .forward
      ∧ ((passing 2 false).lane .l1).state = .passing
      ∧ ((passing 2 false).lane .l1).window = some ⟨2, false⟩
      ∧ ((passing 2 false).lane .l1).grantExpired = false := by
  refine ⟨settled_of_idle rfl rfl rfl rfl rfl, ?_, ?_, ?_, ?_, ?_, ?_, ?_, ?_⟩ <;> rfl

theorem witness_ForwardRotationBeginsOrReturns_free :
    (∀ inForce, (free inForce (some ⟨2, true⟩)).Settled)
      ∧ ((free true (some ⟨2, true⟩)).lane .l1).arm = .atRest
      ∧ ((free true (some ⟨2, true⟩)).lane .l1).window = some ⟨2, true⟩
      ∧ (free true none).freeFlowInForce = true ∧ (free false none).freeFlowInForce = false
      ∧ (free false (some ⟨2, true⟩)).restingState .l1 = .idle ∧ (free false none).maze.count ≤ 255
      ∧ (late false).Settled ∧ ((late false).lane .l1).arm = .forward
      ∧ ((late false).lane .l1).lateFree = some ⟨2, false⟩ := by
  refine ⟨fun _ => settled_of_idle rfl rfl rfl rfl rfl, rfl, rfl, rfl, rfl, ?_, ?_,
    settled_of_idle rfl rfl rfl rfl rfl, rfl, rfl⟩ <;> decide +kernel

/-- A rotation under way in FREE_FLOW, in force or ended, and one of a grant whose expiry is recorded. -/
theorem witness_ForwardRotationBeginsOrReturns_returns :
    (∀ inForce, ({ free inForce none with lanes := ready.lanes.set .l1 { laneAt .ticket .freeFlow with
        arm := .forward, window := some ⟨1, false⟩ } } : State).Settled)
      ∧ (free false none).freeFlowInForce = false ∧ (free false none).restingState .l1 ≠ .fault
      ∧ ((passing 2 false).withLane .l1 { (passing 2 false).lane .l1 with grantExpired := true }).Settled
      ∧ ((passing 2 false).lane .l1).txn.map (·.insertReserved) = some false
      ∧ ((passing 2 false).lane .l1).pendingRole = none ∧ (passing 2 false).restingState .l1 ≠ .fault
      ∧ (passing 2 false).heldOrder = [] ∧ (passing 2 false).maze.count ≤ 255 := by
  refine ⟨fun _ => settled_of_idle rfl rfl rfl rfl rfl, rfl, ?_, settled_of_idle rfl rfl rfl rfl rfl, rfl, rfl, ?_,
    rfl, ?_⟩ <;> decide +kernel

theorem witness_ForwardRotationCompletes :
    (passing 2 false).Settled ∧ ((passing 2 false).lane .l1).role = some .ticket
      ∧ ((passing 2 false).lane .l1).window = some ⟨2, false⟩
      ∧ (locked 58).Settled ∧ ((locked 58).lane .l1).arm = .forward ∧ ((locked 58).lane .l1).state ≠ .passing
      ∧ ((locked 58).lane .l1).state ≠ .freeFlow ∧ (locked 255).maze.count ≤ 255 := by
  refine ⟨settled_of_idle rfl rfl rfl rfl rfl, rfl, rfl, settled_of_idle rfl rfl rfl rfl rfl, rfl, ?_, ?_, ?_⟩
    <;> decide +kernel

/-- `ready` with the arm of lane 1 turning out of the maze and this maze count. -/
def reversing (count : Nat) : State :=
  { readyWith .l1 { laneAt .ticket .idle with arm := .reverse } with
    maze := { ready.maze with count := count } }

theorem witness_ReverseRotations :
    (ready.lane .l1).arm = .atRest ∧ (reversing 1).Settled ∧ ((reversing 1).lane .l1).arm = .reverse
      ∧ ((reversing 1).lane .l1).role = some .ticket ∧ (reversing 1).heldOrder = []
      ∧ 0 < (reversing 1).maze.count :=
  ⟨rfl, settled_of_idle rfl rfl rfl rfl rfl, rfl, rfl, rfl, by decide⟩

/-- The maze full, lane 2 held with this card, and the arm of lane 1 turning out of the maze. -/
def waiting (record : Record) (today : DayMark) : State :=
  { (fullMaze.withLane .l1 { laneAt .ticket .idle with arm := .reverse }).withLane .l2 { laneAt .ticket .held with
      txn := some { txn record with row := some 6, today := some today }
      holdTimer := some ⟨99000, 10000⟩ } with
    heldOrder := [.l2] }

theorem waiting_awaits (record : Record) (today : DayMark) :
    (waiting record today).AwaitsPlace .l2 [] { txn record with row := some 6, today := some today } :=
  ⟨rfl, rfl, rfl, rfl, fun _ => rfl, silent_of_off rfl _, silent_of_off rfl _⟩

/-- R41, R101: the place goes to lane 2, which writes its day or unlocks. -/
theorem test_place_given :
    ((after (.rotateRevDone .l1) (waiting freeCard .free)).lane .l2).state = .writing
      ∧ ((after (.rotateRevDone .l1) (waiting usedCard .used)).lane .l2).state = .unlocked := by decide +kernel

theorem witness_ReverseRotations_held :
    (waiting freeCard .free).Settled ∧ (waiting usedCard .used).Settled
      ∧ ((waiting freeCard .free).lane .l1).arm = .reverse ∧ 0 < (waiting freeCard .free).maze.count
      ∧ (waiting freeCard .free).AwaitsPlace .l2 [] { txn freeCard with row := some 6, today := some .free }
      ∧ (waiting usedCard .used).AwaitsPlace .l2 [] { txn usedCard with row := some 6, today := some .used } :=
  ⟨⟨.inr (by decide +kernel), ⟨rfl, .inl rfl⟩, .inr ⟨rfl, rfl⟩⟩,
    ⟨.inr (by decide +kernel), ⟨rfl, .inl rfl⟩, .inr ⟨rfl, rfl⟩⟩, rfl, by decide, waiting_awaits _ _,
    waiting_awaits _ _⟩

/-- `waiting` with one rider more than the limit. -/
def overfull : State :=
  { waiting usedCard .used with maze := { fullMaze.maze with count := fullMaze.maze.count + 1 } }

theorem witness_ReverseRotations_wait :
    overfull.Settled ∧ overfull.NoPlaceDue ∧ overfull.heldOrder = [.l2] ∧ (overfull.lane .l1).arm = .reverse
      ∧ (overfull.lane .l1).role = some .ticket ∧ (overfull.lane .l1).state ≠ .freeFlow
      ∧ 0 < overfull.maze.count ∧ (overfull.lane .l3).state = .exit ∧ overfull.maze.window = none :=
  ⟨⟨.inr (by decide +kernel), ⟨rfl, .inl rfl⟩, .inr ⟨rfl, rfl⟩⟩, .inr (by decide +kernel), rfl, rfl, rfl,
    by decide, by decide, rfl, rfl⟩

theorem witness_ReverseRotations_free :
    (readyWith .l1 { laneAt .ticket .freeFlow with arm := .reverse }).Settled
      ∧ ((readyWith .l1 { laneAt .exit .exit with arm := .reverse }).lane .l1).role ≠ some .ticket :=
  ⟨settled_of_idle rfl rfl rfl rfl rfl, by decide +kernel⟩

theorem witness_DecrementUnderruns :
    (reversing 0).Settled ∧ (reversing 0).maze.count = 0 ∧ ((reversing 0).lane .l1).role = some .ticket
      ∧ ((reversing 0).lane .l1).state ≠ .freeFlow ∧ ((reversing 0).lane .l1).arm = .reverse
      ∧ ((reversing 0).lane .l3).role = some .exit ∧ ((reversing 0).lane .l3).state = .exit
      ∧ (reversing 0).settings.beamMinimumMs ≤ min 40 (reversing 0).ms
      ∧ (reversing 0).ownAddress.isSome = true ∧ (reversing 0).maze.window = none
      ∧ { chairOpen 5 with maze := { (chairOpen 5).maze with count := 0 } }.maze.window
        = some ⟨5, 5, 6, ⟨97000, 3000⟩⟩ := by
  refine ⟨settled_of_idle rfl rfl rfl rfl rfl, ?_, ?_, ?_, ?_, ?_, ?_, ?_, ?_, ?_, ?_⟩ <;> decide +kernel

theorem witness_BodyAttributed :
    min 39 ready.ms < ready.settings.beamMinimumMs ∧ ready.settings.beamMinimumMs ≤ min 40 ready.ms
      ∧ (ready.lane .l1).role = some .ticket ∧ (ready.lane .l1).window = none ∧ (ready.lane .l1).arm ≠ .forward
      ∧ ready.maze.count ≤ 255 ∧ ((passing 0 true).lane .l1).window = some ⟨0, true⟩
      ∧ ((locked 5).lane .l1).window = none ∧ ((locked 5).lane .l1).arm = .forward
      ∧ (ready.lane .l3).role = some .exit ∧ (ready.lane .l3).state = .exit ∧ ready.heldOrder = []
      ∧ 0 < ready.maze.count ∧ (ready.lane .l4).role = some .settle
      ∧ ((late false).lane .l1).window = none ∧ ((late false).lane .l1).lateFree = some ⟨2, false⟩
      ∧ ((waiting freeCard .free).lane .l3).state = .exit ∧ (waiting freeCard .free).maze.window = none := by
  refine ⟨?_, ?_, ?_, ?_, ?_, ?_, ?_, ?_, ?_, ?_, ?_, ?_, ?_, ?_, ?_, ?_, ?_, ?_⟩ <;> decide +kernel

/-- R66: with key control clear the level alone changes, while a DAY_CLOSE is on its way to the lane too. -/
theorem test_keyChange_clear :
    ((after (.keyChange .l1 false) { ready with time := { ready.time with dayState := .closed } }).lane .l1)
      = { ready.lane .l1 with keyHigh := false } := by decide +kernel

theorem witness_KeyOpensAndCloses :
    ready.keyControl .l1 = false
      ∧ ready.keyControl .l2 = true ∧ (ready.lane .l2).role = some .ticket ∧ ready.OtherwiseOpen .l2
      ∧ ready.Resting .l2
      ∧ { ready with tables := { ready.tables with
            laneTable := some ⟨⟨.ticket, false⟩, ⟨.ticket, true⟩, ⟨.exit, true⟩, ⟨.settle, false⟩⟩ }
          }.keyControl .l3 = true
      ∧ (ready.lane .l3).role = some .exit ∧ (ready.lane .l3).state = .exit := by
  refine ⟨?_, ?_, ?_, ⟨?_, ?_, ?_, ?_⟩, .inl ?_, ?_, ?_, ?_⟩ <;> decide +kernel

theorem witness_GrantTimerEnds :
    (passing 1 false).Settled ∧ ((passing 1 false).lane .l1).grantTimer = some ⟨92000, 8000⟩
      ∧ 92000 + 8000 ≤ (passing 1 false).ms ∧ ((passing 1 false).lane .l1).state = .passing
      ∧ unlocked.Settled ∧ (unlocked.lane .l1).grantTimer = some ⟨92000, 8000⟩
      ∧ (unlocked.lane .l1).state = .unlocked
      ∧ (unlocked.lane .l1).txn.map (·.insertReserved) = some false ∧ (unlocked.lane .l1).window = none
      ∧ (unlocked.lane .l1).pendingRole = none ∧ unlocked.restingState .l1 ≠ .fault
      ∧ unlocked.heldOrder = [] ∧ unlocked.maze.count ≤ 255 := by
  refine ⟨settled_of_idle rfl rfl rfl rfl rfl, ?_, ?_, ?_, settled_of_idle rfl rfl rfl rfl rfl, ?_, ?_, ?_, ?_,
    ?_, ?_, ?_, ?_⟩ <;> decide +kernel

theorem witness_PassageCompletes :
    ∀ k ∈ [0, 1, 3], (passing k true).ownAddress.isSome = true ∧ 0 < (passing k true).generalFree
      ∧ ((passing k true).lane .l1).role = some .ticket ∧ ((passing k true).lane .l1).state = .passing
      ∧ ((passing k true).lane .l1).window = some ⟨k, true⟩
      ∧ ((passing k true).lane .l1).trailTimer = some ⟨99700, 300⟩ ∧ 99700 + 300 ≤ (passing k true).ms
      ∧ ((passing k true).lane .l1).txn.map (fun t => (t.reserved, t.insertReserved)) = some (true, false)
      ∧ ((passing k true).lane .l1).pendingRole = none ∧ (passing k true).restingState .l1 ≠ .fault
      ∧ (passing k true).heldOrder = [] ∧ (passing k true).loop.insertQueue = []
      ∧ (passing k true).maze.count + max 1 k ≤ 255 := by decide +kernel

theorem witness_PassageCompletes_free :
    (∀ inForce, (free inForce (some ⟨2, true⟩)).Settled)
      ∧ ((free true (some ⟨2, true⟩)).lane .l1).trailTimer = some ⟨99700, 300⟩
      ∧ ((free true (some ⟨2, true⟩)).lane .l1).lateFree = none
      ∧ ((free true (some ⟨2, true⟩)).lane .l1).pendingRole = none
      ∧ (free false (some ⟨2, true⟩)).restingState .l1 ≠ .fault
      ∧ (late true).Settled ∧ ((late true).lane .l1).lateFree = some ⟨2, true⟩
      ∧ ((late true).lane .l1).trailTimer = some ⟨99700, 300⟩ := by
  refine ⟨fun _ => settled_of_idle rfl rfl rfl rfl rfl, rfl, rfl, rfl, ?_, settled_of_idle rfl rfl rfl rfl rfl,
    rfl, rfl⟩
  decide +kernel

/-- Lane 1 in SETTLING with its recovery timer and its alarm timer just run out. -/
def settling : State :=
  readyWith .l1 { laneAt .ticket .settling with
    txn := some (txn usedCard), recoveryTimer := some ⟨99600, 400⟩, alarmTimer := some ⟨99000, 1000⟩ }

theorem witness_RecoveryAndAlarmTimersEnd :
    settling.Settled ∧ (settling.lane .l1).recoveryTimer = some ⟨99600, 400⟩ ∧ 99600 + 400 ≤ settling.ms
      ∧ (settling.lane .l1).state = .settling ∧ (settling.lane .l1).txn = some (txn usedCard)
      ∧ (settling.lane .l1).arm ≠ .forward ∧ (settling.lane .l1).alarmTimer = some ⟨99000, 1000⟩
      ∧ ({ settling with ms := 99999 }.lane .l1).alarmTimer = some ⟨99000, 1000⟩
      ∧ (ready.lane .l1).recoveryTimer = none ∧ (ready.lane .l1).alarmTimer = none
      ∧ ((readyWith .l1 { laneAt .ticket .idle with recoveryTimer := some ⟨99600, 400⟩ }).lane .l1).state
        ≠ .settling
      ∧ (settling.withLane .l1 { settling.lane .l1 with arm := .forward, kept := 2 }).Settled := by
  refine ⟨settled_of_idle rfl rfl rfl rfl rfl, ?_, ?_, ?_, ?_, ?_, ?_, ?_, ?_, ?_, ?_,
    settled_of_idle rfl rfl rfl rfl rfl⟩ <;> decide +kernel

theorem witness_FreeFlowEnds :
    (free true none).Settled ∧ (free true none).freeFlowSetting = false ∧ (free true none).freeFlowPin = true
      ∧ ((free true none).lane .l1).window = none ∧ ((free true none).lane .l1).pendingRole = none
      ∧ (free true none).restingState .l1 = .idle
      ∧ ((free true none).withPort .l1 { ready.port .l1 with status := .lost }).restingState .l1 = .fault
      ∧ { free false none with freeFlowSetting := true }.TakesCommand 0x05 (order 0x05 [0])
      ∧ onOffOf (order 0x05 [0]).payload = some false
      ∧ ({ free false none with freeFlowSetting := true }.withPort .l1
          { ready.port .l1 with status := .lost }).TakesCommand 0x05 (order 0x05 [0]) := by
  refine ⟨settled_of_idle rfl rfl rfl rfl rfl, rfl, rfl, rfl, rfl, ?_, ?_,
    ⟨settled_of_idle rfl rfl rfl rfl rfl, (ready_takes _ _ (by decide)).2⟩, ?_,
    ⟨settled_of_idle rfl rfl rfl rfl rfl, (ready_takes _ _ (by decide)).2⟩⟩ <;> decide +kernel

/-- Lane 1 with its grant write outstanding, lane 2 with a grant in the trail of its passage window. -/
def crowded : State :=
  { (grantWriting.withLane .l2 ((passing 2 true).lane .l1)) with
    deferred := grantWriting.deferred }

theorem witness_FreeFlowBegins :
    ready.freeFlowSetting = false ∧ ready.freeFlowPin = false ∧ ready.FreeFlowFinds ∧ ready.maze.count ≤ 255
      ∧ { ready with freeFlowSetting := true }.Settled
      ∧ ready.TakesCommand 0x05 (order 0x05 [1]) ∧ onOffOf (order 0x05 [1]).payload = some true
      ∧ onOffOf (order 0x05 [0]).payload = some ready.freeFlowSetting := by
  refine ⟨rfl, rfl, ⟨?_, ?_⟩, ?_, settled_of_idle rfl rfl rfl rfl rfl, ready_takes _ _ (by decide), ?_, ?_⟩
  · intro n _
    cases n <;> exact ⟨rfl, fun t h => by cases h⟩
  · intro n h
    cases h
  all_goals decide +kernel

theorem witness_FreeFlowBegins_transactions :
    crowded.Settled ∧ crowded.FreeFlowFinds ∧ (crowded.lane .l1).state = .writing
      ∧ (crowded.lane .l2).state = .passing ∧ held.FreeFlowFinds ∧ held.heldOrder = [.l1] := by
  refine ⟨settled_of_idle rfl rfl rfl rfl rfl, ⟨?_, ?_⟩, rfl, rfl, ⟨?_, ?_⟩, rfl⟩
  · intro n _
    cases n <;> exact ⟨rfl, fun t h => by cases h <;> exact ⟨rfl, rfl⟩⟩
  · intro n h; cases h
  · intro n _
    cases n <;> exact ⟨rfl, fun t h => by cases h <;> exact ⟨rfl, rfl⟩⟩
  · intro n h
    cases h with
    | head => exact ⟨rfl, rfl⟩
    | tail _ h => cases h

theorem witness_LiftRunChanges :
    ready.Settled ∧ (chairOpen 2).Settled ∧ ready.ownAddress.isSome = true ∧ ready.maze.liftRun = true
      ∧ (chairOpen 2).maze.liftRun = true
      ∧ { ready with maze := { ready.maze with liftRun := false, gate := .stopped } }.Settled :=
  ⟨ready_settled, settled_of_idle rfl rfl rfl rfl rfl, rfl, rfl, rfl, settled_of_idle rfl rfl rfl rfl rfl⟩

theorem witness_ChairsAndWindows :
    (chairOpen 2).Settled ∧ (chairOpen 2).ownAddress.isSome = true ∧ (chairOpen 2).maze.gate = .opened
      ∧ (chairOpen 2).maze.window = some ⟨5, 2, 6, ⟨97000, 3000⟩⟩ ∧ 97000 + 3000 ≤ (chairOpen 2).ms
      ∧ ready.maze.gate = .waiting :=
  ⟨settled_of_idle rfl rfl rfl rfl rfl, rfl, rfl, rfl, by decide, rfl⟩

theorem witness_GateBodyCounted :
    min 39 ready.ms < ready.settings.beamMinimumMs ∧ ready.settings.beamMinimumMs ≤ min 40 ready.ms
      ∧ ready.heldOrder = [] ∧ 0 < ready.maze.count ∧ ready.maze.window = none
      ∧ (chairOpen 5).maze.window = some ⟨5, 5, 6, ⟨97000, 3000⟩⟩ ∧ (chairOpen 5).Settled := by
  refine ⟨?_, ?_, ?_, ?_, ?_, ?_, settled_of_idle rfl rfl rfl rfl rfl⟩ <;> decide +kernel

/-- A Passback Table with 256 entries. -/
def passbackFull : State :=
  { ready with passback := (List.range 256).map fun i =>
      ⟨BitVec.ofNat 32 (i + 1), 3, 200000 + i, true, .lane .l1⟩ }

theorem witness_PassbackExpiryAndEviction :
    watched.Settled ∧ watched.passback.length < 256 ∧ passbackFull.passback.length = 256
      ∧ (∃ first rest, passbackFull.passback = first :: rest) ∧ watched.PassbackOrdered
      ∧ (txn freeCard).pinned.settingsInForce.ownGroup = 3 ∧ holdOf (txn freeCard).pinned.watchSet 3 = some 600
      ∧ (holdOf ready.tables.watchSet 3).isSome = true ∧ ready.passbackFind serial 3 = none
      ∧ (watched.passbackFind serial 3).map (·.origin) = some (.lane .l1)
      ∧ ({ watched with passback := [⟨serial, 3, 700000, true, .remote 7⟩] }.passbackFind serial 3).map
        PassbackEntry.origin = some (.remote 7)
      ∧ holdOf ({ tables with watchSet := [⟨3, 0⟩] } : TableSet).watchSet 3 = some 0
      ∧ holdOf TableSet.cold.watchSet 3 = none := by
  refine ⟨settled_of_idle rfl rfl rfl rfl rfl, ?_, ?_, ⟨_, _, rfl⟩, List.pairwise_singleton _ _, ?_, ?_, ?_, ?_,
    ?_, ?_, ?_, ?_⟩ <;> decide +kernel

theorem witness_DeferredOfferMeetsTable :
    (deferredFull.deferredFind 32).map (·.isSettlement) = some true
      ∧ (deferredFull.deferredFind 1).map (·.isSettlement) = some false
      ∧ deferredFull.deferredFind 99 = none ∧ 32 ≤ deferredFull.deferred.entries.length
      ∧ (deferredFull.deferred.entries.find? fun x => !x.isSettlement).isSome = true
      ∧ (ready.deferredFind 99 = none ∧ ready.deferred.entries.length < 32)
      ∧ (let all := (List.range 32).map fun i =>
          (⟨i, BitVec.ofNat 32 (i + 1), .settlement 100 0 19, 52, freeCard, 44, .l1⟩ : DeferredEntry)
         all.length = 32 ∧ ∀ x ∈ all, x.isSettlement = true) := by
  refine ⟨?_, ?_, ?_, ?_, ?_, ?_, ?_⟩ <;> decide +kernel

theorem owing_resolves (kind : DeferredKind) (intended : Record) :
    (owing ready kind intended).Resolves .l1 .ticket serial
      ∧ (owing ready kind intended).Resolves .l4 .settle serial := by
  refine ⟨⟨?_, ?_, ?_, ?_, ?_, ?_, ?_, ?_, ?_⟩, ?_, ?_, ?_, ?_, ?_, ?_, ?_, ?_, ?_⟩ <;>
    first | rfl | (intro h; cases h)

/-- A record as read for each course of R123: complete, of the base issue, with a bad check, and stale. -/
theorem witness_DeferredOfferMeetsTable_courses :
    ((owing ready owed settledCard).deferredFind serial).map (fun e => (e.intended, e.kind, e.baseIssue))
        = some (settledCard, owed, 52)
      ∧ ((owing ready owed settledCard).deferred.entries.map (·.serial)).Nodup
      ∧ parseFrame (cardFrame settledCard) = some (.card serial settledCard)
      ∧ freeCard ≠ settledCard ∧ Record.issue freeCard = 52 ∧ Record.checkValid (freeCard ^^^ 1) = false
      ∧ Record.dayMarked freeCard 4 ≠ settledCard ∧ Record.checkValid (Record.dayMarked freeCard 4) = true
      ∧ Record.issue (Record.dayMarked freeCard 4) ≠ 52
      ∧ (owing ready owed settledCard).ownAddress.isSome = true ∧ 0 < (owing ready owed settledCard).generalFree
      ∧ (owing ready owed settledCard).Settled := by
  refine ⟨?_, ?_, ?_, ?_, ?_, ?_, ?_, ?_, ?_, rfl, ?_, settled_of_idle rfl rfl rfl rfl rfl⟩ <;> decide +kernel

theorem witness_DayChecks :
    (39 < Record.first freeCard ∧ Record.first freeCard ≤ 40
      ∧ Record.first freeCard + Record.window freeCard - 1 < 47
      ∧ 46 ≤ Record.first freeCard + Record.window freeCard - 1)
      ∧ (row.validFrom ≤ 0 ∧ 1439 ≤ row.validTo ∧ row.validTo < 1440)
      ∧ Record.settled freeCard = false ∧ Record.dayMark freeCard 4 = .free
      ∧ Record.used freeCard < Record.days freeCard ∧ Record.dayMark usedCard 4 = .used
      ∧ Record.settled (Record.settledRecord freeCard 16350 44) = true := by decide +kernel

theorem witness_BuiltRecordsWellFormed :
    Record.wellFormed serial freeCard = true ∧ Record.settled freeCard = false ∧ 6 < Record.window freeCard
      ∧ Record.dayMark freeCard 6 = .free ∧ Record.used freeCard < Record.days freeCard := by decide +kernel

theorem witness_TimeBaseCounts :
    ready.time.stationTime ≤ 86399 ∧ ready.time.phase + 1000 ≤ ready.ms
      ∧ { ready with ms := 99999 }.ms < ready.time.phase + 1000
      ∧ ready.time.prescaler = some ⟨99000, 1000⟩ ∧ 99000 + 1000 ≤ ready.ms := by decide +kernel

theorem witness_IntervalEnds :
    { ready with time := { ready.time with intervalDue := true } }.Settled
      ∧ ready.ownAddress.isSome = true ∧ 0 < ready.generalFree :=
  ⟨settled_of_idle rfl rfl rfl rfl rfl, rfl, by decide +kernel⟩

theorem witness_TimeNoticeTaken :
    ready.Processes 0x20 (order 0x20 (bytesLE 4 86399)) ∧ (order 0x20 (bytesLE 4 86399)).payload.length = 4
      ∧ fieldLE (order 0x20 (bytesLE 4 86399)).payload 0 4 = 86399
      ∧ ready.Processes 0x20 (order 0x20 [0, 0, 0]) ∧ ready.Processes 0x21 (order 0x21 [0, 0, 0, 0, 0])
      ∧ ready.Processes 0x22 (order 0x22 [44, 0, 0]) := by
  refine ⟨ready_processes _ _ (by decide), ?_, ?_, ready_processes _ _ (by decide),
    ready_processes _ _ (by decide), ready_processes _ _ (by decide)⟩ <;> decide +kernel

theorem witness_DayOpens :
    let m := order 0x21 (bytesLE 2 366 ++ bytesLE 2 1440 ++ bytesLE 2 1440)
    ready.Processes 0x21 m ∧ m.source = 0 ∧ m.payload.length = 6 ∧ fieldLE m.payload 0 2 = 366
      ∧ fieldLE m.payload 2 2 ≤ fieldLE m.payload 4 2 ∧ fieldLE m.payload 4 2 ≤ 1440 := by
  refine ⟨ready_processes _ _ (by decide), ?_, ?_, ?_, ?_, ?_⟩ <;> decide +kernel

theorem witness_DayCloses :
    let m := order 0x22 (bytesLE 2 44)
    let busy : State := { ready with loop := { ready.loop with sending := some ⟨0x40, 0, 4, 0, []⟩ } }
    busy.Settled ∧ ready.Processes 0x22 m ∧ ready.Processes 0x22 (message 0x22 (bytesLE 2 44) 0 31 0)
      ∧ m.source = 0 ∧ m.payload.length = 2
      ∧ busy.time.dayState = .opened ∧ fieldLE m.payload 0 2 = busy.time.seasonDay
      ∧ busy.time.seasonDay = 44 ∧ 0 < busy.generalFree ∧ busy.loop.sending.isSome = true := by
  refine ⟨settled_of_idle rfl rfl rfl rfl rfl, ready_processes _ _ (by decide),
    ⟨⟨rfl, message_intact _ _ _ _ _ (by decide) (by decide) (by decide), ?_, ?_⟩, rfl, .inr rfl⟩, ?_, ?_, ?_, ?_, ?_,
    ?_, ?_⟩ <;> decide +kernel

theorem witness_AvailabilityComputed :
    ready.time.closeMinute ≤ 1440 ∧ 0 < (ready.dayReport false).scheduledSeconds ∧ 0 < ready.generalFree
      ∧ ready.ownAddress.isSome = true ∧ ready.time.dayState = .opened
      ∧ (State.reset.dayReport true).scheduledSeconds = 0 := by decide +kernel

theorem witness_PassageNoticeEnters :
    let m := message 0x23 (bytesLE 4 9 ++ [3] ++ bytesLE 4 30001 ++ List.replicate 6 1) 7 31 0
    ready.Processes 0x23 m ∧ m.payload.length = 15 ∧ m.source ≠ 0 ∧ fieldLE m.payload 0 4 = 9
      ∧ fieldLE m.payload 4 1 = 3 ∧ fieldLE m.payload 5 4 = 30001 ∧ holdOf ready.tables.watchSet 3 = some 600
      ∧ noticeAge ready.time.stationTime 30001 = 599 ∧ ready.passbackFind 9 3 = none
      ∧ ready.passback.length < 256 := by
  refine ⟨⟨⟨rfl, ?_, ?_, ?_⟩, rfl, .inr rfl⟩, ?_, ?_, ?_, ?_, ?_, ?_, ?_, ?_, ?_⟩ <;> decide +kernel

/-- A PASSAGE notice of this serial and group from controller 7. -/
def notice (serial group : Nat) : Arrival :=
  message 0x23 (bytesLE 4 serial ++ [BitVec.ofNat 8 group] ++ bytesLE 4 30540 ++ List.replicate 6 1) 7 31 0

/-- R55, R56: a notice is ignored, finds the table full, a CONFIRMED entry it outlasts, or a PENDING one. -/
theorem witness_PassageNoticeEnters_rows :
    let pending : State := { ready with passback := [⟨serial, 3, 200000, false, .lane .l1⟩] }
    ready.Processes 0x23 (notice 7340118 3) ∧ passbackFull.Settled ∧ watched.Settled ∧ pending.Settled
      ∧ holdOf ready.tables.watchSet 3 = some 600 ∧ noticeAge ready.time.stationTime 30540 = 60
      ∧ holdOf ready.tables.watchSet (fieldLE (notice 9 5).payload 4 1) = none
      ∧ 63 < fieldLE (notice 9 64).payload 4 1 ∧ fieldLE (notice 0 3).payload 0 4 = 0
      ∧ 256 ≤ passbackFull.passback.length ∧ passbackFull.passbackFind 7340118 3 = none
      ∧ (watched.passbackFind 7340118 3).map (fun e => (e.confirmed, e.expiry)) = some (true, 700000)
      ∧ (pending.passbackFind 7340118 3).map (·.confirmed) = some false
      ∧ ready.mgmt.enables = 0 := by
  refine ⟨⟨⟨rfl, message_intact _ _ _ _ _ (by decide) (by decide) (by decide), ?_, ?_⟩, rfl, .inr rfl⟩,
    settled_of_idle rfl rfl rfl rfl rfl, settled_of_idle rfl rfl rfl rfl rfl,
    settled_of_idle rfl rfl rfl rfl rfl, ?_, ?_, ?_, ?_, ?_, ?_, ?_, ?_, ?_, ?_⟩ <;> decide +kernel

/-- R56: the later of two expiries of a CONFIRMED entry stands, and a PENDING one is kept with CLONE_SUSPECT. -/
theorem test_passage_rows :
    (let pending : State := { ready with passback := [⟨serial, 3, 200000, false, .lane .l1⟩] }
     let early : State := { ready with passback := [⟨serial, 3, 200000, true, .lane .l1⟩] }
     ([watched, early, pending].map fun s =>
       (let t := after (.passage (notice 7340118 3)) s
        (t.passback.map fun e => (e.expiry, e.origin), t.flagSet .cloneSuspect))))
      = [([(700000, .lane .l1)], false), ([(640000, .lane .l1)], false), ([(200000, .lane .l1)], true)] := by
  decide +kernel

theorem witness_TransitMessageFates :
    ready.Accepts 0x23 (message 0x23 [1] 7 9 29) ∧ ready.isOwn 9 = false
      ∧ ready.isOwn (message 0x23 [1] 4 9 0).source = true
      ∧ arrivalIntact 0x23 (message 0x23 [1] 4 9 0) = true ∧ (30 ≤ (message 0x23 [1] 7 9 30).hops.toNat)
      ∧ arrivalIntact 0x24 (message 0x23 [1] 7 9 0) = false
      ∧ { ready with loop := { ready.loop with badRun := 14 } }.Settled := by
  refine ⟨⟨rfl, ?_, ?_, ?_⟩, ?_, ?_, ?_, ?_, ?_, settled_of_idle rfl rfl rfl rfl rfl⟩ <;> decide +kernel

theorem witness_LinkTrainsAndFalls :
    { ready with loop := { ready.loop with link := .sync, training := some ⟨99950, 50⟩ } }.Settled
      ∧ 99950 + 50 ≤ ready.ms ∧ ready.loop.link ≠ .down ∧ ready.loop.silence = some ⟨99900, 200⟩
      ∧ 99900 + 200 ≤ { ready with ms := 100100 }.ms := by
  refine ⟨settled_of_idle rfl rfl rfl rfl rfl, ?_, ?_, ?_, ?_⟩ <;> decide +kernel

/-- A bad message in SYNC and DOWN, and the sixteenth of a run in SYNC and UP (R169). -/
theorem witness_LinkTrainsAndFalls_bad :
    (∀ k b, { ready with loop := { ready.loop with link := k, badRun := b } }.Settled)
      ∧ arrivalIntact 0x08 { order 0x08 [] with crc := 0 } = false ∧ ready.loop.badRun < 15 :=
  ⟨fun _ _ => settled_of_idle rfl rfl rfl rfl rfl, by decide +kernel, by decide⟩

/-- R169: the sixteenth bad message of a run takes the link to DOWN with LINK_LOST; one in SYNC restarts training. -/
theorem test_bad_run :
    ([(LinkState.up, 14), (.up, 15), (.sync, 3)].map fun (k, b) =>
      (let t := after (.transitMessage 0x08 { order 0x08 [] with crc := 0 })
        { ready with loop := { ready.loop with link := k, badRun := b, training := some ⟨99990, 50⟩ } }
       (t.loop.link, t.loop.badRun, t.loop.training, t.flagSet .linkLost)))
      = [(.up, 15, some ⟨99990, 50⟩, false), (.down, 0, none, true), (.sync, 4, some ⟨100000, 50⟩, false)] := by
  decide +kernel

theorem answersFull_settled : answersFull.Settled := ⟨.inl rfl, ⟨rfl, .inl rfl⟩, .inl rfl⟩

theorem witness_ArbiterChooses :
    answersFull.Settled ∧ answersFull.loop.sending.isSome = true ∧ answersFull.loop.pendingEvents = [] :=
  ⟨answersFull_settled, rfl, rfl⟩

/-- A queue whose general entries are all taken, by EVENT reports and one PASSAGE. -/
def queueFull : State :=
  { ready with loop := { ready.loop with
      sending := some ⟨0x40, 0, 4, 0, []⟩
      insertQueue := List.replicate 27 (.event ⟨.forced, 30000, 1⟩)
        ++ .passage (ready.passageNotice .l1 (txn usedCard) 1) :: [] } }

theorem witness_ReportDisplacesPassage :
    queueFull.ownAddress.isSome = true ∧ queueFull.generalFree = 0
      ∧ (∀ x ∈ List.replicate 27 (Outgoing.event ⟨.forced, 30000, 1⟩), x.type ≠ 0x23)
      ∧ (let s : State := { queueFull with loop := { queueFull.loop with
           insertQueue := List.replicate 28 (.event ⟨.forced, 30000, 1⟩) } }
         s.generalFree = 0 ∧ ∀ x ∈ s.loop.insertQueue, x.type ≠ 0x23) := by
  refine ⟨rfl, ?_, ?_, ?_, ?_⟩ <;> decide +kernel

/-- `ready` with every enable on and every flag clear, its output busy where so told. -/
def reporting (busy : Bool) : State :=
  { ready with
    mgmt := { ready.mgmt with flags := 0, enables := 0x1FFFFF }
    loop := { ready.loop with sending := if busy then some ⟨0x40, 0, 4, 0, []⟩ else none } }

/-- R167, R183: latches of clear flags with the enable on, a general entry free or none. -/
theorem witness_ReportDisplacesPassage_events :
    (∀ b, (reporting b).Settled) ∧ (∀ f, (reporting true).flagSet f = false)
      ∧ (∀ f, (reporting true).flagEnabled f = true) ∧ (reporting true).eventPending .forced = false
      ∧ Flag.liftRunning.id < Flag.linkLost.id ∧ 0 < (reporting true).generalFree := by
  refine ⟨fun _ => settled_of_idle rfl rfl rfl rfl rfl, ?_, ?_, ?_, ?_, ?_⟩
  · intro f; cases f <;> decide +kernel
  · intro f; cases f <;> decide +kernel
  all_goals decide +kernel

/-- R104, R183: a fall of LIFT_RUN makes one EVENT report, and none while the flag is set or the enable off. -/
theorem test_event_report :
    ([reporting true, (reporting true).withFlag .liftStopped,
        { ready with loop := { ready.loop with sending := some ⟨0x40, 0, 4, 0, []⟩ } }].map fun s =>
      (after (.liftRunChange false) s).loop.insertQueue)
      = [[.event ⟨.liftStopped, 30600, 0⟩], [], []] := by decide +kernel

theorem witness_LoadStoresSegment :
    let m := order 0x01 ([0, 31, 32] ++ bytesLE 4 1)
    ready.TakesCommand 0x01 m ∧ TableId.ofId (fieldLE m.payload 0 1) = some .blockList
      ∧ fieldLE m.payload 1 1 < fieldLE m.payload 2 1 ∧ fieldLE m.payload 2 1 ≤ TableId.blockList.maxSegments
      ∧ TableId.blockList.segmentFits (m.payload.drop 3) = true
      ∧ ready.mgmt.shadows.get .blockList = .absent
      ∧ TableId.blockList.segmentFits [0, 0, 0] = false := by
  refine ⟨ready_takes _ _ (by decide), ?_, ?_, ?_, ?_, ?_, ?_⟩ <;> decide +kernel

/-- `ready` with a complete shadow of the categories and an incomplete one of the block list. -/
def shadowed : State :=
  { ready with mgmt := { ready.mgmt with shadows := { Shadows.absent with
      categories := .loading 1 [(0, bytesLE 2 1000 ++ List.replicate 8 0)]
      watchSet := .loading 1 [(0, [64, 0, 0])]
      blockList := .loading 2 [(0, [])] } } }

theorem witness_CommitSwapsTables :
    shadowed.TakesCommand 0x02 (order 0x02 [8]) ∧ tableMaskOf (order 0x02 [8]).payload = some [.categories]
      ∧ firstIncomplete [.categories] shadowed.mgmt.shadows = none
      ∧ firstInvalid [.categories] shadowed.mgmt.shadows shadowed.tables = none
      ∧ TableId.categories ∈ [TableId.categories] ∧ TableId.settings ∉ [TableId.categories] := by
  refine ⟨⟨settled_of_idle rfl rfl rfl rfl rfl, (ready_takes _ _ (by decide)).2⟩, ?_, ?_, ?_, ?_, ?_⟩ <;>
    decide +kernel

/-- `ready` with complete shadows of the watch set, of a lane table that changes the roles of lanes 1 and 2, and of
settings with another interval period; lane 2 is unlocked and a watched entry is held. -/
def swapping : State :=
  { watched.withLane .l2 (unlocked.lane .l1) with
    mgmt := { ready.mgmt with shadows := { Shadows.absent with
      watchSet := .loading 1 [(0, [4, 60, 0])]
      laneTable := .loading 1 [(0, [2, 0, 1, 0, 2, 0, 1, 0])]
      settings := .loading 1 [(0, [3, 60, 6] ++ bytesLE 2 3000 ++ [8] ++ bytesLE 2 400 ++ bytesLE 2 300 ++ [10, 40]
        ++ bytesLE 2 1000 ++ [30, 15] ++ bytesLE 2 600 ++ bytesLE 2 50 ++ bytesLE 4 100000 ++ [7, 255, 1, 0])] } } }

theorem witness_CommitSwapsTables_owners :
    let named := [TableId.watchSet, TableId.laneTable, TableId.settings]
    swapping.TakesCommand 0x02 (order 0x02 [0xD0]) ∧ tableMaskOf (order 0x02 [0xD0]).payload = some named
      ∧ firstIncomplete named swapping.mgmt.shadows = none
      ∧ firstInvalid named swapping.mgmt.shadows swapping.tables = none ∧ swapping.heldOrder = []
      ∧ swapping.time.intervalDue = false ∧ 0 < swapping.generalFree
      ∧ swapping.tables.settings.map (·.intervalPeriodS) = some 60
      ∧ (let t := after (.commit (order 0x02 [0xD0])) swapping
         (LaneId.all.map fun n => ((t.lane n).role, (t.lane n).pendingRole), t.passback, t.time.sequence,
            t.tables.settings.map (·.intervalPeriodS)))
        = ([(some .exit, none), (some .ticket, some .settle), (some .exit, none), (some .settle, none)], [], 1,
          some 30) := by
  refine ⟨⟨settled_of_idle rfl rfl rfl rfl rfl, (ready_takes _ _ (by decide)).2⟩, ?_, ?_, ?_, ?_, ?_, ?_, ?_, ?_⟩ <;>
    decide +kernel

/-- R64, R86, R89: the free window of lane 1 closes with its count as the lane turns from TICKET to EXIT. -/
theorem test_commit_late :
    (let t := after (.commit (order 0x02 [0xD0])) (swapping.withLane .l1 ((late true).lane .l1))
     ((t.lane .l1).role, (t.lane .l1).lateFree, (t.lane .l1).trailTimer, (t.lane .l1).day.free, t.maze.count))
      = (some .exit, none, none, 1, 7) := by decide +kernel

/-- `swapping` with a maze limit of 6 that six people have reached, and lanes 1 and 3 held (R99, R101). -/
def swappingHeld : State :=
  let l (today : DayMark) : Lane := { laneAt .ticket .held with
    txn := some { txn usedCard with row := some 6, today := some today, present := true }
    holdTimer := some ⟨95000, 10000⟩ }
  { (swapping.withLane .l1 (l .used)).withLane .l3 (l .free) with
    tables := { tables with settings := tables.settings.map fun x => { x with mazeLimit := 6 } }
    maze := { ready.maze with count := 5 }
    heldOrder := [.l1, .l3] }

/-- R99, R101, R158: settings with a limit of 60 give each held lane its place, and end the interval. -/
theorem witness_CommitSwapsTables_places :
    swappingHeld.TakesCommand 0x02 (order 0x02 [0x80]) ∧ swappingHeld.heldOrder.Nodup
      ∧ tableMaskOf (order 0x02 [0x80]).payload = some [.settings]
      ∧ firstIncomplete [.settings] swappingHeld.mgmt.shadows = none
      ∧ (∀ n ∈ swappingHeld.heldOrder, (swappingHeld.lane n).state = .held)
      ∧ firstInvalid [.settings] swappingHeld.mgmt.shadows swappingHeld.tables = none
      ∧ (let t := after (.commit (order 0x02 [0x80])) swappingHeld
         (t.heldOrder, (LaneId.all.map fun n => (t.lane n).state), t.maze.count, t.mazeSum,
            (t.lane .l2).interval == .zero))
        = ([], [.unlocked, .unlocked, .writing, .idle], 5, 8, true) := by
  refine ⟨⟨⟨.inr ?_, ⟨rfl, .inl rfl⟩, .inr ⟨rfl, rfl⟩⟩, (ready_takes _ _ (by decide)).2⟩, ?_, ?_, ?_, ?_, ?_, ?_⟩
    <;> decide +kernel

/-- R44: a lane held with today FREE whose card is gone is refused in place of its grant. -/
theorem test_commit_absent :
    (let s := swappingHeld.withLane .l3 { swappingHeld.lane .l3 with
       txn := (swappingHeld.lane .l3).txn.map fun x => { x with present := false } }
     let t := after (.commit (order 0x02 [0x80])) s
     ((t.lane .l3).txn.isSome, (t.lane .l3).holdTimer, t.heldOrder, t.mazeSum)) = (false, none, [], 7) := by
  decide +kernel

theorem witness_AbortLoadClears :
    ready.TakesCommand 0x03 (order 0x03 [255]) ∧ tableMaskOf (order 0x03 [255]).payload = some TableId.all :=
  ⟨ready_takes _ _ (by decide), by decide +kernel⟩

theorem witness_CommandsRefused :
    shadowed.TakesCommand 0x02 (order 0x02 [1]) ∧ tableMaskOf (order 0x02 [1]).payload = some [.blockList]
      ∧ firstIncomplete [.blockList] shadowed.mgmt.shadows = some .blockList
      ∧ firstIncomplete [.watchSet] shadowed.mgmt.shadows = none
      ∧ firstInvalid [.watchSet] shadowed.mgmt.shadows shadowed.tables = some .watchSet
      ∧ tableMaskOf (order 0x02 [16]).payload = some [.watchSet]
      ∧ (isCommandType 0x0D = false ∧ isNoticeType 0x0D = false ∧ isReportType 0x0D = false
        ∧ ready.TakesCommand 0x0D (order 0x0D []))
      ∧ answersFull.Settled ∧ 4 ≤ answersFull.answersOccupied ∧ answersFull.Consumes 0x0C (order 0x0C []) := by
  refine ⟨⟨settled_of_idle rfl rfl rfl rfl rfl, (ready_takes _ _ (by decide)).2⟩, ?_, ?_, ?_, ?_, ?_,
    ⟨?_, ?_, ?_, ready_takes _ _ (by decide)⟩, answersFull_settled, ?_, (ready_takes _ _ (by decide)).2.1⟩ <;>
    decide +kernel

theorem witness_LaneCommandActs :
    ready.TakesCommand 0x04 (order 0x04 [2, 0]) ∧ laneCommandOf (order 0x04 [2, 0]).payload = some (.l2, false)
      ∧ ready.keyControl .l2 = true ∧ laneCommandOf (order 0x04 [4, 1]).payload = some (.l4, true)
      ∧ ready.keyControl .l4 = false ∧ (ready.lane .l4).role = some .settle ∧ ready.OtherwiseOpen .l4
      ∧ ready.Resting .l4 := by
  refine ⟨ready_takes _ _ (by decide), ?_, ?_, ?_, ?_, ?_, ⟨?_, ?_, ?_, ?_⟩, .inl ?_⟩ <;> decide +kernel

theorem witness_LoadingHoldActs :
    (chairOpen 2).TakesCommand 0x06 (order 0x06 [1]) ∧ onOffOf (order 0x06 [1]).payload = some true :=
  ⟨⟨settled_of_idle rfl rfl rfl rfl rfl, (ready_takes _ _ (by decide)).2⟩, by decide +kernel⟩

theorem witness_ReadsAnswer :
    ready.TakesCommand 0x07 (order 0x07 [3]) ∧ oneByte (order 0x07 [3]).payload = some 3
      ∧ (ready.heard.bringRunTimes.statusPart 3).isSome = true
      ∧ oneByte (order 0x07 [1]).payload = some 1 ∧ oneByte (order 0x07 [2]).payload = some 2
      ∧ ready.TakesCommand 0x08 (order 0x08 []) ∧ (order 0x08 []).payload = [] :=
  ⟨ready_takes _ _ (by decide), by decide +kernel, rfl, by decide +kernel, by decide +kernel,
    ready_takes _ _ (by decide), rfl⟩

theorem witness_FlagAndPurgeCommandsAct :
    ready.TakesCommand 0x09 (order 0x09 (bytesLE 4 0x1FFFFF))
      ∧ flagMaskOf (order 0x09 (bytesLE 4 0x1FFFFF)).payload = some 0x1FFFFF
      ∧ ready.TakesCommand 0x0A (order 0x0A (bytesLE 4 0))
      ∧ flagMaskOf (order 0x0A (bytesLE 4 0)).payload = some 0
      ∧ ready.TakesCommand 0x0B (order 0x0B [1]) ∧ purgeOf (order 0x0B [1]).payload = some none
      ∧ purgeOf (order 0x0B (0 :: bytesLE 4 7340118)).payload = some (some serial) := by
  refine ⟨ready_takes _ _ (by decide), ?_, ready_takes _ _ (by decide), ?_, ready_takes _ _ (by decide), ?_, ?_⟩
    <;> decide +kernel

theorem witness_RestartResets :
    ready.TakesCommand 0x0C (order 0x0C []) ∧ (order 0x0C []).payload = [] :=
  ⟨ready_takes _ _ (by decide), rfl⟩

/-- Lane 4 with a settlement write outstanding, lane 2 with a grant at its barrier, a table full of settlements. -/
def restarting : State :=
  let s := settleWriting.withLane .l2 (unlocked.lane .l1)
  { s with deferred := ⟨(List.range 32).map fun i =>
      ⟨i, BitVec.ofNat 32 (i + 1), .settlement 100 0 19, 52, freeCard, 44, .l1⟩, 32⟩ }

/-- R20, R93, R115, R121: the barrier's grant lapses with its credit and RELEASE; a settlement that finds no room
shows SEE_DESK and counts as lost; the answer is on its way. -/
theorem witness_RestartResets_open :
    restarting.TakesCommand 0x0C (order 0x0C []) ∧ restarting.maze.count ≤ 255
      ∧ (let t := after (.restart (order 0x0C [])) restarting
         ([LaneId.l2, .l4].map fun n => ((t.lane n).state, (t.lane n).txn.isSome, (t.lane n).day.lapsed,
            (t.port n).tx), t.maze.count, t.flagSet .deferredLost, t.loop.sending.map (·.type)))
        = ([(.idle, false, 1, [.release serial]),
            (.idle, false, 0, endFrames .seeDesk serial)], 5, true, some 0x40) := by
  refine ⟨⟨settled_of_idle rfl rfl rfl rfl rfl, (ready_takes _ _ (by decide)).2⟩, ?_, ?_⟩ <;> decide +kernel

end Sys2Proof.Tests
end

