-- ==== Sys2Proof/Proofs/ResetAndFrames.lean ====
section
/-! PROOFS. The reset values, and the frames that R9 discards. -/

namespace Sys2Proof.Machine

/-- Every window of the cold table set is disabled with action REFUSE (R21). -/
theorem TableSet.cold_windows : ∀ w ∈ TableSet.cold.windows, w.enable = false ∧ w.action = .refuse := by
  intro w hw
  obtain rfl : w = Window.disabled := List.eq_of_mem_replicate hw
  exact ⟨rfl, rfl⟩

/-- Every lane stands as Lane.cold gives it, with its own key (R92). -/
theorem State.cold_lane (pins : ResetPins) (n : LaneId) :
    (State.cold pins).lane n = Lane.cold (pins.keys.get n) := PerLane.get_map _ _ _

theorem State.cold_port (pins : ResetPins) (n : LaneId) : (State.cold pins).port n = Port.cold :=
  PerLane.get_const _ _

/-- The gate waits where the lift runs and the part has an own address (R114). -/
theorem Maze.cold_gate (own : Option (BitVec 5)) (liftRun : Bool) :
    (Maze.cold own.isNone liftRun).gate
      = if liftRun = true ∧ own.isSome = true then .waiting else .stopped := by
  cases liftRun <;> cases own <;> rfl

/-- Settles O2: the lanes, the ports, the windows and the gate by the lemmas above, and every other value is the
one that the cold state writes out. -/
theorem coldResetValues : Obligations.ColdResetValues := by
  intro pins s
  have hlane (n : LaneId) : ({ State.cold pins with pending := s.pending, choices := s.choices } : State).lane n
      = Lane.cold (pins.keys.get n) := State.cold_lane pins n
  have hport (n : LaneId) : ({ State.cold pins with pending := s.pending, choices := s.choices } : State).port n
      = Port.cold := State.cold_port pins n
  refine ⟨{ State.cold pins with pending := s.pending, choices := s.choices }, rfl, ?_⟩
  simp only [hlane, hport, Lane.cold, Port.cold, and_self, implies_true]
  have hgate := Maze.cold_gate (ownAddressOf pins.address) pins.liftRun
  have hwindows := TableSet.cold_windows
  repeat' apply And.intro
  all_goals trivial

/-- A frame whose CRC or length byte does not fit, or whose type none of the four has, carries no message (R9). -/
theorem parseFrame_of_bad {f : ReaderFrame}
    (h : f.crc ≠ crc16 (f.type :: f.length :: f.fields) ∨ f.length.toNat ≠ f.fields.length
      ∨ f.type.toNat = 0 ∨ 4 < f.type.toNat) : parseFrame f = none := by
  have hbad : frameIntact f = false → parseFrame f = none := fun hi => by simp [parseFrame, hi]
  rcases h with hcrc | hlen | htype
  · exact hbad (by simp [frameIntact, hcrc])
  · exact hbad (by simp [frameIntact, hlen])
  · cases hm : parseFrame f with
    | none => rfl
    | some m =>
      have : f.type.toNat = 1 ∨ f.type.toNat = 2 ∨ f.type.toNat = 3 ∨ f.type.toNat = 4 := by
        rcases Laws.RowFits.parseFrame_type hm with ⟨ht, -⟩ | ⟨ht, -⟩ | ⟨ht, -⟩ | ⟨ht, -⟩ <;> simp [ht]
      omega

/-- Settles O9: none of the four rows finds a message in the frame. -/
theorem badFrameDiscarded : Obligations.BadFrameDiscarded := by
  intro s n f h
  have hp := parseFrame_of_bad h
  simp [exec, execCard, execGone, execWriteResult, execBeat, hp]

end Sys2Proof.Machine
end

