-- ==== Sys2Proof/Proofs/Settled.lean ====
section
/-! PROOFS. Settled parts: what a change of a lane's transaction, of the maze and of the flags leaves settled. -/

namespace Sys2Proof.Machine

/-! ### Flags that are only set, with no report made (R182, R183) -/

/-- From `s` to `t` no EVENT report is made, no enable changes and no flag is cleared. -/
def State.QuietTo (s t : State) : Prop :=
  t.mgmt.raised = s.mgmt.raised ∧ t.mgmt.enables = s.mgmt.enables
    ∧ ∀ f, s.flagSet f = true → t.flagSet f = true

theorem State.quietTo_of_mgmt {s t : State} (h : t.mgmt = s.mgmt) : s.QuietTo t :=
  ⟨by rw [h], by rw [h], fun f hf => by rwa [State.flagSet, h]⟩

theorem State.QuietTo.trans {s t u : State} (h : s.QuietTo t) (h' : t.QuietTo u) : s.QuietTo u :=
  ⟨h'.1.trans h.1, h'.2.1.trans h.2.1, fun f hf => h'.2.2 f (h.2.2 f hf)⟩

theorem State.quietTo_withFlag (s : State) (f : Flag) : s.QuietTo (s.withFlag f) :=
  ⟨rfl, rfl, fun g hg => by
    have : s.mgmt.flags.getLsbD g.id = true := hg
    simp [State.flagSet, State.withFlag, this]⟩

theorem State.quietTo_latch {s : State} {f : Flag} (d : Nat) (h : s.LatchesSilently f) :
    s.QuietTo (s.latch f d) := by
  rw [State.latch_of_silent _ _ _ h]
  exact s.quietTo_withFlag f

/-- A latch that would be silent stays so. -/
theorem State.QuietTo.silent {s t : State} (h : s.QuietTo t) {f : Flag} (hf : s.LatchesSilently f) :
    t.LatchesSilently f := by
  obtain ⟨-, he, hs⟩ := h
  rcases hf with hf | hf
  · exact .inl (hs f hf)
  · exact .inr (by rwa [State.flagEnabled, he])

/-! ### Reservations -/

theorem Lane.reservation_of_txn {l : Lane} {t : Transaction} (h : l.txn = some t) :
    l.reservation = if t.reserved then 1 else 0 := by simp [Lane.reservation, h]

theorem Lane.reservation_of_none {l : Lane} (h : l.txn = none) : l.reservation = 0 := by
  simp [Lane.reservation, h]

theorem Lane.insertReservation_of_txn {l : Lane} {t : Transaction} (h : l.txn = some t) :
    l.insertReservation = if t.insertReserved then 1 else 0 := by simp [Lane.insertReservation, h]

theorem Lane.insertReservation_of_none {l : Lane} (h : l.txn = none) : l.insertReservation = 0 := by
  simp [Lane.insertReservation, h]

/-! ### Settled parts -/

/-- A lane without a transaction leaves every free place free. -/
theorem State.withLane_placeFree_of_none (s : State) (n : LaneId) {l : Lane} (hl : l.txn = none)
    (h : s.placeFree = true) : (s.withLane n l).placeFree = true := by
  have hle : (s.withLane n l).reservations ≤ s.reservations := by
    have hr := Lane.reservation_of_none hl
    cases n <;> simp only [State.withLane, State.reservations, PerLane.set, hr] <;> omega
  rw [State.placeFree_iff] at h ⊢
  exact lt_of_le_of_lt (Nat.add_le_add_left hle s.maze.count) h

/-- A settled part stays settled where its loop and its reserved entries stay, its reports are none, and no
place is left ungiven. -/
theorem State.Settled.of_given {s t : State} (h : s.Settled) (hg : t.PlacesGiven)
    (hr : t.mgmt.raised = s.mgmt.raised) (hl : t.loop = s.loop)
    (hi : t.generalReserved = s.generalReserved) : t.Settled := by
  obtain ⟨-, ⟨hraised, hpending⟩, hout⟩ := h
  have hf : t.generalFree = s.generalFree := State.generalFree_congr (by rw [hl]) hi
  refine ⟨hg, ⟨by rw [hr]; exact hraised, ?_⟩, ?_⟩
  · rw [hl, hf]; exact hpending
  · rw [State.OutputServed, hl]; exact hout

/-- The same where no EVENT report is pending, whatever becomes of the reserved entries. -/
theorem State.Settled.of_given_of_queued {s t : State} (h : s.Settled) (hg : t.PlacesGiven)
    (hr : t.mgmt.raised = s.mgmt.raised) (hl : t.loop = s.loop) (hp : s.loop.pendingEvents = []) : t.Settled := by
  obtain ⟨-, ⟨hraised, -⟩, hout⟩ := h
  refine ⟨hg, ⟨by rw [hr]; exact hraised, .inl (by rw [hl]; exact hp)⟩, ?_⟩
  rw [State.OutputServed, hl]
  exact hout

/-- A settled part with a general entry free has no EVENT report pending (R167). -/
theorem State.Settled.pendingEvents_of_room {s : State} (h : s.Settled) (hf : 0 < s.generalFree) :
    s.loop.pendingEvents = [] :=
  h.2.1.2.resolve_right (by omega)

/-- A settled part in which a place is free holds no lane (R101). -/
theorem State.Settled.heldOrder_of_placeFree {s : State} (h : s.Settled) (hp : s.placeFree = true) :
    s.heldOrder = [] :=
  h.1.resolve_right (by simp [hp])

/-- A lane replaced leaves no place ungiven where its place stays, or where no lane is held. -/
theorem State.PlacesGiven.withLane {s : State} (h : s.PlacesGiven) (n : LaneId) (l : Lane)
    (hp : s.heldOrder = [] ∨ l.reservation = (s.lane n).reservation) : (s.withLane n l).PlacesGiven := by
  rcases hp with hp | hp
  · exact .inl hp
  · rcases h with hg | hg
    · exact .inl hg
    · exact .inr (by rw [State.withLane_placeFree s n l hp]; exact hg)

/-- A lane replaced keeps a settled part settled where its reservations stay, or where no lane is held. -/
theorem State.Settled.withLane_reserving {s : State} (h : s.Settled) (n : LaneId) (l : Lane)
    (hp : s.heldOrder = [] ∨ l.reservation = (s.lane n).reservation)
    (hi : l.insertReservation = (s.lane n).insertReservation) : (s.withLane n l).Settled :=
  h.of_given (h.1.withLane n l hp) rfl rfl (State.withLane_generalReserved s n l hi)

/-- Lanes taken out of the held order keep a settled part settled. -/
theorem State.Settled.withHeld_filter {s : State} (h : s.Settled) (p : LaneId → Bool) :
    ({ s with heldOrder := s.heldOrder.filter p } : State).Settled := by
  refine h.of_given ?_ rfl rfl rfl
  rcases h.1 with hg | hg
  · exact .inl (by simp [hg])
  · exact .inr hg

/-! ### The ends of a transaction (R16, R17, R47, R142) -/

/-- The final VERDICT and RELEASE end the open transaction and take the lane out of the held order. -/
theorem State.sendFinal_release_eq {s : State} {n : LaneId} {t : Transaction} (d : Display) (lamp : Lamp)
    (days amount : Nat) (h : (s.lane n).txn = some t) :
    (s.sendFinal n d lamp days amount).release n =
      { (s.withPort n ((s.port n).sending [.verdict true d lamp days amount, .release t.serial])).withLane n
          (s.lane n).released with
        heldOrder := s.heldOrder.filter (· != n) } := by
  rw [State.release_eq (s := s.sendFinal n d lamp days amount) (t := { t with finalDays := some days })
    (by simp [State.sendFinal_eq d lamp days amount h]), State.sendFinal_eq d lamp days amount h]
  simp [State.withPort_withLane, Lane.released]

/-- The same for a lane that is not held. -/
theorem State.sendFinal_release_of_free {s : State} {n : LaneId} {t : Transaction} (d : Display) (lamp : Lamp)
    (days amount : Nat) (h : (s.lane n).txn = some t) (hn : n ∉ s.heldOrder) :
    (s.sendFinal n d lamp days amount).release n =
      (s.withPort n ((s.port n).sending [.verdict true d lamp days amount, .release t.serial])).withLane n
        (s.lane n).released := by
  rw [State.sendFinal_release_eq d lamp days amount h, filter_ne_of_not_mem hn]
  rfl

/-- A port replaced by one of the same status leaves the resting state. -/
theorem State.restingState_withPort (s : State) (n m : LaneId) {p : Port} (h : p.status = (s.port m).status) :
    (s.withPort m p).restingState n = s.restingState n := by
  refine State.restingState_congr n rfl rfl rfl rfl rfl ?_
  by_cases hnm : n = m
  · subst hnm; simpa using h
  · rw [State.withPort_port_other s hnm]

/-- A lane replaced by one that agrees in role, key and command setting comes to the same resting state. -/
theorem State.comeToRest_withLane {s : State} {n : LaneId} {l : Lane} (hr : l.role = (s.lane n).role)
    (hk : l.keyHigh = (s.lane n).keyHigh) (hc : l.commandOpen = (s.lane n).commandOpen)
    (hp : l.pendingRole = none) (h : s.restingState n ≠ .fault) :
    (s.withLane n l).comeToRest n = s.withLane n { l with state := s.restingState n } := by
  have hrest := State.restingState_withLane s n l hr hk hc
  rw [State.comeToRest_eq (by simpa using hp) (by rwa [hrest]), hrest, State.withLane_lane_same,
    State.withLane_withLane]

/-- `s` with lane `n`'s transaction for this serial refused: the final VERDICT and RELEASE sent, refused + 1, out of
the held order and at rest. -/
def State.refusedTo (s : State) (n : LaneId) (serial : Serial) (e : Display) (days : Nat) : State :=
  { (s.withPort n ((s.port n).sending [.verdict true e .red days 0, .release serial])).withLane n
      ({ s.lane n with txn := none, holdTimer := none, state := s.restingState n }.counting .refused 1) with
    heldOrder := s.heldOrder.filter (· != n) }

/-- A refusal on a lane that differs from `s`'s in its transaction and its hold timer alone. -/
theorem State.refuse_withLane {s : State} {n : LaneId} {l : Lane} {t : Transaction} (e : Display) (days : Nat)
    (ht : l.txn = some t) (hl : l.released = (s.lane n).released) (hp : (s.lane n).pendingRole = none)
    (hr : s.restingState n ≠ .fault) :
    (s.withLane n l).refuse n e days = s.refusedTo n t.serial e days := by
  have hrest : (s.withLane n l).restingState n = s.restingState n :=
    State.restingState_withLane s n l (congrArg Lane.role hl :) (congrArg Lane.keyHigh hl :)
      (congrArg Lane.commandOpen hl :)
  have hpend : l.pendingRole = (s.lane n).pendingRole := (congrArg Lane.pendingRole hl :)
  have hlane : ({ l with txn := none, holdTimer := none, state := s.restingState n } : Lane)
      = { s.lane n with txn := none, holdTimer := none, state := s.restingState n } :=
    congrArg (fun x : Lane => { x with state := s.restingState n }) hl
  rw [State.refuse_eq e days (by simpa using ht)
    (by simpa [hpend] using hp) (by rwa [hrest]), hrest]
  simp only [State.withLane_lane_same, hlane, State.withLane_port]
  simp [State.refusedTo, State.withPort, State.withLane]

/-- A refusal keeps a settled part settled, and every free place, where what it releases is awaited by no held lane
and by no pending report. -/
theorem State.Settled.refusedTo {s : State} (h : s.Settled) {n : LaneId} {serial : Serial} {e : Display}
    {days : Nat} (hp : s.heldOrder = [] ∨ (s.lane n).reservation = 0)
    (hi : (s.lane n).insertReservation = 0 ∨ s.loop.pendingEvents = []) :
    (s.refusedTo n serial e days).Settled
      ∧ (s.placeFree = true → (s.refusedTo n serial e days).placeFree = true) := by
  generalize hport : (s.port n).sending [.verdict true e .red days 0, .release serial] = p
  generalize hlane : ({ s.lane n with txn := none, holdTimer := none, state := s.restingState n } : Lane).counting
    .refused 1 = l
  have hn : l.txn = none := by rw [← hlane]; rfl
  have hfree := State.withLane_placeFree_of_none (s.withPort n p) n hn
  have hgiven : ((s.withPort n p).withLane n l).PlacesGiven :=
    (h.withPort n p).1.withLane n l (hp.imp id fun hr => (Lane.reservation_of_none hn).trans hr.symm)
  have hset : ((s.withPort n p).withLane n l).Settled := by
    rcases hi with hi | hi
    · exact (h.withPort n p).of_given hgiven rfl rfl
        (State.withLane_generalReserved _ n l ((Lane.insertReservation_of_none hn).trans hi.symm))
    · exact (h.withPort n p).of_given_of_queued hgiven rfl rfl hi
  rw [State.refusedTo, hport, hlane]
  exact ⟨hset.withHeld_filter _, hfree⟩

end Sys2Proof.Machine
end

