-- ==== Sys2Proof/Proofs/Answers.lean ====
section
/-! PROOFS. A CARD that is answered without a transaction, GONE, and the ends of a held transaction. -/

namespace Sys2Proof.Machine

/-! ### The four frames as events (R9) -/

theorem exec_card {f : ReaderFrame} {serial : Serial} {record : Record} (n : LaneId) (s : State)
    (h : parseFrame f = some (.card serial record)) :
    exec (.card n f) s = .next (s.event fun s => s.presentCard n serial record) := by
  simp only [exec, execCard, h]

theorem exec_gone {f : ReaderFrame} {serial : Serial} (n : LaneId) (s : State)
    (h : parseFrame f = some (.gone serial)) :
    exec (.gone n f) s = .next (s.event fun s => s.cardGone n serial) := by
  simp only [exec, execGone, h]

theorem exec_writeResult {f : ReaderFrame} {serial : Serial} {o : WriteOutcome} (n : LaneId) (s : State)
    (h : parseFrame f = some (.writeResult serial o)) :
    exec (.writeResult n f) s = .next (s.event fun s => s.writeResult n serial o) := by
  simp only [exec, execWriteResult, h]

theorem exec_beat {f : ReaderFrame} {ok : Bool} (n : LaneId) (s : State) (h : parseFrame f = some (.beat ok)) :
    exec (.beat n f) s = .next (s.event fun s => s.goodBeat n ok) := by
  simp only [exec, execBeat, h]

/-! ### The expiries of the reader ports and of the hold timer as events -/

theorem exec_writeTimerExpiry (n : LaneId) (s : State) :
    exec (.writeTimerExpiry n) s = .next (s.event fun s => s.writeTimeout n) := rfl

theorem exec_heartbeatTimerExpiry (n : LaneId) (s : State) :
    exec (.heartbeatTimerExpiry n) s = .next (s.event fun s => s.heartbeatLost n) := rfl

theorem exec_holdTimerExpiry (n : LaneId) (s : State) :
    exec (.holdTimerExpiry n) s = .next (s.event fun s => s.holdTimeout n) := rfl

/-! ### CARD without a transaction (R13) -/

/-- The reason for the closure, as the table of R13 orders the reasons. -/
theorem State.closureReason_eq (s : State) :
    s.closureReason = if s.tables.laneTable.isNone ∨ s.tables.settings.isNone then .noTables
      else if s.time.dayState = .none then .noDay
      else if s.time.dayState = .closed then .dayClosed
      else .laneClosed := by
  unfold State.closureReason
  simp only [Bool.or_eq_true]
  split
  · rfl
  · cases s.time.dayState <;> rfl

/-- A lane that the table of R13 answers gives that code and nothing else. -/
theorem State.presentCard_of_answer {s : State} {n : LaneId} {d : Display} (serial : Serial) (record : Record)
    (h : s.cardAnswer n = some d) : s.presentCard n serial record = s.answerCard n d := by
  unfold State.cardAnswer at h
  unfold State.presentCard
  cases hr : (s.lane n).role with
  | none =>
    simp only [hr] at h ⊢
    split at h
    · rename_i hn
      cases h
      simp [State.closureReason, hn]
    · cases h
  | some r =>
    cases r <;> cases hst : (s.lane n).state <;> simp only [hr, hst, ← State.closureReason_eq] at h ⊢ <;> cases h <;>
      rfl

/-- At a grant's barrier the grant's own serial reads ECHO and another BUSY (R13). -/
theorem State.presentCard_at_barrier {s : State} {n : LaneId} {t : Transaction} (serial : Serial) (record : Record)
    (hr : (s.lane n).role = some .ticket) (hst : (s.lane n).state = .unlocked ∨ (s.lane n).state = .passing)
    (ht : (s.lane n).txn = some t) :
    s.presentCard n serial record = s.withPort n ((s.port n).sending
      [if t.serial = serial then .verdict true .echo .green (t.finalDays.getD 0) 0
        else .verdict true .busy .red 0 0]) := by
  have hp : s.presentCard n serial record = s.answerGranted n serial := by
    rcases hst with hst | hst <;> simp only [State.presentCard, hr, hst]
  rw [hp]
  simp only [State.answerGranted, State.txn, ht]
  split <;> rfl

/-- Settles O10: a settled part stays settled when a frame goes out, so the event ends with it. -/
theorem cardAnswered : Obligations.CardAnswered := by
  intro s n f serial record hs hf
  rw [exec_card n s hf]
  refine ⟨fun d hd => ?_, fun t hr hst ht => ?_⟩
  · exact congrArg _ (State.event_eq (State.presentCard_of_answer serial record hd) (hs.withPort n _) id)
  · exact congrArg _ (State.event_eq (State.presentCard_at_barrier serial record hr hst ht) (hs.withPort n _) id)

/-! ### GONE (R15, R43) -/

/-- GONE marks the open transaction's card absent, outside HELD with today FREE. -/
theorem State.cardGone_of_open {s : State} {n : LaneId} {t : Transaction} (ht : (s.lane n).txn = some t)
    (hst : ¬((s.lane n).state = .held ∧ t.today = some .free)) :
    s.cardGone n t.serial = s.withLane n { s.lane n with txn := some { t with present := false } } := by
  simp [State.cardGone, State.txn, ht, hst, State.modTxn, State.modLane_eq]

/-- GONE in HELD with today FREE refuses the card, now absent. -/
theorem State.cardGone_of_held {s : State} {n : LaneId} {t : Transaction} (ht : (s.lane n).txn = some t)
    (hst : (s.lane n).state = .held) (hfree : t.today = some .free) :
    s.cardGone n t.serial
      = (s.withLane n { s.lane n with txn := some { t with present := false } }).refuse n .gone t.daysOnCard := by
  simp [State.cardGone, State.txn, ht, hst, hfree, State.modTxn, State.modLane_eq]

theorem State.cardGone_of_other {s : State} {n : LaneId} {serial : Serial}
    (h : ∀ t, (s.lane n).txn = some t → t.serial ≠ serial) : s.cardGone n serial = s := by
  cases ht : (s.lane n).txn with
  | none => simp [State.cardGone, State.txn, ht]
  | some t => simp [State.cardGone, State.txn, ht, h t ht]

/-- A transaction changed in what no reservation reads keeps a settled part settled, and every free place. -/
theorem State.Settled.withTxn {s : State} (h : s.Settled) {n : LaneId} {t : Transaction} (l : Lane)
    (t' : Transaction) (ht : (s.lane n).txn = some t) (hl : l.txn = some t') (hr : t'.reserved = t.reserved)
    (hi : t'.insertReserved = t.insertReserved) :
    (s.withLane n l).Settled ∧ (s.withLane n l).placeFree = s.placeFree := by
  have hr' : l.reservation = (s.lane n).reservation := by
    rw [Lane.reservation_of_txn hl, Lane.reservation_of_txn ht, hr]
  have hi' : l.insertReservation = (s.lane n).insertReservation := by
    rw [Lane.insertReservation_of_txn hl, Lane.insertReservation_of_txn ht, hi]
  exact ⟨h.withLane_reserving n l (.inr hr') hi', State.withLane_placeFree s n l hr'⟩

/-- Settles O16: the absent card's transaction holds what it held, so the part stays settled. -/
theorem goneRecorded : Obligations.GoneRecorded := by
  intro s n f serial hs hf
  rw [exec_gone n s hf]
  refine ⟨?_, fun h => congrArg _ (State.event_same (State.cardGone_of_other h) hs)⟩
  rintro t ht rfl hst
  obtain ⟨hset, hfree⟩ := hs.withTxn { s.lane n with txn := some { t with present := false } }
    { t with present := false } ht rfl rfl rfl
  exact congrArg _ (State.event_eq (State.cardGone_of_open ht hst) hset hfree.trans)

/-! ### The ends of a held transaction (R42, R43) -/

/-- The hold timer's end refuses a held card FULL. -/
theorem State.holdTimeout_of_held {s : State} {n : LaneId} {t : Transaction} {h : Timer}
    (ht : (s.lane n).txn = some t) (hst : (s.lane n).state = .held) (hh : (s.lane n).holdTimer = some h)
    (hdue : h.start + h.duration ≤ s.ms) :
    s.holdTimeout n = (s.withLane n { s.lane n with holdTimer := none }).refuse n .full t.daysOnCard := by
  simp [State.holdTimeout, State.txn, ht, hst, hh, timerDue, Timer.due, hdue, State.modLane_eq]

/-- Settles O17: both ends are the refusal of a transaction that holds no place. -/
theorem heldRefusals : Obligations.HeldRefusals := by
  intro s n t hs hst ht hres hins hpend hrest ended
  have hend (e : Display) : (s.refusedTo n t.serial e t.daysOnCard).Settled
      ∧ (s.placeFree = true → (s.refusedTo n t.serial e t.daysOnCard).placeFree = true) :=
    hs.refusedTo (.inr (by simp [Lane.reservation_of_txn ht, hres]))
      (.inl (by simp [Lane.insertReservation_of_txn ht, hins]))
  refine ⟨fun f hf hfree => ?_, fun h hh hdue => ?_⟩
  · rw [exec_gone n s hf]
    refine congrArg _ (State.event_eq (t := s.refusedTo n t.serial .gone t.daysOnCard) ?_ (hend .gone).1
      (hend .gone).2)
    rw [State.cardGone_of_held ht hst hfree]
    exact State.refuse_withLane .gone t.daysOnCard (t := { t with present := false }) rfl rfl hpend hrest
  · rw [exec_holdTimerExpiry n s]
    refine congrArg _ (State.event_eq (t := s.refusedTo n t.serial .full t.daysOnCard) ?_ (hend .full).1
      (hend .full).2)
    rw [State.holdTimeout_of_held ht hst hh hdue]
    exact State.refuse_withLane .full t.daysOnCard (t := t) ht rfl hpend hrest

end Sys2Proof.Machine
end

