-- ==== Sys2Proof/Proofs/Verdicts.lean ====
section
/-! PROOFS. What each step of the two verdicts makes of a lane with an open transaction. -/

namespace Sys2Proof.Machine

section Steps

variable {s : State} {n : LaneId} {t : Transaction}

/-! ### The moment of the grant (R16, R44 to R46) -/

theorem State.grantedAt_withLane (s : State) (n : LaneId) (l l' : Lane) (t : Transaction) :
    (s.withLane n l').grantedAt n l t = s.grantedAt n l t := by
  unfold State.grantedAt
  split
  · simp
  · rw [State.passbackUnlock_withLane]
    simp

theorem State.grantedAt_withPort (s : State) (n m : LaneId) (l : Lane) (p : Port) (t : Transaction) :
    (s.withPort m p).grantedAt n l t = (s.grantedAt n l t).withPort m p := by
  unfold State.grantedAt
  split
  · rfl
  · rw [State.passbackUnlock_withPort]
    rfl

/-- The transaction that the lane held before does not matter. -/
theorem State.grantedAt_withTxn (s : State) (n : LaneId) (l : Lane) (o : Option Transaction) (t : Transaction) :
    s.grantedAt n { l with txn := o } t = s.grantedAt n l t := rfl

/-- The final VERDICT GRANT and the unlock, or SETTLING. -/
theorem State.grantFinal_eq (days : Nat) (ht : (s.lane n).txn = some t) :
    (s.sendFinal n .grant .green days 0).unlockOrSettle n
      = (s.grantedAt n (s.lane n) { t with finalDays := some days }).withPort n
        ((s.port n).sending [.verdict true .grant .green days 0]) := by
  rw [State.sendFinal_eq .grant .green days 0 ht,
    State.unlockOrSettle_eq (t := { t with finalDays := some days }) (by simp), State.withLane_lane_same,
    State.grantedAt_withLane, State.grantedAt_withTxn, State.grantedAt_withPort]

/-- Step 13 on a day already USED: the grant, with the days remaining of the record on the card. -/
theorem State.grant_of_used (ht : (s.lane n).txn = some t) (hu : t.today ≠ some .free) :
    s.grant n = (s.grantedAt n (s.lane n) { t with finalDays := some t.daysOnCard }).withPort n
      ((s.port n).sending [.verdict true .grant .green t.daysOnCard 0]) := by
  rw [← State.grantFinal_eq _ ht]
  simp [State.grant, State.txn, ht, hu]

/-! ### Card writes (R18) -/

theorem State.startWrite_eq (s : State) (n : LaneId) (w : WriteRequest) :
    s.startWrite n w = s.withPort n
      { (s.port n).sending [.write w.serial w.record] with write := some ⟨w, ⟨s.ms, 1000⟩⟩ } := by
  simp [State.startWrite, State.modPort_eq, State.send_eq, State.timer, Port.sending]

/-- A port without an outstanding write sends the request at once. -/
theorem State.requestWrite_of_free (w : WriteRequest) (h : (s.port n).write = none) :
    s.requestWrite n w = s.withPort n
      { (s.port n).sending [.write w.serial w.record] with write := some ⟨w, ⟨s.ms, 1000⟩⟩ } := by
  simp [State.requestWrite, h, State.startWrite_eq]

theorem State.requestWrite_withLane (l : Lane) (w : WriteRequest) (h : (s.port n).write = none) :
    (s.withLane n l).requestWrite n w = (s.withPort n
      { (s.port n).sending [.write w.serial w.record] with write := some ⟨w, ⟨s.ms, 1000⟩⟩ }).withLane n l :=
  State.requestWrite_of_free (s := s.withLane n l) w h

/-- Step 13 on a FREE day with the card present: the day-marked record is written. -/
theorem State.grant_of_free (ht : (s.lane n).txn = some t) (hu : t.today = some .free) (hp : t.present = true) :
    s.grant n = (s.withLane n { s.lane n with
        txn := some { t with built := some (Record.dayMarked t.card (t.day - Record.first t.card)) }
        state := .writing }).requestWrite n
      ⟨t.serial, Record.dayMarked t.card (t.day - Record.first t.card), .grant⟩ := by
  simp [State.grant, State.txn, ht, hu, hp, State.modTxn, State.setLaneState, State.modLane_eq]

/-! ### The TICKET verdict (R35 to R39) -/

theorem State.ticketFromRecord_of_error {e : Display} (ht : (s.lane n).txn = some t)
    (hc : ticketChecks t.pinned n t.serial t.day t.minute t.card = .error e) :
    s.ticketFromRecord n = s.refuse n e t.daysOnCard := by
  simp only [State.ticketFromRecord, State.txn, ht, hc]

/-- The checks passed: row and today are recorded, and steps 11 and 12 follow. -/
theorem State.ticketFromRecord_of_ok {row : Nat} {today : DayMark} (ht : (s.lane n).txn = some t)
    (hc : ticketChecks t.pinned n t.serial t.day t.minute t.card = .ok (row, today)) :
    s.ticketFromRecord n = (s.withLane n { s.lane n with
      txn := some { t with row := some row, today := some today } }).ticketCapacity n := by
  simp only [State.ticketFromRecord, State.txn, ht, hc, State.modTxn, State.modLane_eq, Option.map_some]

theorem State.ticketCapacity_of_held_pass (ht : (s.lane n).txn = some t)
    (hp : s.passbackHolds t.serial = true) : s.ticketCapacity n = s.refuse n .passback t.daysOnCard := by
  simp only [State.ticketCapacity, State.txn, ht, hp, if_true]

/-- A free place is reserved, and step 13 follows. -/
theorem State.ticketCapacity_of_place (ht : (s.lane n).txn = some t) (hp : s.passbackHolds t.serial = false)
    (hf : s.placeFree = true) :
    s.ticketCapacity n
      = (s.withLane n { s.lane n with txn := some { t with reserved := true } }).grant n := by
  simp [State.ticketCapacity, State.txn, ht, hp, hf, State.reserve, State.modTxn, State.modLane_eq]

theorem State.ticketCapacity_of_full (ht : (s.lane n).txn = some t) (hp : s.passbackHolds t.serial = false)
    (hf : s.placeFree = false) : s.ticketCapacity n = s.enterHeld n t := by
  simp [State.ticketCapacity, State.txn, ht, hp, hf]

/-- The lane enters HELD at the end of the held order. -/
theorem State.enterHeld_eq (s : State) (n : LaneId) (t : Transaction) :
    s.enterHeld n t =
      { (s.withPort n ((s.port n).sending [.verdict false .wait .none 0 0])).withLane n
          { s.lane n with
            state := .held
            holdTimer := some ⟨s.ms, t.pinned.settingsInForce.holdLimitS * 1000⟩ } with
        heldOrder := s.heldOrder ++ [n] } := rfl

/-! ### The SETTLE verdict (R132 to R139) -/

theorem State.settleFromRecord_of_error {e : Display} (ht : (s.lane n).txn = some t)
    (hc : settleChecks t.pinned n t.serial t.day t.card = .error e) :
    s.settleFromRecord n = s.refuse n e t.daysOnCard := by
  simp only [State.settleFromRecord, State.txn, ht, hc]

/-- `s` with CAP_APPLIED set where the cap lowered the rounded net (R137). -/
def State.capped (s : State) (x : RefundResult) : State :=
  if x.refund < x.rounded then s.withFlag .capApplied else s

/-- The checks passed: the refund is recorded, CAP_APPLIED set where the cap lowered it, and NOTHING_DUE or
step 10 follows. -/
theorem State.settleFromRecord_of_ok {row : Nat} {x : RefundResult} (ht : (s.lane n).txn = some t)
    (hc : settleChecks t.pinned n t.serial t.day t.card = .ok row)
    (hx : recordRefund t.pinned (t.pinned.rowOf row) t.card = x) (hq : s.LatchesSilently .capApplied) :
    let t' : Transaction := { t with row := some row, refund := x.refund, impaired := x.impaired }
    let s' := (s.withLane n { s.lane n with txn := some t' }).capped x
    s.settleFromRecord n
      = if x.refund = 0 then s'.refuse n .nothingDue t.daysOnCard else s'.settleWrite n t' := by
  have hlatch (l : Lane) : (s.withLane n l).latch .capApplied t.serial.toNat = (s.withLane n l).withFlag .capApplied :=
    State.latch_of_silent _ _ _ hq
  simp only [State.settleFromRecord, State.txn, ht, hc, hx, State.modTxn, State.modLane_eq, Option.map_some, hlatch,
    State.capped]

theorem State.settleWrite_of_full (h : s.generalFree = 0) :
    s.settleWrite n t = s.refuse n .queueFull t.daysOnCard := by
  simp only [State.settleWrite, h, if_true]

/-- A general entry is reserved, and the settled record is written to the card that is present. -/
theorem State.settleWrite_of_room (ht : (s.lane n).txn = some t) (h : 0 < s.generalFree) (hp : t.present = true) :
    s.settleWrite n t = (s.withLane n { s.lane n with
        txn := some { t with insertReserved := true, built := some (Record.settledRecord t.card t.refund t.day) }
        state := .writing }).requestWrite n
      ⟨t.serial, Record.settledRecord t.card t.refund t.day, .settlement⟩ := by
  simp [State.settleWrite, Nat.pos_iff_ne_zero.1 h, hp, ht, State.modTxn, State.setLaneState, State.modLane_eq]

/-! ### Deferred resolution (R33, R122, R124) -/

theorem State.fromRecord_of_ticket (hr : (s.lane n).role = some .ticket) :
    s.fromRecord n = s.ticketFromRecord n := by simp [State.fromRecord, hr]

theorem State.fromRecord_of_settle (hr : (s.lane n).role = some .settle) :
    s.fromRecord n = s.settleFromRecord n := by simp [State.fromRecord, hr]

theorem State.resolveStep_of_none (ht : (s.lane n).txn = some t) (hd : s.deferredFind t.serial = none) :
    s.resolveStep n = s.fromRecord n := by
  simp only [State.resolveStep, State.txn, ht, hd]

/-- A SETTLEMENT entry seen complete on the card while no general entry is free refuses QUEUE_FULL. -/
theorem State.resolveStep_of_queueFull {x : DeferredEntry} (ht : (s.lane n).txn = some t)
    (hd : s.deferredFind t.serial = some x) (hr : t.asRead = x.intended) (hk : x.isSettlement = true)
    (hf : s.generalFree = 0) : s.resolveStep n = s.refuse n .queueFull t.daysOnCard := by
  have hc : s.deferredComplete x = none := by
    unfold DeferredEntry.isSettlement at hk
    unfold State.deferredComplete
    cases hx : x.kind with
    | dayMark => simp [hx] at hk
    | settlement r i g => simp [hf]
  simp only [State.resolveStep, State.txn, ht, hd, hr, if_true, State.resolveComplete, hc]

/-! ### The first steps (R30 to R32, R129, R130) -/

theorem State.verdict_of_dayClosed (ht : (s.lane n).txn = some t) (hd : s.time.dayState = .closed) :
    s.verdict n = s.refuse n .dayClosed t.daysOnCard := by
  simp only [State.verdict, State.txn, ht, hd, if_true]

theorem State.verdict_of_duplicate (ht : (s.lane n).txn = some t) (hd : s.time.dayState ≠ .closed)
    (ho : s.openElsewhere n t.serial = true) : s.verdict n = s.refuse n .duplicate t.daysOnCard := by
  simp only [State.verdict, State.txn, ht, hd, ho, if_true, if_false]

theorem State.verdict_of_resolves (ht : (s.lane n).txn = some t) (hd : s.time.dayState ≠ .closed)
    (ho : s.openElsewhere n t.serial = false) : s.verdict n = s.resolveStep n := by
  simp [State.verdict, State.txn, ht, hd, ho]

end Steps

end Sys2Proof.Machine
end

