-- ==== Sys2Proof/Proofs/Cards.lean ====
section
/-! PROOFS. A CARD that is taken: refused, held, written or granted at its own event. -/

namespace Sys2Proof.Machine

/-! ### A lane that holds a transaction -/

/-- `s` with `t` as lane `n`'s open transaction. -/
def State.holding (s : State) (n : LaneId) (t : Transaction) : State :=
  s.withLane n { s.lane n with txn := some t }

section Holding

variable (s : State) (n : LaneId) (t : Transaction)

@[simp] theorem State.holding_lane : (s.holding n t).lane n = { s.lane n with txn := some t } := by
  simp [State.holding]

theorem State.holding_txn : ((s.holding n t).lane n).txn = some t := by simp

@[simp] theorem State.holding_holding (t' : Transaction) :
    (s.holding n t).withLane n { (s.holding n t).lane n with txn := some t' } = s.holding n t' := by
  simp [State.holding]

@[simp] theorem State.holding_grantedAt (t' : Transaction) :
    (s.holding n t).grantedAt n ((s.holding n t).lane n) t' = s.grantedAt n (s.lane n) t' := by
  rw [State.holding_lane, State.grantedAt_withTxn]
  exact State.grantedAt_withLane s n _ _ t'

@[simp] theorem State.holding_port (m : LaneId) : (s.holding n t).port m = s.port m := rfl

/-- A transaction that holds no place leaves a free place free. -/
theorem State.holding_placeFree (h : (s.lane n).txn = none) (hr : t.reserved = false) :
    (s.holding n t).placeFree = s.placeFree := by
  refine State.withLane_placeFree s n _ ?_
  rw [Lane.reservation_of_txn (t := t) rfl, hr]
  exact (Lane.reservation_of_none h).symm

/-- A transaction that holds no general entry leaves the free entries free. -/
theorem State.holding_generalFree (h : (s.lane n).txn = none) (hr : t.insertReserved = false) :
    (s.holding n t).generalFree = s.generalFree := by
  refine State.generalFree_congr rfl (State.withLane_generalReserved s n _ ?_)
  rw [Lane.insertReservation_of_txn (t := t) rfl, hr]
  exact (Lane.insertReservation_of_none h).symm

end Holding

theorem State.TakesCard.txn_none {s : State} {n : LaneId} {r : Role} {serial : Serial}
    (h : s.TakesCard n r serial) : (s.lane n).txn = none := by
  obtain ⟨⟨-, -, -, hn, -⟩, -⟩ := h
  exact hn

/-! ### The CARD that is taken (R13, R14) -/

section Taken

variable {s : State} {n : LaneId} {r : Role} {serial : Serial} {record : Record}

/-- A CARD in IDLE opens its transaction and its verdict runs. -/
theorem State.presentCard_of_idle (hr : (s.lane n).role = some r) (ht : r = .ticket ∨ r = .settle)
    (hi : (s.lane n).state = .idle) :
    s.presentCard n serial record = (s.holding n (s.openTransaction serial record)).verdict n := by
  rcases ht with rfl | rfl <;>
  · simp only [State.presentCard, hr, hi]
    rfl

/-- A CARD that finds its day, no duplicate and no deferred entry goes on to its role's verdict. -/
theorem State.presentCard_of_fresh (hr : (s.lane n).role = some r) (ht : r = .ticket ∨ r = .settle)
    (hi : (s.lane n).state = .idle) (hd : s.time.dayState ≠ .closed) (ho : s.openElsewhere n serial = false)
    (hf : s.deferredFind serial = none) :
    s.presentCard n serial record = (s.holding n (s.openTransaction serial record)).fromRecord n := by
  have htxn := State.holding_txn s n (s.openTransaction serial record)
  rw [State.presentCard_of_idle hr ht hi,
    State.verdict_of_resolves htxn hd ((State.openElsewhere_withLane s n _ serial).trans ho),
    State.resolveStep_of_none htxn hf]

/-- A CARD that a TICKET lane takes, with its checks passed, goes on to steps 11 and 12. -/
theorem State.presentCard_of_ticketChecks {row : Nat} {today : DayMark} (h : s.TakesCard n .ticket serial)
    (hc : ticketChecks s.tables n serial s.time.seasonDay s.stationMinute record = .ok (row, today)) :
    s.presentCard n serial record = (s.holding n { s.openTransaction serial record with
      row := some row, today := some today }).ticketCapacity n := by
  obtain ⟨⟨hr, hi, -, -, -, -, -, hd, ho⟩, hf⟩ := h
  rw [State.presentCard_of_fresh hr (.inl rfl) hi hd ho hf, State.fromRecord_of_ticket (by simpa using hr),
    State.ticketFromRecord_of_ok (State.holding_txn s n (s.openTransaction serial record)) hc, State.holding_holding]

/-- With a place free as well, it goes on to step 13 with its reservation. -/
theorem State.presentCard_of_place {row : Nat} {today : DayMark} (h : s.TakesCard n .ticket serial)
    (hc : ticketChecks s.tables n serial s.time.seasonDay s.stationMinute record = .ok (row, today))
    (hp : s.passbackHolds serial = false) (hf : s.placeFree = true) :
    s.presentCard n serial record = (s.holding n { s.openTransaction serial record with
      row := some row, today := some today, reserved := true }).grant n := by
  have hn : (s.lane n).txn = none := h.txn_none
  rw [State.presentCard_of_ticketChecks h hc]
  generalize ht : ({ s.openTransaction serial record with row := some row, today := some today } : Transaction) = t
  have hserial : t.serial = serial := by rw [← ht]; rfl
  rw [State.ticketCapacity_of_place (State.holding_txn s n t) (by rw [hserial]; exact hp)
    ((State.holding_placeFree s n t hn (by rw [← ht]; rfl)).trans hf), State.holding_holding, ← ht]

end Taken

/-! ### HELD (R39, R40) -/

/-- Settles O13: the card takes no place, so the maze is as full as before. -/
theorem cardHeld : Obligations.CardHeld := by
  intro s n f serial record row today hs hf htake hc hp hfull t
  have hn : (s.lane n).txn = none := htake.txn_none
  rw [exec_card n s hf]
  have heff : s.presentCard n serial record = (s.holding n t).enterHeld n t := by
    rw [State.presentCard_of_ticketChecks htake hc]
    exact State.ticketCapacity_of_full (State.holding_txn _ _ _) hp
      ((State.holding_placeFree s n _ hn rfl).trans hfull)
  have hheld : (s.holding n t).enterHeld n t
      = { (s.withPort n ((s.port n).sending [.verdict false .wait .none 0 0])).withLane n
          { s.lane n with
            txn := some t, state := .held
            holdTimer := some ⟨s.ms, s.settings.holdLimitS * 1000⟩ } with
        heldOrder := s.heldOrder ++ [n] } := by
    rw [State.enterHeld_eq, State.holding_lane]
    simp [State.holding, State.withPort, State.withLane, State.port, t, State.openTransaction, State.settings]
  generalize hl : ({ s.lane n with txn := some t, state := .held,
                                    holdTimer := some ⟨s.ms, s.settings.holdLimitS * 1000⟩ } : Lane) = l at hheld ⊢
  have htxn : l.txn = some t := by rw [← hl]
  have hres : l.reservation = (s.lane n).reservation :=
    (Lane.reservation_of_txn htxn).trans (Lane.reservation_of_none hn).symm
  have hset := (hs.withPort n ((s.port n).sending [.verdict false .wait .none 0 0])).withLane_reserving n l (.inr hres)
    ((Lane.insertReservation_of_txn htxn).trans (Lane.insertReservation_of_none hn).symm)
  have hkept := (State.withLane_placeFree (s.withPort n ((s.port n).sending [.verdict false .wait .none 0 0])) n l
    hres).trans hfull
  exact congrArg _ (State.event_eq (heff.trans hheld) (hset.of_given (.inr hkept) rfl rfl rfl)
    (fun h => absurd h (by simp [hfull])))

/-! ### The day-marked record is written (R7, R18, R44) -/

/-- Step 13 on a FREE day, on a port without an outstanding write: the record is sent and the lane writes. -/
theorem State.holding_grant_of_free (s : State) (n : LaneId) (t : Transaction) (hu : t.today = some .free)
    (hp : t.present = true) (hw : (s.port n).write = none) :
    let marked := Record.dayMarked t.card (t.day - Record.first t.card)
    (s.holding n t).grant n
      = (s.withPort n { (s.port n).sending [.write t.serial marked] with
            write := some ⟨⟨t.serial, marked, .grant⟩, ⟨s.ms, 1000⟩⟩ }).withLane n
          { s.lane n with txn := some { t with built := some marked }, state := .writing } := by
  intro marked
  rw [State.grant_of_free (State.holding_txn s n t) hu hp, State.requestWrite_withLane (s := s.holding n t) _ _ hw]
  simp [State.holding, State.withPort_withLane, marked]

/-- Settles O12: a free place means that no lane is held, and the last place taken sets MAZE_FULL. -/
theorem cardWritesItsDay : Obligations.CardWritesItsDay := by
  intro s n f serial record row hs hf htake hc hp hfree hw hq marked t
  have hn : (s.lane n).txn = none := htake.txn_none
  rw [exec_card n s hf]
  have heff : s.presentCard n serial record
      = (s.withPort n { (s.port n).sending [.write serial marked] with
            write := some ⟨⟨serial, marked, .grant⟩, ⟨s.ms, 1000⟩⟩ }).withLane n
          { s.lane n with txn := some t, state := .writing } :=
    (State.presentCard_of_place htake hc hp hfree).trans (State.holding_grant_of_free s n _ rfl rfl hw)
  exact congrArg _ (State.event_eq_full heff
    ((hs.withPort n _).withLane_reserving n _ (.inl (hs.heldOrder_of_placeFree hfree))
      (Lane.insertReservation_of_none hn).symm) hq)

/-! ### The grant at the card's own event (R44 to R46, R52) -/

theorem State.passbackInsert_quiet {s : State} (e : PassbackEntry) (h : s.LatchesSilently .passbackEvict) :
    s.QuietTo (s.passbackInsert e) := by
  by_cases hroom : s.passback.length < 256
  · rw [State.passbackInsert_of_room e hroom]
    exact State.quietTo_of_mgmt rfl
  · cases hp : s.passback with
    | nil => exact absurd (by simp [hp]) hroom
    | cons first rest =>
      rw [State.passbackInsert_of_full e hp (by omega)]
      exact State.quietTo_latch (s := { s with passback := rest }) _ h

/-- The entry made at an unlock makes no report where its two latches would make none. -/
theorem State.passbackUnlock_quiet {s : State} (n : LaneId) (t : Transaction)
    (h : s.LatchesSilently .passbackEvict)
    (hc : s.passbackHolds t.serial = false ∨ s.LatchesSilently .cloneSuspect) :
    s.QuietTo (s.passbackUnlock n t) := by
  have hrefl : s.QuietTo s := State.quietTo_of_mgmt rfl
  unfold State.passbackUnlock
  dsimp only
  split <;> try exact hrefl
  split <;> try exact hrefl
  split
  · exact State.passbackInsert_quiet _ h
  · rename_i old hold
    split
    · exact State.quietTo_of_mgmt rfl
    · rcases hc with hc | hc
      · have hmem := List.mem_of_find?_eq_some hold
        have hkey := List.find?_some hold
        simp only [PassbackEntry.hasKey, Bool.and_eq_true] at hkey
        simp only [State.passbackHolds, List.any_eq_false] at hc
        exact absurd hkey.1 (hc old hmem)
      · exact (State.quietTo_of_mgmt rfl).trans (State.quietTo_latch _ hc)

/-- The lane that the moment of the grant leaves, on the state that its passback entry leaves. -/
theorem State.grantedAt_eq_withLane (s : State) (n : LaneId) (l : Lane) (t : Transaction) :
    ∃ u l', s.grantedAt n l t = State.withLane u n l' ∧ l'.txn = some t ∧ (u = s ∨ u = s.passbackUnlock n t) := by
  unfold State.grantedAt
  split
  · exact ⟨s, _, rfl, rfl, .inl rfl⟩
  · refine ⟨_, _, rfl, ?_, .inr rfl⟩
    unfold Lane.unlocking
    split <;> rfl

theorem State.grantedAt_quiet {s : State} (n : LaneId) (l : Lane) (t : Transaction)
    (h : s.LatchesSilently .passbackEvict)
    (hc : s.passbackHolds t.serial = false ∨ s.LatchesSilently .cloneSuspect) :
    s.QuietTo (s.grantedAt n l t) := by
  obtain ⟨u, l', he, -, rfl | rfl⟩ := s.grantedAt_eq_withLane n l t
  · rw [he]; exact State.quietTo_of_mgmt rfl
  · rw [he]; exact (State.passbackUnlock_quiet n t h hc).trans (State.quietTo_of_mgmt rfl)

/-- The moment of the grant keeps a settled part settled. -/
theorem State.Settled.grantedAt {s : State} (hs : s.Settled) (n : LaneId) (l : Lane) (t : Transaction)
    (h : s.LatchesSilently .passbackEvict)
    (hc : s.passbackHolds t.serial = false ∨ s.LatchesSilently .cloneSuspect)
    (hp : s.heldOrder = [] ∨ (s.lane n).reservation = if t.reserved then 1 else 0)
    (hi : (s.lane n).insertReservation = if t.insertReserved then 1 else 0) : (s.grantedAt n l t).Settled := by
  obtain ⟨u, l', he, hl, hu⟩ := s.grantedAt_eq_withLane n l t
  have hset : u.Settled ∧ u.heldOrder = s.heldOrder ∧ u.lane n = s.lane n := by
    rcases hu with rfl | rfl
    · exact ⟨hs, rfl, rfl⟩
    · have hlanes : (s.passbackUnlock n t).lanes = s.lanes := by simp
      have hres : (s.passbackUnlock n t).reservations = s.reservations := by simp [State.reservations]
      refine ⟨hs.of_given ?_ (State.passbackUnlock_quiet n t h hc).1 (by simp) (by simp [State.generalReserved]),
        by simp, by simp [State.lane]⟩
      have hfree := State.placeFree_congr (s := s) (t := s.passbackUnlock n t) (by simp) hres (by simp)
      simpa [State.PlacesGiven, hfree] using hs.1
  obtain ⟨hset, hheld, hlane⟩ := hset
  rw [he]
  refine hset.withLane_reserving n l' ?_ ?_
  · rw [hheld, hlane, Lane.reservation_of_txn hl]
    exact hp.imp id Eq.symm
  · rw [hlane, Lane.insertReservation_of_txn hl]
    exact hi.symm

/-- Step 13 on a day already USED: the grant at the card's own event. -/
theorem State.holding_grant_of_used (s : State) (n : LaneId) (t : Transaction) (hu : t.today ≠ some .free) :
    (s.holding n t).grant n
      = (s.grantedAt n (s.lane n) { t with finalDays := some t.daysOnCard }).withPort n
        ((s.port n).sending [.verdict true .grant .green t.daysOnCard 0]) := by
  rw [State.grant_of_used (State.holding_txn s n t) hu, State.holding_grantedAt, State.holding_port]

/-- Settles O11: a free place means that no lane is held, and the grant's latches make no report. -/
theorem cardUnlocks : Obligations.CardUnlocks := by
  intro s n f serial record row hs hf htake hc hp hfree hq hqe days t
  have hn : (s.lane n).txn = none := htake.txn_none
  rw [exec_card n s hf]
  have heff : s.presentCard n serial record = (s.grantedAt n (s.lane n) t).withPort n
      ((s.port n).sending [.verdict true .grant .green days 0]) := by
    rw [State.presentCard_of_place htake hc hp hfree]
    exact State.holding_grant_of_used s n _ (by simp)
  have hset := (hs.grantedAt n (s.lane n) t hqe (.inl hp) (.inl (hs.heldOrder_of_placeFree hfree))
    (Lane.insertReservation_of_none hn)).withPort n ((s.port n).sending [.verdict true .grant .green days 0])
  exact congrArg _ (State.event_eq_full heff hset
    (((State.grantedAt_quiet n (s.lane n) t hqe (.inl hp)).trans (State.quietTo_of_mgmt rfl)).silent hq))

/-! ### Refusals at the card's own event (R30 to R38, R124, R129 to R131) -/

/-- A refusal of the transaction that a CARD has opened, on a lane that held nothing. -/
theorem State.refuse_holding {s : State} {n : LaneId} {r : Role} (h : s.Opens n r) (t : Transaction) (e : Display)
    (days : Nat) : (s.holding n t).refuse n e days = s.refusedTo n t.serial e days := by
  obtain ⟨-, -, hrest, -, hpend, -, -⟩ := h
  exact State.refuse_withLane e days rfl rfl hpend hrest

/-- A lane that held nothing, refused: its frames, refused + 1 and its resting state. -/
theorem State.refusedTo_of_opens {s : State} {n : LaneId} {r : Role} (h : s.Opens n r) (serial : Serial)
    (e : Display) (days : Nat) :
    s.refusedTo n serial e days
      = (s.withPort n ((s.port n).sending [.verdict true e .red days 0, .release serial])).withLane n
        ({ s.lane n with state := s.restingState n }.counting .refused 1) := by
  obtain ⟨-, -, -, htxn, -, hhold, hheld⟩ := h
  have hl : ({ s.lane n with txn := none, holdTimer := none } : Lane) = s.lane n := by rw [← htxn, ← hhold]
  rw [State.refusedTo, filter_ne_of_not_mem hheld]
  exact congrArg (fun l : Lane => State.withLane (s.withPort n _) n ({ l with state := s.restingState n }.counting
    .refused 1)) hl

/-- The event of a CARD whose verdict refuses it. -/
theorem exec_card_refused {s : State} {n : LaneId} {f : ReaderFrame} {serial : Serial} {record : Record} {r : Role}
    {e : Display} (hs : s.Settled) (hf : parseFrame f = some (.card serial record)) (h : s.Opens n r)
    (he : ∃ t : Transaction, t.serial = serial ∧ t.card = record
      ∧ s.presentCard n serial record = (s.holding n t).refuse n e t.daysOnCard) :
    exec (.card n f) s = .next (s.refusedTo n serial e (Record.daysRemaining serial record)) := by
  obtain ⟨t, rfl, rfl, ht⟩ := he
  have hn : (s.lane n).txn = none := h.2.2.2.1
  obtain ⟨hset, hfree⟩ := hs.refusedTo (serial := t.serial) (e := e) (days := t.daysOnCard)
    (.inr (Lane.reservation_of_none hn)) (.inl (Lane.insertReservation_of_none hn))
  rw [exec_card n s hf]
  exact congrArg _ (State.event_eq (ht.trans (State.refuse_holding h t e _)) hset hfree)

/-- Settles O14: each step that refuses does so on the transaction just opened, with the days of the record as
read. -/
theorem cardRefused : Obligations.CardRefused := by
  intro s n f serial record r e hs hf hopens hr hcase
  obtain ⟨hrole, hidle, -, hnone, -⟩ := id hopens
  rw [exec_card_refused hs hf hopens ?_, State.refusedTo_of_opens hopens]
  have htxn := State.holding_txn s n (s.openTransaction serial record)
  have hrole' : ((s.holding n (s.openTransaction serial record)).lane n).role = some r := by simpa using hrole
  have helse {b : Bool} (h : s.openElsewhere n serial = b) := (State.openElsewhere_withLane s n
    { s.lane n with txn := some (s.openTransaction serial record) } serial).trans h
  rcases hcase with ⟨rfl, hd⟩ | ⟨rfl, hd, ho⟩ | ⟨hd, ho, hcase⟩
  · rw [State.presentCard_of_idle hrole hr hidle]
    exact ⟨s.openTransaction serial record, rfl, rfl, State.verdict_of_dayClosed htxn hd⟩
  · rw [State.presentCard_of_idle hrole hr hidle]
    exact ⟨s.openTransaction serial record, rfl, rfl, State.verdict_of_duplicate htxn hd (helse ho)⟩
  rcases hcase with ⟨hfresh, rfl, hc⟩ | ⟨hfresh, rfl, hc⟩ | ⟨rfl, hfull, x, hx, hk, hrec⟩
  · rw [State.presentCard_of_fresh hrole hr hidle hd ho hfresh, State.fromRecord_of_ticket hrole']
    rcases hc with hc | ⟨rfl, hp, ⟨row, today⟩, hc⟩
    · exact ⟨s.openTransaction serial record, rfl, rfl, State.ticketFromRecord_of_error htxn hc⟩
    · rw [State.ticketFromRecord_of_ok htxn hc, State.holding_holding]
      exact ⟨{ s.openTransaction serial record with row := some row, today := some today }, rfl, rfl,
        State.ticketCapacity_of_held_pass (State.holding_txn s n { s.openTransaction serial record with
        row := some row, today := some today }) hp⟩
  · rw [State.presentCard_of_fresh hrole hr hidle hd ho hfresh, State.fromRecord_of_settle hrole']
    exact ⟨s.openTransaction serial record, rfl, rfl, State.settleFromRecord_of_error htxn hc⟩
  · rw [State.presentCard_of_idle hrole hr hidle, State.verdict_of_resolves htxn hd (helse ho)]
    exact ⟨s.openTransaction serial record, rfl, rfl, State.resolveStep_of_queueFull htxn hx hrec hk
      ((State.holding_generalFree s n _ hnone rfl).trans hfull)⟩

/-! ### The SETTLE verdict's end (R8, R137 to R139) -/

section Capped

variable (s : State) (n : LaneId) (x : RefundResult)

theorem State.capped_lane : (s.capped x).lane n = s.lane n := by unfold State.capped; split <;> rfl

theorem State.capped_port : (s.capped x).port n = s.port n := by unfold State.capped; split <;> rfl

theorem State.capped_ms : (s.capped x).ms = s.ms := by unfold State.capped; split <;> rfl

theorem State.capped_generalFree : (s.capped x).generalFree = s.generalFree := by
  unfold State.capped; split <;> rfl

theorem State.capped_placeFree : (s.capped x).placeFree = s.placeFree := by unfold State.capped; split <;> rfl

theorem State.capped_restingState : (s.capped x).restingState n = s.restingState n := by
  unfold State.capped; split <;> rfl

theorem State.capped_holding (t : Transaction) : (s.holding n t).capped x = (s.capped x).holding n t := by
  unfold State.capped; split <;> rfl

variable {s n x}

theorem State.Settled.capped (h : s.Settled) : (s.capped x).Settled := by
  unfold State.capped
  split
  · exact h.withFlag _
  · exact h

theorem State.Opens.capped {r : Role} (h : s.Opens n r) : (s.capped x).Opens n r := by
  unfold State.capped; split <;> exact h

end Capped

/-- Steps 10 and 11 on a port without an outstanding write: the record is sent and the lane writes. -/
theorem State.holding_settleWrite {s : State} {n : LaneId} {t : Transaction} (hn : (s.lane n).txn = none)
    (hr : t.insertReserved = false) (hp : t.present = true) (hf : 0 < s.generalFree)
    (hw : (s.port n).write = none) :
    let stamped := Record.settledRecord t.card t.refund t.day
    (s.holding n t).settleWrite n t
      = (s.withPort n { (s.port n).sending [.write t.serial stamped] with
            write := some ⟨⟨t.serial, stamped, .settlement⟩, ⟨s.ms, 1000⟩⟩ }).withLane n
          { s.lane n with txn := some { t with insertReserved := true, built := some stamped }, state := .writing } := by
  intro stamped
  rw [State.settleWrite_of_room (State.holding_txn s n t) (by rwa [State.holding_generalFree s n t hn hr]) hp,
    State.requestWrite_withLane (s := s.holding n t) _ _ hw]
  simp [State.holding, State.withPort_withLane, stamped]

/-- Settles O15: the refund decides between NOTHING_DUE, QUEUE_FULL and the write, each after CAP_APPLIED. -/
theorem cardSettles : Obligations.CardSettles := by
  intro s n f serial record row hs hf htake hc hq x stamped t s' refused
  obtain ⟨⟨hrole, hidle, hrest, hn, hpend, hhold, hheld, hd, ho⟩, hfresh⟩ := htake
  have hopens : (s.capped x).Opens n .settle :=
    State.Opens.capped ⟨hrole, hidle, by rw [hrest]; decide, hn, hpend, hhold, hheld⟩
  generalize ht' : ({ s.openTransaction serial record with
    row := some row, refund := x.refund, impaired := x.impaired } : Transaction) = t'
  have hverdict : s.presentCard n serial record
      = if x.refund = 0 then ((s.capped x).holding n t').refuse n .nothingDue t'.daysOnCard
        else ((s.capped x).holding n t').settleWrite n t' := by
    rw [State.presentCard_of_fresh hrole (.inr rfl) hidle hd ho hfresh, State.fromRecord_of_settle (by simpa using hrole),
      State.settleFromRecord_of_ok (x := x) (State.holding_txn s n (s.openTransaction serial record)) hc rfl hq,
      State.holding_holding, State.capped_holding, ← ht']
    rfl
  have hserial : t'.serial = serial := by rw [← ht']; rfl
  have hcard : t'.card = record := by rw [← ht']; rfl
  have hrefuse (e : Display)
      (he : s.presentCard n serial record = ((s.capped x).holding n t').refuse n e t'.daysOnCard) :
      exec (.card n f) s = .next (refused e) := by
    have hn' : ((s.capped x).lane n).txn = none := by rw [State.capped_lane]; exact hn
    obtain ⟨hset, hfree⟩ := (hs.capped (x := x)).refusedTo (n := n) (serial := t'.serial) (e := e)
      (days := t'.daysOnCard) (.inr (Lane.reservation_of_none hn')) (.inl (Lane.insertReservation_of_none hn'))
    rw [exec_card n s hf, State.event_eq (he.trans (State.refuse_holding hopens t' e _)) hset
      (fun h => hfree ((s.capped_placeFree x).trans h)), State.refusedTo_of_opens hopens]
    have hl : ({ s.lane n with state := .idle } : Lane) = s.lane n := by rw [← hidle]
    rw [State.capped_lane, State.capped_port, State.capped_restingState, hrest, hl, hserial]
    show Host.Outcome.next _ = _
    rw [Transaction.daysOnCard, hserial, hcard]
    rfl
  refine ⟨fun h0 => hrefuse .nothingDue (by rw [hverdict, if_pos h0]), fun hpos hfull => ?_, fun hpos hroom hw => ?_⟩
  · refine hrefuse .queueFull ?_
    rw [hverdict, if_neg hpos.ne', State.settleWrite_of_full]
    rw [State.holding_generalFree _ n t' (by rw [State.capped_lane]; exact hn) (by rw [← ht']; rfl),
      State.capped_generalFree]
    exact hfull
  · have heff := hverdict.trans ((if_neg hpos.ne').trans (State.holding_settleWrite (s := s.capped x) (n := n) (t := t')
      (by rw [State.capped_lane]; exact hn) (by rw [← ht']; rfl) (by rw [← ht']; rfl)
      (by rw [State.capped_generalFree]; exact hroom) (by rw [State.capped_port]; exact hw)))
    simp only [State.capped_lane, State.capped_port, State.capped_ms] at heff
    subst ht'
    have hres : ({ s.lane n with txn := some t, state := .writing } : Lane).reservation
        = ((s.capped x).lane n).reservation := by
      rw [State.capped_lane]; exact (Lane.reservation_of_none hn).symm
    have hcap := (hs.capped (x := x)).withPort n { (s.port n).sending [.write serial stamped] with
      write := some ⟨⟨serial, stamped, .settlement⟩, ⟨s.ms, 1000⟩⟩ }
    have hpend := hcap.pendingEvents_of_room
      (by show 0 < (s.capped x).generalFree; rw [State.capped_generalFree]; exact hroom)
    rw [exec_card n s hf]
    exact congrArg _ (State.event_eq heff
      (hcap.of_given_of_queued (hcap.1.withLane n _ (.inr hres)) rfl rfl hpend)
      ((State.withLane_placeFree ((s.capped x).withPort n _) n _ hres).trans (s.capped_placeFree x)).trans)

end Sys2Proof.Machine
end

