-- ==== Sys2Proof/Proofs/Writes.lean ====
section
/-! PROOFS. The ends of card writes: what each outcome makes of the transaction, and of a write that has outlived
it. -/

namespace Sys2Proof.Machine

/-! ### The end of a write (R18, R19) -/

/-- `s` with the write outstanding on port `n` ended. -/
def State.withoutWrite (s : State) (n : LaneId) : State := s.withPort n { s.port n with write := none }

section Ends

variable {s : State} {n : LaneId}

theorem State.endWrite_eq (s : State) (n : LaneId) (w : WriteRequest) (o : WriteOutcome) :
    s.endWrite n w o = ((s.withoutWrite n).deliverOutcome n w o).sendWaiting n := rfl

/-- A WRITE_RESULT for the outstanding write ends it. -/
theorem exec_writeResult_of_outstanding {w : WriteRequest} {timer : Timer} {f : ReaderFrame} {o : WriteOutcome}
    {u : State} (hw : (s.port n).write = some ⟨w, timer⟩) (hf : parseFrame f = some (.writeResult w.serial o))
    (hu : (s.endWrite n w o).finish s = u) : exec (.writeResult n f) s = .next u := by
  rw [exec_writeResult n s hf, State.event]
  simp only [State.writeResult, hw, if_true, hu]

/-- The end of its timer ends it as TORN. -/
theorem exec_writeTimerExpiry_of_due {w : WriteRequest} {timer : Timer} {u : State}
    (hw : (s.port n).write = some ⟨w, timer⟩) (hdue : timer.start + timer.duration ≤ s.ms)
    (hu : (s.endWrite n w .torn).finish s = u) : exec (.writeTimerExpiry n) s = .next u := by
  rw [exec_writeTimerExpiry n s, State.event]
  simp only [State.writeTimeout, hw, Timer.due, hdue, decide_true, if_true, hu]

theorem State.sendWaiting_of_none {x : State} (h : (x.port n).waiting = none) : x.sendWaiting n = x := by
  unfold State.sendWaiting
  rw [h]
  split <;> first | rfl | contradiction

/-- The request that waits is sent once the write has ended. -/
theorem State.withoutWrite_sendWaiting (s : State) (n : LaneId) :
    (s.withoutWrite n).sendWaiting n = s.withPort n ((s.port n).writeEnded s.ms) := by
  cases hw : (s.port n).waiting with
  | none =>
    rw [State.sendWaiting_of_none (by simpa [State.withoutWrite] using hw), Port.writeEnded_of_none hw]
    rfl
  | some w =>
    rw [Port.writeEnded_of_some hw]
    simp [State.sendWaiting, State.withoutWrite, hw, State.modPort_eq, State.startWrite_eq, Port.sending]

end Ends

/-! ### An offered entry (R120, R121) -/

theorem State.deferredFind_withPort (s : State) (m : LaneId) (p : Port) (serial : Serial) :
    (s.withPort m p).deferredFind serial = s.deferredFind serial := rfl

/-- The offer reads and changes no port. -/
theorem State.deferredOffer_withPort (s : State) (m : LaneId) (p : Port) (e : DeferredEntry) :
    (s.withPort m p).deferredOffer e = ((s.deferredOffer e).1.withPort m p, (s.deferredOffer e).2) := by
  unfold State.deferredOffer
  rw [State.deferredFind_withPort, State.withPort_deferred]
  cases s.deferredFind e.serial with
  | some old =>
    dsimp only
    by_cases hkept : (old.isSettlement && !e.isSettlement) = true
    · simp only [if_pos hkept, State.latch_withPort]
    · simp only [if_neg hkept]
      split
      · exact congrArg (·, true) (State.latch_withPort ((s.deferredRemove old.stamp).deferredAppend e) m p _ _)
      · rfl
  | none =>
    dsimp only
    by_cases hroom : s.deferred.entries.length < 32
    · simp only [if_pos hroom]
      rfl
    · simp only [if_neg hroom]
      cases s.deferred.entries.find? fun x => !x.isSettlement with
      | some oldest =>
        exact congrArg (fun x : State => (x.deferredAppend e, true))
          (State.latch_withPort (s.deferredRemove oldest.stamp) m p _ _)
      | none => exact congrArg (·, false) (State.latch_withPort s m p _ _)

/-- A table with room and no entry for the serial stores the entry in its last place. -/
theorem State.deferredOffer_of_room {s : State} {e : DeferredEntry} (hf : s.deferredFind e.serial = none)
    (hr : s.deferred.entries.length < 32) : s.deferredOffer e = (s.deferredAppend e, true) := by
  simp [State.deferredOffer, hf, hr]

/-- An offer makes no report where DEFERRED_LOST would make none. -/
theorem State.deferredOffer_quiet {s : State} (e : DeferredEntry) (h : s.LatchesSilently .deferredLost) :
    s.QuietTo (s.deferredOffer e).1 := by
  have hrefl : s.QuietTo s := State.quietTo_of_mgmt rfl
  unfold State.deferredOffer
  cases s.deferredFind e.serial with
  | some old =>
    dsimp only
    split
    · exact State.quietTo_latch _ h
    · split
      · exact State.quietTo_latch (s := (s.deferredRemove old.stamp).deferredAppend e) _ h
      · exact State.quietTo_of_mgmt rfl
  | none =>
    dsimp only
    split
    · exact State.quietTo_of_mgmt rfl
    · split
      · rename_i oldest _
        exact (State.quietTo_latch (s := s.deferredRemove oldest.stamp) _ h).trans (State.quietTo_of_mgmt rfl)
      · exact State.quietTo_latch _ h

/-- The offer leaves the lanes, the held order, the maze, the tables and the loop as they are. -/
theorem State.Settled.deferredOffer {s : State} (hs : s.Settled) (e : DeferredEntry)
    (h : s.LatchesSilently .deferredLost) :
    (s.deferredOffer e).1.Settled ∧ (s.deferredOffer e).1.placeFree = s.placeFree := by
  have hfree : (s.deferredOffer e).1.placeFree = s.placeFree :=
    State.placeFree_congr (by simp) (by simp [State.reservations]) (by simp)
  refine ⟨hs.of_given ?_ (State.deferredOffer_quiet e h).1 (by simp) (by simp [State.generalReserved]), hfree⟩
  have := hs.1
  simpa [State.PlacesGiven, hfree] using this

/-! ### A write that has outlived its transaction (R82, R85) -/

section Outlived

variable {s : State} {n : LaneId} {w : WriteRequest} {o : WriteOutcome}

/-- An outcome that acts on nothing leaves the request that waits to be sent. -/
theorem State.endWrite_of_nothing (h : (s.withoutWrite n).deliverOutcome n w o = s.withoutWrite n) :
    s.endWrite n w o = s.withPort n ((s.port n).writeEnded s.ms) := by
  rw [State.endWrite_eq, h, State.withoutWrite_sendWaiting]

/-- An outcome that offers an entry. -/
theorem State.endWrite_of_offer {e : DeferredEntry}
    (h : (s.withoutWrite n).deliverOutcome n w o = ((s.withoutWrite n).deferredOffer e).1) :
    s.endWrite n w o = (s.deferredOffer e).1.withPort n ((s.port n).writeEnded s.ms) := by
  have hport : (s.deferredOffer e).1.port n = s.port n := by simp [State.port]
  have hms : (s.deferredOffer e).1.ms = s.ms := by simp
  have hwithout : (s.deferredOffer e).1.withoutWrite n
      = (s.deferredOffer e).1.withPort n { s.port n with write := none } := by rw [State.withoutWrite, hport]
  rw [State.endWrite_eq, h, State.withoutWrite, State.deferredOffer_withPort, ← hwithout,
    State.withoutWrite_sendWaiting, hport, hms]

theorem State.Settled.endWrite_of_nothing (hs : s.Settled)
    (h : (s.withoutWrite n).deliverOutcome n w o = s.withoutWrite n) :
    (s.endWrite n w o).finish s = s.withPort n ((s.port n).writeEnded s.ms) := by
  rw [State.endWrite_of_nothing h]
  exact State.finish_of_settled _ _ (hs.withPort n _) id

theorem State.Settled.endWrite_of_offer (hs : s.Settled) {e : DeferredEntry}
    (hq : s.LatchesSilently .deferredLost)
    (h : (s.withoutWrite n).deliverOutcome n w o = ((s.withoutWrite n).deferredOffer e).1) :
    (s.endWrite n w o).finish s = (s.deferredOffer e).1.withPort n ((s.port n).writeEnded s.ms) := by
  obtain ⟨hset, hfree⟩ := hs.deferredOffer e hq
  rw [State.endWrite_of_offer h]
  exact State.finish_of_settled _ _ (hset.withPort n _) hfree.trans

end Outlived

end Sys2Proof.Machine
end

