-- ==== Sys2Proof/Proofs/GrantWrites.lean ====
section
/-! PROOFS. The ends of grant writes and of resolution writes. -/

namespace Sys2Proof.Machine

/-! ### The moment of the grant and the Deferred Write Table -/

theorem State.latch_withDeferred (s : State) (d : DeferredTable) (f : Flag) (k : Nat) :
    ({ s with deferred := d } : State).latch f k = { s.latch f k with deferred := d } := by
  by_cases h : s.flagSet f = true
  · have h' : ({ s with deferred := d } : State).flagSet f = true := h
    rw [State.latch, State.latch, if_pos h, if_pos h']
  · have h' : ¬({ s with deferred := d } : State).flagSet f = true := h
    rw [State.latch, State.latch, if_neg h, if_neg h']
    rfl

theorem State.passbackInsert_withDeferred (s : State) (d : DeferredTable) (e : PassbackEntry) :
    ({ s with deferred := d } : State).passbackInsert e = { s.passbackInsert e with deferred := d } := by
  by_cases h : s.passback.length < 256
  · rw [State.passbackInsert_of_room e h, State.passbackInsert_of_room (s := { s with deferred := d }) e h]
    rfl
  · obtain ⟨first, rest, hp⟩ := List.exists_cons_of_ne_nil (l := s.passback) (by rintro hn; simp [hn] at h)
    rw [State.passbackInsert_of_full e hp (by omega),
      State.passbackInsert_of_full (s := { s with deferred := d }) e hp (by simp only; omega)]
    exact congrArg (State.passbackPlace · e)
      (State.latch_withDeferred { s with passback := rest } d .passbackEvict first.serial.toNat)

/-- The entry made at the unlock commutes with what the Deferred Write Table takes. -/
theorem State.passbackUnlock_withDeferred (s : State) (d : DeferredTable) (n : LaneId) (t : Transaction) :
    ({ s with deferred := d } : State).passbackUnlock n t = { s.passbackUnlock n t with deferred := d } := by
  simp only [State.passbackUnlock]
  split <;> try rfl
  split <;> try rfl
  simp only [State.passbackFind]
  split
  · exact State.passbackInsert_withDeferred s d _
  · split
    · rfl
    · exact State.latch_withDeferred ((s.passbackRemove _ _).passbackPlace _) d _ _

theorem State.grantedAt_withDeferred (s : State) (d : DeferredTable) (n : LaneId) (l : Lane) (t : Transaction) :
    ({ s with deferred := d } : State).grantedAt n l t = { s.grantedAt n l t with deferred := d } := by
  unfold State.grantedAt
  split
  · rfl
  · rw [State.passbackUnlock_withDeferred]
    rfl

/-- The moment of a grant whose reservation stands leaves every free place free. -/
theorem State.grantedAt_placeFree (s : State) (n : LaneId) (l : Lane) (t : Transaction)
    (hp : (s.lane n).reservation = if t.reserved then 1 else 0) :
    (s.grantedAt n l t).placeFree = s.placeFree := by
  obtain ⟨u, l', he, hl, rfl | rfl⟩ := s.grantedAt_eq_withLane n l t
  · rw [he]
    exact State.withLane_placeFree u n l' ((Lane.reservation_of_txn hl).trans hp.symm)
  · have hlane : (s.passbackUnlock n t).lane n = s.lane n := by simp [State.lane]
    rw [he, State.withLane_placeFree _ n l' (((Lane.reservation_of_txn hl).trans hp.symm).trans
      (congrArg Lane.reservation hlane.symm))]
    exact State.placeFree_congr (by simp) (by simp [State.reservations]) (by simp)

/-! ### The outcomes of a grant write (R45) -/

section Outcomes

variable {s : State} {n : LaneId} {t : Transaction} {record : Record}

theorem State.grantOutcome_of_done (ht : (s.lane n).txn = some t) :
    s.grantOutcome n record .done
      = (s.sendFinal n .grant .green (Record.daysRemaining t.serial record) 0).unlockOrSettle n := by
  simp only [State.grantOutcome, State.txn, ht]

/-- Under grant on lost write, LOST and TORN offer the entry and grant. -/
theorem State.grantOutcome_of_yes {o : WriteOutcome} (ht : (s.lane n).txn = some t) (ho : o ≠ .done)
    (hy : t.pinned.settingsInForce.grantOnLostWrite = true) :
    s.grantOutcome n record o
      = ((s.deferredOffer (dayMarkEntry t.serial (Record.issue t.card) record t.day n)).1.sendFinal n .grant .green
          (Record.daysRemaining t.serial record) 0).unlockOrSettle n := by
  cases o with
  | done => exact absurd rfl ho
  | lost | torn => simp only [State.grantOutcome, State.txn, ht, hy]

theorem State.grantOutcome_lost_of_no (ht : (s.lane n).txn = some t)
    (hy : t.pinned.settingsInForce.grantOnLostWrite = false) :
    s.grantOutcome n record .lost = s.refuse n .gone t.daysOnCard := by
  simp only [State.grantOutcome, State.txn, ht, hy]

theorem State.grantOutcome_torn_of_no (ht : (s.lane n).txn = some t)
    (hy : t.pinned.settingsInForce.grantOnLostWrite = false) :
    s.grantOutcome n record .torn
      = (s.deferredOffer (dayMarkEntry t.serial (Record.issue t.card) record t.day n)).1.refuse n .gone
          (Record.daysRemaining t.serial record) := by
  simp only [State.grantOutcome, State.txn, ht, hy]

/-! ### The outcomes of a resolution write (R34, R125) -/

theorem State.resolutionOutcome_of_failed {o : WriteOutcome} (ht : (s.lane n).txn = some t) (ho : o ≠ .done) :
    s.resolutionOutcome n record o = s.refuse n .retry (Record.daysRemaining t.serial t.asRead) := by
  cases o with
  | done => exact absurd rfl ho
  | lost | torn => simp only [State.resolutionOutcome, State.txn, ht]

/-- The table without the entry that a transaction resolves. -/
def State.resolved (s : State) (t : Transaction) : DeferredTable :=
  { s.deferred with entries := s.deferred.entries.filter fun e : DeferredEntry => some e.stamp != t.resolving }

theorem State.modTxn_eq_holding (f : Transaction → Transaction) (ht : (s.lane n).txn = some t) :
    s.modTxn n f = s.holding n (f t) := by
  simp [State.modTxn, State.modLane_eq, State.holding, ht]

/-- DONE completes the DAY_MARK entry that the table still holds, and the verdict goes on from the record now on
the card. -/
theorem State.resolutionOutcome_of_dayMark (ht : (s.lane n).txn = some t)
    (hk : ∀ e ∈ s.deferred.entries, some e.stamp = t.resolving → e.kind = .dayMark) :
    s.resolutionOutcome n record .done
      = State.fromRecord ({ s with deferred := s.resolved t }.holding n { t with card := record, resolving := none })
        n := by
  simp only [State.resolutionOutcome, State.txn, ht, State.modTxn_eq_holding _ ht]
  cases hf : s.deferred.entries.find? fun e => some e.stamp == t.resolving with
  | none =>
    have hall : s.resolved t = s.deferred := by
      rw [State.resolved, List.filter_eq_self.2]
      intro e he
      simpa using List.find?_eq_none.1 hf e he
    rw [hall]
  | some e =>
    have hstamp : some e.stamp = t.resolving := by simpa using List.find?_some hf
    have hkind := hk e (List.mem_of_find?_eq_some hf) hstamp
    simp only [State.resolveComplete, State.deferredComplete, hkind, State.resolved, ← hstamp]
    rfl

end Outcomes

/-! ### The states that a grant write's end leaves -/

section Ends

variable {s : State} {n : LaneId} {t : Transaction} {record : Record} {timer : Timer} {o : WriteOutcome}

/-- Lane `n` granted on the end of its write. -/
def State.grantedByWrite (s : State) (n : LaneId) (t : Transaction) (days : Nat) : State :=
  (s.grantedAt n (s.lane n) { t with finalDays := some days }).withPort n
    { (s.port n).sending [.verdict true .grant .green days 0] with write := none }

/-- Lane `n` refused on the end of its write. -/
def State.refusedByWrite (s : State) (n : LaneId) (serial : Serial) (e : Display) (days : Nat) : State :=
  (s.withPort n { (s.port n).sending [.verdict true e .red days 0, .release serial] with write := none }).withLane n
    ({ s.lane n with txn := none, holdTimer := none, state := s.restingState n }.counting .refused 1)

theorem State.withoutWrite_lane (s : State) (n m : LaneId) : (s.withoutWrite n).lane m = s.lane m := rfl

theorem State.withoutWrite_restingState (s : State) (n : LaneId) :
    (s.withoutWrite n).restingState n = s.restingState n :=
  State.restingState_congr n rfl rfl rfl rfl rfl (by simp [State.withoutWrite])

/-- The moment of the grant of the lane whose write has ended. -/
theorem State.withoutWrite_grantedAt (days : Nat) (t : Transaction) :
    ((s.withoutWrite n).grantedAt n ((s.withoutWrite n).lane n) { t with finalDays := some days }).withPort n
        (((s.withoutWrite n).port n).sending [.verdict true .grant .green days 0])
      = s.grantedByWrite n t days := by
  rw [State.withoutWrite_lane, State.withoutWrite, State.grantedAt_withPort, State.withPort_withPort,
    State.withPort_port_same]
  rfl

theorem State.withoutWrite_grantFinal (days : Nat) (ht : (s.lane n).txn = some t) :
    ((s.withoutWrite n).sendFinal n .grant .green days 0).unlockOrSettle n = s.grantedByWrite n t days := by
  rw [State.grantFinal_eq (s := s.withoutWrite n) days ht]
  exact State.withoutWrite_grantedAt _ _

theorem State.withoutWrite_refusedTo (serial : Serial) (e : Display) (days : Nat) (hn : n ∉ s.heldOrder) :
    (s.withoutWrite n).refusedTo n serial e days = s.refusedByWrite n serial e days := by
  rw [State.refusedTo, State.withoutWrite_restingState, State.withoutWrite, filter_ne_of_not_mem (by exact hn),
    State.withPort_withPort, State.withPort_port_same]
  rfl

/-- The refusal of a lane that is not held, whose write has ended. -/
theorem State.withoutWrite_refuse (e : Display) (days : Nat) (ht : (s.lane n).txn = some t)
    (hp : (s.lane n).pendingRole = none) (hr : s.restingState n ≠ .fault) (hn : n ∉ s.heldOrder) :
    (s.withoutWrite n).refuse n e days = s.refusedByWrite n t.serial e days := by
  rw [← State.withoutWrite_refusedTo t.serial e days hn]
  exact State.refuse_eq e days ht hp (by rwa [State.withoutWrite_restingState])

/-- With no request waiting nothing is sent after the outcome. -/
theorem State.grantedByWrite_sendWaiting (days : Nat) (hw : (s.port n).waiting = none) :
    (s.grantedByWrite n t days).sendWaiting n = s.grantedByWrite n t days :=
  State.sendWaiting_of_none (by simpa [State.grantedByWrite, Port.sending] using hw)

theorem State.refusedByWrite_sendWaiting (serial : Serial) (e : Display) (days : Nat)
    (hw : (s.port n).waiting = none) :
    (s.refusedByWrite n serial e days).sendWaiting n = s.refusedByWrite n serial e days :=
  State.sendWaiting_of_none (by simpa [State.refusedByWrite, Port.sending] using hw)

/-- The grant on the end of a write keeps a settled part settled, and every free place. -/
theorem State.Settled.grantedByWrite (hs : s.Settled) (days : Nat) (ht : (s.lane n).txn = some t)
    (he : s.LatchesSilently .passbackEvict) (hc : s.LatchesSilently .cloneSuspect) :
    (s.grantedByWrite n t days).Settled ∧ (s.grantedByWrite n t days).placeFree = s.placeFree :=
  ⟨(hs.grantedAt n _ { t with finalDays := some days } he (.inr hc) (.inr (Lane.reservation_of_txn (t := t) ht))
    (Lane.insertReservation_of_txn (t := t) ht)).withPort n _,
   State.grantedAt_placeFree s n _ { t with finalDays := some days } (Lane.reservation_of_txn (t := t) ht)⟩

theorem State.grantedByWrite_withDeferred (s : State) (d : DeferredTable) (n : LaneId) (g : Transaction)
    (days : Nat) : State.grantedByWrite { s with deferred := d } n g days
      = { s.grantedByWrite n g days with deferred := d } :=
  congrArg (State.withPort · n _) (s.grantedAt_withDeferred d n (s.lane n) _)

/-- The refusal on the end of a write keeps a settled part settled, and every free place, where what it releases is
awaited by no held lane and by no pending report. -/
theorem State.Settled.refusedByWrite (hs : s.Settled) {serial : Serial} {e : Display} {days : Nat}
    (hn : n ∉ s.heldOrder) (hp : s.heldOrder = [] ∨ (s.lane n).reservation = 0)
    (hi : (s.lane n).insertReservation = 0 ∨ s.loop.pendingEvents = []) :
    (s.refusedByWrite n serial e days).Settled
      ∧ (s.placeFree = true → (s.refusedByWrite n serial e days).placeFree = true) := by
  have h := (hs.withPort n { s.port n with write := none }).refusedTo (n := n) (serial := serial) (e := e)
    (days := days) hp hi
  rw [← State.withoutWrite_refusedTo serial e days hn]
  exact h

end Ends

/-! ### O18, part by part -/

section Parts

variable {s : State} {n : LaneId} {t : Transaction} {record : Record} {o : WriteOutcome}

/-- The table with the DAY_MARK entry of a grant write in its last place (R45, R117). -/
def State.marked (s : State) (n : LaneId) (t : Transaction) (record : Record) : DeferredTable :=
  ⟨s.deferred.entries ++ [⟨s.deferred.nextStamp, t.serial, .dayMark, Record.issue t.card, record, t.day, n⟩],
    s.deferred.nextStamp + 1⟩

/-- The entry of a grant write meets a table with room. -/
theorem State.withoutWrite_offer (hf : s.deferredFind t.serial = none) (hl : s.deferred.entries.length < 32) :
    ((s.withoutWrite n).deferredOffer (dayMarkEntry t.serial (Record.issue t.card) record t.day n)).1
      = { s with deferred := s.marked n t record }.withoutWrite n := by
  rw [State.deferredOffer_of_room (s := s.withoutWrite n)
    (e := dayMarkEntry t.serial (Record.issue t.card) record t.day n) hf hl]
  rfl

/-- A grant write that ends DONE grants the lane. -/
theorem State.Settled.grantWrite_done (hs : s.Settled) (ht : (s.lane n).txn = some t)
    (hw : (s.port n).waiting = none) (he : s.LatchesSilently .passbackEvict)
    (hc : s.LatchesSilently .cloneSuspect) :
    (s.endWrite n ⟨t.serial, record, .grant⟩ .done).finish s
      = s.grantedByWrite n t (Record.daysRemaining t.serial record) := by
  obtain ⟨hset, hfree⟩ := hs.grantedByWrite (Record.daysRemaining t.serial record) ht he hc
  rw [State.endWrite_eq, State.deliverOutcome, State.grantOutcome_of_done (s := s.withoutWrite n) ht,
    State.withoutWrite_grantFinal _ ht, State.grantedByWrite_sendWaiting _ hw]
  exact State.finish_of_settled _ _ hset hfree.trans

/-- Under grant on lost write one that ends LOST or TORN grants it too, and its entry is stored. -/
theorem State.Settled.grantWrite_lost (hs : s.Settled) (ht : (s.lane n).txn = some t)
    (hw : (s.port n).waiting = none) (he : s.LatchesSilently .passbackEvict)
    (hc : s.LatchesSilently .cloneSuspect) (hy : t.pinned.settingsInForce.grantOnLostWrite = true)
    (hf : s.deferredFind t.serial = none) (hl : s.deferred.entries.length < 32) (ho : o ≠ .done) :
    (s.endWrite n ⟨t.serial, record, .grant⟩ o).finish s
      = { s.grantedByWrite n t (Record.daysRemaining t.serial record) with deferred := s.marked n t record } := by
  obtain ⟨hset, hfree⟩ := hs.grantedByWrite (Record.daysRemaining t.serial record) ht he hc
  have heff : s.endWrite n ⟨t.serial, record, .grant⟩ o
      = { s with deferred := s.marked n t record }.grantedByWrite n t (Record.daysRemaining t.serial record) := by
    rw [State.endWrite_eq, State.deliverOutcome, State.grantOutcome_of_yes (s := s.withoutWrite n) ht ho hy,
      State.withoutWrite_offer hf hl,
      State.withoutWrite_grantFinal (s := { s with deferred := s.marked n t record }) _ ht,
      State.grantedByWrite_sendWaiting (s := { s with deferred := s.marked n t record }) _ hw]
  rw [heff, State.grantedByWrite_withDeferred]
  exact State.finish_of_settled _ _ (hset.of_given hset.1 rfl rfl rfl) hfree.trans

/-- With the setting no, LOST refuses the card GONE with nothing stored, and its place is released. -/
theorem State.Settled.grantWrite_refused_lost (hs : s.Settled) (ht : (s.lane n).txn = some t)
    (hw : (s.port n).waiting = none) (hy : t.pinned.settingsInForce.grantOnLostWrite = false)
    (hi : t.insertReserved = false) (hh : s.heldOrder = []) (hp : (s.lane n).pendingRole = none)
    (hr : s.restingState n ≠ .fault) :
    (s.endWrite n ⟨t.serial, record, .grant⟩ .lost).finish s = s.refusedByWrite n t.serial .gone t.daysOnCard := by
  have hn : n ∉ s.heldOrder := by simp [hh]
  obtain ⟨hset, hfree⟩ := hs.refusedByWrite (serial := t.serial) (e := .gone) (days := t.daysOnCard) hn (.inl hh)
    (.inl (by simp [Lane.insertReservation_of_txn ht, hi]))
  rw [State.endWrite_eq, State.deliverOutcome, State.grantOutcome_lost_of_no (s := s.withoutWrite n) ht hy,
    State.withoutWrite_refuse _ _ ht hp hr hn, State.refusedByWrite_sendWaiting _ _ _ hw]
  exact State.finish_of_settled _ _ hset hfree

/-- With the setting no, TORN refuses it too, and its entry is stored. -/
theorem State.Settled.grantWrite_refused_torn (hs : s.Settled) (ht : (s.lane n).txn = some t)
    (hw : (s.port n).waiting = none) (hy : t.pinned.settingsInForce.grantOnLostWrite = false)
    (hi : t.insertReserved = false) (hh : s.heldOrder = []) (hp : (s.lane n).pendingRole = none)
    (hr : s.restingState n ≠ .fault) (hf : s.deferredFind t.serial = none) (hl : s.deferred.entries.length < 32) :
    (s.endWrite n ⟨t.serial, record, .grant⟩ .torn).finish s
      = { s.refusedByWrite n t.serial .gone (Record.daysRemaining t.serial record) with
          deferred := s.marked n t record } := by
  have hn : n ∉ s.heldOrder := by simp [hh]
  obtain ⟨hset, hfree⟩ := hs.refusedByWrite (serial := t.serial) (e := .gone)
    (days := Record.daysRemaining t.serial record) hn (.inl hh)
    (.inl (by simp [Lane.insertReservation_of_txn ht, hi]))
  have heff : s.endWrite n ⟨t.serial, record, .grant⟩ .torn = State.refusedByWrite
      { s with deferred := s.marked n t record } n t.serial .gone (Record.daysRemaining t.serial record) := by
    rw [State.endWrite_eq, State.deliverOutcome, State.grantOutcome_torn_of_no (s := s.withoutWrite n) ht hy,
      State.withoutWrite_offer hf hl,
      State.withoutWrite_refuse (s := { s with deferred := s.marked n t record }) _ _ ht hp hr hn,
      State.refusedByWrite_sendWaiting (s := { s with deferred := s.marked n t record }) _ _ _ hw]
  rw [heff]
  exact State.finish_of_settled _ _ (hset.of_given hset.1 rfl rfl rfl) hfree

/-- A resolution write that ends LOST or TORN refuses the card RETRY, and the entry stays. -/
theorem State.Settled.resolutionWrite_failed (hs : s.Settled) (ht : (s.lane n).txn = some t)
    (hw : (s.port n).waiting = none) (hres : t.reserved = false) (hi : t.insertReserved = false)
    (hp : (s.lane n).pendingRole = none) (hr : s.restingState n ≠ .fault) (hn : n ∉ s.heldOrder) (ho : o ≠ .done) :
    (s.endWrite n ⟨t.serial, record, .resolution⟩ o).finish s
      = s.refusedByWrite n t.serial .retry (Record.daysRemaining t.serial t.asRead) := by
  obtain ⟨hset, hfree⟩ := hs.refusedByWrite (serial := t.serial) (e := .retry)
    (days := Record.daysRemaining t.serial t.asRead) hn (.inr (by simp [Lane.reservation_of_txn ht, hres]))
    (.inl (by simp [Lane.insertReservation_of_txn ht, hi]))
  rw [State.endWrite_eq, State.deliverOutcome, State.resolutionOutcome_of_failed (s := s.withoutWrite n) ht ho,
    State.withoutWrite_refuse _ _ ht hp hr hn, State.refusedByWrite_sendWaiting _ _ _ hw]
  exact State.finish_of_settled _ _ hset hfree

/-- A transaction changed in what no reservation reads leaves a free place free. -/
theorem State.holding_placeFree_of_same {t' : Transaction} (ht : (s.lane n).txn = some t)
    (hr : t'.reserved = t.reserved) : (s.holding n t').placeFree = s.placeFree :=
  State.withLane_placeFree s n _ (by
    rw [Lane.reservation_of_txn (t := t') rfl, hr]
    exact (Lane.reservation_of_txn ht).symm)

/-- The verdict of a TICKET lane that goes on from a record with today USED, no passback entry and a free place. -/
theorem State.holding_fromRecord_of_used {row : Nat} {t' : Transaction} (ht : (s.lane n).txn = some t)
    (hres : t'.reserved = t.reserved) (hrole : (s.lane n).role = some .ticket)
    (hc : ticketChecks t'.pinned n t'.serial t'.day t'.minute t'.card = .ok (row, .used))
    (hp : s.passbackHolds t'.serial = false) (hf : s.placeFree = true) :
    (s.holding n t').fromRecord n
      = (s.grantedAt n (s.lane n) { t' with
          row := some row, today := some .used, reserved := true, finalDays := some t'.daysOnCard }).withPort n
        ((s.port n).sending [.verdict true .grant .green t'.daysOnCard 0]) := by
  have hplace := State.holding_placeFree_of_same (t' := { t' with row := some row, today := some .used }) ht hres
  rw [State.fromRecord_of_ticket (by simpa using hrole), State.ticketFromRecord_of_ok (State.holding_txn s n t') hc,
    State.holding_holding,
    State.ticketCapacity_of_place (State.holding_txn s n { t' with row := some row, today := some .used }) hp
      (hplace.trans hf), State.holding_holding, State.holding_grant_of_used s n _ (by simp)]
  rfl

/-- The same on a lane whose write has ended. -/
theorem State.withoutWrite_fromRecord_of_used {row : Nat} {t' : Transaction} (ht : (s.lane n).txn = some t)
    (hres : t'.reserved = t.reserved) (hrole : (s.lane n).role = some .ticket)
    (hc : ticketChecks t'.pinned n t'.serial t'.day t'.minute t'.card = .ok (row, .used))
    (hp : s.passbackHolds t'.serial = false) (hf : s.placeFree = true) :
    ((s.withoutWrite n).holding n t').fromRecord n
      = s.grantedByWrite n { t' with row := some row, today := some .used, reserved := true } t'.daysOnCard := by
  rw [State.holding_fromRecord_of_used (s := s.withoutWrite n) ht hres hrole hc hp hf]
  exact State.withoutWrite_grantedAt t'.daysOnCard
    { t' with row := some row, today := some .used, reserved := true }

/-- The grant that takes its place keeps a settled part settled, with no report made. -/
theorem State.Settled.grantedByWrite_of_place (hs : s.Settled) (days : Nat) {g : Transaction}
    (hi : (s.lane n).insertReservation = if g.insertReserved then 1 else 0)
    (hp : s.passbackHolds g.serial = false) (hf : s.placeFree = true) (he : s.LatchesSilently .passbackEvict) :
    (s.grantedByWrite n g days).Settled ∧ s.QuietTo (s.grantedByWrite n g days) :=
  ⟨(hs.grantedAt n _ { g with finalDays := some days } he (.inl hp) (.inl (hs.heldOrder_of_placeFree hf)) hi).withPort
    n _, (State.grantedAt_quiet n (s.lane n) { g with finalDays := some days } he (.inl hp)).trans
      (State.quietTo_of_mgmt rfl)⟩

/-- A resolution write that ends DONE goes on from the record now on the card, and grants one whose today is USED. -/
theorem State.Settled.resolutionWrite_done {row : Nat} (hs : s.Settled) (ht : (s.lane n).txn = some t)
    (hw : (s.port n).waiting = none) (hrole : (s.lane n).role = some .ticket)
    (hk : ∀ e ∈ s.deferred.entries, some e.stamp = t.resolving → e.kind = .dayMark)
    (hc : ticketChecks t.pinned n t.serial t.day t.minute record = .ok (row, .used))
    (hp : s.passbackHolds t.serial = false) (hf : s.placeFree = true)
    (hq : s.LatchesSilently .mazeFull) (he : s.LatchesSilently .passbackEvict) :
    (s.endWrite n ⟨t.serial, record, .resolution⟩ .done).finish s
      = State.markFull { s.grantedByWrite n { t with
          card := record, resolving := none, row := some row, today := some .used, reserved := true }
          (Record.daysRemaining t.serial record) with deferred := s.resolved t } s := by
  generalize hx : ({ s with deferred := s.resolved t } : State) = x
  have htx : (x.lane n).txn = some t := by rw [← hx]; exact ht
  have hout : (s.withoutWrite n).resolutionOutcome n record .done
      = ((x.withoutWrite n).holding n { t with card := record, resolving := none }).fromRecord n := by
    rw [State.resolutionOutcome_of_dayMark (s := s.withoutWrite n) ht hk, ← hx]
    rfl
  have hdays : Transaction.daysOnCard { t with card := record, resolving := none }
      = Record.daysRemaining t.serial record := rfl
  rw [State.endWrite_eq, State.deliverOutcome, hout,
    State.withoutWrite_fromRecord_of_used (t' := { t with card := record, resolving := none }) htx rfl
      (by rw [← hx]; exact hrole) hc (by rw [← hx]; exact hp) (by rw [← hx]; exact hf), hdays,
    State.grantedByWrite_sendWaiting _ (by rw [← hx]; exact hw), ← hx, State.grantedByWrite_withDeferred]
  obtain ⟨hset, hquiet⟩ := hs.grantedByWrite_of_place (n := n) (Record.daysRemaining t.serial record)
    (g := { t with card := record, resolving := none, row := some row, today := some .used, reserved := true })
    (Lane.insertReservation_of_txn (t := t) ht) hp hf he
  exact State.finish_of_settled_full _ _ (hset.of_given hset.1 rfl rfl rfl)
    ((hquiet.trans (State.quietTo_of_mgmt rfl)).silent hq)

end Parts

/-- Settles O18: each outcome of each owner by its own lemma, and a write that has outlived its transaction by what
its end offers. -/
theorem grantWriteEnds : Obligations.GrantWriteEnds := by
  refine ⟨?_, ?_⟩
  · intro s n t record timer owner hs hw hwait ht days granted refused marked outTime
    refine ⟨?_, ?_, ?_⟩
    · rintro rfl
      refine ⟨fun he hc => ⟨fun f hf => ?_, fun hy hfind hlen => ⟨fun f o ho hf => ?_, fun hdue => ?_⟩⟩,
        fun hy hi hh hp hr => ⟨fun f hf => ?_, fun hfind hlen => ⟨fun f hf => ?_, fun hdue => ?_⟩⟩⟩
      · exact exec_writeResult_of_outstanding hw hf (hs.grantWrite_done ht hwait he hc)
      · exact exec_writeResult_of_outstanding hw hf (hs.grantWrite_lost ht hwait he hc hy hfind hlen ho)
      · exact exec_writeTimerExpiry_of_due hw hdue (hs.grantWrite_lost ht hwait he hc hy hfind hlen (by decide))
      · exact exec_writeResult_of_outstanding hw hf (hs.grantWrite_refused_lost ht hwait hy hi hh hp hr)
      · exact exec_writeResult_of_outstanding hw hf
          (hs.grantWrite_refused_torn ht hwait hy hi hh hp hr hfind hlen)
      · exact exec_writeTimerExpiry_of_due hw hdue (hs.grantWrite_refused_torn ht hwait hy hi hh hp hr hfind hlen)
    · rintro rfl hres hi hp hr hn retry
      refine ⟨fun f o ho hf => ?_, fun hdue => ?_⟩
      · exact exec_writeResult_of_outstanding hw hf (hs.resolutionWrite_failed ht hwait hres hi hp hr hn ho)
      · exact exec_writeTimerExpiry_of_due hw hdue
          (hs.resolutionWrite_failed ht hwait hres hi hp hr hn (by decide))
    · rintro f row rfl hf hrole hk hc hp hplace hq he
      exact exec_writeResult_of_outstanding hw hf (hs.resolutionWrite_done ht hwait hrole hk hc hp hplace hq he)
  · intro s n serial record timer owner hs hw nothing stored outTime
    refine ⟨?_, ?_, ?_⟩
    · rintro issue day rfl
      refine ⟨fun f o ho hf => ?_, fun hq => ⟨fun f hf => ?_, fun hdue => ?_⟩⟩
      · exact exec_writeResult_of_outstanding hw hf (hs.endWrite_of_nothing (if_neg ho))
      · exact exec_writeResult_of_outstanding hw hf (hs.endWrite_of_offer hq rfl)
      · exact exec_writeTimerExpiry_of_due hw hdue (hs.endWrite_of_offer hq rfl)
    · rintro issue day rfl
      refine ⟨fun f hf => ?_, fun hq => ⟨fun f o ho hf => ?_, fun hdue => ?_⟩⟩
      · exact exec_writeResult_of_outstanding hw hf (hs.endWrite_of_nothing rfl)
      · exact exec_writeResult_of_outstanding hw hf (hs.endWrite_of_offer hq (if_neg ho))
      · exact exec_writeTimerExpiry_of_due hw hdue (hs.endWrite_of_offer hq rfl)
    · rintro rfl
      refine ⟨fun f o hf => ?_, fun hdue => ?_⟩
      · exact exec_writeResult_of_outstanding hw hf (hs.endWrite_of_nothing rfl)
      · exact exec_writeTimerExpiry_of_due hw hdue (hs.endWrite_of_nothing rfl)

end Sys2Proof.Machine
end

