-- ==== Sys2Proof/Proofs/SettlementWrites.lean ====
section
/-! PROOFS. The ends of settlement writes, and of the resolution write of a SETTLEMENT entry. -/

namespace Sys2Proof.Machine

/-! ### A completed settlement and its notice (R124, R131, R140, R141) -/

section Completed

variable {s : State} {n : LaneId} {t : Transaction}

theorem State.enqueue_eq (o : Outgoing) (h : s.ownAddress.isSome = true) :
    s.enqueue o = { s with loop := { s.loop with insertQueue := s.loop.insertQueue ++ [o] } } := by
  cases hs : s.ownAddress with
  | none => simp [hs] at h
  | some a => simp [State.enqueue, hs]

/-- REFUNDED and RELEASE end the transaction of a lane that is not held. -/
theorem State.settled_eq (amount : Nat) (ht : (s.lane n).txn = some t) (hp : (s.lane n).pendingRole = none)
    (hr : s.restingState n ≠ .fault) (hn : n ∉ s.heldOrder) :
    s.settled n amount =
      (s.withPort n ((s.port n).sending [.verdict true .refunded .green 0 amount, .release t.serial])).withLane n
        { s.lane n with txn := none, holdTimer := none, state := s.restingState n } := by
  have hport : ((s.port n).sending [.verdict true .refunded .green 0 amount, .release t.serial]).status
      = (s.port n).status := rfl
  have hrest := State.restingState_withPort s n n hport
  rw [State.settled, State.sendFinal_release_of_free .refunded .green 0 amount ht hn,
    State.comeToRest_withLane (s := s.withPort n _) (l := (s.lane n).released) rfl rfl rfl hp (by rwa [hrest]), hrest]
  rfl

/-- The notice that has been queued does not change the transaction's end. -/
theorem State.enqueue_settled (o : Outgoing) (amount : Nat) (ht : (s.lane n).txn = some t)
    (hp : (s.lane n).pendingRole = none) (hr : s.restingState n ≠ .fault) (hn : n ∉ s.heldOrder)
    (ho : s.ownAddress.isSome = true) :
    (s.enqueue o).settled n amount = (s.settled n amount).enqueue o := by
  have hrest : (s.enqueue o).restingState n = s.restingState n := by
    rw [State.enqueue_eq o ho]
    rfl
  have hsame : (s.settled n amount).ownAddress = s.ownAddress := by simp
  rw [State.settled_eq (s := s.enqueue o) (t := t) amount (by simpa [State.lane] using ht)
      (by simpa [State.lane] using hp) (by rwa [hrest]) (by simpa using hn),
    State.enqueue_eq (s := s.settled n amount) o (by rwa [hsame]), State.settled_eq amount ht hp hr hn, hrest,
    State.enqueue_eq o ho]
  rfl

/-- Lane `n`'s transaction ended as REFUNDED on the end of its write, with the refund counted into the day. -/
def State.refundedByWrite (s : State) (n : LaneId) (serial : Serial) (amount : Nat) : State :=
  ({ s with time := { s.time with
      refundsCount := min 65535 (s.time.refundsCount + 1)
      refundsSum := min 4294967295 (s.time.refundsSum + amount) } }.withPort n
    { (s.port n).sending [.verdict true .refunded .green 0 amount, .release serial] with write := none }).withLane n
    { s.lane n with txn := none, holdTimer := none, state := s.restingState n }

/-- A settlement completed on the end of a write queues its notice and ends its transaction. -/
theorem State.withoutWrite_settled (o : Outgoing) (amount : Nat) (hp : (s.lane n).pendingRole = none)
    (hr : s.restingState n ≠ .fault) (hn : n ∉ s.heldOrder) (ho : s.ownAddress.isSome = true) :
    ((((s.withoutWrite n).holding n t).enqueue o).countRefund amount).settled n amount
      = (s.refundedByWrite n t.serial amount).enqueue o := by
  generalize hx : ((s.withoutWrite n).holding n t).countRefund amount = x
  have hcomm : (((s.withoutWrite n).holding n t).enqueue o).countRefund amount = x.enqueue o := by
    rw [← hx, State.enqueue_eq (s := (s.withoutWrite n).holding n t) o ho,
      State.enqueue_eq (s := ((s.withoutWrite n).holding n t).countRefund amount) o ho]
    rfl
  have hlane : x.lane n = { s.lane n with txn := some t } := by
    rw [← hx]
    exact State.holding_lane (s.withoutWrite n) n t
  have hport : x.port n = { s.port n with write := none } := by
    rw [← hx]
    exact State.withPort_port_same s n _
  have hrest : x.restingState n = s.restingState n := by
    refine State.restingState_congr n (by rw [hlane]) (by rw [hlane]) (by rw [hlane]) ?_ ?_ (by rw [hport]) <;>
      (rw [← hx]; rfl)
  have hx' : x.settled n amount = s.refundedByWrite n t.serial amount := by
    rw [State.settled_eq (t := t) amount (by rw [hlane]) (by rw [hlane]; exact hp) (by rwa [hrest])
      (by rw [← hx]; exact hn), hlane, hport, hrest, ← hx]
    simp [State.refundedByWrite, State.holding, State.withoutWrite, State.countRefund, State.withLane, State.withPort,
      satAdd16, satAdd32, Port.sending]
  rw [hcomm, State.enqueue_settled (t := t) o amount (by rw [hlane]) (by rw [hlane]; exact hp) (by rwa [hrest])
    (by rw [← hx]; exact hn) (by rw [← hx]; exact ho), hx']

/-- Its end keeps a settled part settled, and every free place, where it held no place. -/
theorem State.Settled.refundedByWrite (hs : s.Settled) (serial : Serial) (amount : Nat)
    (hq : s.loop.pendingEvents = []) (hres : (s.lane n).reservation = 0) :
    (s.refundedByWrite n serial amount).Settled
      ∧ (s.refundedByWrite n serial amount).placeFree = s.placeFree := by
  generalize hl : ({ s.lane n with txn := none, holdTimer := none, state := s.restingState n } : Lane) = l
  have hn : l.reservation = (s.lane n).reservation :=
    (Lane.reservation_of_none (by rw [← hl])).trans hres.symm
  rw [State.refundedByWrite, hl]
  exact ⟨hs.of_given_of_queued (hs.1.withLane n l (.inr hn)) rfl rfl hq, State.withLane_placeFree s n l hn⟩

theorem State.refundedByWrite_sendWaiting (serial : Serial) (amount : Nat) (o : Outgoing)
    (hw : (s.port n).waiting = none) (ho : s.ownAddress.isSome = true) :
    ((s.refundedByWrite n serial amount).enqueue o).sendWaiting n
      = (s.refundedByWrite n serial amount).enqueue o := by
  refine State.sendWaiting_of_none ?_
  rw [State.enqueue_eq (s := s.refundedByWrite n serial amount) o ho]
  show ((s.refundedByWrite n serial amount).port n).waiting = none
  simpa [State.refundedByWrite, Port.sending] using hw

/-- The event, begun in `b`, ends with the notice offered to the output. -/
theorem State.Settled.finish_refunded (hs : s.Settled) {b : State} (hb : b.placeFree = s.placeFree)
    (serial : Serial) (amount : Nat) (o : Outgoing) (hq : s.loop.pendingEvents = [])
    (hres : (s.lane n).reservation = 0) (ho : s.ownAddress.isSome = true) :
    ((s.refundedByWrite n serial amount).enqueue o).finish b = (s.refundedByWrite n serial amount).offered o := by
  obtain ⟨hset, hfree⟩ := hs.refundedByWrite serial amount hq hres
  have hkept : b.placeFree = true → (s.refundedByWrite n serial amount).placeFree = true :=
    (hfree.trans hb.symm).trans
  rw [State.finish_enqueue _ b o hset (.inr hkept) ho (.inr hq), State.markFull_of_kept hkept]

end Completed

/-! ### The outcomes of a settlement write (R140) -/

section Outcomes

variable {s : State} {n : LaneId} {t : Transaction} {record : Record}

/-- `t` with its reserved general entry given back. -/
def Transaction.unreserved (t : Transaction) : Transaction := { t with insertReserved := false }

theorem State.unreserve_eq (ht : (s.lane n).txn = some t) :
    s.modTxn n (fun t => { t with insertReserved := false }) = s.holding n t.unreserved :=
  State.modTxn_eq_holding _ ht

theorem State.settlementOutcome_done (ht : (s.lane n).txn = some t)
    (hf : 0 < (s.holding n t.unreserved).generalFree) :
    s.settlementOutcome n record .done
      = (((s.holding n t.unreserved).enqueue (.refund (s.settlementRefund n t record))).countRefund t.refund).settled n
          t.refund := by
  simp only [State.settlementOutcome, State.txn, ht, State.unreserve_eq ht, State.fillReservation_of_room _ hf]

theorem State.settlementOutcome_lost (ht : (s.lane n).txn = some t) :
    s.settlementOutcome n record .lost
      = (s.holding n t.unreserved).refuse n .retry (Record.daysRemaining t.serial t.asRead) := by
  simp only [State.settlementOutcome, State.txn, ht, State.unreserve_eq ht]

/-- TORN stores the SETTLEMENT entry in a table with room. -/
theorem State.settlementOutcome_torn (ht : (s.lane n).txn = some t) (hf : s.deferredFind t.serial = none)
    (hl : s.deferred.entries.length < 32) :
    s.settlementOutcome n record .torn
      = (State.deferredAppend (s.holding n t.unreserved) (settlementEntry t record n)).refuse n .retry 0 := by
  have hoffer : State.deferredOffer (s.holding n t.unreserved) (settlementEntry t record n)
      = (State.deferredAppend (s.holding n t.unreserved) (settlementEntry t record n), true) :=
    State.deferredOffer_of_room (s := s.holding n t.unreserved) (e := settlementEntry t record n) hf hl
  simp only [State.settlementOutcome, State.txn, ht, State.unreserve_eq ht, hoffer, if_true]

/-- The refusal of a lane whose write has ended, whatever its transaction has recorded. -/
theorem State.withoutWrite_holding_refuse (e : Display) (days : Nat) (hp : (s.lane n).pendingRole = none)
    (hr : s.restingState n ≠ .fault) (hn : n ∉ s.heldOrder) :
    ((s.withoutWrite n).holding n t).refuse n e days = s.refusedByWrite n t.serial e days := by
  rw [← State.withoutWrite_refusedTo t.serial e days hn]
  exact State.refuse_withLane (s := s.withoutWrite n) e days rfl rfl hp (by rwa [State.withoutWrite_restingState])

/-- An entry given back leaves one more free (R138, R165). -/
theorem State.generalReserved_of_release (s : State) (n : LaneId) {l : Lane}
    (h : (s.lane n).insertReservation = 1) (hl : l.insertReservation = 0) :
    (s.withLane n l).generalReserved + 1 = s.generalReserved := by
  cases n <;>
  · simp only [State.lane, PerLane.get] at h
    simp only [State.withLane, State.generalReserved, PerLane.set, hl]
    omega

/-- DONE on the SETTLEMENT entry that a SETTLE lane's transaction resolves, with a general entry free: the entry is
completed and the transaction ends as REFUNDED. -/
theorem State.resolutionOutcome_of_settlement {e : DeferredEntry} {refund impaired : Nat} {generation : BitVec 16}
    (ht : (s.lane n).txn = some t) (hrole : (s.lane n).role = some .settle)
    (he : s.deferred.entries.find? (fun x => some x.stamp == t.resolving) = some e)
    (hk : e.kind = .settlement refund impaired generation)
    (hf : 0 < (s.holding n { t with card := record, resolving := none }).generalFree) :
    s.resolutionOutcome n record .done
      = ((((s.deferredRemove e.stamp).holding n { t with card := record, resolving := none }).enqueue
          (.refund (s.refundOf e refund impaired generation))).countRefund refund).settled n refund := by
  have hcomm (x : State) (o : Outgoing) (k : Nat) : (x.enqueue o).deferredRemove k = (x.deferredRemove k).enqueue o := by
    unfold State.enqueue
    have : (x.deferredRemove k).ownAddress = x.ownAddress := rfl
    rw [this]
    split <;> rfl
  have hrole' : ((s.holding n { t with card := record, resolving := none }).lane n).role = some .settle := by
    simpa using hrole
  simp only [State.resolutionOutcome, State.txn, ht, State.modTxn_eq_holding _ ht, he, State.resolveComplete,
    State.deferredComplete, hk, if_pos hf, if_pos hrole', hcomm]
  rfl

end Outcomes

/-! ### O19, part by part -/

section Parts

variable {s : State} {n : LaneId} {t : Transaction} {record : Record}

/-- A settlement write that ends DONE. -/
theorem State.Settled.settlementWrite_done (hs : s.Settled) (hq : s.loop.pendingEvents = [])
    (hw : (s.port n).waiting = none) (ht : (s.lane n).txn = some t) (hres : t.reserved = false)
    (hp : (s.lane n).pendingRole = none) (hr : s.restingState n ≠ .fault) (hn : n ∉ s.heldOrder)
    (ho : s.ownAddress.isSome = true) (hi : t.insertReserved = true)
    (hroom : s.generalOccupied + s.generalReserved ≤ 28) :
    (s.endWrite n ⟨t.serial, record, .settlement⟩ .done).finish s
      = (s.refundedByWrite n t.serial t.refund).offered (.refund (s.settlementRefund n t record)) := by
  have hfree : 0 < ((s.withoutWrite n).holding n t.unreserved).generalFree := by
    have hrel : ((s.withoutWrite n).holding n t.unreserved).generalReserved + 1 = s.generalReserved :=
      State.generalReserved_of_release (s.withoutWrite n) n
        ((Lane.insertReservation_of_txn (l := s.lane n) ht).trans (by simp [hi]))
        (Lane.insertReservation_of_txn (t := t.unreserved) rfl)
    have hocc : ((s.withoutWrite n).holding n t.unreserved).generalOccupied = s.generalOccupied := rfl
    rw [State.generalFree, hocc]
    omega
  have hout : (s.withoutWrite n).settlementOutcome n record .done
      = (s.refundedByWrite n t.serial t.refund).enqueue (.refund (s.settlementRefund n t record)) :=
    (State.settlementOutcome_done (s := s.withoutWrite n) ht hfree).trans
      (State.withoutWrite_settled (t := t.unreserved) _ _ hp hr hn ho)
  rw [State.endWrite_eq, State.deliverOutcome, hout, State.refundedByWrite_sendWaiting _ _ _ hw ho]
  exact hs.finish_refunded rfl _ _ _ hq (by simp [Lane.reservation_of_txn ht, hres]) ho

/-- A settlement write that ends LOST: RETRY with the days of the record as read, and nothing stored (log 38). -/
theorem State.Settled.settlementWrite_lost (hs : s.Settled) (hq : s.loop.pendingEvents = [])
    (hw : (s.port n).waiting = none) (ht : (s.lane n).txn = some t) (hres : t.reserved = false)
    (hp : (s.lane n).pendingRole = none) (hr : s.restingState n ≠ .fault) (hn : n ∉ s.heldOrder) :
    (s.endWrite n ⟨t.serial, record, .settlement⟩ .lost).finish s
      = s.refusedByWrite n t.serial .retry (Record.daysRemaining t.serial t.asRead) := by
  obtain ⟨hset, hfree⟩ := hs.refusedByWrite (serial := t.serial) (e := .retry)
    (days := Record.daysRemaining t.serial t.asRead) hn (.inr (by simp [Lane.reservation_of_txn ht, hres])) (.inr hq)
  have hout : (s.withoutWrite n).settlementOutcome n record .lost
      = s.refusedByWrite n t.serial .retry (Record.daysRemaining t.serial t.asRead) :=
    (State.settlementOutcome_lost (s := s.withoutWrite n) ht).trans
      (State.withoutWrite_holding_refuse (t := t.unreserved) _ _ hp hr hn)
  rw [State.endWrite_eq, State.deliverOutcome, hout, State.refusedByWrite_sendWaiting _ _ _ hw]
  exact State.finish_of_settled _ _ hset hfree

/-- One that ends TORN: RETRY with days 0, and the SETTLEMENT entry stored. -/
theorem State.Settled.settlementWrite_torn (hs : s.Settled) (hq : s.loop.pendingEvents = [])
    (hw : (s.port n).waiting = none) (ht : (s.lane n).txn = some t) (hres : t.reserved = false)
    (hp : (s.lane n).pendingRole = none) (hr : s.restingState n ≠ .fault) (hn : n ∉ s.heldOrder)
    (hf : s.deferredFind t.serial = none) (hl : s.deferred.entries.length < 32) :
    (s.endWrite n ⟨t.serial, record, .settlement⟩ .torn).finish s
      = { s.refusedByWrite n t.serial .retry 0 with
          deferred := (s.deferredAppend (settlementEntry t record n)).deferred } := by
  obtain ⟨hset, hfree⟩ := hs.refusedByWrite (serial := t.serial) (e := .retry) (days := 0) hn
    (.inr (by simp [Lane.reservation_of_txn ht, hres])) (.inr hq)
  generalize hd : (s.deferredAppend (settlementEntry t record n)).deferred = d
  have hout : (s.withoutWrite n).settlementOutcome n record .torn
      = State.refusedByWrite { s with deferred := d } n t.serial .retry 0 := by
    rw [← hd]
    exact (State.settlementOutcome_torn (s := s.withoutWrite n) ht hf hl).trans
      (State.withoutWrite_holding_refuse (s := s.deferredAppend (settlementEntry t record n)) (t := t.unreserved) _ _
        hp hr hn)
  rw [State.endWrite_eq, State.deliverOutcome, hout,
    State.refusedByWrite_sendWaiting (s := { s with deferred := d }) _ _ _ hw]
  exact State.finish_of_settled _ _ (hset.of_given hset.1 rfl rfl rfl) hfree

/-- The resolution write of a SETTLEMENT entry that ends DONE on a SETTLE lane. -/
theorem State.Settled.resolutionWrite_settles {e : DeferredEntry} {refund impaired : Nat} {generation : BitVec 16}
    (hs : s.Settled) (hq : s.loop.pendingEvents = []) (hw : (s.port n).waiting = none)
    (ht : (s.lane n).txn = some t) (hres : t.reserved = false) (hp : (s.lane n).pendingRole = none)
    (hr : s.restingState n ≠ .fault) (hn : n ∉ s.heldOrder) (ho : s.ownAddress.isSome = true)
    (hrole : (s.lane n).role = some .settle) (hroom : 0 < s.generalFree)
    (he : s.deferred.entries.find? (fun x => some x.stamp == t.resolving) = some e)
    (hk : e.kind = .settlement refund impaired generation) :
    (s.endWrite n ⟨t.serial, record, .resolution⟩ .done).finish s
      = ((s.deferredRemove e.stamp).refundedByWrite n t.serial refund).offered
          (.refund (s.refundOf e refund impaired generation)) := by
  have hfree : 0 < ((s.withoutWrite n).holding n { t with card := record, resolving := none }).generalFree := by
    have : ((s.withoutWrite n).holding n { t with card := record, resolving := none }).generalFree = s.generalFree :=
      State.generalFree_congr rfl (State.withLane_generalReserved (s.withoutWrite n) n _
        ((Lane.insertReservation_of_txn (t := t) ht).symm))
    rwa [this]
  have hset : (s.deferredRemove e.stamp).Settled := hs.of_given hs.1 rfl rfl rfl
  have hout : (s.withoutWrite n).resolutionOutcome n record .done
      = ((s.deferredRemove e.stamp).refundedByWrite n t.serial refund).enqueue
          (.refund (s.refundOf e refund impaired generation)) :=
    (State.resolutionOutcome_of_settlement (s := s.withoutWrite n) ht hrole he hk hfree).trans
      (State.withoutWrite_settled (s := s.deferredRemove e.stamp)
        (t := { t with card := record, resolving := none }) _ _ hp hr hn ho)
  rw [State.endWrite_eq, State.deliverOutcome, hout,
    State.refundedByWrite_sendWaiting (s := s.deferredRemove e.stamp) _ _ _ hw ho]
  exact hset.finish_refunded rfl _ _ _ hq ((Lane.reservation_of_txn (l := s.lane n) ht).trans (by simp [hres])) ho

/-- The offer of a message changes nothing of the Deferred Write Table. -/
theorem State.offered_withDeferred (s : State) (d : DeferredTable) (o : Outgoing) :
    ({ s with deferred := d } : State).offered o = { s.offered o with deferred := d } := by
  unfold State.offered
  split <;> rfl

end Parts

/-- Settles O19: each outcome by its own lemma. -/
theorem settlementWriteEnds : Obligations.SettlementWriteEnds := by
  intro s n t record timer owner hs hq hw hwait ht hres hp hr hn ended refunded
  refine ⟨?_, ?_⟩
  · rintro rfl
    refine ⟨fun f ho hi hroom hf => ?_, fun f hf => ?_, fun hdue hfind hlen => ?_⟩
    · exact exec_writeResult_of_outstanding hw hf (hs.settlementWrite_done hq hwait ht hres hp hr hn ho hi hroom)
    · exact exec_writeResult_of_outstanding hw hf (hs.settlementWrite_lost hq hwait ht hres hp hr hn)
    · exact exec_writeTimerExpiry_of_due hw hdue (hs.settlementWrite_torn hq hwait ht hres hp hr hn hfind hlen)
  · rintro f e refund impaired generation rfl ho hrole - hroom hf he hk
    refine exec_writeResult_of_outstanding hw hf
      ((hs.resolutionWrite_settles hq hwait ht hres hp hr hn ho hrole hroom he hk).trans ?_)
    exact State.offered_withDeferred (s.refundedByWrite n t.serial refund) _ _

end Sys2Proof.Machine
end

