-- ==== Sys2Proof/Proofs/Records.lean ====
section
/-! PROOFS. The records that the part builds: which fields R6 to R8 change, and that they stay well-formed. -/

namespace Sys2Proof.Machine

namespace Record

/-! ### The fields after R6 -/

/-- R6 changes the flags, the issue and the check code alone. -/
theorem field_finish (base r : Record) {pos w : Nat} (h : pos + w ≤ 168 ∨ 192 ≤ pos ∧ pos + w ≤ 240) :
    Record.field (Record.finish base r) pos w = Record.field r pos w := by
  simp only [Record.finish]
  rw [Record.field_setField_other _ 240 _ (by omega) _ _ (by omega),
    Record.field_setField_other _ 168 _ (by omega) _ _ (by omega),
    Record.field_setField_other _ 184 _ (by omega) _ _ (by omega)]

theorem issue_finish (base r : Record) : Record.issue (Record.finish base r) = Record.issue base + 1 := by
  simp only [Record.finish]
  rw [Record.issue, Record.field_setField_other _ 240 _ (by omega) _ _ (by omega),
    Record.field_setField_same _ 168 _ (by omega)]

theorem flags_finish (base r : Record) : Record.flags (Record.finish base r) = Record.flags r &&& 1 := by
  simp only [Record.finish]
  rw [Record.flags, Record.field_setField_other _ 240 _ (by omega) _ _ (by omega),
    Record.field_setField_other _ 168 _ (by omega) _ _ (by omega), Record.field_setField_same _ 184 _ (by omega)]

theorem settled_finish (base r : Record) : Record.settled (Record.finish base r) = Record.settled r := by
  simp [Record.settled, Record.flags_finish]

/-! ### The day map -/

theorem ofCode_code (m : DayMark) : DayMark.ofCode m.code = m := by cases m <;> decide

theorem dayMark_finish (base r : Record) {j : Nat} (hj : j < 28) :
    Record.dayMark (Record.finish base r) j = Record.dayMark r j := by
  rw [Record.dayMark, Record.field_finish base r (by simp only [dayMapPos]; omega)]
  rfl

theorem dayMark_setDayMark_same (r : Record) {i : Nat} (hi : i < 28) (m : DayMark) :
    Record.dayMark (Record.setDayMark r i m) i = m := by
  rw [Record.dayMark, Record.setDayMark, Record.field_setField_same _ _ _ (by simp only [dayMapPos]; omega),
    ofCode_code]

theorem dayMark_setDayMark_other (r : Record) {i j : Nat} (hi : i < 28) (hj : j ≠ i) (m : DayMark) :
    Record.dayMark (Record.setDayMark r i m) j = Record.dayMark r j := by
  rw [Record.dayMark, Record.setDayMark, Record.field_setField_other _ _ _ (by simp only [dayMapPos]; omega) _ _
    (by simp only [dayMapPos]; omega)]
  rfl

/-- A day mark changes no field outside the day map. -/
theorem field_setDayMark (r : Record) {i pos w : Nat} (hi : i < 28) (m : DayMark)
    (h : pos + w ≤ 112 ∨ 168 ≤ pos) : Record.field (Record.setDayMark r i m) pos w = Record.field r pos w :=
  Record.field_setField_other _ _ _ (by simp only [dayMapPos]; omega) _ _ (by simp only [dayMapPos]; omega)

/-- The marks after R8: every FREE entry of the first `w` is VOID. -/
theorem dayMark_voidFree (r : Record) {w : Nat} (hw : w ≤ 28) (j : Nat) :
    Record.dayMark (Record.voidFree r w) j
      = if j < w ∧ Record.dayMark r j = .free then .void else Record.dayMark r j := by
  induction w generalizing j with
  | zero => simp [Record.voidFree]
  | succ w ih =>
    have ih := fun j => ih (by omega) j
    have hself : Record.dayMark (Record.voidFree r w) w = Record.dayMark r w := by rw [ih w, if_neg (by omega)]
    simp only [Record.voidFree, hself]
    by_cases hj : j = w
    · subst hj
      by_cases hfree : Record.dayMark r j = .free
      · simp [hfree, dayMark_setDayMark_same _ (by omega : j < 28)]
      · simp [hfree, hself]
    · have hlt : (j < w + 1 ∧ Record.dayMark r j = .free) ↔ (j < w ∧ Record.dayMark r j = .free) := by
        constructor <;> rintro ⟨h, hf⟩ <;> exact ⟨by omega, hf⟩
      simp only [hlt, ← ih j]
      split
      · exact dayMark_setDayMark_other _ (by omega) hj _
      · rfl

/-- R8's change of the day map changes no other field. -/
theorem field_voidFree (r : Record) {w pos k : Nat} (hw : w ≤ 28) (h : pos + k ≤ 112 ∨ 168 ≤ pos) :
    Record.field (Record.voidFree r w) pos k = Record.field r pos k := by
  induction w with
  | zero => rfl
  | succ w ih =>
    simp only [Record.voidFree]
    split
    · rw [Record.field_setDayMark _ (by omega) _ h, ih (by omega)]
    · exact ih (by omega)

/-! ### The used count -/

/-- A list without repetition that one more member satisfies has one more. -/
theorem length_filter_succ {l : List Nat} {i : Nat} {p q : Nat → Bool} (hl : l.Nodup) (hi : i ∈ l)
    (hp : p i = false) (hq : q i = true) (h : ∀ j ∈ l, j ≠ i → q j = p j) :
    (l.filter q).length = (l.filter p).length + 1 := by
  induction l with
  | nil => simp at hi
  | cons a l ih =>
    obtain ⟨ha, hl⟩ := List.nodup_cons.1 hl
    by_cases hai : a = i
    · subst hai
      have hrest : l.filter q = l.filter p :=
        List.filter_congr fun j hj => h j (List.mem_cons_of_mem _ hj) (by rintro rfl; exact ha hj)
      simp [hp, hq, hrest]
    · have ih := ih hl ((List.mem_cons.1 hi).resolve_left (Ne.symm hai)) fun j hj => h j (List.mem_cons_of_mem _ hj)
      simp only [List.filter_cons, h a List.mem_cons_self hai]
      split <;> simp [ih]

/-- The used count reads the USED marks of the day map alone. -/
theorem used_congr {r r' : Record} (h : ∀ j, j < 28 → (Record.dayMark r' j = .used ↔ Record.dayMark r j = .used)) :
    Record.used r' = Record.used r := by
  rw [Record.used, Record.used, Record.usedDays, Record.usedDays,
    List.filter_congr fun j hj => decide_eq_decide.2 (h j (List.mem_range.1 hj))]

/-- One more USED mark is one more used day. -/
theorem used_succ {r r' : Record} {i : Nat} (hi : i < 28) (h : Record.dayMark r i ≠ .used)
    (h' : Record.dayMark r' i = .used)
    (ho : ∀ j, j < 28 → j ≠ i → Record.dayMark r' j = Record.dayMark r j) :
    Record.used r' = Record.used r + 1 :=
  length_filter_succ List.nodup_range (List.mem_range.2 hi) (by simpa using h) (by simpa using h')
    fun j hj hne => by rw [ho j (List.mem_range.1 hj) hne]

/-! ### Well-formedness (R5) -/

/-- What R5 asks of a record, with the ranges of R2. -/
structure Fits (serial : Serial) (r : Record) : Prop where
  check : Record.checkValid r = true
  serial_eq : Record.serial r = serial
  serial_ne : serial ≠ 0
  first : 1 ≤ Record.first r ∧ Record.first r ≤ 366
  window : 1 ≤ Record.window r ∧ Record.window r ≤ 28
  days : 1 ≤ Record.days r ∧ Record.days r ≤ min 14 (Record.window r)
  category : (Record.category r).toNat ≤ 4
  price : Record.price r ≤ 2000000
  marks : ∀ i, i < 28 → Record.dayMark r i ≠ .invalid ∧ (i < Record.window r ∨ Record.dayMark r i = .free)
  used_le : Record.used r ≤ Record.days r
  settlement : if Record.settled r = true
    then Record.settledAmount r ≤ 2000000 ∧ 1 ≤ Record.settledDay r ∧ Record.settledDay r ≤ 366
    else Record.settledAmount r = 0 ∧ Record.settledDay r = 0

theorem wellFormed_iff (serial : Serial) (r : Record) : Record.wellFormed serial r = true ↔ Record.Fits serial r := by
  have hs : (if Record.settled r = true
      then decide (Record.settledAmount r ≤ 2000000)
        && (decide (1 ≤ Record.settledDay r) && decide (Record.settledDay r ≤ 366))
      else Record.settledAmount r == 0 && Record.settledDay r == 0) = true
      ↔ (if Record.settled r = true
        then Record.settledAmount r ≤ 2000000 ∧ 1 ≤ Record.settledDay r ∧ Record.settledDay r ≤ 366
        else Record.settledAmount r = 0 ∧ Record.settledDay r = 0) := by
    split <;> simp
  simp only [Record.wellFormed, Bool.and_eq_true, hs]
  simp only [beq_iff_eq, bne_iff_ne, decide_eq_true_eq, List.all_eq_true, List.mem_range, Bool.and_eq_true,
    Bool.or_eq_true]
  constructor
  · rintro ⟨⟨⟨⟨⟨⟨⟨⟨⟨⟨hc, hse⟩, hne⟩, hf⟩, hw⟩, hd⟩, hcat⟩, hp⟩, hm⟩, hu⟩, hst⟩
    exact ⟨hc, hse, hne, hf, hw, hd, hcat, hp, hm, hu, hst⟩
  · rintro ⟨hc, hse, hne, hf, hw, hd, hcat, hp, hm, hu, hst⟩
    exact ⟨⟨⟨⟨⟨⟨⟨⟨⟨⟨hc, hse⟩, hne⟩, hf⟩, hw⟩, hd⟩, hcat⟩, hp⟩, hm⟩, hu⟩, hst⟩

/-- A record that keeps every field below the day map keeps what R5 asks of them. -/
theorem Fits.of_head {serial : Serial} {base r : Record} (h : Record.Fits serial base)
    (hr : ∀ pos w, pos + w ≤ 112 → Record.field r pos w = Record.field base pos w)
    (check : Record.checkValid r = true)
    (marks : ∀ i, i < 28 → Record.dayMark r i ≠ .invalid
      ∧ (i < Record.window base ∨ Record.dayMark r i = .free))
    (used_le : Record.used r ≤ Record.days base)
    (settlement : if Record.settled r = true
      then Record.settledAmount r ≤ 2000000 ∧ 1 ≤ Record.settledDay r ∧ Record.settledDay r ≤ 366
      else Record.settledAmount r = 0 ∧ Record.settledDay r = 0) : Record.Fits serial r := by
  have hserial : Record.serial r = Record.serial base := hr 0 32 (by omega)
  have hcategory : Record.category r = Record.category base := hr 40 8 (by omega)
  have hfirst : Record.first r = Record.first base := congrArg BitVec.toNat (hr 48 16 (by omega))
  have hwindow : Record.window r = Record.window base := congrArg BitVec.toNat (hr 64 8 (by omega))
  have hdays : Record.days r = Record.days base := congrArg BitVec.toNat (hr 72 8 (by omega))
  have hprice : Record.price r = Record.price base := congrArg BitVec.toNat (hr 80 32 (by omega))
  exact {
    check := check
    serial_eq := hserial.trans h.serial_eq
    serial_ne := h.serial_ne
    first := by rw [hfirst]; exact h.first
    window := by rw [hwindow]; exact h.window
    days := by rw [hdays, hwindow]; exact h.days
    category := by rw [hcategory]; exact h.category
    price := by rw [hprice]; exact h.price
    marks := by rw [hwindow]; exact marks
    used_le := by rw [hdays]; exact used_le
    settlement := settlement }

/-! ### The day-marked record (R7) -/

section DayMarked

variable {base : Record} {i : Nat}

theorem dayMark_dayMarked_same (hi : i < 28) : Record.dayMark (Record.dayMarked base i) i = .used :=
  (dayMark_finish _ _ hi).trans (dayMark_setDayMark_same _ hi _)

theorem dayMark_dayMarked_other (hi : i < 28) {j : Nat} (hj : j < 28) (hne : j ≠ i) :
    Record.dayMark (Record.dayMarked base i) j = Record.dayMark base j :=
  (dayMark_finish _ _ hj).trans (dayMark_setDayMark_other _ hi hne _)

theorem used_dayMarked (hi : i < 28) (hf : Record.dayMark base i = .free) :
    Record.used (Record.dayMarked base i) = Record.used base + 1 :=
  used_succ hi (by rw [hf]; decide) (dayMark_dayMarked_same hi) fun _ hj hne => dayMark_dayMarked_other hi hj hne

/-- R7 changes no field but the day map, the flags, the issue and the check code. -/
theorem field_dayMarked (hi : i < 28) {pos w : Nat} (h : pos + w ≤ 112 ∨ 192 ≤ pos ∧ pos + w ≤ 240) :
    Record.field (Record.dayMarked base i) pos w = Record.field base pos w := by
  rw [Record.dayMarked, field_finish _ _ (by omega), field_setDayMark _ hi _ (by omega)]

theorem settled_dayMarked (hi : i < 28) : Record.settled (Record.dayMarked base i) = Record.settled base := by
  rw [Record.dayMarked, settled_finish, Record.settled, Record.settled, Record.flags, Record.flags,
    field_setDayMark _ hi _ (by omega)]

theorem Fits.dayMarked {serial : Serial} (h : Record.Fits serial base) (hs : Record.settled base = false)
    (hw : i < Record.window base) (hf : Record.dayMark base i = .free)
    (hu : Record.used base < Record.days base) : Record.Fits serial (Record.dayMarked base i) := by
  have hi : i < 28 := lt_of_lt_of_le hw h.window.2
  refine h.of_head (fun pos w hp => field_dayMarked hi (.inl hp)) (finish_checkValid _ _) (fun j hj => ?_) ?_ ?_
  · by_cases hne : j = i
    · subst hne
      rw [dayMark_dayMarked_same hi]
      exact ⟨by decide, .inl hw⟩
    · rw [dayMark_dayMarked_other hi hj hne]
      exact h.marks j hj
  · rw [used_dayMarked hi hf]
    exact hu
  · have hset := h.settlement
    rw [if_neg (by simp [hs])] at hset
    rw [if_neg (by simp [settled_dayMarked hi, hs]), Record.settledAmount, Record.settledDay,
      field_dayMarked hi (by omega), field_dayMarked hi (by omega)]
    exact hset

end DayMarked

/-! ### The settled record (R8) -/

section Settled

variable {base : Record} {refund day : Nat}

/-- R8 changes no field below the day map, and nothing of it but the marks. -/
theorem field_settledRecord {pos w : Nat} (h : pos + w ≤ 112) :
    Record.field (Record.settledRecord base refund day) pos w = Record.field base pos w := by
  simp only [Record.settledRecord]
  rw [field_finish _ _ (by omega), Record.field_setField_other _ 224 _ (by omega) _ _ (by omega),
    Record.field_setField_other _ 192 _ (by omega) _ _ (by omega),
    Record.field_setField_other _ 184 _ (by omega) _ _ (by omega), field_voidFree _ (by omega) (by omega)]

/-- Every FREE day of the window is VOID. -/
theorem dayMark_settledRecord (hw : Record.window base ≤ 28) {j : Nat} (hj : j < 28) :
    Record.dayMark (Record.settledRecord base refund day) j
      = if j < Record.window base ∧ Record.dayMark base j = .free then .void else Record.dayMark base j := by
  have hvoid := dayMark_voidFree base (w := min 28 (Record.window base)) (by omega) j
  rw [Nat.min_eq_right hw] at hvoid
  rw [← hvoid]
  simp only [Record.settledRecord]
  rw [dayMark_finish _ _ hj, Record.dayMark, Record.dayMark, Nat.min_eq_right hw]
  congr 1
  have hpos : dayMapPos j + 2 ≤ 168 := by simp only [dayMapPos]; omega
  rw [Record.field_setField_other _ 224 _ (by omega) _ _ (by omega),
    Record.field_setField_other _ 192 _ (by omega) _ _ (by omega),
    Record.field_setField_other _ 184 _ (by omega) _ _ (by omega)]

theorem used_settledRecord (hw : Record.window base ≤ 28) :
    Record.used (Record.settledRecord base refund day) = Record.used base :=
  used_congr fun j hj => by
    rw [dayMark_settledRecord hw hj]
    split
    · rename_i h
      simp [h.2]
    · rfl

theorem settled_settledRecord : Record.settled (Record.settledRecord base refund day) = true := by
  simp only [Record.settledRecord]
  rw [settled_finish, Record.settled, Record.flags, Record.field_setField_other _ 224 _ (by omega) _ _ (by omega),
    Record.field_setField_other _ 192 _ (by omega) _ _ (by omega), Record.field_setField_same _ 184 _ (by omega)]
  simp

theorem settledAmount_settledRecord (h : refund ≤ 2000000) :
    Record.settledAmount (Record.settledRecord base refund day) = refund := by
  simp only [Record.settledRecord]
  rw [Record.settledAmount, field_finish _ _ (by omega), Record.field_setField_other _ 224 _ (by omega) _ _ (by omega),
    Record.field_setField_same _ 192 _ (by omega), BitVec.toNat_ofNat]
  omega

theorem settledDay_settledRecord (h : day ≤ 366) :
    Record.settledDay (Record.settledRecord base refund day) = day := by
  simp only [Record.settledRecord]
  rw [Record.settledDay, field_finish _ _ (by omega), Record.field_setField_same _ 224 _ (by omega),
    BitVec.toNat_ofNat]
  omega

theorem Fits.settledRecord {serial : Serial} (h : Record.Fits serial base) (hr : refund ≤ 2000000)
    (hd : 1 ≤ day ∧ day ≤ 366) : Record.Fits serial (Record.settledRecord base refund day) := by
  refine h.of_head (fun pos w hp => field_settledRecord hp) (finish_checkValid _ _) (fun j hj => ?_) ?_ ?_
  · rw [dayMark_settledRecord h.window.2 hj]
    split
    · rename_i hfree
      exact ⟨by decide, .inl hfree.1⟩
    · exact h.marks j hj
  · rw [used_settledRecord h.window.2]
    exact h.used_le
  · rw [if_pos settled_settledRecord, settledAmount_settledRecord hr, settledDay_settledRecord hd.2]
    exact ⟨hr, hd⟩

end Settled

end Record

/-- Settles O40: R7 and R8 keep what R5 asks of a record. -/
theorem builtRecordsWellFormed : Obligations.BuiltRecordsWellFormed := by
  intro serial base hwf hs
  have h := (Record.wellFormed_iff serial base).1 hwf
  refine ⟨fun i hw hf hu => ?_, fun refund day hr h1 h2 => ?_⟩
  · have hi : i < 28 := lt_of_lt_of_le hw h.window.2
    exact ⟨(Record.wellFormed_iff _ _).2 (h.dayMarked hs hw hf hu), Record.dayMark_dayMarked_same hi,
      fun j hj hne => Record.dayMark_dayMarked_other hi hj hne, Record.used_dayMarked hi hf,
      Record.issue_finish _ _⟩
  · exact ⟨(Record.wellFormed_iff _ _).2 (h.settledRecord hr ⟨h1, h2⟩), Record.settled_settledRecord,
      Record.settledAmount_settledRecord hr, Record.settledDay_settledRecord h2,
      fun j hj => Record.dayMark_settledRecord h.window.2 hj, Record.used_settledRecord h.window.2,
      Record.issue_finish _ _⟩

end Sys2Proof.Machine
end

