-- ==== Sys2Proof/Proofs/Reports.lean ====
section
/-! PROOFS. The EVENT reports that one event makes: which they are, and what the end of the event makes of them. -/

namespace Sys2Proof.Machine

/-! ### The reports in order of flag identifier (R183) -/

/-- The reports an event has made, as they meet the queue. -/
def State.made (s : State) : List EventReport :=
  Flag.all.filterMap fun f => s.mgmt.raised.find? fun r => r.flag == f

theorem State.queueEvent_mgmt (s : State) (r : EventReport) : (s.queueEvent r).mgmt = s.mgmt := by simp

theorem State.foldl_flushFlag (l : List Flag) (s : State) :
    l.foldl State.flushFlag s
      = (l.filterMap fun f => s.mgmt.raised.find? fun r => r.flag == f).foldl State.queueEvent s := by
  induction l generalizing s with
  | nil => rfl
  | cons f l ih =>
    simp only [List.foldl_cons, List.filterMap_cons, ih, State.flushFlag]
    cases s.mgmt.raised.find? fun r => r.flag == f with
    | none => rfl
    | some r => simp

theorem State.flushRaised_eq (s : State) :
    s.flushRaised = { s.made.foldl State.queueEvent s with
      mgmt := { (s.made.foldl State.queueEvent s).mgmt with raised := [] } } := by
  rw [State.flushRaised, State.foldl_flushFlag]
  rfl

/-- A single report is made whatever its flag. -/
theorem State.made_of_single {s : State} {r : EventReport} (h : s.mgmt.raised = [r]) : s.made = [r] := by
  obtain ⟨f, time, detail⟩ := r
  rw [State.made, h]
  cases f <;> rfl

/-! ### The end of an event that makes one report -/

/-- `s` with these reports made in the current event. -/
def State.raising (s : State) (rs : List EventReport) : State := { s with mgmt := { s.mgmt with raised := rs } }

theorem State.raising_nil {s : State} (h : s.mgmt.raised = []) : s.raising [] = s := by
  rw [State.raising, ← h]

theorem State.queueEvent_raising (s : State) (r : EventReport) (rs : List EventReport) :
    (s.raising rs).queueEvent r = (s.queueEvent r).raising rs := by
  simp only [State.queueEvent, State.enqueue]
  change (if 0 < s.generalFree then _ else _) = _
  split
  · change (if s.ownAddress.isNone = true then _ else _) = _
    split <;> rfl
  · rfl

theorem State.flushRaised_raising {s : State} (r : EventReport) (h : s.mgmt.raised = []) :
    (s.raising [r]).flushRaised = s.queueEvent r := by
  rw [State.flushRaised_eq, State.made_of_single (r := r) rfl]
  change State.raising ((s.raising [r]).queueEvent r) [] = _
  rw [State.queueEvent_raising]
  have hnil : (s.queueEvent r).mgmt.raised = [] := by rw [State.queueEvent_mgmt]; exact h
  exact State.raising_nil hnil

/-- The output's choice after one message has been queued on a settled part. -/
theorem State.arbitrate_enqueue {s before : State} {o : Outgoing} (h : s.Settled)
    (hp : before.placeFree = true → s.placeFree = true) (hown : s.ownAddress.isSome = true)
    (hroom : s.loop.pendingEvents = []) :
    ((s.enqueue o).arbitrate before.loop.sending.isNone).queuePending = s.offered o := by
  have hfin := State.finish_enqueue s before o h (Or.inr hp) hown (Or.inr hroom)
  have hn : s.ownAddress.isNone = false := by cases hs : s.ownAddress <;> simp_all
  have he : s.enqueue o = { s with loop := { s.loop with insertQueue := s.loop.insertQueue ++ [o] } } := by
    simp [State.enqueue, hn]
  have hg : (s.enqueue o).PlacesGiven := by rw [he]; exact h.1
  have hpf : before.placeFree = true → (s.enqueue o).placeFree = true := by rw [he]; exact hp
  have hq : (s.enqueue o).loop.pendingEvents = [] := by rw [he]; exact hroom
  have hr : (s.enqueue o).mgmt.raised = [] := by rw [he]; exact h.2.1.1
  rwa [State.markFull_of_kept hp, State.finish, State.givePlaces_of_given _ _ hg, State.checkMazeFull_of_kept _ _ hpf,
    State.queuePending_of_queued _ (.inl hq), State.flushRaised_of_none _ hr] at hfin

/-- An event that makes one report on a settled part. -/
theorem State.finish_raising {s before : State} (r : EventReport) (h : s.Settled)
    (hp : before.placeFree = true → s.placeFree = true) : (s.raising [r]).finish before = s.reported r := by
  obtain ⟨hg, ⟨hr, hq⟩, ho⟩ := h
  have hg' : (s.raising [r]).PlacesGiven := hg
  have hp' : before.placeFree = true → (s.raising [r]).placeFree = true := hp
  have hq' : (s.raising [r]).loop.pendingEvents = [] ∨ (s.raising [r]).generalFree = 0 := hq
  rw [State.finish, State.givePlaces_of_given _ _ hg', State.checkMazeFull_of_kept _ _ hp',
    State.queuePending_of_queued _ hq', State.flushRaised_raising r hr, State.queueEvent, State.reported]
  rcases Nat.eq_zero_or_pos s.generalFree with hfree | hfree
  · have hserved : ({ s with loop := { s.loop with
        pendingEvents := s.loop.pendingEvents ++ [r] } } : State).OutputServed := ho
    rw [if_neg (by omega), if_pos hfree, State.arbitrate_of_served _ _ hserved]
    exact State.queuePending_of_queued _ (.inr hfree)
  · rw [if_pos hfree, if_neg (by omega)]
    have hnone : s.loop.pendingEvents = [] := hq.resolve_right (by omega)
    cases hown : s.ownAddress with
    | none =>
      have hsame : s.enqueue (.event r) = s := by simp [State.enqueue, hown]
      rw [hsame, State.arbitrate_of_served _ _ ho, State.queuePending_of_queued _ hq]
      rfl
    | some a => exact State.arbitrate_enqueue ⟨hg, ⟨hr, hq⟩, ho⟩ hp (by simp [hown]) hnone

/-- A latch at the end of an event on a settled part (R182, R183). -/
theorem State.finish_latch {s before : State} (f : Flag) (detail : Nat) (h : s.Settled)
    (hp : before.placeFree = true → s.placeFree = true) :
    (s.latch f detail).finish before = s.latched f detail := by
  have hnone : (s.withFlag f).mgmt.raised = [] := h.2.1.1
  by_cases hset : s.flagSet f = true
  · rw [State.latch, State.latched, if_pos hset, if_pos hset, State.finish_of_settled s before h hp]
  · rw [State.latch, State.latched, if_neg hset, if_neg hset]
    by_cases hmade : (s.flagEnabled f && !s.eventPending f) = true
    · rw [if_pos hmade, if_pos hmade, h.2.1.1, ← State.finish_raising _ (h.withFlag f) hp]
      rfl
    · rw [if_neg hmade, if_neg hmade]
      exact State.finish_of_settled (s.withFlag f) before (h.withFlag f) hp

end Sys2Proof.Machine
end

