-- ==== Sys2Proof/Proofs/ReaderStatus.lean ====
section
/-! PROOFS. The reader status: BEAT, the end of the heartbeat timer, and the reader's going down. -/

namespace Sys2Proof.Machine

/-! ### Flags set in turn -/

theorem State.withFlag_comm (s : State) (f g : Flag) : (s.withFlag f).withFlag g = (s.withFlag g).withFlag f := by
  simp only [State.withFlag, BitVec.or_assoc, BitVec.or_comm f.bit g.bit]

theorem State.wentDown_withFlag (s : State) (n : LaneId) (p : Port) (f : Flag) :
    (s.withFlag f).wentDown n p = (s.wentDown n p).withFlag f := by
  have hdown (q : Port) (l : Lane) :
      (((s.withFlag f).withPort n q).withLane n l).withFlag .laneFault
        = (((s.withPort n q).withLane n l).withFlag .laneFault).withFlag f :=
    State.withFlag_comm ((s.withPort n q).withLane n l) f .laneFault
  have hlane : (s.withFlag f).lane n = s.lane n := rfl
  simp only [State.wentDown, hlane, hdown]
  split <;> rfl

/-- An event that leaves the part settled, with the last place taken silently or not at all. -/
theorem State.finish_of_settled_mark (s before : State) (h : s.Settled)
    (hm : s.LatchesSilently .mazeFull ∨ (before.placeFree = true → s.placeFree = true)) :
    s.finish before = s.markFull before := by
  rcases hm with hm | hm
  · exact State.finish_of_settled_full s before h hm
  · rw [State.finish_of_settled s before h hm, State.markFull_of_kept hm]

/-! ### The lane goes down (R81) -/

section Down

variable {s : State} {n : LaneId} {p : Port} {t : Transaction}

/-- A role that consults its reader. -/
theorem usesReader_of_consults {o : Option Role} (h : o = some .ticket ∨ o = some .settle) :
    o.any (·.usesReader) = true := by
  rcases h with rfl | rfl <;> rfl

theorem usesReader_of_not_consults {o : Option Role} (h : ¬(o = some .ticket ∨ o = some .settle)) :
    o.any (·.usesReader) = false := by
  cases o with
  | none => rfl
  | some r => cases r <;> simp_all [Role.usesReader]

/-- With its reader down a TICKET or SETTLE lane rests in FAULT. -/
theorem State.restingState_of_down (hr : (s.lane n).role = some .ticket ∨ (s.lane n).role = some .settle)
    (hu : s.readerUp n = false) : s.restingState n = .fault := by
  rcases hr with hr | hr <;> simp [State.restingState, hr, hu]

/-- A lane in another state whose resting state is FAULT enters it. -/
theorem State.rest_of_fault (hr : s.restingState n = .fault) (hst : (s.lane n).state ≠ .fault) :
    s.rest n = (s.withLane n { s.lane n with state := .fault, recoveryTimer := none }).latch .laneFault n.num := by
  simp only [State.rest, hr, hst, if_false, State.enterFault, State.modLane_eq]

theorem State.comeToRest_of_fault (hp : (s.lane n).pendingRole = none) (hr : s.restingState n = .fault)
    (hst : (s.lane n).state ≠ .fault) :
    s.comeToRest n
      = (s.withLane n { s.lane n with state := .fault, recoveryTimer := none }).latch .laneFault n.num := by
  simp only [State.comeToRest, hp, State.rest_of_fault hr hst]

/-- A lane whose transaction has ended, with its reader down, goes to FAULT. -/
theorem State.comeToRest_down {l : Lane} (hu : p.status ≠ .ok)
    (hr : l.role = some .ticket ∨ l.role = some .settle) (hp : l.pendingRole = none) (hst : l.state ≠ .fault)
    (hq : s.LatchesSilently .laneFault) :
    ((s.withPort n p).withLane n l).comeToRest n
      = ((s.withPort n p).withLane n { l with state := .fault, recoveryTimer := none }).withFlag .laneFault := by
  have hrest : ((s.withPort n p).withLane n l).restingState n = .fault :=
    State.restingState_of_down (by simpa using hr) (by simpa [State.readerUp] using hu)
  have hsilent : ((s.withPort n p).withLane n { l with state := .fault, recoveryTimer := none }).LatchesSilently
      .laneFault := hq
  rw [State.comeToRest_of_fault (by simpa using hp) hrest (by simpa using hst), State.withLane_lane_same,
    State.withLane_withLane, State.latch_of_silent _ _ _ hsilent]

/-- The transaction that FAULT or free-flow ends before its barrier: its write handed over, the final VERDICT and
RELEASE sent, and the lane out of the held order (R81, R85). -/
theorem State.disownWrite_release_eq (heir : WriteOwner) (d : Display) (ht : (s.lane n).txn = some t) :
    ((s.disownWrite n heir).sendFinal n d .red 0 0).release n
      = (({ s with heldOrder := s.heldOrder.filter (· != n) } : State).withPort n
          (((s.port n).disowned heir).sending (endFrames d t.serial))).withLane n (s.lane n).released := by
  rw [State.disownWrite_eq, State.sendFinal_release_eq (s := s.withPort n _) d .red 0 0 ht, State.withPort_withPort,
    State.withPort_port_same]
  rfl

/-- The same with the port's status just changed. -/
theorem State.withPort_disownWrite_release_eq (heir : WriteOwner) (d : Display) (ht : (s.lane n).txn = some t) :
    (((s.withPort n p).disownWrite n heir).sendFinal n d .red 0 0).release n
      = (({ s with heldOrder := s.heldOrder.filter (· != n) } : State).withPort n
          ((p.disowned heir).sending (endFrames d t.serial))).withLane n (s.lane n).released := by
  rw [State.disownWrite_release_eq (s := s.withPort n p) heir d ht, State.withPort_port_same]
  exact congrArg (State.withLane · n _) (State.withPort_withPort { s with heldOrder := _ } n p _)

/-- READER_DOWN in IDLE and CLOSED. -/
theorem State.readerDown_of_rest (hu : p.status ≠ .ok)
    (hr : (s.lane n).role = some .ticket ∨ (s.lane n).role = some .settle)
    (hst : (s.lane n).state = .idle ∨ (s.lane n).state = .closed) (hq : s.LatchesSilently .laneFault) :
    (s.withPort n p).readerDown n
      = ((s.withPort n p).withLane n { s.lane n with state := .fault, recoveryTimer := none }).withFlag
        .laneFault := by
  have hrest : (s.withPort n p).restingState n = .fault :=
    State.restingState_of_down hr (by simpa [State.readerUp] using hu)
  have hne : (s.lane n).state ≠ .fault := by rcases hst with hst | hst <;> simp [hst]
  have hdown : (s.withPort n p).readerDown n = (s.withPort n p).rest n := by
    rcases hst with hst | hst <;> simp [State.readerDown, usesReader_of_consults hr, hst]
  rw [hdown, State.rest_of_fault hrest hne]
  exact State.latch_of_silent _ _ _ hq

/-- READER_DOWN in RESOLVING and HELD. -/
theorem State.readerDown_of_waiting (hu : p.status ≠ .ok)
    (hr : (s.lane n).role = some .ticket ∨ (s.lane n).role = some .settle)
    (hst : (s.lane n).state = .resolving ∨ (s.lane n).state = .held) (ht : (s.lane n).txn = some t)
    (hp : (s.lane n).pendingRole = none) (hq : s.LatchesSilently .laneFault) :
    (s.withPort n p).readerDown n = s.wentDown n p := by
  have hne : (s.lane n).released.state ≠ .fault := by rcases hst with hst | hst <;> simp [Lane.released, hst]
  have hdown : (s.withPort n p).readerDown n
      = ((((s.withPort n p).disownWrite n .ended).sendFinal n .fault .red 0 0).release n).comeToRest n := by
    rcases hst with hst | hst <;> simp [State.readerDown, usesReader_of_consults hr, hst]
  rw [hdown, State.withPort_disownWrite_release_eq .ended .fault ht]
  refine (State.comeToRest_down ?_ ?_ ?_ hne ?_).trans ?_
  iterate 4 assumption
  rcases hst with hst | hst <;>
  · simp only [State.wentDown, hst, ht]
    rfl

/-- READER_DOWN of a TICKET lane in WRITING: the grant write becomes an orphan (R82). -/
theorem State.readerDown_of_writing (hu : p.status ≠ .ok) (hr : (s.lane n).role = some .ticket)
    (hst : (s.lane n).state = .writing) (ht : (s.lane n).txn = some t) (hh : s.heldOrder = [])
    (hp : (s.lane n).pendingRole = none) (hq : s.LatchesSilently .laneFault) :
    (s.withPort n p).readerDown n = s.wentDown n p := by
  have hne : (s.lane n).released.state ≠ .fault := by simp [Lane.released, hst]
  have hdown : (s.withPort n p).readerDown n
      = ((((s.withPort n p).disownWrite n (.orphan (Record.issue t.card) t.day)).sendFinal n .fault .red 0 0).release
          n).comeToRest n := by
    simp [State.readerDown, hr, Role.usesReader, hst, State.txn, ht]
  have hheld : ({ s with heldOrder := s.heldOrder.filter (· != n) } : State) = s := by
    rw [filter_ne_of_not_mem (by simp [hh])]
  rw [hdown, State.withPort_disownWrite_release_eq _ .fault ht, hheld]
  have hr : (s.lane n).role = some .ticket ∨ (s.lane n).role = some .settle := .inl hr
  refine (State.comeToRest_down ?_ ?_ ?_ hne ?_).trans ?_
  iterate 4 assumption
  simp only [State.wentDown, hst, ht]

/-- READER_DOWN in SETTLING: RELEASE alone. -/
theorem State.readerDown_of_settling (hu : p.status ≠ .ok)
    (hr : (s.lane n).role = some .ticket ∨ (s.lane n).role = some .settle)
    (hst : (s.lane n).state = .settling) (ht : (s.lane n).txn = some t) (hh : s.heldOrder = [])
    (hp : (s.lane n).pendingRole = none) (hq : s.LatchesSilently .laneFault) :
    (s.withPort n p).readerDown n = s.wentDown n p := by
  have hne : (s.lane n).released.state ≠ .fault := by simp [Lane.released, hst]
  have hdown : (s.withPort n p).readerDown n = ((s.withPort n p).release n).comeToRest n := by
    simp [State.readerDown, usesReader_of_consults hr, hst]
  have hrel : (s.withPort n p).release n = (s.withPort n (p.sending [.release t.serial])).withLane n
      (s.lane n).released := by
    rw [State.release_of_free (s := s.withPort n p) ht (by simp [hh]), State.withPort_withPort,
      State.withPort_port_same]
    rfl
  rw [hdown, hrel]
  refine (State.comeToRest_down ?_ ?_ ?_ hne ?_).trans ?_
  iterate 4 assumption
  simp only [State.wentDown, hst, ht]

/-- READER_DOWN in UNLOCKED and PASSING: the grant lapses (R76). -/
theorem State.readerDown_of_barrier (hu : p.status ≠ .ok)
    (hr : (s.lane n).role = some .ticket ∨ (s.lane n).role = some .settle)
    (hst : (s.lane n).state = .unlocked ∨ (s.lane n).state = .passing) (ht : (s.lane n).txn = some t)
    (hh : s.heldOrder = []) (hp : (s.lane n).pendingRole = none) (hq : s.LatchesSilently .laneFault) :
    (s.withPort n p).readerDown n = s.wentDown n p := by
  have hne : (s.lane n).lapsed.state ≠ .fault := by
    rcases hst with hst | hst <;> simp [Lane.lapsed, Lane.counting, Lane.released, hst]
  have hdown : (s.withPort n p).readerDown n = ((s.withPort n p).lapse n).comeToRest n := by
    rcases hst with hst | hst <;> simp [State.readerDown, usesReader_of_consults hr, hst]
  have hlapse : (s.withPort n p).lapse n = (({ s with
      passback := s.passback.filter fun e : PassbackEntry => !e.isGrantOf n t
      maze := { s.maze with count := min 255 (s.maze.count + (s.lane n).lapseCredit) } } : State).withPort n
        (p.sending [.release t.serial])).withLane n (s.lane n).lapsed := by
    rw [State.lapse_eq (s := s.withPort n p) ht, State.withPort_withPort, State.withPort_port_same]
    simp [State.withPort, State.withLane, State.lane, hh]
  rw [hdown, hlapse]
  refine (State.comeToRest_down ?_ ?_ ?_ hne ?_).trans ?_
  iterate 4 assumption
  rcases hst with hst | hst <;>
  · simp only [State.wentDown, hst, ht]
    rfl

/-- READER_DOWN, by the table of R81. -/
theorem State.readerDown_eq (hu : p.status ≠ .ok)
    (hr : (s.lane n).role = some .ticket ∨ (s.lane n).role = some .settle) (hd : s.GoesDown n)
    (hq : s.LatchesSilently .laneFault) : (s.withPort n p).readerDown n = s.wentDown n p := by
  rcases hd with hst | hst | ⟨hp, t, ht, -, ⟨hst, -⟩ | ⟨hh, ⟨hrole, hst⟩ | hst | hst⟩⟩
  · rw [State.readerDown_of_rest hu hr (.inl hst) hq]
    simp only [State.wentDown, hst]
  · rw [State.readerDown_of_rest hu hr (.inr hst) hq]
    simp only [State.wentDown, hst]
  · exact State.readerDown_of_waiting hu hr hst ht hp hq
  · exact State.readerDown_of_writing hu hrole hst ht hh hp hq
  · exact State.readerDown_of_settling hu hr hst ht hh hp hq
  · exact State.readerDown_of_barrier hu hr hst ht hh hp hq

/-- The lane goes down with LANE_FAULT and no other flag. -/
theorem State.quietTo_wentDown (s : State) (n : LaneId) (p : Port) : s.QuietTo (s.wentDown n p) := by
  have hmgmt : (s.wentDown n p).mgmt = (s.withFlag .laneFault).mgmt := by
    unfold State.wentDown
    dsimp only
    split <;> rfl
  exact (s.quietTo_withFlag .laneFault).trans (State.quietTo_of_mgmt hmgmt)

/-- A lane that goes to FAULT keeps a settled part settled where its reservations stay, or no lane is held. -/
theorem State.Settled.down (hs : s.Settled) (q : Port) (l : Lane)
    (hp : s.heldOrder = [] ∨ l.reservation = (s.lane n).reservation)
    (hi : l.insertReservation = (s.lane n).insertReservation) :
    (((s.withPort n q).withLane n { l with state := .fault, recoveryTimer := none }).withFlag .laneFault).Settled :=
  ((hs.withPort n q).withLane_reserving n { l with state := .fault, recoveryTimer := none } hp hi).withFlag _

theorem State.Settled.wentDown_of_rest (hs : s.Settled) (p : Port)
    (hst : (s.lane n).state = .idle ∨ (s.lane n).state = .closed) :
    (s.wentDown n p).Settled ∧ (s.wentDown n p).placeFree = s.placeFree := by
  have heq : s.wentDown n p
      = ((s.withPort n p).withLane n { s.lane n with state := .fault, recoveryTimer := none }).withFlag .laneFault := by
    rcases hst with hst | hst <;> simp only [State.wentDown, hst]
  rw [heq]
  exact ⟨hs.down p (s.lane n) (.inr rfl) rfl, State.withLane_placeFree (s.withPort n p) n _ rfl⟩

theorem State.Settled.wentDown_of_waiting (hs : s.Settled) (p : Port)
    (hst : (s.lane n).state = .resolving ∨ (s.lane n).state = .held) (ht : (s.lane n).txn = some t)
    (hr : t.reserved = false) (hi : t.insertReserved = false) :
    (s.wentDown n p).Settled ∧ (s.placeFree = true → (s.wentDown n p).placeFree = true) := by
  have hres : (s.lane n).released.reservation = (s.lane n).reservation := by
    rw [Lane.reservation_of_none rfl, Lane.reservation_of_txn ht, hr]
    rfl
  have hins : (s.lane n).released.insertReservation = (s.lane n).insertReservation := by
    rw [Lane.insertReservation_of_none rfl, Lane.insertReservation_of_txn ht, hi]
    rfl
  have hset := (hs.down ((p.disowned .ended).sending (endFrames .fault t.serial)) _ (.inr hres) hins).withHeld_filter
    (· != n)
  have hfree := State.withLane_placeFree_of_none (s.withPort n ((p.disowned .ended).sending (endFrames .fault t.serial)))
    n (l := { (s.lane n).released with state := .fault, recoveryTimer := none }) rfl
  rcases hst with hst | hst <;>
  · simp only [State.wentDown, hst, ht]
    exact ⟨hset, hfree⟩

/-- With no lane held, the end of the transaction releases what it held. -/
theorem State.Settled.down_released (hs : s.Settled) (q : Port) {l : Lane} (hl : l.txn = none) (hh : s.heldOrder = [])
    (ht : (s.lane n).txn = some t) (hi : t.insertReserved = false) :
    (((s.withPort n q).withLane n { l with state := .fault, recoveryTimer := none }).withFlag .laneFault).Settled
      ∧ (s.placeFree = true → (((s.withPort n q).withLane n
        { l with state := .fault, recoveryTimer := none }).withFlag .laneFault).placeFree = true) := by
  have hins : l.insertReservation = (s.lane n).insertReservation := by
    rw [Lane.insertReservation_of_none hl, Lane.insertReservation_of_txn ht, hi]
    rfl
  exact ⟨hs.down q l (.inl hh) hins, State.withLane_placeFree_of_none (s.withPort n q) n hl⟩

/-- The lane gone down leaves a settled part settled, and can fill the maze by a lapse's credit alone. -/
theorem State.Settled.wentDown (hs : s.Settled) (p : Port) (hd : s.GoesDown n)
    (hm : (s.lane n).atBarrier = true → s.LatchesSilently .mazeFull) :
    (s.wentDown n p).Settled ∧ ((s.wentDown n p).LatchesSilently .mazeFull
      ∨ (s.placeFree = true → (s.wentDown n p).placeFree = true)) := by
  rcases hd with hst | hst | ⟨-, t, ht, hi, ⟨hst, hr⟩ | ⟨hh, ⟨-, hst⟩ | hst | hst⟩⟩
  · exact (hs.wentDown_of_rest p (.inl hst)).imp id fun h => .inr h.trans
  · exact (hs.wentDown_of_rest p (.inr hst)).imp id fun h => .inr h.trans
  · exact (hs.wentDown_of_waiting p hst ht hr hi).imp id .inr
  · simp only [State.wentDown, hst, ht]
    exact (hs.down_released _ (l := (s.lane n).released) rfl hh ht hi).imp id .inr
  · simp only [State.wentDown, hst, ht]
    exact (hs.down_released _ (l := (s.lane n).released) rfl hh ht hi).imp id .inr
  · have hbar : (s.lane n).atBarrier = true := by rcases hst with hst | hst <;> simp [Lane.atBarrier, ht, hst]
    refine ⟨?_, .inl ((s.quietTo_wentDown n p).silent (hm hbar))⟩
    have hset := (hs.down_released (p.sending [.release t.serial]) (l := (s.lane n).lapsed) rfl hh ht hi).1
    rcases hst with hst | hst <;>
    · simp only [State.wentDown, hst, ht]
      exact hset.of_given (.inl hh) rfl rfl rfl

end Down

/-! ### The status changes (R11, R12) -/

section Status

variable {s : State} {n : LaneId}

/-- A reader that stays up, or stays down, has its status recorded alone. -/
theorem State.goodBeat_of_same {ok : Bool} (h : (s.port n).status = .ok ↔ ok = true) :
    s.goodBeat n ok = s.withPort n { s.port n with
      heartbeat := some ⟨s.ms, s.settings.readerLossMs⟩, status := if ok then .ok else .fault } := by
  cases ok with
  | true => simp [State.goodBeat, State.setReaderStatus, State.readerUp, State.modPort_eq, State.timer, h.2 rfl]
  | false =>
    have hne : (s.port n).status ≠ .ok := fun hk => by simpa using h.1 hk
    simp [State.goodBeat, State.setReaderStatus, State.readerUp, State.modPort_eq, State.timer, hne]

/-- BEAT OK that brings the reader up. -/
theorem State.goodBeat_of_up (h : (s.port n).status ≠ .ok) :
    s.goodBeat n true = (s.withPort n { s.port n with
      heartbeat := some ⟨s.ms, s.settings.readerLossMs⟩, status := .ok }).readerUpEvent n := by
  simp [State.goodBeat, State.setReaderStatus, State.readerUp, State.modPort_eq, State.timer, h]

/-- BEAT FAULT that takes the reader down. -/
theorem State.goodBeat_of_down (h : (s.port n).status = .ok) :
    s.goodBeat n false = (s.withPort n { s.port n with
      heartbeat := some ⟨s.ms, s.settings.readerLossMs⟩, status := .fault }).readerDown n := by
  simp [State.goodBeat, State.setReaderStatus, State.readerUp, State.modPort_eq, State.timer, h]

/-- A reader that has come back takes a TICKET or SETTLE lane out of FAULT (R83). -/
theorem State.readerUpEvent_of_fault {p : Port} (hu : p.status = .ok)
    (hr : (s.lane n).role = some .ticket ∨ (s.lane n).role = some .settle) (hst : (s.lane n).state = .fault) :
    (s.withPort n p).readerUpEvent n
      = (s.withPort n p).withLane n { s.lane n with state := if s.laneClosed n then .closed else .idle } := by
  have hrest : (s.withPort n p).restingState n = if s.laneClosed n then .closed else .idle := by
    have hclosed : (s.withPort n p).laneClosed n = s.laneClosed n := rfl
    rcases hr with hr | hr <;> simp [State.restingState, hr, State.readerUp, hu, hclosed]
  have hne : (s.withPort n p).restingState n ≠ .fault := by rw [hrest]; split <;> decide
  have hev : (s.withPort n p).readerUpEvent n = (s.withPort n p).rest n := by
    simp [State.readerUpEvent, usesReader_of_consults hr, hst]
  rw [hev, State.rest_eq hne, hrest]
  rfl

theorem State.readerUpEvent_of_other {p : Port}
    (h : ¬((s.lane n).role = some .ticket ∨ (s.lane n).role = some .settle) ∨ (s.lane n).state ≠ .fault) :
    (s.withPort n p).readerUpEvent n = s.withPort n p := by
  rw [State.readerUpEvent, if_neg]
  rintro ⟨hr, hst⟩
  rcases h with h | h
  · exact absurd hr (by simp [usesReader_of_not_consults h])
  · exact h hst

/-- READER_DOWN leaves a lane of another role, one in FREE_FLOW, and a SETTLE lane in WRITING as it is (R81). -/
theorem State.readerDown_of_other
    (h : ¬((s.lane n).role = some .ticket ∨ (s.lane n).role = some .settle) ∨ (s.lane n).state = .freeFlow
      ∨ ((s.lane n).role = some .settle ∧ (s.lane n).state = .writing)) :
    s.readerDown n = s := by
  unfold State.readerDown
  rcases h with h | h | ⟨hr, h⟩
  · simp [usesReader_of_not_consults h]
  · simp [h]
  · simp [h, hr]

end Status

/-- Settles O20: what the reader's being up or down decides. -/
theorem beatSetsStatus : Obligations.BeatSetsStatus := by
  intro s n f ok hs hf heard consults
  rw [exec_beat n s hf]
  refine ⟨fun h => ?_, ?_, ?_⟩
  · exact congrArg _ (State.event_eq (State.goodBeat_of_same h) (hs.withPort n _) id)
  · rintro rfl hup
    refine ⟨fun hr hst => ?_, fun h => ?_⟩
    · have hfree := State.withLane_placeFree (s.withPort n heard) n
        { s.lane n with state := if s.laneClosed n then .closed else .idle } rfl
      exact congrArg _ (State.event_eq ((State.goodBeat_of_up hup).trans (State.readerUpEvent_of_fault rfl hr hst))
        ((hs.withPort n _).withLane n _ rfl) hfree.trans)
    · exact congrArg _ (State.event_eq ((State.goodBeat_of_up hup).trans (State.readerUpEvent_of_other h))
        (hs.withPort n _) id)
  · rintro rfl hup
    refine ⟨fun h => ?_, fun hr hd hq hm => ?_⟩
    · exact congrArg _ (State.event_eq ((State.goodBeat_of_down hup).trans
        (State.readerDown_of_other (s := s.withPort n _) h)) (hs.withPort n _) id)
    · obtain ⟨hset, hfull⟩ := hs.wentDown heard hd hm
      rw [State.event, State.goodBeat_of_down hup, State.readerDown_eq (fun h => by cases h) hr hd hq]
      exact congrArg _ (State.finish_of_settled_mark _ s hset hfull)

/-! ### The end of the heartbeat timer -/

section Heartbeat

variable {s : State} {n : LaneId} {h : Timer}

theorem State.heartbeatLost_of_other (hh : (s.port n).heartbeat = some h) (hdue : h.start + h.duration ≤ s.ms)
    (hr : ¬((s.lane n).role = some .ticket ∨ (s.lane n).role = some .settle)) :
    s.heartbeatLost n = s.withPort n { s.port n with heartbeat := none, status := .lost } := by
  have hrole := usesReader_of_not_consults hr
  have hdown (p : Port) : (s.withPort n p).readerDown n = s.withPort n p :=
    State.readerDown_of_other (s := s.withPort n p) (.inl hr)
  simp [State.heartbeatLost, hh, timerDue, Timer.due, hdue, State.setReaderStatus, State.modPort_eq, hrole, hdown]

/-- On a TICKET or SETTLE lane READER_LOST is latched, and a reader that was up goes down. -/
theorem State.heartbeatLost_of_consults (hh : (s.port n).heartbeat = some h) (hdue : h.start + h.duration ≤ s.ms)
    (hr : (s.lane n).role = some .ticket ∨ (s.lane n).role = some .settle) :
    let lost := (s.withPort n { s.port n with heartbeat := none, status := .lost }).latch .readerLost n.num
    s.heartbeatLost n = if (s.port n).status = .ok then lost.readerDown n else lost := by
  have hrole := usesReader_of_consults hr
  by_cases hup : (s.port n).status = .ok <;>
    simp [State.heartbeatLost, hh, timerDue, Timer.due, hdue, State.setReaderStatus, State.modPort_eq, hrole, hup,
      State.readerUp]

end Heartbeat

/-- Settles O21: READER_LOST first, and then the table of R81. -/
theorem heartbeatLoss : Obligations.HeartbeatLoss := by
  intro s n h hs hh hdue lost
  rw [exec_heartbeatTimerExpiry n s]
  refine ⟨fun h1 h2 => ?_, fun hr => ⟨fun hcase => ?_, fun hup hd hql hqf hm => ?_⟩⟩
  · exact congrArg _ (State.event_eq (State.heartbeatLost_of_other hh hdue (by simp [h1, h2])) (hs.withPort n _) id)
  · have heff : s.heartbeatLost n = (s.withPort n lost).latch .readerLost n.num := by
      rw [State.heartbeatLost_of_consults hh hdue hr]
      by_cases hup : (s.port n).status = .ok
      · have hother := hcase.resolve_left (not_not_intro hup)
        rw [if_pos hup]
        have hlane : ((s.withPort n lost).latch .readerLost n.num).lane n = s.lane n := by simp [State.lane]
        exact State.readerDown_of_other (.inr (by rw [hlane]; exact hother))
      · rw [if_neg hup]
    rw [State.event, heff]
    exact congrArg _ (State.finish_latch .readerLost n.num (hs.withPort n lost) id)
  · obtain ⟨hset, hfull⟩ := hs.wentDown lost hd hm
    have hquiet := s.quietTo_withFlag .readerLost
    have heff : s.heartbeatLost n = (s.wentDown n lost).withFlag .readerLost := by
      have hlatch : (s.withPort n lost).latch .readerLost n.num = (s.withFlag .readerLost).withPort n lost :=
        State.latch_of_silent (s.withPort n lost) _ _ hql
      rw [State.heartbeatLost_of_consults hh hdue hr, if_pos hup, hlatch,
        State.readerDown_eq (s := s.withFlag .readerLost) (p := lost) (fun h => by cases h) hr hd (hquiet.silent hqf),
        State.wentDown_withFlag]
    rw [State.event, heff]
    refine congrArg _ (State.finish_of_settled_mark _ s (hset.withFlag _) (hfull.imp ?_ id))
    exact ((s.wentDown n lost).quietTo_withFlag .readerLost).silent

end Sys2Proof.Machine
end

