-- ==== Sys2Proof/Proofs/FreeFlow.lean ====
section
/-! PROOFS. Free-flow by the pin and by the command: what one lane does at its begin and at its end, and the four
lanes in turn. -/

namespace Sys2Proof.Machine

/-! ### The begin of free-flow at one lane (R85) -/

/-- The lane with the free window closed that has outlived FREE_FLOW, if it stands in its trail (R86). -/
def Lane.lateTrailClosed (l : Lane) : Lane :=
  if l.lateFree.any (·.trail) then { l with lateFree := none, trailTimer := none }.counting .free 1 else l

/-- The lane with its transaction ended: by a lapse at its barrier, and otherwise by RELEASE. -/
def Lane.ended (l : Lane) : Lane := if l.atBarrier then l.lapsed else l.released

/-- The lane with the timers of R85 stopped. -/
def Lane.timersStopped (l : Lane) : Lane :=
  { l with grantTimer := none, grantExpired := false, trailTimer := none, holdTimer := none, recoveryTimer := none }

/-- The lane in FREE_FLOW. -/
def Lane.inFreeFlow (l : Lane) : Lane :=
  { l.timersStopped with state := .freeFlow, window := l.entryWindow, lateFree := none, kept := 0 }

/-- The maze credit of the lapse that ends the lane's transaction. -/
def Lane.endCredit (l : Lane) : Nat := if l.atBarrier then l.lapseCredit else 0

/-- `s` with the transaction of lane `n` ended, a grant of it taken from the Passback Table, `k` bodies credited, and
the lane and its port replaced. -/
def State.endedAt (s : State) (n : LaneId) (k : Nat) (p : Port) (l : Lane) : State :=
  (({ s with
    heldOrder := if (s.lane n).txn.isSome then s.heldOrder.filter (· != n) else s.heldOrder
    passback := s.passback.filter fun e : PassbackEntry =>
      !((s.lane n).atBarrier && (s.lane n).txn.any fun t => e.isGrantOf n t)
    maze := { s.maze with count := min 255 (s.maze.count + k) } } : State).withPort n p).withLane n l

/-- `s` with lane `n` freed. -/
def State.freedAt (s : State) (n : LaneId) : State :=
  s.endedAt n (s.lane n).freedCredit ((s.port n).freed (s.lane n)) (s.lane n).freed

section Begin

variable {s : State} {n : LaneId}

theorem Lane.counting_comm (l : Lane) (c c' : LaneCounter) (h : c ≠ c') (k k' : Nat) :
    (l.counting c k).counting c' k' = (l.counting c' k').counting c k := by
  have hadd (x : LaneCounters) : (x.add c k).add c' k' = (x.add c' k').add c k := by
    cases c <;> cases c' <;> first | rfl | exact absurd rfl h
  simp only [Lane.counting, hadd]

/-- The close of a free window leaves the transaction and its end as they are. -/
theorem Lane.lateTrailClosed_keeps (l : Lane) :
    l.lateTrailClosed.txn = l.txn ∧ l.lateTrailClosed.state = l.state ∧ l.lateTrailClosed.pendingRole = l.pendingRole
      ∧ l.lateTrailClosed.atBarrier = l.atBarrier ∧ l.lateTrailClosed.endCredit = l.endCredit := by
  simp only [Lane.lateTrailClosed]
  split <;> exact ⟨rfl, rfl, rfl, rfl, rfl⟩

/-- The steps of the model make the lane that the statement writes. -/
theorem Lane.inFreeFlow_eq_freed (l : Lane) : l.lateTrailClosed.ended.timersStopped.inFreeFlow = l.freed := by
  obtain ⟨-, -, -, hbarrier, -⟩ := l.lateTrailClosed_keeps
  rw [Lane.ended, hbarrier]
  cases hw : l.lateFree with
  | none =>
    cases hb : l.atBarrier <;>
      simp [Lane.lateTrailClosed, hb, Lane.inFreeFlow, Lane.timersStopped, Lane.entryWindow, Lane.freed,
        Lane.trailCounted, hw, Lane.lapsed, Lane.released, Lane.counting]
  | some w =>
    obtain ⟨k, trail⟩ := w
    have hcount := Lane.counting_comm l .free .lapsed (by decide) 1 1
    simp only [Lane.counting, Lane.mk.injEq] at hcount
    cases hb : l.atBarrier <;> cases trail <;>
      simp [Lane.lateTrailClosed, hb, Lane.inFreeFlow, Lane.timersStopped, Lane.entryWindow, Lane.freed,
        Lane.trailCounted, hw, Lane.lapsed, Lane.released, Lane.counting, hcount]

/-- `s` with the free window of lane `n` closed, if it stands in its trail, and credited. -/
def State.lateClosed (s : State) (n : LaneId) : State :=
  ({ s with maze := { s.maze with count := min 255 (s.maze.count + (s.lane n).trailCredit) } } : State).withLane n
    (s.lane n).lateTrailClosed

theorem State.closeLateTrail_eq_lateClosed (hm : s.MazeInRange) : s.closeLateTrail n = s.lateClosed n := by
  have hsame : min 255 s.maze.count = s.maze.count := Nat.min_eq_right hm
  cases hw : (s.lane n).lateFree with
  | none =>
    simp [State.closeLateTrail_of_none hw, State.lateClosed, Lane.lateTrailClosed, Lane.trailCredit, hw, hsame,
      State.withLane_self]
  | some w =>
    obtain ⟨k, trail⟩ := w
    cases trail with
    | true => simp [State.closeLateTrail_eq hw, State.lateClosed, Lane.lateTrailClosed, Lane.trailCredit, hw]
    | false =>
      simp [State.closeLateTrail, State.lateClosed, Lane.lateTrailClosed, Lane.trailCredit, hw, hsame,
        State.withLane_self]

@[simp] theorem State.lateClosed_lane : (s.lateClosed n).lane n = (s.lane n).lateTrailClosed :=
  State.withLane_lane_same _ _ _

@[simp] theorem State.endedAt_lane (k : Nat) (p : Port) (l : Lane) : (s.endedAt n k p l).lane n = l :=
  State.withLane_lane_same _ _ _

theorem State.endedAt_withLane (k : Nat) (p : Port) (l l' : Lane) :
    (s.endedAt n k p l).withLane n l' = s.endedAt n k p l' :=
  State.withLane_withLane _ n l l'

/-- The two credits of one lane add up (R94). -/
theorem State.lateClosed_endedAt (k : Nat) (p : Port) (l : Lane) :
    (s.lateClosed n).endedAt n k p l = s.endedAt n (k + (s.lane n).trailCredit) p l := by
  obtain ⟨htxn, -, -, hbar, -⟩ := (s.lane n).lateTrailClosed_keeps
  have hcount : min 255 (min 255 (s.maze.count + (s.lane n).trailCredit) + k)
      = min 255 (s.maze.count + (k + (s.lane n).trailCredit)) := by omega
  simp only [State.endedAt, State.lateClosed_lane, htxn, hbar]
  simp only [State.lateClosed, State.withLane, State.withPort, hcount, PerLane.set_set]

theorem State.enterFreeFlow_eq (s : State) (n : LaneId) : s.enterFreeFlow n = s.withLane n (s.lane n).inFreeFlow := rfl

theorem Port.freed_of_none {l : Lane} (p : Port) (h : l.txn = none) : p.freed l = p := by
  cases hst : l.state <;> simp only [Port.freed, hst, h]

/-- `s` with the transaction of lane `n` ended as free-flow ends it, and its timers stopped. -/
def State.transactionFreed (s : State) (n : LaneId) : State :=
  s.endedAt n (s.lane n).endCredit ((s.port n).freed (s.lane n)) (s.lane n).ended.timersStopped

theorem State.transactionFreed_of_none (hm : s.MazeInRange) (ht : (s.lane n).txn = none) :
    (s.endTransactionFree n).stopTimers n = s.transactionFreed n := by
  have hsame : min 255 s.maze.count = s.maze.count := Nat.min_eq_right hm
  have hend : s.endTransactionFree n = s := by
    cases hst : (s.lane n).state <;> simp [State.endTransactionFree, State.txn, hst, ht]
  have hbar : (s.lane n).atBarrier = false := by simp [Lane.atBarrier, ht]
  have hlane : (s.lane n).ended.timersStopped = (s.lane n).timersStopped := by
    simp [Lane.ended, hbar, Lane.released, Lane.timersStopped, ht]
  rw [State.transactionFreed, hend, hlane, Port.freed_of_none _ ht, State.endedAt]
  simp only [hbar, ht, hsame, Lane.endCredit, Option.isSome_none, Bool.false_and, Bool.not_false, List.filter_true,
    Bool.false_eq_true, if_false, Nat.add_zero]
  exact congrArg (State.withLane · n (s.lane n).timersStopped) (State.withPort_self s n).symm

/-- Before the barrier no passback entry and no credit goes. -/
theorem State.transactionFreed_of_release {t : Transaction} (hm : s.MazeInRange) (ht : (s.lane n).txn = some t)
    (hb : (s.lane n).atBarrier = false)
    (h : s.endTransactionFree n = (({ s with heldOrder := s.heldOrder.filter (· != n) } : State).withPort n
      ((s.port n).freed (s.lane n))).withLane n (s.lane n).released) :
    (s.endTransactionFree n).stopTimers n = s.transactionFreed n := by
  have hsame : min 255 s.maze.count = s.maze.count := Nat.min_eq_right hm
  rw [h, State.transactionFreed, State.endedAt, State.stopTimers, State.modLane_eq, State.withLane_lane_same,
    State.withLane_withLane]
  simp [hb, ht, hsame, Lane.endCredit, Lane.ended]
  rfl

theorem State.transactionFreed_of_lapse {t : Transaction} (ht : (s.lane n).txn = some t)
    (hst : (s.lane n).state = .unlocked ∨ (s.lane n).state = .passing) :
    (s.endTransactionFree n).stopTimers n = s.transactionFreed n := by
  have hend : s.endTransactionFree n = s.lapse n := by
    rcases hst with hst | hst <;> simp [State.endTransactionFree, State.txn, hst, ht]
  have hport : (s.port n).freed (s.lane n) = (s.port n).sending [.release t.serial] := by
    rcases hst with hst | hst <;> simp only [Port.freed, hst, ht]
  have hbar : (s.lane n).atBarrier = true := by rcases hst with hst | hst <;> simp [Lane.atBarrier, ht, hst]
  have hlapse : s.lapse n = (({ s with
      heldOrder := s.heldOrder.filter (· != n)
      passback := s.passback.filter fun e : PassbackEntry => !e.isGrantOf n t
      maze := { s.maze with count := min 255 (s.maze.count + (s.lane n).lapseCredit) } } : State).withPort n
        ((s.port n).sending [.release t.serial])).withLane n (s.lane n).lapsed := State.lapse_eq ht
  rw [hend, hlapse, State.transactionFreed, State.endedAt, State.stopTimers, State.modLane_eq,
    State.withLane_lane_same, State.withLane_withLane, hport]
  simp [hbar, ht, Lane.endCredit, Lane.ended]
  rfl

/-- The end of the transaction at a lane that free-flow takes (R85). -/
theorem State.endTransactionFree_stopTimers (hm : s.MazeInRange)
    (h : ∀ t, (s.lane n).txn = some t → (s.lane n).state.atRest = false ∧ (s.lane n).state ≠ .freeFlow) :
    (s.endTransactionFree n).stopTimers n = s.transactionFreed n := by
  cases ht : (s.lane n).txn with
  | none => exact State.transactionFreed_of_none hm ht
  | some t =>
    obtain ⟨hrest, hfree⟩ := h t ht
    cases hst : (s.lane n).state with
    | idle | closed | fault | exit => simp [hst, LaneState.atRest] at hrest
    | freeFlow => exact absurd hst hfree
    | unlocked => exact State.transactionFreed_of_lapse ht (.inl hst)
    | passing => exact State.transactionFreed_of_lapse ht (.inr hst)
    | resolving | held =>
      refine State.transactionFreed_of_release hm ht (by simp [Lane.atBarrier, hst]) ?_
      simp only [State.endTransactionFree, State.txn, hst, ht, State.disownWrite_release_eq .ended .free ht, Port.freed]
    | writing =>
      refine State.transactionFreed_of_release hm ht (by simp [Lane.atBarrier, hst]) ?_
      simp only [State.endTransactionFree, State.txn, hst, ht, State.disownWrite_release_eq _ .free ht, Port.freed]
    | settling =>
      refine State.transactionFreed_of_release hm ht (by simp [Lane.atBarrier, hst]) ?_
      have hend : s.endTransactionFree n = s.release n := by simp [State.endTransactionFree, State.txn, hst, ht]
      have hport : (s.port n).freed (s.lane n) = (s.port n).sending [.release t.serial] := by
        simp only [Port.freed, hst, ht]
      rw [hend, hport]
      exact State.release_eq ht

/-- Free-flow begins at one TICKET lane with no role pending (R85). -/
theorem State.beginFreeFlowLane_eq (hm : s.MazeInRange) (he : (s.lane n).entersFreeFlow = true)
    (hp : (s.lane n).pendingRole = none)
    (h : ∀ t, (s.lane n).txn = some t → (s.lane n).state.atRest = false) : s.beginFreeFlowLane n = s.freedAt n := by
  obtain ⟨hrole, hst⟩ : (s.lane n).role = some .ticket ∧ (s.lane n).state ≠ .freeFlow := by
    simpa [Lane.entersFreeFlow] using he
  obtain ⟨htxn, hstate, hpend, hbar, hcredit⟩ := (s.lane n).lateTrailClosed_keeps
  have hend : ((s.lateClosed n).endTransactionFree n).stopTimers n = (s.lateClosed n).transactionFreed n := by
    refine State.endTransactionFree_stopTimers (Nat.min_le_left _ _) ?_
    rw [State.lateClosed_lane, htxn, hstate]
    exact fun t ht => ⟨h t ht, hst⟩
  have hfreed : (s.lateClosed n).transactionFreed n = s.endedAt n (s.lane n).freedCredit
      ((s.port n).freed (s.lane n)) (s.lane n).lateTrailClosed.ended.timersStopped := by
    have hport : ((s.lateClosed n).port n).freed (s.lane n).lateTrailClosed = (s.port n).freed (s.lane n) := by
      simp only [Port.freed, htxn, hstate]
      rfl
    rw [State.transactionFreed, State.lateClosed_endedAt, State.lateClosed_lane, hport, hcredit]
    rfl
  have hpending : (s.lane n).lateTrailClosed.ended.timersStopped.pendingRole = none := by
    rw [← hp, ← hpend, Lane.ended]
    split <;> rfl
  simp only [State.beginFreeFlowLane, if_pos (And.intro hrole hst), State.closeLateTrail_eq_lateClosed hm, hend, hfreed,
    State.endedAt_lane, hpending, State.enterFreeFlow_eq, State.endedAt_withLane, Lane.inFreeFlow_eq_freed]
  rfl

end Begin

/-! ### The four lanes in turn -/

/-- The maze credit that the begin of free-flow makes at lane `n`. -/
def State.creditAt (s : State) (n : LaneId) : Nat := if (s.lane n).entersFreeFlow then (s.lane n).freedCredit else 0

/-- The passback entries that the begin of free-flow removes at lane `n`. -/
def State.removesAt (s : State) (n : LaneId) (e : PassbackEntry) : Bool :=
  (s.lane n).entersFreeFlow && (s.lane n).atBarrier && (s.lane n).txn.any fun t => e.isGrantOf n t

/-- Lane `n` leaves the held order at the begin of free-flow. -/
def State.endsAt (s : State) (n : LaneId) : Bool := (s.lane n).entersFreeFlow && (s.lane n).txn.isSome

/-- `s` after the begin of free-flow at lane `n`, whether it is taken or not. -/
def State.begunAt (s : State) (n : LaneId) : State :=
  { s with
    lanes := s.lanes.set n (if (s.lane n).entersFreeFlow then (s.lane n).freed else s.lane n)
    ports := s.ports.set n (if (s.lane n).entersFreeFlow then (s.port n).freed (s.lane n) else s.port n)
    heldOrder := s.heldOrder.filter fun m => m != n || !s.endsAt n
    passback := s.passback.filter fun e => !s.removesAt n e
    maze := { s.maze with count := min 255 (s.maze.count + s.creditAt n) } }

/-- The begin of free-flow finds lane `n` as `State.FreeFlowFinds` says. -/
def State.FindsAt (s : State) (n : LaneId) : Prop :=
  (s.lane n).entersFreeFlow = true → (s.lane n).pendingRole = none
    ∧ ∀ t, (s.lane n).txn = some t → t.insertReserved = false ∧ (s.lane n).state.atRest = false

section BeginAll

variable {s : State} {n : LaneId}

theorem State.begunAt_of_enters (he : (s.lane n).entersFreeFlow = true) : s.freedAt n = s.begunAt n := by
  simp only [State.freedAt, State.endedAt, State.begunAt, State.creditAt, State.removesAt, State.endsAt, he, if_true,
    Bool.true_and]
  cases (s.lane n).txn <;> simp [State.withLane, State.withPort]

theorem State.begunAt_of_stays (hm : s.MazeInRange) (he : (s.lane n).entersFreeFlow = false) : s.begunAt n = s := by
  have hsame : min 255 s.maze.count = s.maze.count := Nat.min_eq_right hm
  have hlanes : s.lanes.set n (s.lane n) = s.lanes := congrArg State.lanes (State.withLane_self s n)
  have hports : s.ports.set n (s.port n) = s.ports := congrArg State.ports (State.withPort_self s n)
  simp [State.begunAt, State.creditAt, State.removesAt, State.endsAt, he, hsame, hlanes, hports]

theorem State.beginFreeFlowLane_begunAt (hm : s.MazeInRange) (h : s.FindsAt n) :
    s.beginFreeFlowLane n = s.begunAt n := by
  cases he : (s.lane n).entersFreeFlow with
  | true =>
    obtain ⟨hp, ht⟩ := h he
    rw [State.beginFreeFlowLane_eq hm he hp fun t h => (ht t h).2, State.begunAt_of_enters he]
  | false =>
    rw [State.begunAt_of_stays hm he, State.beginFreeFlowLane, if_neg]
    simpa [Lane.entersFreeFlow] using he

/-- No lane is held after the begin: each that was held has ended its transaction. -/
theorem State.FreeFlowFinds.held_nil (h : s.FreeFlowFinds) :
    ((((s.begunAt .l1).begunAt .l2).begunAt .l3).begunAt .l4).heldOrder = [] := by
  obtain ⟨-, hheld⟩ := h
  have hends (m : LaneId) (hm : m ∈ s.heldOrder) : s.endsAt m = true := by
    obtain ⟨he, ht⟩ := hheld m hm
    simp [State.endsAt, he, ht]
  change ((((s.heldOrder.filter fun m => m != .l1 || !s.endsAt .l1).filter fun m => m != .l2 || !s.endsAt .l2).filter
    fun m => m != .l3 || !s.endsAt .l3).filter fun m => m != .l4 || !s.endsAt .l4) = []
  simp only [List.filter_filter, List.filter_eq_nil_iff]
  intro m hm
  have := hends m hm
  cases m <;> simp [this]

/-- The four begins one after the other are the begin that the statement writes. -/
theorem State.begunAt_all (h : s.FreeFlowFinds) :
    (((s.begunAt .l1).begunAt .l2).begunAt .l3).begunAt .l4 = s.freeFlowBegun := by
  have hnil := h.held_nil
  have hcount (a b c d m : Nat) :
      min 255 (min 255 (min 255 (min 255 (m + a) + b) + c) + d) = min 255 (m + a + b + c + d) := by omega
  have hgone : ((((s.passback.filter fun e => !s.removesAt .l1 e).filter fun e => !s.removesAt .l2 e).filter
      fun e => !s.removesAt .l3 e).filter fun e => !s.removesAt .l4 e)
      = s.passback.filter fun e => !LaneId.all.any fun n => s.removesAt n e := by
    simp only [List.filter_filter]
    congr 1
    funext e
    cases h1 : s.removesAt .l1 e <;> cases h2 : s.removesAt .l2 e <;> cases h3 : s.removesAt .l3 e <;>
      simp [LaneId.all, h1, h2, h3]
  have hmaze : ((((s.begunAt .l1).begunAt .l2).begunAt .l3).begunAt .l4).maze = s.freeFlowBegun.maze :=
    congrArg (fun k => { s.maze with count := k }) (hcount _ _ _ _ _)
  exact (State.mk.injEq ..).mpr ⟨rfl, rfl, rfl, rfl, hnil, rfl, rfl, rfl, hgone, hmaze, rfl, rfl, rfl, rfl, rfl, rfl⟩

/-- The begin of free-flow (R85). -/
theorem State.foldl_beginFreeFlowLane (hm : s.MazeInRange) (h : s.FreeFlowFinds) :
    LaneId.all.foldl State.beginFreeFlowLane s = s.freeFlowBegun := by
  have hrange (x : State) (n : LaneId) : (x.begunAt n).MazeInRange := Nat.min_le_left _ _
  have hfinds := h.1
  have h1 : s.beginFreeFlowLane .l1 = s.begunAt .l1 := State.beginFreeFlowLane_begunAt hm (hfinds .l1)
  have h2 : (s.begunAt .l1).beginFreeFlowLane .l2 = (s.begunAt .l1).begunAt .l2 :=
    State.beginFreeFlowLane_begunAt (hrange _ _) (hfinds .l2)
  have h3 : ((s.begunAt .l1).begunAt .l2).beginFreeFlowLane .l3 = ((s.begunAt .l1).begunAt .l2).begunAt .l3 :=
    State.beginFreeFlowLane_begunAt (hrange _ _) (hfinds .l3)
  have h4 : (((s.begunAt .l1).begunAt .l2).begunAt .l3).beginFreeFlowLane .l4
      = (((s.begunAt .l1).begunAt .l2).begunAt .l3).begunAt .l4 :=
    State.beginFreeFlowLane_begunAt (hrange _ _) (hfinds .l4)
  simp only [LaneId.all, List.foldl_cons, List.foldl_nil, h1, h2, h3, h4, State.begunAt_all h]

end BeginAll

theorem Lane.freed_insertReservation {l : Lane}
    (h : l.entersFreeFlow = true → ∀ t, l.txn = some t → t.insertReserved = false) :
    (if l.entersFreeFlow then l.freed else l).insertReservation = l.insertReservation := by
  split
  next he =>
    have htxn : l.freed.txn = none := by
      simp only [Lane.freed, Lane.trailCounted]
      split <;> split <;> rfl
    rw [Lane.insertReservation_of_none htxn]
    cases ht : l.txn with
    | none => rw [Lane.insertReservation_of_none ht]
    | some t => rw [Lane.insertReservation_of_txn ht, h he t ht]; rfl
  next => rfl

theorem State.Settled.freeFlowBegun {s : State} (hs : s.Settled) (h : s.FreeFlowFinds) : s.freeFlowBegun.Settled := by
  have hlane (n : LaneId) : (if (s.lane n).entersFreeFlow then (s.lane n).freed else s.lane n).insertReservation
      = (s.lane n).insertReservation :=
    Lane.freed_insertReservation fun he t ht => ((h.1 n he).2 t ht).1
  refine hs.of_given (.inl rfl) rfl rfl ?_
  simp only [State.generalReserved]
  exact congrArg₂ (· + ·) (congrArg₂ (· + ·) (congrArg₂ (· + ·) (hlane .l1) (hlane .l2)) (hlane .l3)) (hlane .l4)

/-! ### The end of free-flow (R87) -/

/-- The end of free-flow takes the lane: a TICKET lane in FREE_FLOW with no free window open. -/
def Lane.leavesFree (l : Lane) : Bool := l.role == some .ticket && l.state == .freeFlow && l.window == none

/-- Lane `n` leaves FREE_FLOW for FAULT. -/
def State.faultsAt (s : State) (n : LaneId) : Bool := (s.lane n).leavesFree && s.restingState n == .fault

/-- Lane `n` after the end of free-flow, whether it is taken or not. -/
def State.leftLane (s : State) (n : LaneId) : Lane :=
  if (s.lane n).leavesFree then s.leftFree n (s.lane n) else s.lane n

/-- `s` with LANE_FAULT set if `b`. -/
def State.faultingIf (s : State) (b : Bool) : State :=
  { s with mgmt := { s.mgmt with flags := if b then s.mgmt.flags ||| Flag.laneFault.bit else s.mgmt.flags } }

/-- `s` after the end of free-flow at lane `n`. -/
def State.leftAt (s : State) (n : LaneId) : State := (s.withLane n (s.leftLane n)).faultingIf (s.faultsAt n)

/-- The lanes after the end of free-flow. -/
def State.leftLanes (s : State) : PerLane Lane :=
  ⟨s.leftLane .l1, s.leftLane .l2, s.leftLane .l3, s.leftLane .l4⟩

/-- `s` after the end of free-flow. -/
def State.allLeft (s : State) : State := { s with lanes := s.leftLanes }.faultingIf (LaneId.all.any s.faultsAt)

section End

variable {s : State} {n : LaneId}

theorem Lane.leavesFree_iff (l : Lane) :
    l.leavesFree = true ↔ l.role = some .ticket ∧ l.state = .freeFlow ∧ l.window = none := by
  simp [Lane.leavesFree, and_assoc]

theorem State.faultsAt_iff : s.faultsAt n = true ↔ (s.lane n).leavesFree = true ∧ s.restingState n = .fault := by
  simp [State.faultsAt]

theorem State.faultingIf_false (s : State) : s.faultingIf false = s := rfl

theorem State.faultingIf_true (s : State) : s.faultingIf true = s.withFlag .laneFault := rfl

theorem State.faultingIf_faultingIf (s : State) (a b : Bool) :
    (s.faultingIf a).faultingIf b = s.faultingIf (a || b) := by
  cases a <;> cases b <;> simp [State.faultingIf, BitVec.or_assoc]

theorem State.faultingIf_withLane (s : State) (n : LaneId) (l : Lane) (b : Bool) :
    (s.faultingIf b).withLane n l = (s.withLane n l).faultingIf b := rfl

theorem State.quietTo_leftAt (s : State) (n : LaneId) : s.QuietTo (s.leftAt n) := by
  rw [State.leftAt]
  cases s.faultsAt n with
  | false => exact State.quietTo_of_mgmt rfl
  | true => exact (State.quietTo_of_mgmt (t := s.withLane n (s.leftLane n)) rfl).trans (State.quietTo_withFlag _ _)

/-- A lane that leaves FREE_FLOW for FAULT. -/
theorem State.leaveFreeFlow_of_fault (hp : (s.lane n).pendingRole = none) (hst : (s.lane n).state = .freeFlow)
    (hf : s.freeFlowInForce = false) (hr : s.restingState n = .fault) (hq : s.LatchesSilently .laneFault) :
    s.leaveFreeFlow n = (s.withLane n (s.leftFree n (s.lane n))).withFlag .laneFault := by
  have hleft : s.leftFree n (s.lane n) = { s.lane n with state := .fault, recoveryTimer := none } := by
    simp [State.leftFree, hr]
  have hsilent : (s.withLane n { s.lane n with state := .fault, recoveryTimer := none }).LatchesSilently .laneFault := hq
  have hlane : ((s.withLane n { s.lane n with state := .fault, recoveryTimer := none }).withFlag .laneFault).lane n
      = { s.lane n with state := .fault, recoveryTimer := none } := State.withLane_lane_same _ _ _
  rw [State.leaveFreeFlow, hp, hleft]
  simp only [hf, Bool.false_eq_true, if_false]
  rw [State.rest_of_fault hr (by simp [hst]), State.latch_of_silent _ _ _ hsilent, State.startRecoveryIfIdle, hlane]
  simp

/-- Free-flow ends at one lane (R87). -/
theorem State.endFreeFlowLane_eq (hf : s.freeFlowInForce = false)
    (hp : (s.lane n).leavesFree = true → (s.lane n).pendingRole = none)
    (hq : s.faultsAt n = true → s.LatchesSilently .laneFault) : s.endFreeFlowLane n = s.leftAt n := by
  cases hl : (s.lane n).leavesFree with
  | false =>
    have hnot := mt (Lane.leavesFree_iff (s.lane n)).2 (by simp [hl])
    have hfault : s.faultsAt n = false := by simp [State.faultsAt, hl]
    rw [State.endFreeFlowLane, if_neg hnot, State.leftAt, State.leftLane, hl, hfault]
    exact (State.withLane_self s n).symm
  | true =>
    obtain ⟨hr, hst, hw⟩ := (Lane.leavesFree_iff _).1 hl
    rw [State.endFreeFlowLane, if_pos ⟨hr, hst, hw⟩, State.leftAt, State.leftLane, hl, if_pos rfl]
    cases hfault : s.faultsAt n with
    | false =>
      have hrest : s.restingState n ≠ .fault := fun h => by simp [State.faultsAt, hl, h] at hfault
      exact State.leaveFreeFlow_eq hr (hp hl) hf hrest
    | true =>
      obtain ⟨-, hrest⟩ := State.faultsAt_iff.1 hfault
      exact State.leaveFreeFlow_of_fault (hp hl) hst hf hrest (hq hfault)

/-- What the end of free-flow at one lane leaves of another lane. -/
theorem State.leftAt_other {m : LaneId} (h : n ≠ m) :
    (s.leftAt m).lane n = s.lane n ∧ (s.leftAt m).faultsAt n = s.faultsAt n
      ∧ (s.leftAt m).leftLane n = s.leftLane n := by
  have hlane : (s.leftAt m).lane n = s.lane n := State.withLane_lane_other s h _
  have hshut : (s.leftAt m).shut n = s.shut n := by
    simp only [State.shut, hlane]
    rfl
  have hrest : (s.leftAt m).restingState n = s.restingState n := by
    simp only [State.restingState, hlane, State.laneClosed, hshut]
    rfl
  refine ⟨hlane, ?_, ?_⟩
  · simp only [State.faultsAt, hlane, hrest]
  · simp only [State.leftLane, hlane, State.leftFree, hrest]
    rfl

/-- Four lanes left in turn. -/
theorem State.leftAt_all : (((s.leftAt .l1).leftAt .l2).leftAt .l3).leftAt .l4 = s.allLeft := by
  obtain ⟨-, f21, l21⟩ := State.leftAt_other (s := s) (n := .l2) (m := .l1) (by decide)
  obtain ⟨-, f31, l31⟩ := State.leftAt_other (s := s) (n := .l3) (m := .l1) (by decide)
  obtain ⟨-, f41, l41⟩ := State.leftAt_other (s := s) (n := .l4) (m := .l1) (by decide)
  obtain ⟨-, f32, l32⟩ := State.leftAt_other (s := s.leftAt .l1) (n := .l3) (m := .l2) (by decide)
  obtain ⟨-, f42, l42⟩ := State.leftAt_other (s := s.leftAt .l1) (n := .l4) (m := .l2) (by decide)
  obtain ⟨-, f43, l43⟩ := State.leftAt_other (s := (s.leftAt .l1).leftAt .l2) (n := .l4) (m := .l3) (by decide)
  rw [State.leftAt, f43, f42, f41, l43, l42, l41, State.leftAt, f32, f31, l32, l31, State.leftAt, f21, l21, State.leftAt]
  simp only [State.faultingIf_withLane, State.faultingIf_faultingIf, State.allLeft, State.leftLanes]
  generalize s.leftLane .l1 = a, s.leftLane .l2 = b, s.leftLane .l3 = c, s.leftLane .l4 = d
  have hlanes : (((s.withLane .l1 a).withLane .l2 b).withLane .l3 c).withLane .l4 d
      = { s with lanes := ⟨a, b, c, d⟩ } := rfl
  rw [hlanes]
  simp [LaneId.all, Bool.or_assoc]

/-- The lanes are taken in turn, and none changes what the end of free-flow finds at another. -/
theorem State.foldl_leftAt (lanes : List LaneId) (hl : lanes.Nodup) (hf : s.freeFlowInForce = false)
    (h : ∀ n ∈ lanes, ((s.lane n).leavesFree = true → (s.lane n).pendingRole = none)
      ∧ (s.faultsAt n = true → s.LatchesSilently .laneFault)) :
    lanes.foldl State.endFreeFlowLane s = lanes.foldl State.leftAt s := by
  induction lanes generalizing s with
  | nil => rfl
  | cons m rest ih =>
    obtain ⟨hm, hrest⟩ := List.nodup_cons.1 hl
    obtain ⟨hpend, hquiet⟩ := h m (List.mem_cons_self ..)
    rw [List.foldl_cons, List.foldl_cons, State.endFreeFlowLane_eq hf hpend hquiet]
    refine ih hrest hf fun n hn => ?_
    obtain ⟨hlane, hfault, -⟩ := State.leftAt_other (s := s) (ne_of_mem_of_not_mem hn hm)
    obtain ⟨hpend', hquiet'⟩ := h n (List.mem_cons_of_mem m hn)
    rw [hlane, hfault]
    exact ⟨hpend', fun hft => (s.quietTo_leftAt m).silent (hquiet' hft)⟩

/-- The end of free-flow (R87). -/
theorem State.foldl_endFreeFlowLane (hf : s.freeFlowInForce = false)
    (hp : ∀ n, (s.lane n).leavesFree = true → (s.lane n).pendingRole = none)
    (hq : ∀ n, s.faultsAt n = true → s.LatchesSilently .laneFault) :
    LaneId.all.foldl State.endFreeFlowLane s = s.allLeft :=
  (State.foldl_leftAt LaneId.all (by decide) hf fun n _ => ⟨hp n, hq n⟩).trans State.leftAt_all

theorem State.leftLane_eq : s.leftLane n
    = if (s.lane n).role = some .ticket ∧ (s.lane n).state = .freeFlow ∧ (s.lane n).window = none
      then s.leftFree n (s.lane n) else s.lane n := by
  simp only [State.leftLane, Lane.leavesFree_iff]

theorem State.allLeft_of_noFault (h : ∀ n, (s.lane n).leavesFree = true → s.restingState n ≠ .fault) :
    s.allLeft = { s with lanes := s.leftLanes } := by
  have hnone (n : LaneId) : s.faultsAt n = false :=
    Bool.eq_false_iff.2 fun hf => h n (State.faultsAt_iff.1 hf).1 (State.faultsAt_iff.1 hf).2
  have hany : LaneId.all.any s.faultsAt = false := by simp [LaneId.all, hnone]
  rw [State.allLeft, hany, State.faultingIf_false]

theorem State.allLeft_of_fault (h : ∃ n, (s.lane n).leavesFree = true ∧ s.restingState n = .fault) :
    s.allLeft = { s with lanes := s.leftLanes }.withFlag .laneFault := by
  obtain ⟨n, hn⟩ := h
  have hany : LaneId.all.any s.faultsAt = true :=
    List.any_eq_true.2 ⟨n, by cases n <;> decide, State.faultsAt_iff.2 hn⟩
  rw [State.allLeft, hany, State.faultingIf_true]

end End

theorem State.Settled.allLeft {s : State} (hs : s.Settled) :
    s.allLeft.Settled ∧ s.allLeft.placeFree = s.placeFree := by
  have htxn (n : LaneId) : (s.leftLane n).txn = (s.lane n).txn := by
    simp only [State.leftLane]
    split <;> rfl
  have hres (n : LaneId) : (s.leftLane n).reservation = (s.lane n).reservation := by simp only [Lane.reservation, htxn]
  have hins (n : LaneId) : (s.leftLane n).insertReservation = (s.lane n).insertReservation := by
    simp only [Lane.insertReservation, htxn]
  have hplaces : s.allLeft.reservations = s.reservations :=
    congrArg₂ (· + ·) (congrArg₂ (· + ·) (congrArg₂ (· + ·) (hres .l1) (hres .l2)) (hres .l3)) (hres .l4)
  have hentries : s.allLeft.generalReserved = s.generalReserved :=
    congrArg₂ (· + ·) (congrArg₂ (· + ·) (congrArg₂ (· + ·) (hins .l1) (hins .l2)) (hins .l3)) (hins .l4)
  have hfree : s.allLeft.placeFree = s.placeFree := State.placeFree_congr rfl hplaces rfl
  exact ⟨hs.of_given (hs.1.imp_right hfree.trans) rfl rfl hentries, hfree⟩

/-! ### The pin and the command (R84) -/

section Change

variable {s : State} {m : Arrival} {on : Bool}

theorem State.freeFlowChange_of_same {b : Bool} (h : s.freeFlowInForce = b) : s.freeFlowChange b = s := by
  subst h
  cases hf : s.freeFlowInForce <;> simp [State.freeFlowChange, hf]

theorem State.freeFlowChange_of_begin (h : s.freeFlowInForce = true) (hm : s.MazeInRange) (hfind : s.FreeFlowFinds) :
    s.freeFlowChange false = s.freeFlowBegun := by
  rw [← State.foldl_beginFreeFlowLane hm hfind]
  simp [State.freeFlowChange, h]

theorem State.freeFlowChange_of_end (h : s.freeFlowInForce = false)
    (hp : ∀ n, (s.lane n).leavesFree = true → (s.lane n).pendingRole = none)
    (hq : ∀ n, s.faultsAt n = true → s.LatchesSilently .laneFault) : s.freeFlowChange true = s.allLeft := by
  rw [← State.foldl_endFreeFlowLane h hp hq]
  simp [State.freeFlowChange, h]

/-- The end of free-flow, with every lane that leaves FREE_FLOW in its resting state and none in FAULT. -/
theorem State.freeFlowChange_of_noFault (hs : s.Settled) (h : s.freeFlowInForce = false)
    (hp : ∀ n, (s.lane n).leavesFree = true → (s.lane n).pendingRole = none)
    (hno : ∀ n, (s.lane n).leavesFree = true → s.restingState n ≠ .fault) :
    s.freeFlowChange true = { s with lanes := s.leftLanes } ∧ ({ s with lanes := s.leftLanes } : State).Settled
      ∧ ({ s with lanes := s.leftLanes } : State).placeFree = s.placeFree := by
  have hall := State.allLeft_of_noFault hno
  have hend := State.freeFlowChange_of_end h hp fun n hn =>
    absurd (State.faultsAt_iff.1 hn).2 (hno n (State.faultsAt_iff.1 hn).1)
  rw [hend, ← hall]
  exact ⟨rfl, hs.allLeft⟩

/-- The end of free-flow, with a lane that enters FAULT. -/
theorem State.freeFlowChange_of_fault (hs : s.Settled) (h : s.freeFlowInForce = false)
    (hp : ∀ n, (s.lane n).leavesFree = true → (s.lane n).pendingRole = none)
    (hf : ∃ n, (s.lane n).leavesFree = true ∧ s.restingState n = .fault) (hq : s.LatchesSilently .laneFault) :
    let left : State := { s with lanes := s.leftLanes }.withFlag .laneFault
    s.freeFlowChange true = left ∧ left.Settled ∧ left.placeFree = s.placeFree := by
  have hall := State.allLeft_of_fault hf
  dsimp only
  rw [State.freeFlowChange_of_end h hp fun _ _ => hq, ← hall]
  exact ⟨rfl, hs.allLeft⟩

theorem exec_freeFlowPinChange (on : Bool) (s : State) : exec (.freeFlowPinChange on) s
    = .next (s.event fun x => { x with freeFlowPin := on }.freeFlowChange x.freeFlowInForce) := rfl

theorem exec_freeFlow (m : Arrival) (s : State) : exec (.freeFlow m) s
    = .next (s.event fun x => x.receive 0x05 m fun x => x.commandDelivered m fun x =>
      x.takeCommand 0x05 fun x => x.freeFlowCommand m.payload) := rfl

/-- The effect of the FREE_FLOW command. -/
theorem State.freeFlowCommand_eq (s : State) (h : onOffOf m.payload = some on) : s.freeFlowCommand m.payload
    = ({ s with freeFlowSetting := on }.freeFlowChange s.freeFlowInForce).done [] := by
  simp [State.freeFlowCommand, h]

end Change

/-- An event from its effect, with the last place taken silently or not at all. -/
theorem State.event_eq_mark {s t : State} {f : State → State} (hf : f s = t) (ht : t.Settled)
    (hq : t.LatchesSilently .mazeFull ∨ (s.placeFree = true → t.placeFree = true)) : s.event f = t.markFull s := by
  rw [State.event, hf, State.finish_of_settled_mark t s ht hq]

/-- FREE_FLOW_PIN_CHANGE from its effect. -/
theorem exec_freeFlowPinChange_eq {s t : State} {on : Bool}
    (ht : ({ s with freeFlowPin := on } : State).freeFlowChange s.freeFlowInForce = t) (hs : t.Settled)
    (hq : t.LatchesSilently .mazeFull ∨ (s.placeFree = true → t.placeFree = true)) :
    exec (.freeFlowPinChange on) s = .next (t.markFull s) := by
  rw [exec_freeFlowPinChange]
  exact congrArg _ (State.event_eq_mark ht hs hq)

/-- The FREE_FLOW command from its effect. -/
theorem exec_freeFlow_eq {s t : State} {m : Arrival} {on : Bool} (h : s.TakesCommand 0x05 m)
    (hon : onOffOf m.payload = some on)
    (ht : ({ s.heard with freeFlowSetting := on } : State).freeFlowChange s.heard.freeFlowInForce = t) (hs : t.Settled)
    (hq : t.LatchesSilently .mazeFull ∨ (s.placeFree = true → t.placeFree = true))
    (ho : t.ownAddress = s.ownAddress) :
    exec (.freeFlow m) s = .next ((t.markFull s).offered (.answer ⟨0x05, .done, 0xFF, []⟩)) := by
  obtain ⟨-, hc, hm, hd, ha⟩ := h
  have hown : t.ownAddress.isSome = true := by
    have howned := hc.2
    rw [ho]
    cases hs : s.ownAddress with
    | none => simp [State.isOwn, hs] at howned
    | some a => rfl
  have hroom : ¬4 ≤ s.heard.answersOccupied := Nat.not_le.2 ha
  have heff : s.receive 0x05 m (fun x => x.commandDelivered m fun x => x.takeCommand 0x05 fun x =>
      x.freeFlowCommand m.payload) = t.enqueue (.answer ⟨0x05, .done, 0xFF, []⟩) := by
    rw [State.receive_of_consumes _ hc, State.commandDelivered, if_pos ⟨hm, hd⟩, State.takeCommand, if_neg hroom,
      State.freeFlowCommand_eq s.heard hon, ht]
    rfl
  rw [exec_freeFlow, State.event, heff, State.finish_enqueue t s _ hs hq hown (.inl rfl)]

theorem exec_freeFlowPinChange_eq_kept {s t : State} {on : Bool}
    (ht : ({ s with freeFlowPin := on } : State).freeFlowChange s.freeFlowInForce = t) (hs : t.Settled)
    (hp : t.placeFree = s.placeFree) : exec (.freeFlowPinChange on) s = .next t := by
  have hkept : s.placeFree = true → t.placeFree = true := hp.trans
  rw [exec_freeFlowPinChange_eq ht hs (.inr hkept), State.markFull_of_kept hkept]

theorem exec_freeFlow_eq_kept {s t : State} {m : Arrival} {on : Bool} (h : s.TakesCommand 0x05 m)
    (hon : onOffOf m.payload = some on)
    (ht : ({ s.heard with freeFlowSetting := on } : State).freeFlowChange s.heard.freeFlowInForce = t) (hs : t.Settled)
    (hp : t.placeFree = s.placeFree) (ho : t.ownAddress = s.ownAddress) :
    exec (.freeFlow m) s = .next (t.offered (.answer ⟨0x05, .done, 0xFF, []⟩)) := by
  have hkept : s.placeFree = true → t.placeFree = true := hp.trans
  rw [exec_freeFlow_eq h hon ht hs (.inr hkept) ho, State.markFull_of_kept hkept]

/-- Settles O32: the four lanes in turn, at the begin and at the end of free-flow. -/
theorem freeFlowBegins : Obligations.FreeFlowBegins := by
  intro s on hs leaves left ended noFault someFault
  have hleaves (n : LaneId) : (s.lane n).leavesFree = true ↔ leaves n := Lane.leavesFree_iff _
  have hlanes : s.leftLanes = ended.lanes := by simp only [State.leftLanes, State.leftLane_eq]; rfl
  have hpin : ({ s with freeFlowPin := on } : State).Settled := hs.of_given hs.1 rfl rfl rfl
  have hcommand : ({ s.heard with freeFlowSetting := on } : State).Settled := by
    obtain ⟨hg, hr, ho⟩ := hs
    exact ⟨hg, hr, ho⟩
  have hends (hp : ∀ n, leaves n → (s.lane n).pendingRole = none) (n : LaneId) (h : (s.lane n).leavesFree = true) :
      (s.lane n).pendingRole = none := hp n ((hleaves n).1 h)
  have hrests (hno : noFault) (n : LaneId) (h : (s.lane n).leavesFree = true) : s.restingState n ≠ .fault :=
    hno n ((hleaves n).1 h)
  have hfaults (hsome : someFault) : ∃ n, (s.lane n).leavesFree = true ∧ s.restingState n = .fault :=
    hsome.imp fun n h => h.imp_left (hleaves n).2
  refine ⟨fun h => ?_, fun hsetting hlow hon hfind hm hq => ?_, fun hsetting hhigh hon hp => ?_, fun m ht hpay =>
    ⟨fun h => ?_, fun hlow hsetting hon hfind hm hq => ?_, fun hlow hsetting hon hp => ?_⟩⟩
  · have hsame : s.freeFlowInForce = ({ s with freeFlowPin := on } : State).freeFlowInForce := by
      rcases h with h | h <;> simp [State.freeFlowInForce, h]
    exact exec_freeFlowPinChange_eq_kept (State.freeFlowChange_of_same hsame.symm) hpin rfl
  · subst hon
    have hforce : s.freeFlowInForce = false := by simp [State.freeFlowInForce, hsetting, hlow]
    have heff := State.freeFlowChange_of_begin (s := { s with freeFlowPin := true }) rfl hm hfind
    exact exec_freeFlowPinChange_eq (by rw [hforce, heff]; rfl) (hpin.freeFlowBegun hfind) (.inl hq)
  · subst hon
    have hforce : s.freeFlowInForce = true := by simp [State.freeFlowInForce, hhigh]
    have hout : ({ s with freeFlowPin := false } : State).freeFlowInForce = false := hsetting
    have hgoal : ({ s with freeFlowPin := false, lanes := s.leftLanes } : State) = { ended with freeFlowPin := false } :=
      congrArg (fun lanes => { s with freeFlowPin := false, lanes := lanes }) hlanes
    refine ⟨fun hno => ?_, fun hsome hq => ?_⟩
    · obtain ⟨heff, hset, hfree⟩ := State.freeFlowChange_of_noFault hpin hout (hends hp) (hrests hno)
      rw [← hgoal]
      exact exec_freeFlowPinChange_eq_kept (s := s) (by rw [hforce]; exact heff) hset hfree
    · obtain ⟨heff, hset, hfree⟩ := State.freeFlowChange_of_fault hpin hout (hends hp) (hfaults hsome) hq
      rw [← hgoal]
      exact exec_freeFlowPinChange_eq_kept (s := s) (by rw [hforce]; exact heff) hset hfree
  · have hsame : s.heard.freeFlowInForce = ({ s.heard with freeFlowSetting := on } : State).freeFlowInForce := by
      rcases h with h | h <;> simp [State.freeFlowInForce, State.heard, h]
    exact exec_freeFlow_eq_kept ht hpay (State.freeFlowChange_of_same hsame.symm) hcommand rfl rfl
  · subst hon
    have hforce : s.heard.freeFlowInForce = false := by simp [State.freeFlowInForce, State.heard, hsetting, hlow]
    have heff := State.freeFlowChange_of_begin (s := { s.heard with freeFlowSetting := true })
      (by simp [State.freeFlowInForce]) hm hfind
    exact exec_freeFlow_eq ht hpay (by rw [hforce, heff]; rfl) (hcommand.freeFlowBegun hfind) (.inl hq) rfl
  · subst hon
    have hforce : s.heard.freeFlowInForce = true := by simp [State.freeFlowInForce, State.heard, hsetting]
    have hout : ({ s.heard with freeFlowSetting := false } : State).freeFlowInForce = false := by
      simp [State.freeFlowInForce, State.heard, hlow]
    have hgoal : ({ s.heard with freeFlowSetting := false, lanes := s.leftLanes } : State)
        = { s.heard with freeFlowSetting := false, lanes := ended.lanes } :=
      congrArg (fun lanes => { s.heard with freeFlowSetting := false, lanes := lanes }) hlanes
    refine ⟨fun hno => ?_, fun hsome hq => ?_⟩
    · obtain ⟨heff, hset, hfree⟩ := State.freeFlowChange_of_noFault hcommand hout (hends hp) (hrests hno)
      rw [← hgoal]
      exact exec_freeFlow_eq_kept ht hpay (by rw [hforce]; exact heff) hset hfree rfl
    · obtain ⟨heff, hset, hfree⟩ := State.freeFlowChange_of_fault hcommand hout (hends hp) (hfaults hsome) hq
      rw [← hgoal]
      exact exec_freeFlow_eq_kept ht hpay (by rw [hforce]; exact heff) hset hfree rfl

end Sys2Proof.Machine
end

