-- ==== Sys2Proof/Proofs/Latches.lean ====
section
/-! PROOFS. Several latches in one event: the management unit after them, the reports they make, and an entry offered
to the Deferred Write Table with the latch it may bring. -/

namespace Sys2Proof.Machine

/-! ### The management unit under latches (R182, R183) -/

/-- The management unit after a latch, with these reports pending and this station time. -/
def Mgmt.latching (m : Mgmt) (pending : List EventReport) (now : Nat) (f : Flag) (detail : Nat) : Mgmt :=
  if m.flags.getLsbD f.id then m
  else { m with
    flags := m.flags ||| f.bit
    raised := if m.enables.getLsbD f.id && !pending.any fun r => r.flag == f
      then m.raised ++ [⟨f, now, detail⟩] else m.raised }

/-- The management unit after these latches, in turn. -/
def Mgmt.latchingAll (m : Mgmt) (pending : List EventReport) (now : Nat) (l : List (Flag × Nat)) : Mgmt :=
  l.foldl (fun m p => m.latching pending now p.1 p.2) m

/-- `s` after these latches, in turn. -/
def State.latches (s : State) (l : List (Flag × Nat)) : State :=
  { s with mgmt := s.mgmt.latchingAll s.loop.pendingEvents s.time.stationTime l }

theorem State.latch_eq (s : State) (f : Flag) (detail : Nat) : s.latch f detail = s.latches [(f, detail)] := by
  rw [State.latch, State.latches, Mgmt.latchingAll, List.foldl_cons, List.foldl_nil, Mgmt.latching]
  by_cases h : s.flagSet f = true
  · have hbit : s.mgmt.flags.getLsbD f.id = true := h
    rw [if_pos hbit, if_pos h]
  · have hbit : ¬s.mgmt.flags.getLsbD f.id = true := h
    rw [if_neg hbit, if_neg h]
    rfl

theorem State.latches_nil (s : State) : s.latches [] = s := rfl

theorem State.latches_latches (s : State) (l l' : List (Flag × Nat)) :
    (s.latches l).latches l' = s.latches (l ++ l') := by
  simp only [State.latches, Mgmt.latchingAll, List.foldl_append]

theorem Mgmt.latchingAll_append (m : Mgmt) (pending : List EventReport) (now : Nat) (l l' : List (Flag × Nat)) :
    (m.latchingAll pending now l).latchingAll pending now l' = m.latchingAll pending now (l ++ l') := by
  simp only [Mgmt.latchingAll, List.foldl_append]

section Latched

variable {m : Mgmt} {pending : List EventReport} {now : Nat}

theorem Flag.getLsbD_bit (f g : Flag) : f.bit.getLsbD g.id = (f == g) := by
  cases f <;> cases g <;> rfl

theorem Mgmt.latching_flags (f g : Flag) (detail : Nat) :
    (m.latching pending now f detail).flags.getLsbD g.id = (m.flags.getLsbD g.id || f == g) := by
  by_cases h : m.flags.getLsbD f.id = true
  · rw [Mgmt.latching, if_pos h]
    by_cases hfg : f = g
    · subst hfg
      simp [h]
    · simp [hfg]
  · rw [Mgmt.latching, if_neg h]
    simp [Flag.getLsbD_bit]

/-- A latch leaves the rest of the management unit. -/
theorem Mgmt.latching_keeps (f : Flag) (detail : Nat) :
    (m.latching pending now f detail).shadows = m.shadows ∧ (m.latching pending now f detail).enables = m.enables
      ∧ (m.latching pending now f detail).overruns = m.overruns := by
  rw [Mgmt.latching]
  split <;> exact ⟨rfl, rfl, rfl⟩

theorem Mgmt.latchingAll_keeps (l : List (Flag × Nat)) :
    (m.latchingAll pending now l).shadows = m.shadows ∧ (m.latchingAll pending now l).enables = m.enables
      ∧ (m.latchingAll pending now l).overruns = m.overruns := by
  induction l generalizing m with
  | nil => exact ⟨rfl, rfl, rfl⟩
  | cons p l ih =>
    obtain ⟨h1, h2, h3⟩ := m.latching_keeps (pending := pending) (now := now) p.1 p.2
    obtain ⟨i1, i2, i3⟩ := ih (m := m.latching pending now p.1 p.2)
    exact ⟨i1.trans h1, i2.trans h2, i3.trans h3⟩

/-- A flag is set after latches that was set before or is one of theirs. -/
theorem Mgmt.latchingAll_flags (l : List (Flag × Nat)) (g : Flag) :
    (m.latchingAll pending now l).flags.getLsbD g.id = (m.flags.getLsbD g.id || l.any fun p => p.1 == g) := by
  induction l generalizing m with
  | nil => simp [Mgmt.latchingAll]
  | cons p l ih =>
    have hstep := ih (m := m.latching pending now p.1 p.2)
    rw [Mgmt.latching_flags] at hstep
    rw [List.any_cons, ← Bool.or_assoc, ← hstep]
    rfl

/-- A latch of this flag makes a report (R183). -/
def Mgmt.makes (m : Mgmt) (pending : List EventReport) (f : Flag) : Bool :=
  !m.flags.getLsbD f.id && m.enables.getLsbD f.id && !pending.any fun r => r.flag == f

theorem Mgmt.latching_raised (f : Flag) (detail : Nat) : (m.latching pending now f detail).raised
    = m.raised ++ if m.makes pending f then [⟨f, now, detail⟩] else [] := by
  by_cases hset : m.flags.getLsbD f.id = true
  · simp [Mgmt.latching, Mgmt.makes, hset]
  · rw [Mgmt.latching, if_neg hset, Mgmt.makes]
    simp only [hset, Bool.not_false, Bool.true_and]
    split <;> simp

theorem Mgmt.latching_makes (f g : Flag) (detail : Nat) :
    (m.latching pending now f detail).makes pending g = (m.makes pending g && !f == g) := by
  obtain ⟨-, henables, -⟩ := m.latching_keeps (pending := pending) (now := now) f detail
  rw [Mgmt.makes, Mgmt.latching_flags, henables, Mgmt.makes]
  cases m.flags.getLsbD g.id <;> cases f == g <;> simp

/-- Which flags have a report after latches: those that had one, and those of the latches that make one. -/
theorem Mgmt.latchingAll_raised (l : List (Flag × Nat)) (g : Flag) :
    ((m.latchingAll pending now l).raised.find? fun r => r.flag == g).isSome
      = ((m.raised.find? fun r => r.flag == g).isSome || ((l.any fun p => p.1 == g) && m.makes pending g)) := by
  induction l generalizing m with
  | nil => simp [Mgmt.latchingAll]
  | cons p l ih =>
    obtain ⟨f, detail⟩ := p
    have hstep := ih (m := m.latching pending now f detail)
    have hfind : ((m.latching pending now f detail).raised.find? fun r => r.flag == g).isSome
        = ((m.raised.find? fun r => r.flag == g).isSome || (f == g && m.makes pending g)) := by
      rw [Mgmt.latching_raised, List.find?_append, Option.isSome_or]
      by_cases hfg : f = g
      · subst hfg
        cases m.makes pending f <;> simp
      · cases m.makes pending f <;> simp [hfg]
    rw [hfind, Mgmt.latching_makes] at hstep
    refine Eq.trans hstep ?_
    rw [List.any_cons]
    cases f == g <;> cases m.makes pending g <;> simp

theorem Mgmt.latchingAll_time (l : List (Flag × Nat)) {r : EventReport}
    (h : r ∈ (m.latchingAll pending now l).raised) : r ∈ m.raised ∨ r.time = now := by
  induction l generalizing m with
  | nil => exact .inl h
  | cons p l ih =>
    rcases ih h with h | h
    · rw [Mgmt.latching_raised] at h
      rcases List.mem_append.1 h with h | h
      · exact .inl h
      · split at h
        · exact .inr (by rw [List.mem_singleton.1 h])
        · exact absurd h (by simp)
    · exact .inr h

end Latched

/-! ### An entry offered to the Deferred Write Table (R120, R121) -/

/-- What an offer makes: the table after it, the latch of an entry lost, and whether the entry was stored. -/
structure OfferResult where
  table  : DeferredTable
  lost   : List (Flag × Nat)
  stored : Bool

/-- The table without the entries of this stamp. -/
def DeferredTable.without (t : DeferredTable) (stamp : Nat) : DeferredTable :=
  { t with entries := t.entries.filter fun e => e.stamp != stamp }

/-- The table with an entry at its end. -/
def DeferredTable.appending (t : DeferredTable) (e : DeferredEntry) : DeferredTable :=
  ⟨t.entries ++ [{ e with stamp := t.nextStamp }], t.nextStamp + 1⟩

/-- An entry offered to this table. -/
def DeferredTable.offer (t : DeferredTable) (e : DeferredEntry) : OfferResult :=
  match t.entries.find? fun x => x.serial == e.serial with
  | some old =>
    if old.isSettlement && !e.isSettlement then ⟨t, [(.deferredLost, e.serial.toNat)], false⟩
    else ⟨(t.without old.stamp).appending e, if old.isSettlement then [(.deferredLost, e.serial.toNat)] else [], true⟩
  | none =>
    if t.entries.length < 32 then ⟨t.appending e, [], true⟩
    else match t.entries.find? fun x => !x.isSettlement with
      | some oldest => ⟨(t.without oldest.stamp).appending e, [(.deferredLost, oldest.serial.toNat)], true⟩
      | none => ⟨t, [(.deferredLost, e.serial.toNat)], false⟩

/-- The model's offer changes the table and latches an entry lost, and nothing else. -/
theorem State.deferredOffer_eq (s : State) (e : DeferredEntry) : s.deferredOffer e
    = (({ s with deferred := (s.deferred.offer e).table } : State).latches (s.deferred.offer e).lost,
      (s.deferred.offer e).stored) := by
  simp only [State.deferredOffer, State.deferredFind, DeferredTable.offer]
  cases s.deferred.entries.find? fun x => x.serial == e.serial with
  | some old =>
    dsimp only
    split
    · rw [State.latch_eq]
    · cases old.isSettlement
      · rfl
      · rw [if_pos rfl, if_pos rfl, State.latch_eq]
        rfl
  | none =>
    dsimp only
    split
    · rfl
    · cases s.deferred.entries.find? fun x => !x.isSettlement with
      | some oldest =>
        simp only [State.latch_eq]
        rfl
      | none => simp only [State.latch_eq]


end Sys2Proof.Machine
end

