-- ==== Sys2Proof/Proofs/WarmLanes.lean ====
section
/-! PROOFS. What the warm reset makes of one lane and its port (R20, R93). -/

namespace Sys2Proof.Machine

/-! ### The abandoned write -/

/-- A table that meets an entry, if one is offered. -/
def DeferredTable.meets (t : DeferredTable) (o : Option DeferredEntry) : OfferResult :=
  match o with
  | some e => t.offer e
  | none => ⟨t, [], true⟩

/-- What lane `n` offers the table at a warm reset. -/
def State.warmMeets (s : State) (n : LaneId) : OfferResult := s.deferred.meets (s.warmOffer n)

/-- The warm reset of lane `n` finds no room for its settlement (R143). -/
def State.desk (s : State) (n : LaneId) : Bool :=
  (s.warmOffer n).any (·.isSettlement) && !(s.warmMeets n).stored

/-- The port without a write. -/
def Port.unwritten (p : Port) : Port := { p with write := none, waiting := none }

section Lane

variable {s : State} {n : LaneId}

/-- The abandoned write offers its entry, where it leaves one. -/
theorem State.abandonWrite_cases (s : State) (n : LaneId) :
    (s.warmOffer n = none ∧ s.abandonWrite n = (s.withPort n (s.port n).unwritten, false))
      ∨ ∃ e, s.warmOffer n = some e ∧ s.abandonWrite n = (((s.withPort n (s.port n).unwritten).deferredOffer e).1,
        e.isSettlement && !((s.withPort n (s.port n).unwritten).deferredOffer e).2) := by
  simp only [State.abandonWrite, State.warmOffer, State.txn, State.modPort_eq]
  cases (s.port n).write with
  | none => exact .inl ⟨rfl, rfl⟩
  | some w =>
    dsimp only
    cases w.request.owner with
    | resolution | ended => exact .inl ⟨rfl, rfl⟩
    | orphan issue day | freeFlowGrant issue day => exact .inr ⟨_, rfl, rfl⟩
    | grant | settlement =>
      cases (s.lane n).txn with
      | none => exact .inl ⟨rfl, rfl⟩
      | some t => exact .inr ⟨_, rfl, rfl⟩

/-- `s` with the write of lane `n` abandoned. -/
def State.abandoned (s : State) (n : LaneId) : State :=
  (({ s with deferred := (s.warmMeets n).table } : State).withPort n (s.port n).unwritten).latches (s.warmMeets n).lost

theorem State.abandonWrite_eq (s : State) (n : LaneId) : s.abandonWrite n = (s.abandoned n, s.desk n) := by
  rcases s.abandonWrite_cases n with ⟨ho, h⟩ | ⟨e, ho, h⟩
  · simp only [h, State.abandoned, State.warmMeets, State.desk, ho, DeferredTable.meets]
    rfl
  · simp only [h, State.abandoned, State.warmMeets, State.desk, ho, DeferredTable.meets, State.deferredOffer_eq]
    rfl

/-! ### The end of the transaction -/

/-- The frames with which a warm reset ends the lane's transaction. -/
def Lane.warmEnd (l : Lane) (desk : Bool) : List ReaderTx :=
  match l.txn with
  | none => []
  | some t =>
    if l.atBarrier || t.finalDays.isSome then [.release t.serial]
    else endFrames (if desk then .seeDesk else .retry) t.serial

/-- The lane with its windows, bodies and timers gone. -/
def Lane.cleared (l : Lane) : Lane :=
  { l with
    window := none, lateFree := none, kept := 0, grantTimer := none, grantExpired := false, trailTimer := none
    recoveryTimer := none, holdTimer := none, alarmTimer := none }

/-- The lane with its transaction ended and its lapse counted. -/
def Lane.warmEnded (l : Lane) : Lane := { if l.atBarrier then l.counting .lapsed 1 else l with txn := none }

/-- The rider side of `s` with the transaction of lane `n` ended: out of the held order, its grant out of the
Passback Table, and the maze credited. -/
def State.warmFreed (s : State) (n : LaneId) : State :=
  { s with
    heldOrder := if (s.lane n).txn.isSome then s.heldOrder.filter (· != n) else s.heldOrder
    passback := s.passback.filter fun e : PassbackEntry =>
      !((s.lane n).atBarrier && (s.lane n).txn.any fun t => e.isGrantOf n t)
    maze := { s.maze with
      count := if (s.lane n).atBarrier then min 255 (s.maze.count + (s.lane n).lapseCredit) else s.maze.count } }

theorem State.withLane_modLane (s : State) (n : LaneId) (l : Lane) (f : Lane → Lane) :
    (s.withLane n l).modLane n f = s.withLane n (f l) := by
  rw [State.modLane_eq, State.withLane_lane_same, State.withLane_withLane]

theorem State.endTransactionWarm_of_none {desk : Bool} (ht : (s.lane n).txn = none) :
    (s.endTransactionWarm n desk).modLane n Lane.cleared
      = ((s.warmFreed n).withPort n ((s.port n).sending ((s.lane n).warmEnd desk))).withLane n
        (s.lane n).warmEnded.cleared := by
  have hbar : (s.lane n).atBarrier = false := by simp [Lane.atBarrier, ht]
  have hfreed : s.warmFreed n = s := by simp [State.warmFreed, hbar, ht]
  have hframes : (s.port n).sending ((s.lane n).warmEnd desk) = s.port n := by simp [Lane.warmEnd, ht, Port.sending]
  have hlane : (s.lane n).warmEnded = s.lane n := by simp [Lane.warmEnded, hbar, ← ht]
  rw [hfreed, hframes, hlane, State.withPort_self]
  simp only [State.endTransactionWarm, State.txn, ht]
  rfl

/-- Before the barrier the lane and its port alone change, and the held order. -/
theorem State.endTransactionWarm_of_release {desk : Bool} {t : Transaction} (ht : (s.lane n).txn = some t)
    (hb : (s.lane n).atBarrier = false)
    (h : s.endTransactionWarm n desk = (({ s with heldOrder := s.heldOrder.filter (· != n) } : State).withPort n
      ((s.port n).sending ((s.lane n).warmEnd desk))).withLane n (s.lane n).released) :
    (s.endTransactionWarm n desk).modLane n Lane.cleared
      = ((s.warmFreed n).withPort n ((s.port n).sending ((s.lane n).warmEnd desk))).withLane n
        (s.lane n).warmEnded.cleared := by
  have hfreed : s.warmFreed n = { s with heldOrder := s.heldOrder.filter (· != n) } := by
    simp [State.warmFreed, hb, ht]
  have hlane : (s.lane n).warmEnded.cleared = (s.lane n).released.cleared := by
    simp [Lane.warmEnded, hb, Lane.cleared, Lane.released]
  rw [h, hfreed, hlane, State.withLane_modLane]

theorem State.endTransactionWarm_of_barrier {desk : Bool} {t : Transaction} (ht : (s.lane n).txn = some t)
    (hb : (s.lane n).atBarrier = true) :
    (s.endTransactionWarm n desk).modLane n Lane.cleared
      = ((s.warmFreed n).withPort n ((s.port n).sending ((s.lane n).warmEnd desk))).withLane n
        (s.lane n).warmEnded.cleared := by
  have hst : (s.lane n).state = .unlocked ∨ (s.lane n).state = .passing := by
    simpa [Lane.atBarrier, ht] using hb
  have hend : s.endTransactionWarm n desk = s.lapse n := by
    rcases hst with hst | hst <;> simp [State.endTransactionWarm, State.txn, ht, hst]
  have hfreed : s.warmFreed n = { s with
      heldOrder := s.heldOrder.filter (· != n)
      passback := s.passback.filter fun e : PassbackEntry => !e.isGrantOf n t
      maze := { s.maze with count := min 255 (s.maze.count + (s.lane n).lapseCredit) } } := by
    simp [State.warmFreed, hb, ht]
  have hlapse : s.lapse n = ((s.warmFreed n).withPort n ((s.port n).sending [.release t.serial])).withLane n
      (s.lane n).lapsed := by
    rw [hfreed]
    exact State.lapse_eq ht
  have hframes : (s.lane n).warmEnd desk = [.release t.serial] := by simp [Lane.warmEnd, ht, hb]
  have hlane : (s.lane n).warmEnded.cleared = (s.lane n).lapsed.cleared := by
    simp [Lane.warmEnded, hb, Lane.cleared, Lane.lapsed, Lane.released, Lane.counting]
  rw [hend, hlapse, hframes, hlane, State.withLane_modLane]

theorem State.endTransactionWarm_eq (s : State) (n : LaneId) (desk : Bool) :
    (s.endTransactionWarm n desk).modLane n Lane.cleared
      = ((s.warmFreed n).withPort n ((s.port n).sending ((s.lane n).warmEnd desk))).withLane n
        (s.lane n).warmEnded.cleared := by
  cases ht : (s.lane n).txn with
  | none => exact State.endTransactionWarm_of_none ht
  | some t =>
    cases hb : (s.lane n).atBarrier with
    | true => exact State.endTransactionWarm_of_barrier ht hb
    | false =>
      obtain ⟨hu, hp⟩ : (s.lane n).state ≠ .unlocked ∧ (s.lane n).state ≠ .passing := by
        simpa [Lane.atBarrier, ht] using hb
      have hend : s.endTransactionWarm n desk = if t.finalDays.isSome then s.release n
          else (s.sendFinal n (if desk then .seeDesk else .retry) .red 0 0).release n := by
        cases hst : (s.lane n).state <;> simp_all [State.endTransactionWarm, State.txn]
      refine State.endTransactionWarm_of_release ht hb ?_
      cases hf : t.finalDays.isSome with
      | true =>
        have hframes : (s.lane n).warmEnd desk = [.release t.serial] := by simp [Lane.warmEnd, ht, hf]
        rw [hend, hf, if_pos rfl, hframes]
        exact State.release_eq ht
      | false =>
        have hframes : (s.lane n).warmEnd desk = endFrames (if desk then .seeDesk else .retry) t.serial := by
          simp [Lane.warmEnd, ht, hf, hb]
        rw [hend, hf, hframes]
        exact State.sendFinal_release_eq _ .red 0 0 ht

/-! ### The lane's first state -/

/-- The role of the lane after the warm reset: one that was pending is taken. -/
def Lane.warmRole (l : Lane) : Option Role := l.pendingRole <|> l.role

/-- The resting state of lane `n` in this role. -/
def State.restingIn (s : State) (n : LaneId) (r : Option Role) : LaneState :=
  (s.withLane n { s.lane n with role := r }).restingState n

/-- The first state of lane `n` after the warm reset (R93). -/
def State.warmState (s : State) (n : LaneId) : LaneState :=
  if (s.lane n).warmRole = some .ticket ∧ s.freeFlowInForce = true then .freeFlow
  else s.restingIn n (s.lane n).warmRole

/-- A lane that stands cleared, in its first state. -/
def Lane.warmRested (l : Lane) (st : LaneState) : Lane :=
  { l with
    role := l.warmRole, pendingRole := none, state := st
    window := if st = .freeFlow ∧ l.arm = .forward then some ⟨0, false⟩ else none }

/-- The latches of lane `n`'s coming to rest: READER_LOST where a role is taken, LANE_FAULT where FAULT is entered
anew. -/
def State.warmLatches (s : State) (n : LaneId) : List (Flag × Nat) :=
  (if (s.lane n).pendingRole.any (·.usesReader) && (s.port n).status == .lost then [(.readerLost, n.num)] else [])
    ++ if s.warmState n == .fault && ((s.lane n).state != .fault || (s.lane n).pendingRole.isSome)
      then [(.laneFault, n.num)] else []

theorem State.restingState_ne_freeFlow (s : State) (n : LaneId) : s.restingState n ≠ .freeFlow := by
  simp only [State.restingState]
  (repeat' split) <;> decide

theorem State.latches_withPort (l : List (Flag × Nat)) (p : Port) :
    (s.latches l).withPort n p = (s.withPort n p).latches l := rfl

theorem State.latches_withLane (l : List (Flag × Nat)) (a : Lane) :
    (s.latches l).withLane n a = (s.withLane n a).latches l := rfl

/-- Lane `n` enters a state of rest, with LANE_FAULT where that is FAULT (R65, R81). -/
def State.entersState (s : State) (n : LaneId) (st : LaneState) : State :=
  match st with
  | .fault => s.enterFault n
  | st => s.setLaneState n st

theorem State.rest_eq_entersState (h : (s.lane n).state ≠ s.restingState n) :
    s.rest n = s.entersState n (s.restingState n) := by
  simp only [State.rest, h, if_false]
  cases s.restingState n <;> rfl

/-- With no recovery timer running the state and the latch are all there is. -/
theorem State.entersState_eq (st : LaneState) (h : (s.lane n).recoveryTimer = none) : s.entersState n st
    = (s.withLane n { s.lane n with state := st }).latches (if st == .fault then [(.laneFault, n.num)] else []) := by
  cases st
  case fault =>
    have hlane : ({ s.lane n with state := .fault, recoveryTimer := none } : Lane)
        = { s.lane n with state := .fault } := by rw [← h]
    have henter : s.entersState n .fault = (s.withLane n { s.lane n with
        state := .fault, recoveryTimer := none }).latches [(.laneFault, n.num)] := State.latch_eq _ _ _
    rw [henter, hlane]
    rfl
  all_goals rfl

theorem Lane.cleared_inFreeFlow {l : Lane} (hc : l.cleared = l) :
    l.inFreeFlow = { l with state := .freeFlow, window := if l.arm = .forward then some ⟨0, false⟩ else none } := by
  rw [← hc]
  rfl

/-- The lane has no role pending: it enters FREE_FLOW or its resting state, unless it stands in it. -/
theorem State.warmRest_of_none (hc : (s.lane n).cleared = s.lane n) (hp : (s.lane n).pendingRole = none) :
    (if s.freeFlowInForce ∧ (s.lane n).role = some .ticket then s.enterFreeFlow n else s.rest n)
      = (s.withLane n ((s.lane n).warmRested (s.warmState n))).latches (s.warmLatches n) := by
  have hrole : (s.lane n).warmRole = (s.lane n).role := by simp [Lane.warmRole, hp]
  have hresting : s.restingIn n (s.lane n).role = s.restingState n :=
    congrArg (State.restingState · n) (State.withLane_self s n)
  have htimer : (s.lane n).recoveryTimer = none := by rw [← hc]; rfl
  have hwindow : (s.lane n).window = none := by rw [← hc]; rfl
  by_cases hf : s.freeFlowInForce = true ∧ (s.lane n).role = some .ticket
  · obtain ⟨hforce, hticket⟩ := hf
    have hst : s.warmState n = .freeFlow := by simp [State.warmState, hrole, hticket, hforce]
    have hlatches : s.warmLatches n = [] := by simp [State.warmLatches, hp, hst]
    rw [if_pos ⟨hforce, hticket⟩, hst, hlatches, State.latches_nil, State.enterFreeFlow_eq,
      Lane.cleared_inFreeFlow hc]
    simp [Lane.warmRested, hrole, ← hp]
  · have hst : s.warmState n = s.restingState n := by
      rw [State.warmState, hrole, hresting, if_neg (fun h => hf h.symm)]
    have hlane : (s.lane n).warmRested (s.warmState n) = { s.lane n with state := s.restingState n } := by
      simp [Lane.warmRested, hst, hrole, State.restingState_ne_freeFlow, ← hp, ← hwindow]
    rw [if_neg hf, hlane]
    by_cases hsame : (s.lane n).state = s.restingState n
    · have hlatches : s.warmLatches n = [] := by simp [State.warmLatches, hp, hst, hsame]
      rw [hlatches, State.latches_nil, State.rest]
      simp only [hsame, if_true]
      rw [← hsame]
      exact (State.withLane_self s n).symm
    · have hlatches : s.warmLatches n = if s.restingState n == .fault then [(.laneFault, n.num)] else [] := by
        cases hr : s.restingState n <;> simp_all [State.warmLatches]
      rw [hlatches, ← State.entersState_eq _ htimer, State.rest_eq_entersState hsame]

/-- The READER_LOST of a role that is taken while the reader is LOST (R12). -/
def State.lostLatches (s : State) (n : LaneId) (r : Role) : List (Flag × Nat) :=
  if r.usesReader && (s.port n).status == .lost then [(.readerLost, n.num)] else []

/-- `s` with the role taken on lane `n`, before its first state. -/
def State.roleTaken (s : State) (n : LaneId) (r : Role) : State :=
  (s.withLane n { s.lane n with role := some r, pendingRole := none }).latches (s.lostLatches n r)

/-- `s` with the role taken on lane `n`, before its first state, as the model writes it. -/
def State.roleSet (s : State) (n : LaneId) (r : Role) : State :=
  let set := (s.closeLateTrail n).modLane n fun l => { l with
    role := some r, pendingRole := none, kept := 0, window := none, lateFree := none
    recoveryTimer := if r = .settle then none else l.recoveryTimer }
  if r.usesReader && (s.port n).status == .lost then set.latch .readerLost n.num else set

theorem State.takeRole_eq (s : State) (n : LaneId) (r : Role) :
    s.takeRole n r = if r = .ticket ∧ s.freeFlowInForce then (s.roleSet n r).enterFreeFlow n
      else (s.roleSet n r).entersState n ((s.roleSet n r).restingState n) := rfl

/-- On a lane that stands cleared no free window closes. -/
theorem State.roleSet_of_cleared {r : Role} (hc : (s.lane n).cleared = s.lane n) :
    s.roleSet n r = s.roleTaken n r := by
  have hlate : (s.lane n).lateFree = none := by rw [← hc]; rfl
  have hlane : ({ (s.lane n) with
      role := some r, pendingRole := none, kept := 0, window := none, lateFree := none
      recoveryTimer := if r = .settle then none else (s.lane n).recoveryTimer } : Lane)
      = { s.lane n with role := some r, pendingRole := none } := by
    rw [← hc]
    simp [Lane.cleared]
  rw [State.roleSet, State.closeLateTrail_of_none hlate, State.modLane_eq, hlane, State.roleTaken, State.lostLatches,
    State.latch_eq]
  split <;> rfl

/-- A pending role is taken. -/
theorem State.warmRest_of_some {r : Role} (hc : (s.lane n).cleared = s.lane n)
    (hp : (s.lane n).pendingRole = some r) :
    s.takeRole n r = (s.withLane n ((s.lane n).warmRested (s.warmState n))).latches (s.warmLatches n) := by
  have hrole : (s.lane n).warmRole = some r := by simp [Lane.warmRole, hp]
  have hlost : s.warmLatches n
      = s.lostLatches n r ++ if s.warmState n == .fault then [(.laneFault, n.num)] else [] := by
    simp [State.warmLatches, State.lostLatches, hp]
  have hlane : (s.roleTaken n r).lane n = { s.lane n with role := some r, pendingRole := none } :=
    State.withLane_lane_same s n _
  have htimer : ((s.roleTaken n r).lane n).recoveryTimer = none := by rw [hlane, ← hc]; rfl
  have hwindow : (s.lane n).window = none := by rw [← hc]; rfl
  rw [State.takeRole_eq, State.roleSet_of_cleared hc]
  by_cases hf : r = .ticket ∧ s.freeFlowInForce = true
  · have hst : s.warmState n = .freeFlow := by simp [State.warmState, hrole, hf]
    have hclear : ((s.roleTaken n r).lane n).cleared = (s.roleTaken n r).lane n := by rw [hlane, ← hc]; rfl
    have hlatches : s.warmLatches n = s.lostLatches n r := by simp [hlost, hst]
    rw [if_pos hf, State.enterFreeFlow_eq, Lane.cleared_inFreeFlow hclear, hlane, hst, hlatches, State.roleTaken,
      State.latches_withLane, State.withLane_withLane]
    simp [Lane.warmRested, hrole]
  · have hresting : (s.roleTaken n r).restingState n = s.warmState n := by
      have hticket : ¬(some r = some Role.ticket ∧ s.freeFlowInForce = true) := by simpa using hf
      rw [State.warmState, hrole, if_neg hticket, State.restingIn]
      refine State.restingState_congr n ?_ ?_ ?_ rfl rfl rfl <;> rw [hlane, State.withLane_lane_same]
    have hne : s.warmState n ≠ .freeFlow := hresting ▸ State.restingState_ne_freeFlow _ n
    have hrested : (s.lane n).warmRested (s.warmState n)
        = { s.lane n with role := some r, pendingRole := none, state := s.warmState n } := by
      simp [Lane.warmRested, hrole, hne, ← hwindow]
    have henter := State.entersState_eq (s.warmState n) htimer
    rw [hlane] at henter
    rw [if_neg hf, hresting, hrested, hlost, ← State.latches_latches]
    rw [henter, State.roleTaken, State.latches_withLane, State.withLane_withLane]

/-- The rest of the lane that the warm reset has cleared. -/
theorem State.warmRest_eq (hc : (s.lane n).cleared = s.lane n) :
    (match (s.lane n).pendingRole with
    | some r => s.takeRole n r
    | none => if s.freeFlowInForce ∧ (s.lane n).role = some .ticket then s.enterFreeFlow n else s.rest n)
      = (s.withLane n ((s.lane n).warmRested (s.warmState n))).latches (s.warmLatches n) := by
  cases hp : (s.lane n).pendingRole with
  | none => exact State.warmRest_of_none hc hp
  | some r => exact State.warmRest_of_some hc hp

/-! ### One lane and its port -/

theorem Lane.warmEnded_keeps (l : Lane) :
    l.warmEnded.role = l.role ∧ l.warmEnded.pendingRole = l.pendingRole ∧ l.warmEnded.state = l.state
      ∧ l.warmEnded.keyHigh = l.keyHigh ∧ l.warmEnded.commandOpen = l.commandOpen ∧ l.warmEnded.arm = l.arm := by
  simp only [Lane.warmEnded]
  split <;> exact ⟨rfl, rfl, rfl, rfl, rfl, rfl⟩

/-- What the first state and its latches depend on. -/
theorem State.warmState_congr {t : State} (hrole : (t.lane n).role = (s.lane n).role)
    (hpend : (t.lane n).pendingRole = (s.lane n).pendingRole) (hstate : (t.lane n).state = (s.lane n).state)
    (hkey : (t.lane n).keyHigh = (s.lane n).keyHigh) (hopen : (t.lane n).commandOpen = (s.lane n).commandOpen)
    (hp : (t.port n).status = (s.port n).status) (ht : t.tables = s.tables) (hd : t.time = s.time)
    (hf : t.freeFlowInForce = s.freeFlowInForce) :
    t.warmState n = s.warmState n ∧ t.warmLatches n = s.warmLatches n := by
  have hwarm : (t.lane n).warmRole = (s.lane n).warmRole := by rw [Lane.warmRole, Lane.warmRole, hrole, hpend]
  have hresting (r : Option Role) : t.restingIn n r = s.restingIn n r := by
    refine State.restingState_congr n ?_ ?_ ?_ ht (congrArg TimeBase.dayState hd) hp
    · rw [State.withLane_lane_same, State.withLane_lane_same]
    · rw [State.withLane_lane_same, State.withLane_lane_same, hkey]
    · rw [State.withLane_lane_same, State.withLane_lane_same, hopen]
  have hst : t.warmState n = s.warmState n := by rw [State.warmState, State.warmState, hwarm, hf, hresting]
  exact ⟨hst, by rw [State.warmLatches, State.warmLatches, hst, hpend, hstate, hp]⟩

/-- Lane `n` after the warm reset. -/
def State.warmedLane (s : State) (n : LaneId) : Lane := (s.lane n).warmEnded.cleared.warmRested (s.warmState n)

/-- The port with its heartbeat timer started again, but for a LOST reader (R20). -/
def Port.beating (p : Port) (t : Timer) : Port :=
  { p with heartbeat := if p.status = .lost then p.heartbeat else some t }

/-- Port `n` after the warm reset. -/
def State.warmedPort (s : State) (n : LaneId) : Port :=
  ((s.port n).unwritten.sending ((s.lane n).warmEnd (s.desk n))).beating ⟨s.ms, s.settings.readerLossMs⟩

/-- `s` after the warm reset of lane `n`, but for its latches. -/
def State.warmed (s : State) (n : LaneId) : State :=
  ((({ s with deferred := (s.warmMeets n).table } : State).warmFreed n).withPort n (s.warmedPort n)).withLane n
    (s.warmedLane n)

theorem State.restartHeartbeat_eq (s : State) (n : LaneId) :
    s.restartHeartbeat n = s.withPort n ((s.port n).beating ⟨s.ms, s.settings.readerLossMs⟩) := by
  by_cases h : (s.port n).status = .lost
  · have hport : (s.port n).beating ⟨s.ms, s.settings.readerLossMs⟩ = s.port n := by
      rw [Port.beating, if_pos h]
    rw [hport, State.withPort_self, State.restartHeartbeat, if_pos h]
  · rw [State.restartHeartbeat, if_neg h, State.modPort_eq, Port.beating, if_neg h]
    rfl

theorem State.warmLaneRest_eq {A : State} (hA : s.modLane n Lane.cleared = A) :
    s.warmLaneRest n = (A.withLane n ((A.lane n).warmRested (A.warmState n))).latches (A.warmLatches n) := by
  have hc : (A.lane n).cleared = A.lane n := by
    rw [← hA, State.modLane_eq, State.withLane_lane_same]
    rfl
  rw [← State.warmRest_eq hc, ← hA]
  rfl

/-- `s` with the write of lane `n` abandoned, its transaction ended and the lane cleared, but for the latches. -/
def State.warmCleared (s : State) (n : LaneId) : State :=
  ((({ s with deferred := (s.warmMeets n).table } : State).warmFreed n).withPort n
    ((s.port n).unwritten.sending ((s.lane n).warmEnd (s.desk n)))).withLane n (s.lane n).warmEnded.cleared

theorem State.abandoned_cleared (s : State) (n : LaneId) :
    ((s.abandoned n).endTransactionWarm n (s.desk n)).modLane n Lane.cleared
      = (s.warmCleared n).latches (s.warmMeets n).lost := by
  have hport : (s.abandoned n).port n = (s.port n).unwritten := State.withPort_port_same _ _ _
  have hlane : (s.abandoned n).lane n = s.lane n := rfl
  have hfreed : (s.abandoned n).warmFreed n = ((({ s with deferred := (s.warmMeets n).table } : State).warmFreed
    n).withPort n (s.port n).unwritten).latches (s.warmMeets n).lost := rfl
  rw [State.endTransactionWarm_eq, hport, hlane, hfreed, State.latches_withPort, State.latches_withLane,
    State.withPort_withPort, State.warmCleared]

/-- One lane at the warm reset (R20, R93). -/
theorem State.warmLane_eq (s : State) (n : LaneId) :
    s.warmLane n = (s.warmed n).latches ((s.warmMeets n).lost ++ s.warmLatches n) := by
  have hlane : ((s.warmCleared n).latches (s.warmMeets n).lost).lane n = (s.lane n).warmEnded.cleared :=
    State.withLane_lane_same _ _ _
  have hport : ((s.warmCleared n).latches (s.warmMeets n).lost).port n
      = (s.port n).unwritten.sending ((s.lane n).warmEnd (s.desk n)) := State.withPort_port_same _ _ _
  obtain ⟨hrole, hpend, hstand, hkey, hopen, -⟩ := (s.lane n).warmEnded_keeps
  obtain ⟨hstate, hlatches⟩ := State.warmState_congr (s := s) (t := (s.warmCleared n).latches (s.warmMeets n).lost)
    (by rw [hlane]; exact hrole) (by rw [hlane]; exact hpend) (by rw [hlane]; exact hstand) (by rw [hlane]; exact hkey)
    (by rw [hlane]; exact hopen) (by rw [hport]; rfl) rfl rfl rfl
  have hrest := State.warmLaneRest_eq (s.abandoned_cleared n)
  rw [hlane, hstate, hlatches] at hrest
  rw [State.warmLane, State.abandonWrite_eq]
  dsimp only
  have hport' : (((((s.warmCleared n).latches (s.warmMeets n).lost).withLane n
      ((s.lane n).warmEnded.cleared.warmRested (s.warmState n))).latches (s.warmLatches n)).port n)
      = (s.port n).unwritten.sending ((s.lane n).warmEnd (s.desk n)) := hport
  rw [hrest, State.restartHeartbeat_eq, hport', State.latches_withPort, State.latches_withLane, State.latches_withPort,
    State.latches_latches, State.warmCleared, State.withLane_withLane, State.withPort_withLane,
    State.withPort_withPort, State.warmed]
  rfl

end Lane

end Sys2Proof.Machine
end

