-- ==== Sys2Proof/Proofs/WarmReset.lean ====
section
/-! PROOFS. The four lanes at the warm reset, in turn: what the lanes before it have done when a lane is reached. -/

namespace Sys2Proof.Machine

/-! ### The entries offered in turn -/

section Offers

variable {s : State} {n : LaneId}

/-- The table that lane `n` meets, after the lanes before it. -/
def State.metTable (s : State) (lanes : List LaneId) : DeferredTable := (s.offering s lanes).deferred

theorem State.offering_append (s : State) (lanes : List LaneId) (n : LaneId) :
    s.offering s (lanes ++ [n]) = ({ s.offering s lanes with
      deferred := ((s.metTable lanes).meets (s.warmOffer n)).table } : State).latches
        ((s.metTable lanes).meets (s.warmOffer n)).lost := by
  simp only [State.offering, List.foldl_append, List.foldl_cons, List.foldl_nil, State.metTable]
  cases s.warmOffer n with
  | none => rfl
  | some e => simp only [State.deferredOffer_eq, DeferredTable.meets]

theorem State.metTable_append (s : State) (lanes : List LaneId) (n : LaneId) :
    s.metTable (lanes ++ [n]) = ((s.metTable lanes).meets (s.warmOffer n)).table := by
  rw [State.metTable, State.offering_append]
  rfl

theorem State.seesDesk_eq (s : State) (n : LaneId) : s.seesDesk n = ((s.warmOffer n).any (·.isSettlement)
    && !((s.metTable (LaneId.all.take (n.num - 1))).meets (s.warmOffer n)).stored) := by
  rw [State.seesDesk, State.metTable]
  cases s.warmOffer n with
  | none => rfl
  | some e => simp only [State.deferredOffer_eq, DeferredTable.meets, Option.any_some]

/-- Only DEFERRED_LOST is latched by an offer. -/
theorem DeferredTable.meets_lost (t : DeferredTable) (o : Option DeferredEntry) (f : Flag) (hf : f ≠ .deferredLost) :
    (t.meets o).lost.any (fun p => p.1 == f) = false := by
  cases o with
  | none => rfl
  | some e =>
    simp only [DeferredTable.meets, DeferredTable.offer]
    (repeat' split) <;> simp [hf.symm]

end Offers

/-! ### The lanes before this one -/

/-- The flags that the warm reset of these lanes latches. -/
def State.warmNewly (s : State) (lanes : List LaneId) (f : Flag) : Bool :=
  match f with
  | .deferredLost => (s.offering s lanes).flagSet .deferredLost
  | .laneFault => lanes.any fun n =>
    s.warmState n == .fault && ((s.lane n).state != .fault || (s.lane n).pendingRole.isSome)
  | .readerLost => lanes.any fun n => (s.lane n).pendingRole.any (·.usesReader) && (s.port n).status == .lost
  | _ => false

/-- Port `n` after the warm reset, with the display of the table as the lanes before it leave it. -/
def State.warmPort (s : State) (n : LaneId) : Port :=
  ((s.port n).unwritten.sending (s.warmFrames n)).beating ⟨s.ms, s.settings.readerLossMs⟩

/-- The bodies that the lapse on lane `n` credits. -/
def State.lapses (s : State) (n : LaneId) : Nat := if (s.lane n).atBarrier then (s.lane n).lapseCredit else 0

/-- `x` is `s`, with its loop as `lp`, after the warm reset of the lanes `done`. -/
structure State.WarmedThrough (s : State) (lp : Loop) (done : List LaneId) (x : State) : Prop where
  own      : x.ownAddress = s.ownAddress
  ms       : x.ms = s.ms
  pin      : x.freeFlowPin = s.freeFlowPin
  setting  : x.freeFlowSetting = s.freeFlowSetting
  tables   : x.tables = s.tables
  time     : x.time = s.time
  loop     : x.loop = lp
  laneDone : ∀ n ∈ done, x.lane n = s.warmedLane n
  portDone : ∀ n ∈ done, x.port n = s.warmPort n
  laneTodo : ∀ n ∉ done, x.lane n = s.lane n
  portTodo : ∀ n ∉ done, x.port n = s.port n
  deferred : x.deferred = s.metTable done
  passback : x.passback.filter (·.confirmed) = s.passback.filter (·.confirmed)
  maze     : x.maze = { s.maze with count := x.maze.count }
  count    : s.MazeInRange → x.maze.count = min 255 (s.maze.count + (done.map s.lapses).sum)
  mgmt     : ∃ l, x.mgmt = s.mgmt.latchingAll s.loop.pendingEvents s.time.stationTime l
    ∧ ∀ f, (s.flagSet f || l.any fun p => p.1 == f) = (s.flagSet f || s.warmNewly done f)

section Through

variable {s x : State} {lp : Loop} {done : List LaneId} {n : LaneId}

theorem State.warmedThrough_nil (lp : Loop) : s.WarmedThrough lp [] { s with loop := lp } where
  own := rfl
  ms := rfl
  pin := rfl
  setting := rfl
  tables := rfl
  time := rfl
  loop := rfl
  laneDone := by simp
  portDone := by simp
  laneTodo := fun _ _ => rfl
  portTodo := fun _ _ => rfl
  deferred := rfl
  passback := rfl
  maze := rfl
  count := fun h => (Nat.min_eq_right h).symm
  mgmt := ⟨[], rfl, fun f => by cases f <;> simp [State.warmNewly, State.offering]⟩

/-- The lane that is reached finds itself, its port and what it offers as they were. -/
theorem State.WarmedThrough.finds (h : s.WarmedThrough lp done x) (hn : n ∉ done) :
    x.warmedLane n = s.warmedLane n ∧ x.warmLatches n = s.warmLatches n
      ∧ x.warmMeets n = (s.metTable done).meets (s.warmOffer n) := by
  have hlane := h.laneTodo n hn
  have hport := h.portTodo n hn
  have hforce : x.freeFlowInForce = s.freeFlowInForce := by
    rw [State.freeFlowInForce, State.freeFlowInForce, h.pin, h.setting]
  obtain ⟨hstate, hlatches⟩ := State.warmState_congr (s := s) (t := x) (n := n) (by rw [hlane]) (by rw [hlane])
    (by rw [hlane]) (by rw [hlane]) (by rw [hlane]) (by rw [hport]) h.tables h.time hforce
  refine ⟨by rw [State.warmedLane, State.warmedLane, hlane, hstate], hlatches, ?_⟩
  rw [State.warmMeets, h.deferred, State.warmOffer, State.warmOffer, hport, hlane]

theorem State.WarmedThrough.finds_port (h : s.WarmedThrough lp done x) (hd : done = LaneId.all.take (n.num - 1))
    (hn : n ∉ done) : x.warmedPort n = s.warmPort n := by
  have hlane := h.laneTodo n hn
  have hport := h.portTodo n hn
  obtain ⟨-, -, hmeets⟩ := h.finds hn
  have hoffer : x.warmOffer n = s.warmOffer n := by rw [State.warmOffer, State.warmOffer, hport, hlane]
  have hdesk : x.desk n = s.seesDesk n := by rw [State.desk, hoffer, hmeets, State.seesDesk_eq, hd]
  have hframes : (s.lane n).warmEnd (s.seesDesk n) = s.warmFrames n := rfl
  have hsettings : x.settings = s.settings := by rw [State.settings, State.settings, h.tables]
  rw [State.warmedPort, hport, hlane, hdesk, hframes, h.ms, hsettings, State.warmPort]

/-- Which flags the coming to rest of one lane latches. -/
theorem State.warmLatches_any (s : State) (n : LaneId) (f : Flag) :
    ((s.warmLatches n).any fun p => p.1 == f) = match f with
      | .readerLost => (s.lane n).pendingRole.any (·.usesReader) && (s.port n).status == .lost
      | .laneFault => s.warmState n == .fault && ((s.lane n).state != .fault || (s.lane n).pendingRole.isSome)
      | _ => false := by
  rw [State.warmLatches, List.any_append]
  generalize ((s.lane n).pendingRole.any (·.usesReader) && (s.port n).status == .lost) = lost
  generalize (s.warmState n == .fault && ((s.lane n).state != .fault || (s.lane n).pendingRole.isSome)) = faults
  cases f <;> cases lost <;> cases faults <;> rfl

/-- The latches of one more lane. -/
theorem State.warmNewly_append (f : Flag) :
    s.warmNewly (done ++ [n]) f = (s.warmNewly done f
      || (((s.metTable done).meets (s.warmOffer n)).lost ++ s.warmLatches n).any fun p => p.1 == f) := by
  rw [List.any_append, State.warmLatches_any]
  by_cases hf : f = .deferredLost
  · subst hf
    simp only [State.warmNewly, State.offering_append, State.flagSet, State.latches, Mgmt.latchingAll_flags,
      Bool.or_false]
  · rw [DeferredTable.meets_lost _ _ f hf]
    cases f
    case deferredLost => exact absurd rfl hf
    all_goals simp [State.warmNewly]

theorem State.warmed_same (x : State) (n : LaneId) (l : List (Flag × Nat)) :
    ((x.warmed n).latches l).lane n = x.warmedLane n ∧ ((x.warmed n).latches l).port n = x.warmedPort n :=
  ⟨State.withLane_lane_same _ _ _, State.withPort_port_same _ _ _⟩

theorem State.warmed_other (x : State) {m : LaneId} (h : m ≠ n) (l : List (Flag × Nat)) :
    ((x.warmed n).latches l).lane m = x.lane m ∧ ((x.warmed n).latches l).port m = x.port m :=
  ⟨State.withLane_lane_other _ h _, State.withPort_port_other _ h _⟩

/-- A CONFIRMED entry is not the PENDING one of a grant. -/
theorem State.warmed_passback (x : State) (n : LaneId) :
    (x.warmed n).passback.filter (·.confirmed) = x.passback.filter (·.confirmed) := by
  change (x.passback.filter _).filter _ = _
  rw [List.filter_filter]
  congr 1
  funext e
  cases hc : e.confirmed with
  | false => rfl
  | true => cases (x.lane n).txn <;> simp [PassbackEntry.isGrantOf, hc]

theorem State.warmed_count (x : State) (n : LaneId) (c : Nat) (hc : x.maze.count = min 255 c) :
    (x.warmed n).maze.count = min 255 (c + x.lapses n) := by
  change (if (x.lane n).atBarrier then min 255 (x.maze.count + (x.lane n).lapseCredit) else x.maze.count) = _
  rw [hc, State.lapses]
  split <;> omega

/-- One more lane at the warm reset. -/
theorem State.WarmedThrough.step (h : s.WarmedThrough lp done x) (hd : done = LaneId.all.take (n.num - 1))
    (hn : n ∉ done) (hlp : lp.pendingEvents = s.loop.pendingEvents) :
    s.WarmedThrough lp (done ++ [n]) (x.warmLane n) := by
  obtain ⟨hlane, hlatches, hmeets⟩ := h.finds hn
  have hport := h.finds_port hd hn
  have hsame := x.warmed_same n ((x.warmMeets n).lost ++ x.warmLatches n)
  have hother {m : LaneId} (hm : m ≠ n) := x.warmed_other hm ((x.warmMeets n).lost ++ x.warmLatches n)
  have hlapses : x.lapses n = s.lapses n := by rw [State.lapses, State.lapses, h.laneTodo n hn]
  obtain ⟨l, hmgmt, hflags⟩ := h.mgmt
  rw [State.warmLane_eq]
  exact {
    own := h.own
    ms := h.ms
    pin := h.pin
    setting := h.setting
    tables := h.tables
    time := h.time
    loop := h.loop
    laneDone := by
      intro m hm
      rcases List.mem_append.1 hm with hm | hm
      · rw [(hother (ne_of_mem_of_not_mem hm hn)).1, h.laneDone m hm]
      · rw [List.mem_singleton.1 hm, hsame.1, hlane]
    portDone := by
      intro m hm
      rcases List.mem_append.1 hm with hm | hm
      · rw [(hother (ne_of_mem_of_not_mem hm hn)).2, h.portDone m hm]
      · rw [List.mem_singleton.1 hm, hsame.2, hport]
    laneTodo := by
      intro m hm
      obtain ⟨hdone, hne⟩ : m ∉ done ∧ m ≠ n := by simpa using hm
      rw [(hother hne).1, h.laneTodo m hdone]
    portTodo := by
      intro m hm
      obtain ⟨hdone, hne⟩ : m ∉ done ∧ m ≠ n := by simpa using hm
      rw [(hother hne).2, h.portTodo m hdone]
    deferred := by
      rw [State.metTable_append, ← hmeets]
      rfl
    passback := (x.warmed_passback n).trans h.passback
    maze := by
      change { x.maze with count := (x.warmed n).maze.count } = _
      rw [h.maze]
      rfl
    count := fun hm => by
      rw [List.map_append, List.sum_append, List.map_singleton, List.sum_singleton, ← hlapses, ← Nat.add_assoc]
      exact x.warmed_count n _ (h.count hm)
    mgmt := by
      refine ⟨l ++ ((x.warmMeets n).lost ++ x.warmLatches n), ?_, fun f => ?_⟩
      · change x.mgmt.latchingAll x.loop.pendingEvents x.time.stationTime _ = _
        rw [hmgmt, h.loop, h.time, hlp, Mgmt.latchingAll_append]
      · rw [List.any_append, ← Bool.or_assoc, hflags, hmeets, hlatches, State.warmNewly_append, Bool.or_assoc] }

/-- The four lanes at the warm reset, lane 1 first. -/
theorem State.warmedThrough_all (hlp : lp.pendingEvents = s.loop.pendingEvents) :
    s.WarmedThrough lp LaneId.all (LaneId.all.foldl State.warmLane { s with loop := lp }) := by
  have h1 := (State.warmedThrough_nil (s := s) lp).step (n := .l1) rfl (by decide) hlp
  have h2 := h1.step (n := .l2) rfl (by decide) hlp
  have h3 := h2.step (n := .l3) rfl (by decide) hlp
  have h4 := h3.step (n := .l4) rfl (by decide) hlp
  simpa only [LaneId.all, List.foldl_cons, List.foldl_nil, List.nil_append, List.cons_append] using h4

end Through

end Sys2Proof.Machine
end

