-- ==== Sys2Proof/Proofs/Restart.lean ====
section
/-! PROOFS. RESTART: the warm reset of the other blocks, and the end of its event. -/

namespace Sys2Proof.Machine

/-! ### Reports that meet the queue (R167, R183) -/

/-- `s` with this insert queue and these reports pending. -/
def State.withQueues (s : State) (q : List Outgoing) (p : List EventReport) : State :=
  { s with loop := { s.loop with insertQueue := q, pendingEvents := p } }

/-- `x` is `s` after these reports, as many of them queued as found a general entry free and the others pending. -/
def State.Queues (s x : State) (reports : List EventReport) : Prop :=
  ∃ sent, x = s.withQueues (s.loop.insertQueue ++ sent.map Outgoing.event) x.loop.pendingEvents
    ∧ sent ++ x.loop.pendingEvents = reports ∧ (x.loop.pendingEvents = [] ∨ x.generalFree = 0)

section Queues

variable {s : State}

theorem State.withQueues_withQueues (q q' : List Outgoing) (p p' : List EventReport) :
    (s.withQueues q p).withQueues q' p' = s.withQueues q' p' := rfl

theorem State.enqueue_eq_withQueues (o : Outgoing) (h : s.ownAddress.isSome = true) :
    s.enqueue o = s.withQueues (s.loop.insertQueue ++ [o]) s.loop.pendingEvents := by
  have hn : ¬s.ownAddress.isNone = true := by cases hs : s.ownAddress <;> simp_all
  rw [State.enqueue, if_neg hn]
  rfl

/-- Pending reports take the free entries, oldest first. -/
theorem State.drainPending_queues (k : Nat) (hk : s.loop.pendingEvents.length ≤ k) (h : s.ownAddress.isSome = true) :
    s.Queues (s.drainPending k) s.loop.pendingEvents := by
  induction k generalizing s with
  | zero =>
    have hnil : s.loop.pendingEvents = [] := List.length_eq_zero_iff.1 (by omega)
    exact ⟨[], by simp [State.drainPending, State.withQueues], by simp [State.drainPending], .inl hnil⟩
  | succ k ih =>
    cases hp : s.loop.pendingEvents with
    | nil =>
      have hsame : s.drainPending (k + 1) = s := by simp [State.drainPending, hp]
      rw [hsame]
      exact ⟨[], by simp [State.withQueues], by simp [hp], .inl hp⟩
    | cons r rest =>
      by_cases hfree : 0 < s.generalFree
      · have hstep : s.drainPending (k + 1)
            = (s.withQueues (s.loop.insertQueue ++ [.event r]) rest).drainPending k := by
          simp only [State.drainPending, hp, hfree, if_true]
          exact congrArg (State.drainPending k)
            (State.enqueue_eq_withQueues (s := s.withQueues s.loop.insertQueue rest) (.event r) h)
        obtain ⟨sent, hx, hsent, hend⟩ := ih (s := s.withQueues (s.loop.insertQueue ++ [.event r]) rest)
          (by rw [hp] at hk; simpa [State.withQueues] using hk) h
        rw [hstep]
        refine ⟨r :: sent, hx.trans ?_, ?_, hend⟩
        · rw [State.withQueues_withQueues]
          simp [State.withQueues]
        · simpa [State.withQueues] using hsent
      · have hsame : s.drainPending (k + 1) = s := by simp [State.drainPending, hp, hfree]
        rw [hsame]
        exact ⟨[], by simp [State.withQueues], by simp [hp], .inr (by omega)⟩

/-- A report of this event follows those before it. -/
theorem State.Queues.queueEvent {x : State} {reports : List EventReport} (h : s.Queues x reports) (r : EventReport)
    (hx : x.ownAddress.isSome = true) : s.Queues (x.queueEvent r) (reports ++ [r]) := by
  obtain ⟨sent, heq, hsent, hend⟩ := h
  by_cases hfree : 0 < x.generalFree
  · have hnil : x.loop.pendingEvents = [] := hend.resolve_right (by omega)
    have hqueue : x.queueEvent r = x.withQueues (x.loop.insertQueue ++ [.event r]) [] := by
      rw [State.queueEvent, if_pos hfree, State.enqueue_eq_withQueues _ hx, hnil]
    refine ⟨sent ++ [r], ?_, ?_, .inl (by rw [hqueue]; rfl)⟩
    · rw [hqueue, heq]
      simp [State.withQueues]
    · rw [hqueue, ← hsent, hnil]
      simp [State.withQueues]
  · have hqueue : x.queueEvent r = x.withQueues x.loop.insertQueue (x.loop.pendingEvents ++ [r]) := by
      rw [State.queueEvent, if_neg hfree]
      rfl
    have hgeneral : (x.queueEvent r).generalFree = x.generalFree := by rw [hqueue]; rfl
    refine ⟨sent, ?_, ?_, .inr (by omega)⟩
    · rw [hqueue, heq]
      rfl
    · rw [hqueue, ← hsent]
      simp [State.withQueues]

theorem State.Queues.foldl {x : State} {reports : List EventReport} (h : s.Queues x reports)
    (new : List EventReport) (hx : x.ownAddress.isSome = true) :
    s.Queues (new.foldl State.queueEvent x) (reports ++ new) := by
  induction new generalizing x reports with
  | nil => simpa using h
  | cons r new ih =>
    have hown : (x.queueEvent r).ownAddress.isSome = true := by simpa using hx
    have hnext := ih (h.queueEvent r hx) hown
    rwa [List.append_assoc] at hnext

end Queues

/-! ### The reports of the event, in order of flag identifier -/

theorem map_filterMap_eq_filter {α β : Type} (g : α → Option β) (k : β → α) (p : α → Bool) (l : List α)
    (hp : ∀ a, (g a).isSome = p a) (hk : ∀ a b, g a = some b → k b = a) : (l.filterMap g).map k = l.filter p := by
  induction l with
  | nil => rfl
  | cons a l ih =>
    have ha := hp a
    cases hg : g a with
    | none =>
      have hfalse : p a = false := by rw [← ha, hg]; rfl
      rw [List.filterMap_cons_none hg, List.filter_cons_of_neg (by simp [hfalse]), ih]
    | some b =>
      have htrue : p a = true := by rw [← ha, hg]; rfl
      rw [List.filterMap_cons_some hg, List.filter_cons_of_pos htrue, List.map_cons, ih, hk a b hg]

/-- The flags of the reports that an event has made. -/
theorem State.made_flags {s : State} {p : Flag → Bool}
    (h : ∀ f, (s.mgmt.raised.find? fun r => r.flag == f).isSome = p f) :
    s.made.map (fun r : EventReport => r.flag) = Flag.all.filter p := by
  refine map_filterMap_eq_filter _ _ p Flag.all h fun f r hr => ?_
  simpa using List.find?_some hr

theorem State.mem_of_made {s : State} {r : EventReport} (h : r ∈ s.made) : r ∈ s.mgmt.raised := by
  obtain ⟨f, -, hr⟩ := List.mem_filterMap.1 h
  exact List.mem_of_find?_eq_some hr

/-! ### The end of the event -/

/-- The reports of the event behind those pending. -/
theorem State.queuePending_flushRaised {s : State} (h : s.ownAddress.isSome = true) :
    ∃ sent rest, s.queuePending.flushRaised
        = (s.withQueues (s.loop.insertQueue ++ sent.map Outgoing.event) rest).raising []
      ∧ sent ++ rest = s.loop.pendingEvents ++ s.made
      ∧ (rest = [] ∨ (s.withQueues (s.loop.insertQueue ++ sent.map Outgoing.event) rest).generalFree = 0) := by
  have hown : s.queuePending.ownAddress.isSome = true := by simpa using h
  have hmade : s.queuePending.made = s.made := by simp [State.made]
  obtain ⟨sent, hx, hsent, hend⟩ := (State.drainPending_queues _ (le_refl _) h).foldl s.made hown
  refine ⟨sent, _, ?_, hsent, ?_⟩
  · rw [State.flushRaised_eq, hmade]
    exact congrArg (State.raising · []) hx
  · rw [← hx]
    exact hend

/-- `s` with its output sending `m`. -/
def State.sendingNow (s : State) (m : Option LoopMessage) : State :=
  { s with loop := { s.loop with sending := m, fairness := 0 } }

theorem State.generalFree_sendingNow (x : State) (q : List Outgoing) (p : List EventReport) (m : Option LoopMessage) :
    (((x.raising []).withQueues q p).sendingNow m).generalFree = (x.withQueues q p).generalFree := rfl

theorem State.sendingNow_self {s : State} (h : s.loop.fairness = 0) : s.sendingNow s.loop.sending = s := by
  rw [State.sendingNow, ← h]

/-- With nothing in transit a free output begins the first message of the send order. -/
theorem State.arbitrate_first {x : State} {o : Outgoing} {q : List Outgoing} {p : List EventReport} (b : Bool)
    (hs : x.loop.sending = none) (ht : x.loop.transit = []) :
    (x.withQueues (o :: q) p).arbitrate b = (x.withQueues q p).sendingNow (some (o.message x.ownByte)) := by
  simp [State.arbitrate, State.withQueues, hs, ht, State.startInsert, State.sendingNow, State.ownByte]

/-- An ANSWER takes no general entry. -/
theorem State.generalFree_answer {x : State} {o : Outgoing} {q : List Outgoing} {p : List EventReport}
    (ho : o.isAnswer = true) : (x.withQueues (o :: q) p).generalFree = (x.withQueues q p).generalFree := by
  simp [State.generalFree, State.generalOccupied, State.generalReserved, State.withQueues, ho]

/-- The end of an event on a part with nothing in transit, whose output sends or has an answer alone to send. -/
theorem State.finish_of_answer {s z : State} {o : Outgoing} (hs : s.OutputServed) (hh : z.heldOrder = [])
    (hown : z.ownAddress = s.ownAddress) (hsome : s.ownAddress.isSome = true) (ho : o.isAnswer = true)
    (hq : z.loop.insertQueue = s.loop.insertQueue ++ [o]) (hsend : z.loop.sending = s.loop.sending)
    (ht : z.loop.transit = []) (hf : z.loop.fairness = 0) :
    ∃ sent rest, z.finish s = (((z.checkMazeFull s).withQueues
        ((s.offered o).loop.insertQueue ++ sent.map Outgoing.event) rest).raising []).sendingNow
          (s.offered o).loop.sending
      ∧ sent ++ rest = z.loop.pendingEvents ++ (z.checkMazeFull s).made := by
  have hloop : (z.checkMazeFull s).loop = z.loop := by simp
  have hsome' : (z.checkMazeFull s).ownAddress.isSome = true := by simpa [hown] using hsome
  have hbyte : (z.checkMazeFull s).ownByte = s.ownByte := by simp [State.ownByte, hown]
  obtain ⟨sent, rest, hflush, hsent, hend⟩ := State.queuePending_flushRaised hsome'
  rw [hloop] at hflush hsent hend
  refine ⟨sent, rest, ?_, hsent⟩
  rw [State.finish, State.givePlaces_of_given _ _ (.inl hh)]
  rw [hflush]
  cases hsending : s.loop.sending with
  | some m =>
    have hoffered : (s.offered o).loop.insertQueue = s.loop.insertQueue ++ [o]
        ∧ (s.offered o).loop.sending = s.loop.sending := by simp [State.offered, hsending]
    obtain ⟨hqueue, hsent'⟩ := hoffered
    rw [hqueue, hsent', ← hq, ← hsend, ← hloop]
    have hbusy : (((z.checkMazeFull s).withQueues ((z.checkMazeFull s).loop.insertQueue ++ sent.map Outgoing.event)
        rest).raising []).OutputServed := .inl (by
      change (z.checkMazeFull s).loop.sending.isSome = true
      rw [hloop, hsend, hsending]
      rfl)
    rw [← hloop] at hend
    rw [State.arbitrate_of_served _ _ hbusy, State.queuePending_of_queued _ hend]
    refine (State.sendingNow_self ?_).symm
    rw [← hf, ← hloop]
    rfl
  | none =>
    have hempty : s.loop.insertQueue = [] := by
      rcases hs with hs | hs
      · simp [hsending] at hs
      · exact hs.2
    have hoffered : (s.offered o).loop.insertQueue = []
        ∧ (s.offered o).loop.sending = some (o.message s.ownByte) := by simp [State.offered, hsending, hempty]
    obtain ⟨hqueue, hsent'⟩ := hoffered
    have hfirst : z.loop.insertQueue ++ sent.map Outgoing.event = o :: sent.map Outgoing.event := by
      rw [hq, hempty]
      rfl
    have hidle : ((z.checkMazeFull s).raising []).loop.sending = none := by
      change (z.checkMazeFull s).loop.sending = none
      rw [hloop, hsend, hsending]
    have htransit : ((z.checkMazeFull s).raising []).loop.transit = [] := by
      change (z.checkMazeFull s).loop.transit = []
      rw [hloop, ht]
    rw [hfirst] at hend ⊢
    rw [State.generalFree_answer ho] at hend
    have harb := State.arbitrate_first (x := (z.checkMazeFull s).raising []) (o := o)
      (q := sent.map Outgoing.event) (p := rest) true hidle htransit
    have hbyte' : ((z.checkMazeFull s).raising []).ownByte = s.ownByte := hbyte
    rw [hbyte'] at harb
    rw [hqueue, hsent', List.nil_append]
    refine (congrArg State.queuePending harb).trans (State.queuePending_of_queued _ ?_)
    rw [State.generalFree_sendingNow]
    exact hend

/-! ### The other blocks (R61, R115, R173) -/

theorem State.closeChairWindow_eq (s : State) : s.closeChairWindow = { s with maze := s.maze.recorded } := by
  rw [State.closeChairWindow, Maze.recorded]
  cases s.maze.window <;> rfl

/-- The gate as the lift and the loading hold say (R104). -/
def Maze.warmGate (m : Maze) : GateState := if m.liftRun then (if m.loadingHold then .held else .waiting) else .stopped

theorem State.warmMaze_eq {s : State} (h : s.ownAddress.isSome = true) :
    s.warmMaze = { s with maze := { s.maze.recorded with gate := s.maze.warmGate } } := by
  have hpass : ({ s with maze := s.maze.recorded } : State).passThrough = false := by
    simpa [State.passThrough] using h
  have hlift : s.maze.recorded.liftRun = s.maze.liftRun := by rw [Maze.recorded]; split <;> rfl
  have hhold : s.maze.recorded.loadingHold = s.maze.loadingHold := by rw [Maze.recorded]; split <;> rfl
  rw [State.warmMaze, State.closeChairWindow_eq]
  simp only [hpass, Bool.false_eq_true, if_false, hlift, State.setGate, State.gateRunning, hhold, Maze.warmGate]
  cases s.maze.liftRun <;> rfl

/-- The other blocks at the warm reset, once the lanes have been taken. -/
def State.blocksReset (x : State) : State :=
  { x with
    heldOrder := []
    maze := { x.maze.recorded with gate := x.maze.warmGate }
    passback := x.passback.filter (·.confirmed)
    loop := { x.loop with
      link := .down, silence := none, training := none, badRun := 0, downByLoss := false, transit := [], fairness := 0 }
    mgmt := { x.mgmt with shadows := .absent } }

theorem State.warmReset_eq {s : State} (h : (LaneId.all.foldl State.warmLane s).ownAddress.isSome = true) :
    s.warmReset = (LaneId.all.foldl State.warmLane s).blocksReset := by
  rw [State.warmReset]
  generalize LaneId.all.foldl State.warmLane s = x at h ⊢
  have hmaze := State.warmMaze_eq (s := { x with heldOrder := [] }) h
  rw [hmaze]
  rfl

/-! ### The command (R174, R175, R187) -/

section Command

variable {s : State} {m : Arrival}

/-- The ANSWER of RESTART. -/
def restartAnswer : Outgoing := .answer ⟨0x0C, .done, 0xFF, []⟩

/-- The loop of `s` when RESTART has been heard and its ANSWER queued. -/
def State.restartLoop (s : State) : Loop :=
  { s.heard.loop with insertQueue := s.loop.insertQueue ++ [restartAnswer] }

theorem State.TakesCommand.own {type : Byte} (h : s.TakesCommand type m) : s.ownAddress.isSome = true := by
  obtain ⟨-, hc, -⟩ := h
  have howned := hc.2
  cases hs : s.ownAddress with
  | none => simp [State.isOwn, hs] at howned
  | some a => rfl

theorem exec_restart (m : Arrival) (s : State) : exec (.restart m) s
    = .next (s.event fun x => x.receive 0x0C m fun x => x.deliverRestart m) := rfl

theorem State.restart_queued (hroom : ¬4 ≤ s.heard.answersOccupied) (hown : s.ownAddress.isSome = true) :
    (s.heard.takeCommand 0x0C fun x => x.done []) = { s with loop := s.restartLoop } := by
  have hqueue := State.enqueue_eq_withQueues (s := s.heard) restartAnswer hown
  rw [State.takeCommand, if_neg hroom]
  exact hqueue

/-- RESTART queues its ANSWER and makes the warm reset. -/
theorem State.restart_effect (h : s.TakesCommand 0x0C m) (hp : m.payload = []) :
    s.receive 0x0C m (fun x => x.deliverRestart m) = ({ s with loop := s.restartLoop } : State).warmReset := by
  have hown := h.own
  obtain ⟨-, hc, hm, hd, ha⟩ := h
  have hroom : ¬4 ≤ s.heard.answersOccupied := Nat.not_le.2 ha
  rw [State.receive_of_consumes _ hc, State.deliverRestart, State.commandDelivered, if_pos ⟨hm, hd⟩,
    State.restartCommand, hp, if_neg (by simp), if_neg hroom, State.restart_queued hroom hown]

end Command

/-! ### What each block is after RESTART -/

section After

variable {s x : State}

/-- MAZE_FULL's latch at the end of the event. -/
def State.fullLatches (z s : State) : List (Flag × Nat) :=
  if s.placeFree && !z.placeFree then [(.mazeFull, z.maze.count)] else []

theorem State.checkMazeFull_eq (z s : State) : z.checkMazeFull s = z.latches (z.fullLatches s) := by
  rw [State.checkMazeFull, State.fullLatches, State.latch_eq]
  split <;> rfl

theorem Lane.warmRested_fields (l : Lane) (st : LaneState) :
    let w := l.warmEnded.cleared.warmRested st
    (w.txn = none ∧ w.grantTimer = none ∧ w.trailTimer = none ∧ w.recoveryTimer = none ∧ w.holdTimer = none
        ∧ w.alarmTimer = none ∧ w.arm = l.arm ∧ w.pendingRole = none ∧ w.grantExpired = false ∧ w.kept = 0
        ∧ w.lateFree = none ∧ w.keyHigh = l.keyHigh ∧ w.commandOpen = l.commandOpen)
      ∧ w.role = l.warmRole ∧ w.state = st
      ∧ w.window = (if st = .freeFlow ∧ l.arm = .forward then some ⟨0, false⟩ else none)
      ∧ w.day = (if l.atBarrier then l.counting .lapsed 1 else l).day
      ∧ w.interval = (if l.atBarrier then l.counting .lapsed 1 else l).interval := by
  obtain ⟨hrole, hpend, -, hkey, hopen, harm⟩ := l.warmEnded_keeps
  refine ⟨⟨rfl, rfl, rfl, rfl, rfl, rfl, harm, rfl, rfl, rfl, rfl, hkey, hopen⟩, ?_, rfl, ?_, rfl, rfl⟩
  · change (l.warmEnded.pendingRole <|> l.warmEnded.role) = _
    rw [hpend, hrole]
    rfl
  · change (if st = .freeFlow ∧ l.warmEnded.arm = .forward then _ else _) = _
    rw [harm]

theorem Mgmt.latchingAll_shadows (m : Mgmt) (pending : List EventReport) (now : Nat) (l : List (Flag × Nat))
    (sh : Shadows) : ({ m with shadows := sh } : Mgmt).latchingAll pending now l
      = { m.latchingAll pending now l with shadows := sh } := by
  induction l generalizing m with
  | nil => rfl
  | cons p l ih =>
    have hstep : ({ m with shadows := sh } : Mgmt).latching pending now p.1 p.2
        = { m.latching pending now p.1 p.2 with shadows := sh } := by
      simp only [Mgmt.latching]
      split <;> rfl
    exact (congrArg (Mgmt.latchingAll · pending now l) hstep).trans (ih _)

/-- The flags set and the reports made by latches of which no other had one. -/
theorem State.latched_reports {y : State} {l : List (Flag × Nat)} {newly : Flag → Bool}
    (hm : y.mgmt = { s.mgmt.latchingAll s.loop.pendingEvents s.time.stationTime l with shadows := .absent })
    (hr : s.mgmt.raised = [])
    (hn : ∀ f, (s.flagSet f || l.any fun p => p.1 == f) = (s.flagSet f || newly f)) :
    (∀ f, y.flagSet f = (s.flagSet f || newly f))
      ∧ y.made.map (fun r : EventReport => r.flag)
        = Flag.all.filter (fun f => newly f && !s.flagSet f && s.flagEnabled f && !s.eventPending f)
      ∧ ∀ r ∈ y.made, r.time = s.time.stationTime := by
  refine ⟨fun f => ?_, State.made_flags fun f => ?_, fun r hr' => ?_⟩
  · rw [State.flagSet, hm, ← hn f]
    exact Mgmt.latchingAll_flags l f
  · have hraised := Mgmt.latchingAll_raised (m := s.mgmt) (pending := s.loop.pendingEvents)
      (now := s.time.stationTime) l f
    have hany : ((l.any fun p => p.1 == f) && !s.flagSet f) = (newly f && !s.flagSet f) := by
      cases hs : s.flagSet f with
      | false => simpa [hs] using hn f
      | true => simp
    rw [hm]
    refine hraised.trans ?_
    rw [hr, List.find?_nil, Option.isSome_none, Bool.false_or, Mgmt.makes, Bool.and_assoc, ← Bool.and_assoc]
    change ((l.any fun p => p.1 == f) && !s.flagSet f && (s.flagEnabled f && !s.eventPending f)) = _
    rw [hany, Bool.and_assoc, Bool.and_assoc, Bool.and_assoc]
  · have hmem := State.mem_of_made hr'
    rw [hm] at hmem
    refine (Mgmt.latchingAll_time l hmem).resolve_left ?_
    rw [hr]
    simp

/-- The part after the RESTART of `s`, whose lanes the warm reset has left as `x` has them, with these reports queued
and pending. -/
def State.restarted (s x : State) (sent rest : List EventReport) : State :=
  (((x.blocksReset.latches (x.blocksReset.fullLatches s)).withQueues
    ((s.offered restartAnswer).loop.insertQueue ++ sent.map Outgoing.event) rest).raising []).sendingNow
      (s.offered restartAnswer).loop.sending

/-- RESTART, but for the lanes. -/
theorem State.exec_restart_eq {m : Arrival} (h : s.TakesCommand 0x0C m) (hp : m.payload = [])
    (hx : s.WarmedThrough s.restartLoop LaneId.all x)
    (hfold : LaneId.all.foldl State.warmLane { s with loop := s.restartLoop } = x) :
    ∃ sent rest, exec (.restart m) s = .next (s.restarted x sent rest)
      ∧ sent ++ rest = s.loop.pendingEvents ++ (x.blocksReset.latches (x.blocksReset.fullLatches s)).made := by
  have hown := h.own
  have hxown : x.ownAddress.isSome = true := by rw [hx.own]; exact hown
  have hreset : ({ s with loop := s.restartLoop } : State).warmReset = x.blocksReset := by
    rw [State.warmReset_eq (by rw [hfold]; exact hxown), hfold]
  have hqueue : x.blocksReset.loop.insertQueue = s.loop.insertQueue ++ [restartAnswer] := by
    change x.loop.insertQueue = _
    rw [hx.loop]
    rfl
  have hsending : x.blocksReset.loop.sending = s.loop.sending := by
    change x.loop.sending = _
    rw [hx.loop]
    rfl
  have hpending : x.blocksReset.loop.pendingEvents = s.loop.pendingEvents := by
    change x.loop.pendingEvents = _
    rw [hx.loop]
    rfl
  obtain ⟨sent, rest, hfin, hsent⟩ := State.finish_of_answer (z := x.blocksReset) (o := restartAnswer) h.1.2.2 rfl
    hx.own hown rfl hqueue hsending rfl rfl
  rw [State.checkMazeFull_eq] at hfin hsent
  refine ⟨sent, rest, ?_, by rw [hsent, hpending]⟩
  rw [exec_restart, State.event, State.restart_effect h hp, hreset, hfin]
  rfl

variable {t : State} {n : LaneId}

/-- The first state of a lane, as a state with the same tables, day, key and reader shows it. -/
theorem State.warmState_restingState (hl : t.lane n = s.warmedLane n) (hp : t.port n = s.warmPort n)
    (ht : t.tables = s.tables) (hd : t.time = s.time) :
    s.warmState n = if (t.lane n).role = some .ticket ∧ s.freeFlowInForce = true then .freeFlow
      else t.restingState n := by
  obtain ⟨⟨-, -, -, -, -, -, -, -, -, -, -, hkey, hopen⟩, hrole, -⟩ := (s.lane n).warmRested_fields (s.warmState n)
  have hresting : t.restingState n = s.restingIn n (s.lane n).warmRole := by
    refine State.restingState_congr n ?_ ?_ ?_ ht (congrArg TimeBase.dayState hd) (by rw [hp]; rfl)
    · rw [hl, State.withLane_lane_same]
      exact hrole
    · rw [hl, State.withLane_lane_same]
      exact hkey
    · rw [hl, State.withLane_lane_same]
      exact hopen
  have hrole' : (t.lane n).role = (s.lane n).warmRole := by rw [hl]; exact hrole
  rw [State.warmState, hrole', hresting]

theorem State.reservations_of_warmed (h : ∀ n, t.lane n = s.warmedLane n) : t.reservations = 0 := by
  have hnone (n : LaneId) : (t.lane n).reservation = 0 := Lane.reservation_of_none (by rw [h]; rfl)
  have h1 := hnone .l1
  have h2 := hnone .l2
  have h3 := hnone .l3
  have h4 := hnone .l4
  simp only [State.lane, PerLane.get] at h1 h2 h3 h4
  rw [State.reservations, h1, h2, h3, h4]

theorem State.warmPort_fields (s : State) (n : LaneId) :
    (s.warmPort n).write = none ∧ (s.warmPort n).waiting = none ∧ (s.warmPort n).status = (s.port n).status
      ∧ (s.warmPort n).heartbeat = (if (s.port n).status = .lost then (s.port n).heartbeat
        else some ⟨s.ms, s.settings.readerLossMs⟩)
      ∧ (s.warmPort n).tx = (s.port n).tx ++ s.warmFrames n := ⟨rfl, rfl, rfl, rfl, rfl⟩

theorem Maze.recorded_with (m : Maze) (c : Nat) :
    ({ m with count := c } : Maze).recorded = { m.recorded with count := c }
      ∧ m.recorded.window = none ∧ m.recorded.loadingHold = m.loadingHold := by
  simp only [Maze.recorded]
  cases hw : m.window <;> simp [hw]

/-- The maze after RESTART (R115). -/
theorem State.WarmedThrough.maze_reset {lp : Loop} (hx : s.WarmedThrough lp LaneId.all x) :
    x.blocksReset.maze = { s.maze.recorded with count := x.maze.count, gate := s.maze.warmGate } := by
  change { x.maze.recorded with gate := x.maze.warmGate } = _
  rw [hx.maze, (s.maze.recorded_with x.maze.count).1]
  rfl

/-- The flags that the whole of RESTART latches. -/
def State.restartNewly (s t : State) (f : Flag) : Bool :=
  match f with
  | .deferredLost => (s.offering s LaneId.all).flagSet .deferredLost
  | .laneFault => LaneId.all.any fun n =>
    (t.lane n).state == .fault && ((s.lane n).state != .fault || (s.lane n).pendingRole.isSome)
  | .readerLost => LaneId.all.any fun n =>
    (s.lane n).pendingRole.any (·.usesReader) && (s.port n).status == .lost
  | .mazeFull => s.placeFree && !t.placeFree
  | _ => false

theorem State.restartNewly_eq (hl : ∀ n, t.lane n = s.warmedLane n) (f : Flag) (d : Nat) :
    s.restartNewly t f = (s.warmNewly LaneId.all f
      || (if s.placeFree && !t.placeFree then [(Flag.mazeFull, d)] else []).any fun p => p.1 == f) := by
  have hstate (n : LaneId) : (t.lane n).state = s.warmState n := by rw [hl]; rfl
  generalize hfull : (s.placeFree && !t.placeFree) = full
  cases f <;> cases full <;> simp [State.restartNewly, State.warmNewly, hstate, hfull]

/-- The flags and the reports of RESTART. -/
theorem State.restart_reports {lp : Loop} (hx : s.WarmedThrough lp LaneId.all x)
    (hlp : lp.pendingEvents = s.loop.pendingEvents) (hr : s.mgmt.raised = []) :
    let y := x.blocksReset.latches (x.blocksReset.fullLatches s)
    (∀ f, y.flagSet f = (s.flagSet f || s.restartNewly y f))
      ∧ y.made.map (fun r : EventReport => r.flag)
        = Flag.all.filter (fun f => s.restartNewly y f && !s.flagSet f && s.flagEnabled f && !s.eventPending f)
      ∧ (∀ r ∈ y.made, r.time = s.time.stationTime)
      ∧ y.mgmt.shadows = .absent ∧ y.mgmt.enables = s.mgmt.enables ∧ y.mgmt.overruns = s.mgmt.overruns := by
  intro y
  obtain ⟨l, hmgmt, hflags⟩ := hx.mgmt
  have hy : y.mgmt = { s.mgmt.latchingAll s.loop.pendingEvents s.time.stationTime
      (l ++ x.blocksReset.fullLatches s) with shadows := .absent } := by
    change ({ x.mgmt with shadows := .absent } : Mgmt).latchingAll x.loop.pendingEvents x.time.stationTime _ = _
    rw [Mgmt.latchingAll_shadows, hmgmt, hx.loop, hx.time, hlp, Mgmt.latchingAll_append]
  have hlane (n : LaneId) : y.lane n = s.warmedLane n := hx.laneDone n (by cases n <;> decide)
  obtain ⟨hset, hmade, htime⟩ := State.latched_reports (newly := s.restartNewly y) hy hr fun f => by
    rw [List.any_append, ← Bool.or_assoc, hflags, Bool.or_assoc, State.restartNewly_eq hlane f]
    rfl
  obtain ⟨-, henables, hoverruns⟩ := s.mgmt.latchingAll_keeps (pending := s.loop.pendingEvents)
    (now := s.time.stationTime) (l ++ x.blocksReset.fullLatches s)
  exact ⟨hset, hmade, htime, by rw [hy], by rw [hy]; exact henables, by rw [hy]; exact hoverruns⟩

end After

/-- Settles O60: the four lanes in turn, the other blocks, and the reports at the end of the event. -/
theorem restartResets : Obligations.RestartResets := by
  intro s m h hp answer lapses
  obtain ⟨x, hfold⟩ : ∃ x, LaneId.all.foldl State.warmLane { s with loop := s.restartLoop } = x := ⟨_, rfl⟩
  have hx : s.WarmedThrough s.restartLoop LaneId.all x := hfold ▸ State.warmedThrough_all rfl
  obtain ⟨sent, rest, hexec, hsent⟩ := State.exec_restart_eq h hp hx hfold
  obtain ⟨-, ⟨hraised, -⟩, -⟩ := h.1
  obtain ⟨hflags, hmade, htime, hshadows, henables, hoverruns⟩ := State.restart_reports hx rfl hraised
  have hlane (n : LaneId) : (s.restarted x sent rest).lane n = s.warmedLane n := hx.laneDone n (by cases n <;> decide)
  have hport (n : LaneId) : (s.restarted x sent rest).port n = s.warmPort n := hx.portDone n (by cases n <;> decide)
  have hmaze := hx.maze_reset
  obtain ⟨-, hwindow, hhold⟩ := s.maze.recorded_with x.maze.count
  obtain ⟨hcrc, horphans, htransit, hnotice⟩ : x.loop.crcErrors = s.loop.crcErrors ∧ x.loop.orphans = s.loop.orphans
      ∧ x.loop.transitDrops = s.loop.transitDrops ∧ x.loop.noticeDrops = s.loop.noticeDrops := by
    rw [hx.loop]
    exact ⟨rfl, rfl, rfl, rfl⟩
  refine ⟨s.restarted x sent rest, hexec, fun n => ?_, fun n => ?_, fun n => ?_, hx.deferred, rfl,
    State.reservations_of_warmed hlane, fun hm => ?_, ?_, ?_, hx.passback, rfl, rfl, rfl, rfl, rfl, rfl, rfl,
    hcrc, horphans, htransit, hnotice, ⟨hflags, sent, _, rfl, rfl, hsent, hmade, htime⟩, hshadows, henables,
    hoverruns, hx.tables, hx.time, hx.ms, hx.own, hx.setting, hx.pin⟩
  · rw [hlane]
    exact ((s.lane n).warmRested_fields _).1
  · obtain ⟨-, hrole, hstate, hwin, hday, hinterval⟩ := (s.lane n).warmRested_fields (s.warmState n)
    have hst : ((s.restarted x sent rest).lane n).state = s.warmState n := by rw [hlane]; exact hstate
    refine ⟨by rw [hlane]; exact hrole, ?_, ?_, ?_, ?_⟩
    · rw [hst]
      exact State.warmState_restingState (hlane n) (hport n) hx.tables hx.time
    · rw [hst, hlane]
      exact hwin
    · rw [hlane]
      exact hday
    · rw [hlane]
      exact hinterval
  · rw [hport]
    exact s.warmPort_fields n
  · have hcount := hx.count hm
    have hsum : s.maze.count + (LaneId.all.map s.lapses).sum
        = s.maze.count + lapses .l1 + lapses .l2 + lapses .l3 + lapses .l4 := by
      simp only [LaneId.all, List.map_cons, List.map_nil, List.sum_cons, List.sum_nil, State.lapses, lapses]
      omega
    rw [hsum] at hcount
    rw [hcount] at hmaze
    exact hmaze
  · exact (congrArg Maze.window hmaze).trans hwindow
  · exact (congrArg Maze.loadingHold hmaze).trans hhold

end Sys2Proof.Machine
end

