-- ==== Sys2Proof/Proofs/EventEnd.lean ====
section
/-! PROOFS. The end of an event leaves every part settled, and so does every step. -/

namespace Sys2Proof.Machine

/-! ### Places given (R41, R101) -/

theorem State.release_heldOrder_length_le (s : State) (n : LaneId) :
    (s.release n).heldOrder.length ≤ s.heldOrder.length := by
  cases ht : (s.lane n).txn with
  | none => simp [State.release, State.txn, ht]
  | some t =>
    rw [State.release_eq ht]
    exact List.length_filter_le _ _

/-- Step 13 brings no lane into the held order. -/
theorem State.grant_heldOrder_length_le (s : State) (n : LaneId) :
    (s.grant n).heldOrder.length ≤ s.heldOrder.length := by
  unfold State.grant
  split
  · exact le_rfl
  · split
    · split
      · simp
      · simpa [State.refuse] using
          State.release_heldOrder_length_le (s.sendFinal n .gone .red (Transaction.daysOnCard _) 0) n
    · simp

/-- The giving ends with no lane held or no place free, since each place given takes a lane out of the held
order. -/
theorem State.givePlaces_given (k : Nat) (s : State) (h : s.heldOrder.length ≤ k) :
    (s.givePlaces k).PlacesGiven := by
  induction k generalizing s with
  | zero => exact .inl (List.length_eq_zero_iff.1 (Nat.le_zero.1 h))
  | succ k ih =>
    cases hl : s.heldOrder with
    | nil => exact .inl (by simp [State.givePlaces, hl])
    | cons n rest =>
      cases hf : s.placeFree with
      | false =>
        have hg : s.PlacesGiven := .inr hf
        rwa [State.givePlaces_of_given _ _ hg]
      | true =>
        simp only [State.givePlaces, hl, hf, if_true]
        refine ih _ ((State.grant_heldOrder_length_le _ n).trans ?_)
        rw [hl] at h
        simpa using h

theorem State.PlacesGiven.congr {s t : State} (h : s.PlacesGiven) (hh : t.heldOrder = s.heldOrder)
    (hm : t.maze = s.maze) (hl : t.lanes = s.lanes) (ht : t.tables = s.tables) : t.PlacesGiven := by
  have hf : t.placeFree = s.placeFree := State.placeFree_congr (by rw [hm]) (by simp [State.reservations, hl]) ht
  rwa [State.PlacesGiven, hh, hf]

/-! ### Reports queued (R167, R183) -/

/-- No EVENT report is pending beside a free general entry. -/
def State.PendingQueued (s : State) : Prop := s.loop.pendingEvents = [] ∨ s.generalFree = 0

/-- A message queued changes the insert queue alone. -/
theorem State.enqueue_loop (s : State) (o : Outgoing) :
    (s.enqueue o).loop.pendingEvents = s.loop.pendingEvents ∧ (s.enqueue o).loop.sending = s.loop.sending := by
  unfold State.enqueue
  split <;> exact ⟨rfl, rfl⟩

theorem State.drainPending_queued (k : Nat) (s : State) (h : s.loop.pendingEvents.length ≤ k) :
    (s.drainPending k).PendingQueued := by
  induction k generalizing s with
  | zero => exact .inl (List.length_eq_zero_iff.1 (Nat.le_zero.1 h))
  | succ k ih =>
    cases hp : s.loop.pendingEvents with
    | nil => exact .inl (by simp [State.drainPending, hp])
    | cons r rest =>
      by_cases hf : 0 < s.generalFree
      · simp only [State.drainPending, hp, hf, if_true]
        refine ih _ ?_
        rw [(State.enqueue_loop _ _).1]
        rw [hp] at h
        simpa using h
      · simp only [State.drainPending, hp, hf, if_false]
        exact .inr (by omega)

theorem State.queuePending_queued (s : State) : s.queuePending.PendingQueued :=
  State.drainPending_queued _ s le_rfl

/-- A report that meets the queue is pending only where no general entry is free. -/
theorem State.PendingQueued.queueEvent {s : State} (h : s.PendingQueued) (r : EventReport) :
    (s.queueEvent r).PendingQueued := by
  unfold State.queueEvent
  split
  · exact .inl ((s.enqueue_loop _).1.trans (h.resolve_right (by omega)))
  · exact .inr (Nat.eq_zero_of_not_pos ‹_›)

theorem State.PendingQueued.foldl_queueEvent {s : State} (h : s.PendingQueued) (rs : List EventReport) :
    (rs.foldl State.queueEvent s).PendingQueued := by
  induction rs generalizing s with
  | nil => exact h
  | cons r rs ih => exact ih (h.queueEvent r)

/-- The reports of the event have all met the queue. -/
theorem State.PendingQueued.flushRaised {s : State} (h : s.PendingQueued) :
    s.flushRaised.PendingQueued ∧ s.flushRaised.mgmt.raised = [] := by
  rw [State.flushRaised_eq]
  exact ⟨h.foldl_queueEvent s.made, rfl⟩

/-! ### The output served (R168) -/

/-- The arbiter leaves a message in sending, or has found both queues empty. -/
theorem State.arbitrate_sends_or_idles (s : State) (b : Bool) :
    (s.arbitrate b).loop.sending.isSome = true
      ∨ (s.arbitrate b = s ∧ s.loop.transit = [] ∧ s.loop.insertQueue = []) := by
  by_cases hs : s.loop.sending.isSome = true
  · exact .inl (by simp [State.arbitrate, hs])
  · cases ht : s.loop.transit with
    | nil =>
      cases hi : s.loop.insertQueue with
      | nil => exact .inr (by simp [State.arbitrate, hs, ht, hi])
      | cons o q => exact .inl (by simp [State.arbitrate, hs, ht, hi, State.startInsert])
    | cons m q =>
      left
      cases hi : s.loop.insertQueue with
      | nil => simp [State.arbitrate, hs, ht, hi, State.startTransit]
      | cons o q' =>
        simp only [State.arbitrate, hs, ht, hi, State.startTransit, State.startInsert]
        (repeat' split) <;> simp_all

theorem State.drainPending_sending (k : Nat) (s : State) : (s.drainPending k).loop.sending = s.loop.sending := by
  induction k generalizing s with
  | zero => rfl
  | succ k ih =>
    unfold State.drainPending
    split
    · rfl
    · split
      · rw [ih, (State.enqueue_loop _ _).2]
      · rfl

/-- The output's choice and the entries it frees. -/
theorem State.PendingQueued.arbitrate {s : State} (h : s.PendingQueued) (b : Bool) :
    (s.arbitrate b).queuePending.OutputServed := by
  rcases s.arbitrate_sends_or_idles b with hs | ⟨hsame, ht, hi⟩
  · exact .inl (by rwa [State.queuePending, State.drainPending_sending])
  · rw [hsame, State.queuePending_of_queued s h]
    exact .inr ⟨ht, hi⟩

/-! ### The end of an event, and a step -/

/-- The output's part of the end of an event leaves places and reports as they are. -/
theorem State.arbitrate_queuePending_frame (s : State) (b : Bool) :
    (s.arbitrate b).queuePending.heldOrder = s.heldOrder ∧ (s.arbitrate b).queuePending.maze = s.maze
      ∧ (s.arbitrate b).queuePending.lanes = s.lanes ∧ (s.arbitrate b).queuePending.tables = s.tables
      ∧ (s.arbitrate b).queuePending.mgmt = s.mgmt := by
  simp

theorem State.queuePending_flushRaised_frame (s : State) :
    s.queuePending.flushRaised.heldOrder = s.heldOrder ∧ s.queuePending.flushRaised.maze = s.maze
      ∧ s.queuePending.flushRaised.lanes = s.lanes ∧ s.queuePending.flushRaised.tables = s.tables := by
  simp

/-- Where places are given, the reports and the output leave the part settled. -/
theorem State.PlacesGiven.settled {x : State} (h : x.PlacesGiven) (b : Bool) :
    (x.queuePending.flushRaised.arbitrate b).queuePending.Settled := by
  obtain ⟨hqueued, hraised⟩ := (State.queuePending_queued x).flushRaised
  obtain ⟨hheld, hmaze, hlanes, htables⟩ := x.queuePending_flushRaised_frame
  obtain ⟨hheld', hmaze', hlanes', htables', hmgmt⟩ := x.queuePending.flushRaised.arbitrate_queuePending_frame b
  refine ⟨h.congr (hheld'.trans hheld) (hmaze'.trans hmaze) (hlanes'.trans hlanes) (htables'.trans htables),
    ⟨?_, State.queuePending_queued _⟩, hqueued.arbitrate b⟩
  rw [hmgmt]
  exact hraised

/-- The end of an event settles the part, whatever the event has done. -/
theorem State.finish_settled (s before : State) : (s.finish before).Settled := by
  have hgiven : ((s.givePlaces s.heldOrder.length).checkMazeFull before).PlacesGiven :=
    (State.givePlaces_given _ s le_rfl).congr (by simp) (by simp) (by simp) (by simp)
  exact hgiven.settled before.loop.sending.isNone

theorem State.event_settled (s : State) (f : State → State) : (s.event f).Settled := State.finish_settled _ _

theorem State.cold_settled (pins : ResetPins) : (State.cold pins).Settled :=
  ⟨.inl rfl, ⟨rfl, .inl rfl⟩, .inr ⟨rfl, rfl⟩⟩

/-- What a command does to the part: an event, nothing where the frame is discarded, or the cold reset. -/
theorem exec_outcome (c : Instr) (s : State) :
    (∃ f, exec c s = .next (s.event f)) ∨ exec c s = .next s
      ∨ ∃ pins, exec c s = .next { State.cold pins with pending := s.pending, choices := s.choices } := by
  cases c with
  | card n f | gone n f | writeResult n f | beat n f =>
    simp only [exec, execCard, execGone, execWriteResult, execBeat]
    split
    · exact .inl ⟨_, rfl⟩
    all_goals exact .inr (.inl rfl)
  | coldReset pins => exact .inr (.inr ⟨pins, rfl⟩)
  | _ => exact .inl ⟨_, rfl⟩

/-- The queue of commands, the count of choices and the ms counter are no part of the law. -/
theorem State.Settled.withInput {s : State} (h : s.Settled) (ms choices : Nat) (pending : List Instr) :
    ({ s with ms := ms, choices := choices, pending := pending } : State).Settled :=
  h.congr rfl rfl rfl rfl rfl rfl rfl rfl

theorem State.Settled.idle {s : State} (h : s.Settled) : s.idle.Settled := by
  unfold State.idle
  split
  · exact s.event_settled _
  · split
    · exact h.withInput (nextMs s.ms) s.choices s.pending
    · exact h.withInput s.ms s.choices _
    · exact h.withInput s.ms (s.choices + 1) _

/-- Settles O4: every event ends settled, and what is no event changes nothing that the law reads. -/
theorem settledKept : Obligations.SettledKept := by
  intro s t hs ht
  unfold step at ht
  split at ht
  · exact Host.Outcome.next.inj ht ▸ hs.idle
  · rename_i c rest _
    rcases exec_outcome c { s with pending := rest } with ⟨f, h⟩ | h | ⟨pins, h⟩ <;>
      rw [← Host.Outcome.next.inj (h.symm.trans ht)]
    · exact State.event_settled _ f
    · exact hs.withInput s.ms s.choices rest
    · exact (State.cold_settled pins).withInput 0 s.choices rest

end Sys2Proof.Machine
end

