-- ==== Sys2Proof/Proofs/AtReset.lean ====
section
/-! PROOFS. The laws at reset, and the day checks of the TICKET verdict. -/

namespace Sys2Proof.Machine

/-! ### The laws at reset -/

/-- The gate of a cold part is not open, and stands as its inputs say (R103, R114). -/
theorem State.cold_gateLaw (pins : ResetPins) : (State.cold pins).GateLaw := by
  have hgate : (State.cold pins).maze.gate = _ := Maze.cold_gate (ownAddressOf pins.address) pins.liftRun
  have hlift : (State.cold pins).maze.liftRun = pins.liftRun := rfl
  have hhold : (State.cold pins).maze.loadingHold = false := rfl
  have hwindow : (State.cold pins).maze.window = none := rfl
  have hown : (State.cold pins).passThrough = (ownAddressOf pins.address).isNone := rfl
  rw [State.GateLaw, Maze.gateFits, hwindow, hlift, hhold, hown, hgate]
  cases pins.liftRun <;> cases ownAddressOf pins.address <;> simp

/-- The law of the seats holds before the settings are committed: six seats are in force (R107). -/
theorem State.cold_seatsLaw (pins : ResetPins) : (State.cold pins).SeatsLaw := by
  have hseats : (State.cold pins).settings.seats = 6 := rfl
  refine ⟨fun w hw => ?_, by rw [hseats]; decide⟩
  cases hw

/-- No lane of a cold part has a transaction, so no general entry is reserved (R138, R165). -/
theorem State.cold_generalReserved (pins : ResetPins) : (State.cold pins).generalReserved = 0 := rfl

theorem State.cold_loopBounds (pins : ResetPins) : (State.cold pins).LoopBounds := by
  refine ⟨Nat.zero_le _, Nat.zero_le _, ?_, Nat.zero_le _, Nat.zero_le _⟩
  rw [State.cold_generalReserved]
  exact Nat.zero_le _

/-- Settles O3: the queues and tables of a cold part are empty, and the gate and the seats by the lemmas above. -/
theorem lawsHoldAtReset : Obligations.LawsHoldAtReset := by
  refine ⟨rfl, fun pins => ⟨State.cold_settled pins, Nat.zero_le _, State.cold_gateLaw pins, State.cold_seatsLaw pins,
    ⟨Nat.zero_le _, List.nodup_nil, ?_⟩, List.Pairwise.nil, ⟨Nat.zero_le _, List.nodup_nil⟩,
    State.cold_loopBounds pins⟩⟩
  intro e he
  cases he

/-! ### Steps 7 to 10 of the TICKET verdict (R36, R37) -/

section Days

variable {row : ProductRow} {day minute : Nat} {r : Record}

/-- Between F and F + W - 1, within the row's minutes, the day's state and the count of used days decide. -/
theorem dayChecks_of_valid (hf : Record.first r ≤ day) (hl : day ≤ Record.first r + Record.window r - 1)
    (hm : row.validFrom ≤ minute ∧ minute ≤ row.validTo) :
    dayChecks row day minute r =
      if Record.settled r ∨ Record.dayMark r (day - Record.first r) = .void then .error .settled
      else if Record.dayMark r (day - Record.first r) = .free ∧ Record.days r ≤ Record.used r then
        .error .daysExhausted
      else .ok (Record.dayMark r (day - Record.first r)) := by
  rw [dayChecks, if_neg (by omega), if_neg (by omega), if_neg (by omega)]

end Days

/-- Settles O39: each step's refusal once the steps before it have passed. -/
theorem dayChecks_hold : Obligations.DayChecks := by
  intro row day minute r first today
  refine ⟨fun h => if_pos h, fun hf hl => ?_, fun hf hl => ⟨fun hm => ?_, fun hm hm' => ⟨fun hs => ?_,
    fun hs hv => ?_⟩⟩⟩
  · rw [dayChecks, if_neg (Nat.not_lt.2 hf), if_pos hl]
  · rw [dayChecks, if_neg (Nat.not_lt.2 hf), if_neg (Nat.not_lt.2 hl), if_pos hm]
  · rw [dayChecks_of_valid hf hl ⟨hm, hm'⟩, if_pos hs]
  · have hopen : ¬(Record.settled r = true ∨ today = .void) := by simp [hs, hv]
    rw [dayChecks_of_valid hf hl ⟨hm, hm'⟩, if_neg hopen]
    refine ⟨fun ht hu => if_pos ⟨ht, hu⟩, fun ht hu => ?_, fun ht => if_neg fun h => ht h.1⟩
    rw [if_neg fun h => Nat.not_le.2 hu h.2]
    exact congrArg _ ht

end Sys2Proof.Machine
end

