-- ==== Sys2Proof/Proofs/PlaceGiven.lean ====
section
/-! PROOFS. A rider who leaves the maze, and the place that falls free: rotations out of the maze, bodies at the
lanes and at the loading gate. -/

namespace Sys2Proof.Machine

/-! ### The place given (R41, R101) -/

/-- The request of a write: sent at once, or waiting while another write is outstanding (R18). -/
theorem State.requestWrite_eq (s : State) (n : LaneId) (w : WriteRequest) :
    s.requestWrite n w = s.withPort n (if (s.port n).write.isNone
      then { (s.port n).sending [.write w.serial w.record] with write := some ⟨w, ⟨s.ms, 1000⟩⟩ }
      else { s.port n with waiting := some w }) := by
  unfold State.requestWrite
  split
  · exact State.startWrite_eq s n w
  · rfl

/-- Step 13 on a FREE day with the card present: the day-marked record is written, or waits to be (R18, R44). -/
theorem State.holding_grant_requests (s : State) (n : LaneId) (t : Transaction) (hu : t.today = some .free)
    (hp : t.present = true) :
    let marked := Record.dayMarked t.card (t.day - Record.first t.card)
    (s.holding n t).grant n
      = (s.withPort n (if (s.port n).write.isNone
          then { (s.port n).sending [.write t.serial marked] with
            write := some ⟨⟨t.serial, marked, .grant⟩, ⟨s.ms, 1000⟩⟩ }
          else { s.port n with waiting := some ⟨t.serial, marked, .grant⟩ })).withLane n
        { s.lane n with txn := some { t with built := some marked }, state := .writing } := by
  intro marked
  rw [State.grant_of_free (State.holding_txn s n t) hu hp, State.requestWrite_eq]
  simp [State.holding, State.withPort_withLane, marked]

section Given

variable {x : State} {m : LaneId} {rest : List LaneId} {t : Transaction}

/-- The first lane held takes the place and carries on at step 13. -/
theorem State.givePlaces_first (ht : (x.lane m).txn = some t) (hp : t.today = some .free → t.present = true) :
    (({ x with heldOrder := rest }.modLane m fun l => { l with holdTimer := none }).reserve m).grant m
      = x.placeGiven m rest t := by
  generalize hg : ({ x with heldOrder := rest } : State) = g
  generalize hl : ({ x.lane m with holdTimer := none } : Lane) = l
  generalize hr : ({ t with reserved := true } : Transaction) = t'
  have hreserve : (g.modLane m fun l => { l with holdTimer := none }).reserve m = (g.withLane m l).holding m t' := by
    have hlane : g.modLane m (fun l => { l with holdTimer := none }) = g.withLane m l := by rw [← hl, ← hg]; rfl
    rw [hlane, ← hr]
    exact State.modTxn_eq_holding (t := t) _ (by rw [State.withLane_lane_same, ← hl]; exact ht)
  rw [hreserve, State.placeGiven, hg, hl]
  by_cases hfree : t.today = some .free
  · rw [if_pos hfree, State.holding_grant_requests _ _ _ (by rw [← hr]; exact hfree) (by rw [← hr]; exact hp hfree),
      State.withLane_lane_same, State.withLane_port, State.withPort_withLane, State.withLane_withLane]
    subst hr hg
    rfl
  · rw [if_neg hfree, State.holding_grant_of_used _ _ _ (by rw [← hr]; exact hfree), State.withLane_lane_same,
      State.grantedAt_withLane]
    subst hr hg
    rfl

/-- What the place given leaves: the lane with its reservation, on the state that its port and the passback entry of
a grant leave. -/
theorem State.placeGiven_eq (x : State) (m : LaneId) (rest : List LaneId) (t : Transaction) :
    ∃ u p l t', x.placeGiven m rest t = (State.withPort u m p).withLane m l ∧ l.txn = some t' ∧ t'.reserved = true
      ∧ t'.insertReserved = t.insertReserved
      ∧ (u = { x with heldOrder := rest } ∨ ∃ t'', u = State.passbackUnlock { x with heldOrder := rest } m t'') := by
  rw [State.placeGiven]
  split
  · exact ⟨_, _, _, _, rfl, rfl, rfl, rfl, .inl rfl⟩
  · obtain ⟨u, l, he, hl, hu⟩ := State.grantedAt_eq_withLane { x with heldOrder := rest } m
      { x.lane m with holdTimer := none }
      { t with reserved := true, finalDays := some (Record.daysRemaining t.serial t.card) }
    exact ⟨u, _, l, _, congrArg (State.withPort · m _) he, hl, rfl, rfl, hu.imp id fun h => ⟨_, h⟩⟩

/-- A lane replaced changes the reservations by its own. -/
theorem State.withLane_reservations_add (s : State) (n : LaneId) (l : Lane) :
    (s.withLane n l).reservations + (s.lane n).reservation = s.reservations + l.reservation := by
  cases n <;> simp only [State.withLane, State.reservations, State.lane, PerLane.set, PerLane.get] <;> omega

/-- The place given is one reservation more; the loop, the reserved entries and the reports stay. -/
theorem State.placeGiven_keeps (ht : (x.lane m).txn = some t) (hr : t.reserved = false)
    (he : x.LatchesSilently .passbackEvict) (hc : x.LatchesSilently .cloneSuspect) :
    (x.placeGiven m rest t).mazeSum = x.mazeSum + 1 ∧ (x.placeGiven m rest t).mazeLimit = x.mazeLimit
      ∧ (x.placeGiven m rest t).loop = x.loop ∧ (x.placeGiven m rest t).generalReserved = x.generalReserved
      ∧ x.QuietTo (x.placeGiven m rest t) := by
  obtain ⟨u, p, l, t', hy, hl, hr', hi', hu⟩ := x.placeGiven_eq m rest t
  obtain ⟨w, hw⟩ : ∃ w, State.withPort u m p = w := ⟨_, rfl⟩
  have hkeeps : w.lanes = x.lanes ∧ w.maze = x.maze ∧ w.tables = x.tables ∧ w.loop = x.loop ∧ x.QuietTo w := by
    subst hw
    rcases hu with rfl | ⟨t'', rfl⟩
    · exact ⟨rfl, rfl, rfl, rfl, State.quietTo_of_mgmt rfl⟩
    · exact ⟨by simp, by simp, by simp, by simp,
        (State.passbackUnlock_quiet (s := { x with heldOrder := rest }) m t'' he (.inr hc)).trans
          (State.quietTo_of_mgmt rfl)⟩
  obtain ⟨hlanes, hmaze, htables, hloop, hquiet⟩ := hkeeps
  have hlane : w.lane m = x.lane m := by rw [State.lane, hlanes, State.lane]
  rw [hy, hw]
  refine ⟨?_, ?_, hloop, ?_, hquiet.trans (State.quietTo_of_mgmt rfl)⟩
  · have hadd := State.withLane_reservations_add w m l
    have hsame : w.reservations = x.reservations := by simp only [State.reservations, hlanes]
    have hl' : l.reservation = 1 := by simp [Lane.reservation_of_txn hl, hr']
    have hold : (w.lane m).reservation = 0 := by rw [hlane]; simp [Lane.reservation_of_txn ht, hr]
    simp only [State.mazeSum, State.withLane_maze, hmaze]
    omega
  · simp only [State.mazeLimit, State.settings, State.withLane_tables, htables]
  · have hi : l.insertReservation = (w.lane m).insertReservation := by
      rw [hlane, Lane.insertReservation_of_txn hl, Lane.insertReservation_of_txn ht, hi']
    rw [State.withLane_generalReserved w m l hi]
    simp only [State.generalReserved, hlanes]

end Given

/-! ### A rider leaves the maze (R95, R101) -/

/-- Lanes with the same transactions hold the same places and the same general entries. -/
theorem State.reservations_of_txns {s x : State} (h : ∀ n, (x.lane n).txn = (s.lane n).txn) :
    x.reservations = s.reservations ∧ x.generalReserved = s.generalReserved := by
  have hr (n : LaneId) : (x.lane n).reservation = (s.lane n).reservation := by simp only [Lane.reservation, h n]
  have hi (n : LaneId) : (x.lane n).insertReservation = (s.lane n).insertReservation := by
    simp only [Lane.insertReservation, h n]
  exact ⟨congrArg₂ _ (congrArg₂ _ (congrArg₂ _ (hr .l1) (hr .l2)) (hr .l3)) (hr .l4),
    congrArg₂ _ (congrArg₂ _ (congrArg₂ _ (hi .l1) (hi .l2)) (hi .l3)) (hi .l4)⟩

/-- From `s` to `x` one rider has left the maze, and nothing else changes that the end of an event reads. -/
structure State.RiderLeft (s x : State) : Prop where
  count : x.maze.count + 1 = s.maze.count
  held : x.heldOrder = s.heldOrder
  tables : x.tables = s.tables
  txn : ∀ n, (x.lane n).txn = (s.lane n).txn
  loop : x.loop = s.loop
  quiet : s.QuietTo x

section Left

variable {s x : State}

/-- With one rider less a maze takes its next state (R95). -/
theorem State.riderLeft_withMaze {m : Maze} (h : m.count + 1 = s.maze.count) :
    s.RiderLeft { s with maze := m } :=
  ⟨h, rfl, rfl, fun _ => rfl, rfl, State.quietTo_of_mgmt rfl⟩

theorem State.RiderLeft.withLane (h : s.RiderLeft x) (n : LaneId) {l : Lane} (hl : l.txn = (x.lane n).txn) :
    s.RiderLeft (x.withLane n l) where
  count := h.count
  held := h.held
  tables := h.tables
  txn m := by
    by_cases hm : m = n
    · subst hm
      rw [State.withLane_lane_same, hl, h.txn]
    · rw [State.withLane_lane_other _ hm, h.txn]
  loop := h.loop
  quiet := h.quiet.trans (State.quietTo_of_mgmt rfl)

theorem State.RiderLeft.withFlag (h : s.RiderLeft x) (f : Flag) : s.RiderLeft (x.withFlag f) :=
  ⟨h.count, h.held, h.tables, h.txn, h.loop, h.quiet.trans (x.quietTo_withFlag f)⟩

theorem State.RiderLeft.mazeSum (h : s.RiderLeft x) : x.mazeSum + 1 = s.mazeSum ∧ x.mazeLimit = s.mazeLimit := by
  have hr := (State.reservations_of_txns h.txn).1
  have hc := h.count
  exact ⟨by simp only [State.mazeSum, hr]; omega, by simp only [State.mazeLimit, State.settings, h.tables]⟩

theorem State.placeFree_iff_mazeSum (s : State) : s.placeFree = true ↔ s.mazeSum < s.mazeLimit := by
  rw [State.placeFree, decide_eq_true_iff]

/-- The place falls to no held lane: the event ends with the rider gone. -/
theorem State.RiderLeft.finish_of_none (hx : s.RiderLeft x) (hs : s.Settled) (hn : s.NoPlaceDue) :
    x.finish s = x := by
  obtain ⟨hsum, hlimit⟩ := hx.mazeSum
  have hgiven : x.PlacesGiven := by
    refine hn.imp (fun hh => hx.held.trans hh) fun hl => ?_
    rw [← Bool.not_eq_true, State.placeFree_iff_mazeSum]
    omega
  refine State.finish_of_settled x s
    (hs.of_given hgiven hx.quiet.1 hx.loop (State.reservations_of_txns hx.txn).2) fun hf => ?_
  rw [State.placeFree_iff_mazeSum] at hf ⊢
  omega

/-- The place falls to the first held lane, which fills the maze again. -/
theorem State.RiderLeft.placeGiven_settled (hx : s.RiderLeft x) (hs : s.Settled) {m : LaneId} {rest : List LaneId}
    {t : Transaction} (ha : s.AwaitsPlace m rest t) :
    (x.placeGiven m rest t).Settled ∧ (x.placeGiven m rest t).placeFree = false := by
  obtain ⟨-, hfull, htxn, hres, -, hevict, hclone⟩ := ha
  obtain ⟨hsum, hlimit⟩ := hx.mazeSum
  obtain ⟨hsum', hlimit', hloop, hentries, hquiet⟩ := State.placeGiven_keeps (rest := rest) ((hx.txn m).trans htxn)
    hres (hx.quiet.silent hevict) (hx.quiet.silent hclone)
  have hfree : (x.placeGiven m rest t).placeFree = false := by
    rw [← Bool.not_eq_true, State.placeFree_iff_mazeSum]
    omega
  exact ⟨hs.of_given (.inr hfree) (hquiet.1.trans hx.quiet.1) (hloop.trans hx.loop)
    (hentries.trans (State.reservations_of_txns hx.txn).2), hfree⟩

theorem State.RiderLeft.finish_of_awaited (hx : s.RiderLeft x) (hs : s.Settled) {m : LaneId} {rest : List LaneId}
    {t : Transaction} (ha : s.AwaitsPlace m rest t) : x.finish s = x.placeGiven m rest t := by
  obtain ⟨hset, hfree⟩ := hx.placeGiven_settled hs ha
  obtain ⟨hheld, hfull, htxn, -, hpresent, -, -⟩ := ha
  obtain ⟨hsum, hlimit⟩ := hx.mazeSum
  have hplace : x.placeFree = true := by
    rw [State.placeFree_iff_mazeSum]
    omega
  have hbefore : s.placeFree = true → (x.placeGiven m rest t).placeFree = true := by
    rw [State.placeFree_iff_mazeSum]
    omega
  have hgive : x.givePlaces x.heldOrder.length = x.placeGiven m rest t := by
    have hheld' := hx.held.trans hheld
    simp only [hheld', List.length_cons, State.givePlaces, hplace, if_true]
    rw [State.givePlaces_first ((hx.txn m).trans htxn) hpresent]
    exact State.givePlaces_of_given _ _ hset.1
  have hfin := State.finish_of_settled _ s hset hbefore
  rw [State.finish, State.givePlaces_of_given _ _ hset.1] at hfin
  rw [State.finish, hgive]
  exact hfin

/-- The event of a rider who leaves: the place stays free, or the first held lane takes it. -/
theorem State.RiderLeft.event {f : State → State} (hx : s.RiderLeft x) (hs : s.Settled) (hf : f s = x) :
    (s.NoPlaceDue → s.event f = x)
      ∧ ∀ m rest t, s.AwaitsPlace m rest t → s.event f = x.placeGiven m rest t := by
  rw [State.event, hf]
  exact ⟨hx.finish_of_none hs, fun m rest t ha => hx.finish_of_awaited hs ha⟩

end Left

end Sys2Proof.Machine
end

