-- ==== Sys2Proof/Proofs/RidersLeave.lean ====
section
/-! PROOFS. Rotations out of the maze, bodies at the lanes and bodies at the loading gate. -/

namespace Sys2Proof.Machine

/-! ### The arm and the beam as events -/

theorem exec_rotateRevStart (n : LaneId) (s : State) :
    exec (.rotateRevStart n) s = .next (s.event fun s => s.reverseStart n) := rfl

theorem exec_rotateRevDone (n : LaneId) (s : State) :
    exec (.rotateRevDone n) s = .next (s.event fun s => s.reverseDone n) := rfl

theorem exec_rotateReturn (n : LaneId) (s : State) :
    exec (.rotateReturn n) s = .next (s.event fun s => s.armReturn n) := rfl

theorem exec_body (n : LaneId) (breakMs : Nat) (s : State) :
    exec (.body n breakMs) s = .next (s.event fun s => if s.isBody breakMs then s.laneBody n else s) := rfl

theorem exec_lgBeamBody (breakMs : Nat) (s : State) :
    exec (.lgBeamBody breakMs) s = .next (s.event fun s => if s.isBody breakMs then s.gateBody else s) := rfl

/-- A rider who leaves at a command: the place stays free, or the first held lane takes it. -/
theorem State.RiderLeft.exec_next {s x : State} {f : State → State} {c : Instr} (hx : s.RiderLeft x)
    (hs : s.Settled) (hf : f s = x) (hc : exec c s = .next (s.event f)) :
    (s.NoPlaceDue → exec c s = .next x)
      ∧ ∀ m rest t, s.AwaitsPlace m rest t → exec c s = .next (x.placeGiven m rest t) := by
  obtain ⟨hnone, hgiven⟩ := hx.event hs hf
  rw [hc]
  exact ⟨fun hn => congrArg _ (hnone hn), fun m rest t ha => congrArg _ (hgiven m rest t ha)⟩

/-- With riders in the maze a decrement takes one (R95). -/
theorem State.decrement_of_pos {s : State} (h : 0 < s.maze.count) :
    s.decrement = { s with maze := { s.maze with count := s.maze.count - 1 } } := by
  rw [State.decrement, if_neg (by omega)]

/-- The event that changes one lane and leaves its transaction. -/
theorem State.Settled.event_withLane {s : State} (hs : s.Settled) {f : State → State} {n : LaneId} {l : Lane}
    (hl : l.txn = (s.lane n).txn) (hf : f s = s.withLane n l) : s.event f = s.withLane n l :=
  State.event_eq hf (hs.withLane n l hl) (State.withLane_placeFree s n l (by
    have hl' : l.txn = (s.lanes.get n).txn := hl
    simp only [Lane.reservation, hl'])).trans

/-! ### Rotations out of the maze (R69, R80) -/

section Rotations

variable {s : State} {n : LaneId}

theorem State.reverseStart_of_rest (h : (s.lane n).arm = .atRest) :
    s.reverseStart n = s.withLane n { s.lane n with arm := .reverse } := by
  rw [State.reverseStart, if_pos h]
  rfl

theorem State.armReturn_of_reverse (h : (s.lane n).arm = .reverse) :
    s.armReturn n = s.withLane n { s.lane n with arm := .atRest } := by
  simp only [State.armReturn, h]
  rfl

/-- On a lane of another role, and in FREE_FLOW, the tracker alone moves. -/
theorem State.reverseDone_of_other (h : (s.lane n).arm = .reverse)
    (ho : (s.lane n).role ≠ some .ticket ∨ (s.lane n).state = .freeFlow) :
    s.reverseDone n = s.withLane n { s.lane n with arm := .atRest } := by
  have hcond : (s.isTicket n && (s.lane n).state != .freeFlow) = false := by
    rcases ho with ho | ho <;> simp [State.isTicket, ho]
  simp only [State.reverseDone, h, hcond, if_true]
  rfl

/-- A reverse passage of a TICKET lane takes a rider out of the maze. -/
theorem State.reverseDone_of_ticket (h : (s.lane n).arm = .reverse) (hr : (s.lane n).role = some .ticket)
    (hst : (s.lane n).state ≠ .freeFlow) (hc : 0 < s.maze.count) :
    s.reverseDone n = { s with maze := { s.maze with count := s.maze.count - 1 } }.withLane n
      ({ s.lane n with arm := .atRest }.counting .reverse 1) := by
  have hcond : (s.isTicket n && (s.lane n).state != .freeFlow) = true := by simp [State.isTicket, hr, hst]
  simp only [State.reverseDone, h, hcond, if_true, State.setArm, State.modLane_eq, State.count_eq,
    State.withLane_lane_same, State.withLane_withLane]
  exact State.decrement_of_pos hc

end Rotations

/-- Settles O25: the tracker alone moves, or a reverse passage takes a rider out of the maze. -/
theorem reverseRotations : Obligations.ReverseRotations := by
  intro s n hs
  rw [exec_rotateRevStart, exec_rotateReturn]
  refine ⟨fun h => ?_, fun h => ?_, fun h ho => ?_, fun h hr hst hc => ?_⟩
  · exact congrArg _ (hs.event_withLane rfl (State.reverseStart_of_rest h))
  · exact congrArg _ (hs.event_withLane rfl (State.armReturn_of_reverse h))
  · rw [exec_rotateRevDone]
    exact congrArg _ (hs.event_withLane rfl (State.reverseDone_of_other h ho))
  · intro left
    have hleft : s.RiderLeft left := (State.riderLeft_withMaze (by dsimp only; omega)).withLane n rfl
    exact hleft.exec_next hs (State.reverseDone_of_ticket h hr hst hc) (exec_rotateRevDone n s)

/-! ### Bodies at the lanes (R70, R86, R89) -/

section Bodies

variable {s : State} {n : LaneId} {breakMs : Nat}

theorem State.isBody_iff (s : State) (breakMs : Nat) :
    s.isBody breakMs = true ↔ s.settings.beamMinimumMs ≤ min breakMs s.ms := by
  rw [State.isBody, decide_eq_true_iff]
  rfl

/-- A break shorter than the minimum, and a body on a lane that counts none, deliver nothing. -/
theorem State.body_of_ignored (h : min breakMs s.ms < s.settings.beamMinimumMs
    ∨ (s.lane n).role = none ∨ (s.lane n).role = some .settle ∨ (s.lane n).role = some .off
    ∨ ((s.lane n).role = some .exit ∧ (s.lane n).state ≠ .exit)) :
    (if s.isBody breakMs then s.laneBody n else s) = s := by
  rcases h with h | h | h | h | ⟨h, hst⟩
  · rw [if_neg ((s.isBody_iff breakMs).not.2 (Nat.not_le.2 h))]
  · simp only [State.laneBody, h, ite_self]
  · simp only [State.laneBody, h, ite_self]
  · simp only [State.laneBody, h, ite_self]
  · simp only [State.laneBody, h, hst, if_false, ite_self]

theorem State.body_of_ticket (hb : s.settings.beamMinimumMs ≤ min breakMs s.ms)
    (hr : (s.lane n).role = some .ticket) :
    (if s.isBody breakMs then s.laneBody n else s) = s.ticketBody n := by
  rw [if_pos ((s.isBody_iff breakMs).2 hb), State.laneBody, hr]

/-- A body on an open EXIT lane takes a rider out of the maze. -/
theorem State.body_of_exit (hb : s.settings.beamMinimumMs ≤ min breakMs s.ms)
    (hr : (s.lane n).role = some .exit) (hst : (s.lane n).state = .exit) (hc : 0 < s.maze.count) :
    (if s.isBody breakMs then s.laneBody n else s)
      = { s with maze := { s.maze with count := s.maze.count - 1 } }.withLane n ((s.lane n).counting .exit 1) := by
  rw [if_pos ((s.isBody_iff breakMs).2 hb)]
  simp only [State.laneBody, hr, hst, if_true, State.count_eq]
  exact State.decrement_of_pos hc

theorem State.ticketBody_of_window {w : PassageWindow} (h : (s.lane n).window = some w) :
    s.ticketBody n = s.withLane n { s.lane n with window := some ⟨w.k + 1, w.trail⟩ } := by
  have hbody : s.ticketBody n = s.modLane n fun l => { l with window := some { w with k := w.k + 1 } } := by
    simp only [State.ticketBody, h]
  exact hbody

theorem State.ticketBody_of_lateFree {w : PassageWindow} (h : (s.lane n).window = none)
    (hl : (s.lane n).lateFree = some w) :
    s.ticketBody n = s.withLane n { s.lane n with lateFree := some ⟨w.k + 1, w.trail⟩ } := by
  have hbody : s.ticketBody n = s.modLane n fun l => { l with lateFree := some { w with k := w.k + 1 } } := by
    simp only [State.ticketBody, h, hl]
  exact hbody

theorem State.ticketBody_of_locked (h : (s.lane n).window = none) (hl : (s.lane n).lateFree = none)
    (ha : (s.lane n).arm = .forward) (hst : (s.lane n).state ≠ .freeFlow) :
    s.ticketBody n = s.withLane n { s.lane n with kept := (s.lane n).kept + 1 } := by
  have hbody : s.ticketBody n = s.modLane n fun l => { l with kept := l.kept + 1 } := by
    simp only [State.ticketBody, h, hl, ha, hst, ne_eq, not_false_eq_true, and_self, if_true]
  exact hbody

/-- A body that no window and no locked rotation takes is an intrusion. -/
theorem State.ticketBody_of_intrusion (h : (s.lane n).window = none) (hl : (s.lane n).lateFree = none)
    (ha : (s.lane n).arm ≠ .forward ∨ (s.lane n).state = .freeFlow) :
    s.ticketBody n = { s with maze := { s.maze with count := min 255 (s.maze.count + 1) } }.withLane n
      ((s.lane n).counting .intrusion 1) := by
  have hcond : ¬((s.lane n).arm = .forward ∧ (s.lane n).state ≠ .freeFlow) := by
    rintro ⟨ha', hst⟩
    exact ha.elim (· ha') hst
  simp only [State.ticketBody, h, hl, if_neg hcond]
  rfl

end Bodies

/-- Settles O27: the attribution in its order; an intrusion may fill the maze, and an exit may free a place. -/
theorem bodyAttributed : Obligations.BodyAttributed := by
  intro s n breakMs hs
  rw [exec_body]
  refine ⟨fun h => congrArg _ (State.event_same (State.body_of_ignored h) hs),
    fun hb hr => ⟨fun w h => ?_, fun w h hl => ?_, fun h hl ha hst => ?_, fun h hl ha hm hq => ?_⟩,
    fun hb hr hst hc => ?_⟩
  · exact congrArg _ (hs.event_withLane rfl ((State.body_of_ticket hb hr).trans (State.ticketBody_of_window h)))
  · exact congrArg _ (hs.event_withLane rfl ((State.body_of_ticket hb hr).trans (State.ticketBody_of_lateFree h hl)))
  · exact congrArg _ (hs.event_withLane rfl
      ((State.body_of_ticket hb hr).trans (State.ticketBody_of_locked h hl ha hst)))
  · have hcount : s.maze.count ≤ min 255 (s.maze.count + 1) := by
      have hm' : s.maze.count ≤ 255 := hm
      omega
    exact congrArg _ (State.event_eq_full
      ((State.body_of_ticket hb hr).trans (State.ticketBody_of_intrusion h hl ha))
      ((hs.withMaze { s.maze with count := min 255 (s.maze.count + 1) } (.inl hcount)).withLane n _ rfl) hq)
  · intro left
    have hleft : s.RiderLeft left := (State.riderLeft_withMaze (by dsimp only; omega)).withLane n rfl
    exact hleft.exec_next hs (State.body_of_exit hb hr hst hc) (exec_body n breakMs s)

/-! ### Bodies at the loading gate (R108, R109) -/

section Gate

variable {s : State} {breakMs : Nat}

theorem State.passThrough_of_address (ho : s.ownAddress.isSome = true) : s.passThrough = false := by
  rw [State.passThrough, Option.isNone_eq_false_iff, ho]

/-- A body in an open window is loaded, and the last seat closes and records the window. -/
theorem State.gateBody_of_window {w : ChairWindow} (ho : s.ownAddress.isSome = true) (hc : 0 < s.maze.count)
    (hw : s.maze.window = some w) :
    let taken : Maze := { s.maze with
      count := s.maze.count - 1, window := some { w with loaded := w.loaded + 1 } }
    s.gateBody = { s with
      maze := if w.loaded + 1 = w.seats then { taken.recorded with gate := .waiting } else taken } := by
  intro taken
  have hp := State.passThrough_of_address ho
  have hdec : State.decrement { s with maze := { s.maze with window := some { w with loaded := w.loaded + 1 } } }
      = { s with maze := taken } := State.decrement_of_pos hc
  simp only [State.gateBody, hp, hw, hdec, State.closeChairWindow_eq, State.setGate, Bool.false_eq_true, if_false]
  by_cases hlast : w.loaded + 1 = w.seats
  · rw [if_pos hlast, if_pos hlast]
  · rw [if_neg hlast, if_neg hlast]

/-- A body with no window open is loading-forced. -/
theorem State.gateBody_of_none (ho : s.ownAddress.isSome = true) (hc : 0 < s.maze.count)
    (hw : s.maze.window = none) (hq : s.LatchesSilently .loadingForced) :
    s.gateBody = { s with maze := { s.maze with
      count := s.maze.count - 1
      day := { s.maze.day with loadingForced := min 65535 (s.maze.day.loadingForced + 1) }
      interval := { s.maze.interval with
        loadingForced := min 65535 (s.maze.interval.loadingForced + 1) } } }.withFlag .loadingForced := by
  have hp := State.passThrough_of_address ho
  have hlatch (f : LoadingCounters → LoadingCounters) :
      (s.countLoading f).latch .loadingForced 0 = (s.countLoading f).withFlag .loadingForced :=
    State.latch_of_silent _ _ _ hq
  have hbody : s.gateBody = ((s.countLoading fun c => { c with loadingForced := satAdd16 c.loadingForced 1 }).withFlag
      .loadingForced).decrement := by
    simp only [State.gateBody, hp, hw, hlatch, Bool.false_eq_true, if_false]
  exact hbody.trans (State.decrement_of_pos hc)

end Gate

/-- Settles O35: either way a rider leaves the maze. -/
theorem gateBodyCounted : Obligations.GateBodyCounted := by
  intro s breakMs hs ho
  have hbody (hb : s.settings.beamMinimumMs ≤ min breakMs s.ms) :
      (if s.isBody breakMs then s.gateBody else s) = s.gateBody := if_pos ((s.isBody_iff breakMs).2 hb)
  refine ⟨fun h => ?_, fun hb hc => ?_⟩
  · rw [exec_lgBeamBody]
    exact congrArg _ (State.event_same (if_neg ((s.isBody_iff breakMs).not.2 (Nat.not_le.2 h))) hs)
  intro leaves
  refine ⟨fun w hw => ?_, fun hw hq => ?_⟩
  · intro taken
    have hcount : (if w.loaded + 1 = w.seats then { taken.recorded with gate := .waiting } else taken).count + 1
        = s.maze.count := by
      have htaken : taken.count = s.maze.count - 1 := rfl
      split
      · show taken.count + 1 = _
        omega
      · omega
    exact (State.riderLeft_withMaze hcount).exec_next hs ((hbody hb).trans (State.gateBody_of_window ho hc hw))
      (exec_lgBeamBody breakMs s)
  · exact ((State.riderLeft_withMaze (by dsimp only; omega)).withFlag .loadingForced).exec_next hs
      ((hbody hb).trans (State.gateBody_of_none ho hc hw hq)) (exec_lgBeamBody breakMs s)

end Sys2Proof.Machine
end

