-- ==== Sys2Proof/Proofs/TimerEnds.lean ====
section
/-! PROOFS. The ends of the recovery and alarm timers. -/

namespace Sys2Proof.Machine

theorem exec_recoveryTimerExpiry (n : LaneId) (s : State) :
    exec (.recoveryTimerExpiry n) s = .next (s.event fun s => s.recoveryTimeout n) := rfl

theorem exec_alarmTimerExpiry (n : LaneId) (s : State) :
    exec (.alarmTimerExpiry n) s = .next (s.event fun s =>
      if timerDue (s.lane n).alarmTimer s.ms then s.modLane n fun l => { l with alarmTimer := none } else s) := rfl

/-- A timer that runs is due once its end has been reached (R146). -/
theorem timerDue_some (t : Timer) (ms : Nat) : timerDue (some t) ms = true ↔ t.start + t.duration ≤ ms := by
  simp [timerDue, Timer.due]

section Timers

variable {s : State} {n : LaneId} {r : Timer} {t : Transaction}

/-- Outside SETTLING the recovery timer's end stops it alone. -/
theorem State.recoveryTimeout_of_other (hr : (s.lane n).recoveryTimer = some r) (hdue : r.start + r.duration ≤ s.ms)
    (hst : (s.lane n).state ≠ .settling) :
    s.recoveryTimeout n = s.withLane n { s.lane n with recoveryTimer := none } := by
  have hd : timerDue (s.lane n).recoveryTimer s.ms = true := by rw [hr, timerDue_some]; exact hdue
  rw [State.recoveryTimeout, if_pos hd, if_neg hst]
  rfl

/-- With no recovery timer running the moment of the grant is the unlock (R46). -/
theorem State.grantedAt_of_unlock {l : Lane} (s : State) (n : LaneId) (hl : l.txn = some t)
    (hr : l.recoveryTimer = none) :
    s.grantedAt n l t = (s.passbackUnlock n t).withLane n
      (l.unlocking ⟨s.ms, t.pinned.settingsInForce.grantTimeS * 1000⟩) := by
  have hsame : ({ l with txn := some t } : Lane) = l := by rw [← hl]
  rw [State.grantedAt, if_neg (by simp [hr]), hsame]

/-- In SETTLING it is the moment of the grant (R46). -/
theorem State.recoveryTimeout_of_settling (hr : (s.lane n).recoveryTimer = some r)
    (hdue : r.start + r.duration ≤ s.ms) (hst : (s.lane n).state = .settling) (ht : (s.lane n).txn = some t) :
    s.recoveryTimeout n = s.grantedAt n { s.lane n with recoveryTimer := none } t := by
  have hd : timerDue (s.lane n).recoveryTimer s.ms = true := by rw [hr, timerDue_some]; exact hdue
  rw [State.recoveryTimeout, if_pos hd, if_pos hst, State.modLane_eq]
  generalize hl : ({ s.lane n with recoveryTimer := none } : Lane) = l
  have htxn : l.txn = some t := by rw [← hl]; exact ht
  have hstopped : l.recoveryTimer = none := by rw [← hl]
  rw [State.unlock_eq (t := t) (by rw [State.withLane_lane_same]; exact htxn), State.passbackUnlock_withLane,
    State.withLane_lane_same, State.withLane_withLane, State.grantedAt_of_unlock s n htxn hstopped]
  rfl

/-- The recovery timer's end does nothing while the timer is stopped. -/
theorem State.recoveryTimeout_of_stopped (hr : (s.lane n).recoveryTimer = none) : s.recoveryTimeout n = s := by
  simp [State.recoveryTimeout, hr, timerDue]

/-- A transaction that holds what it held keeps a settled part settled at the moment of its grant. -/
theorem State.Settled.event_grantedAt {f : State → State} {l : Lane} (hs : s.Settled) (ht : (s.lane n).txn = some t)
    (he : s.LatchesSilently .passbackEvict) (hc : s.LatchesSilently .cloneSuspect) (hf : f s = s.grantedAt n l t) :
    s.event f = s.grantedAt n l t :=
  State.event_eq hf
    (hs.grantedAt n l t he (.inr hc) (.inr (Lane.reservation_of_txn ht)) (Lane.insertReservation_of_txn ht))
    (State.grantedAt_placeFree s n l t (Lane.reservation_of_txn ht)).trans

end Timers

/-- Settles O31: a lane in SETTLING comes to the moment of its grant, and every other end changes its timer alone. -/
theorem recoveryAndAlarmTimersEnd : Obligations.RecoveryAndAlarmTimersEnd := by
  intro s n hs
  rw [exec_recoveryTimerExpiry, exec_alarmTimerExpiry]
  refine ⟨fun r hr hdue => ⟨fun hst => ?_, fun t hst ht he hc => ?_⟩, fun a ha => ?_, fun hr => ?_, fun ha => ?_⟩
  · exact congrArg _ (hs.event_withLane rfl (State.recoveryTimeout_of_other hr hdue hst))
  · rw [← State.grantedAt_of_unlock (l := { s.lane n with recoveryTimer := none }) s n ht rfl]
    exact congrArg _ (hs.event_grantedAt ht he hc (State.recoveryTimeout_of_settling hr hdue hst ht))
  · by_cases hdue : a.start + a.duration ≤ s.ms
    · rw [if_pos hdue]
      refine congrArg _ (hs.event_withLane rfl (if_pos ?_))
      rw [ha, timerDue_some]
      exact hdue
    · rw [if_neg hdue]
      refine congrArg _ (State.event_same (if_neg ?_) hs)
      rw [ha, timerDue_some]
      exact hdue
  · exact congrArg _ (State.event_same (State.recoveryTimeout_of_stopped hr) hs)
  · refine congrArg _ (State.event_same (if_neg ?_) hs)
    simp [ha, timerDue]

end Sys2Proof.Machine
end

