-- ==== Sys2Proof/Proofs/DeferredOffers.lean ====
section
/-! PROOFS. An entry offered to the Deferred Write Table, and a CARD that meets the entry of its serial. -/

namespace Sys2Proof.Machine

/-! ### An offered entry meets the table (R120, R121) -/

section Offer

variable {s : State} {e : DeferredEntry}

/-- `s` with these entries in the table and `e` in its last place, under a stamp of its own (R117). -/
def State.storing (s : State) (es : List DeferredEntry) (e : DeferredEntry) : State :=
  { s with deferred := ⟨es ++ [{ e with stamp := s.deferred.nextStamp }], s.deferred.nextStamp + 1⟩ }

theorem State.latch_storing (hq : s.LatchesSilently .deferredLost) (es : List DeferredEntry) (d : Nat) :
    (s.storing es e).latch .deferredLost d = (s.storing es e).withFlag .deferredLost :=
  State.latch_of_silent _ _ _ hq

/-- An entry of the same serial is replaced, but a settlement by no day mark. -/
theorem State.deferredOffer_of_found {old : DeferredEntry} (hq : s.LatchesSilently .deferredLost)
    (hf : s.deferredFind e.serial = some old) :
    s.deferredOffer e =
      if old.isSettlement ∧ ¬e.isSettlement then (s.withFlag .deferredLost, false)
      else
        let t := s.storing (s.deferred.entries.filter (·.stamp != old.stamp)) e
        (if old.isSettlement then t.withFlag .deferredLost else t, true) := by
  have hlatch := State.latch_storing (e := e) hq (s.deferred.entries.filter (·.stamp != old.stamp)) e.serial.toNat
  simp only [State.deferredOffer, hf, State.latch_of_silent _ _ _ hq, ← hlatch]
  cases old.isSettlement <;> cases e.isSettlement <;> rfl

/-- A full table with a day mark gives up its oldest one. -/
theorem State.deferredOffer_of_full {oldest : DeferredEntry} (hq : s.LatchesSilently .deferredLost)
    (hf : s.deferredFind e.serial = none) (hl : 32 ≤ s.deferred.entries.length)
    (ho : s.deferred.entries.find? (fun x => !x.isSettlement) = some oldest) :
    s.deferredOffer e
      = ((s.storing (s.deferred.entries.filter (·.stamp != oldest.stamp)) e).withFlag .deferredLost, true) := by
  have hlatch : (s.deferredRemove oldest.stamp).latch .deferredLost oldest.serial.toNat
      = (s.deferredRemove oldest.stamp).withFlag .deferredLost := State.latch_of_silent _ _ _ hq
  simp only [State.deferredOffer, hf, if_neg (Nat.not_lt.2 hl), ho, hlatch]
  rfl

/-- A table full of settlements stores nothing. -/
theorem State.deferredOffer_of_settlements (hq : s.LatchesSilently .deferredLost)
    (hf : s.deferredFind e.serial = none) (hl : 32 ≤ s.deferred.entries.length)
    (ha : ∀ x ∈ s.deferred.entries, x.isSettlement = true) :
    s.deferredOffer e = (s.withFlag .deferredLost, false) := by
  have ho : s.deferred.entries.find? (fun x => !x.isSettlement) = none := by
    rw [List.find?_eq_none]
    intro x hx
    simp [ha x hx]
  simp only [State.deferredOffer, hf, if_neg (Nat.not_lt.2 hl), ho, State.latch_of_silent _ _ _ hq]

end Offer

/-! ### The resolution step (R33, R122 to R124, R131) -/

section Resolution

variable {s : State} {n : LaneId} {t : Transaction} {e : DeferredEntry}

/-- A DAY_MARK entry seen complete on the card is removed. -/
theorem State.resolveStep_of_dayMark (ht : (s.lane n).txn = some t) (hd : s.deferredFind t.serial = some e)
    (hr : t.asRead = e.intended) (hk : e.kind = .dayMark) :
    s.resolveStep n = (s.deferredRemove e.stamp).fromRecord n := by
  simp only [State.resolveStep, State.txn, ht, hd, hr, if_true, State.resolveComplete, State.deferredComplete, hk]

/-- `s` with a SETTLEMENT entry completed: its REFUND notice queued, the entry removed and the refund counted. -/
def State.refunded (s : State) (e : DeferredEntry) (refund impaired : Nat) (generation : BitVec 16) : State :=
  ((s.enqueue (.refund (s.refundOf e refund impaired generation))).deferredRemove e.stamp).countRefund refund

/-- A SETTLEMENT entry seen complete on the card, with a general entry free, is completed. -/
theorem State.resolveStep_of_settlement {refund impaired : Nat} {generation : BitVec 16}
    (ht : (s.lane n).txn = some t) (hd : s.deferredFind t.serial = some e) (hr : t.asRead = e.intended)
    (hk : e.kind = .settlement refund impaired generation) (hf : 0 < s.generalFree) :
    s.resolveStep n = if (s.lane n).role = some .settle
      then (s.refunded e refund impaired generation).settled n refund
      else (s.refunded e refund impaired generation).fromRecord n := by
  simp only [State.resolveStep, State.txn, ht, hd, hr, if_true, State.resolveComplete, State.deferredComplete, hk, hf,
    State.refunded]

/-- A record that the write has not reached has the intended record written. -/
theorem State.resolveStep_of_unwritten (ht : (s.lane n).txn = some t) (hd : s.deferredFind t.serial = some e)
    (hr : t.asRead ≠ e.intended)
    (hb : Record.checkValid t.asRead = false ∨ Record.issue t.asRead = e.baseIssue) :
    s.resolveStep n = (s.withLane n { s.lane n with
        txn := some { t with resolving := some e.stamp }, state := .resolving }).requestWrite n
      ⟨t.serial, e.intended, .resolution⟩ := by
  have hcond : (!Record.checkValid t.asRead || Record.issue t.asRead == e.baseIssue) = true := by
    rcases hb with hb | hb <;> simp [hb]
  simp only [State.resolveStep, State.txn, ht, hd, if_neg hr, hcond, if_true, State.modTxn, State.setLaneState,
    State.modLane_eq, State.withLane_lane_same, State.withLane_withLane, Option.map_some]

/-- Any other record makes the entry stale. -/
theorem State.resolveStep_of_stale (ht : (s.lane n).txn = some t) (hd : s.deferredFind t.serial = some e)
    (hr : t.asRead ≠ e.intended) (hv : Record.checkValid t.asRead = true)
    (hb : Record.issue t.asRead ≠ e.baseIssue) :
    s.resolveStep n = ((s.deferredRemove e.stamp).latch .deferredStale t.serial.toNat).fromRecord n := by
  have hcond : ¬(!Record.checkValid t.asRead || Record.issue t.asRead == e.baseIssue) = true := by simp [hv, hb]
  simp only [State.resolveStep, State.txn, ht, hd, if_neg hr, if_neg hcond]

end Resolution

/-! ### The CARD that meets the entry -/

/-- Without the one entry of a serial the table holds none for it (R117). -/
theorem find?_filter_stamp_eq_none {es : List DeferredEntry} {e : DeferredEntry} {serial : Serial}
    (hf : es.find? (fun x => x.serial == serial) = some e) (hn : (es.map (·.serial)).Nodup) :
    (es.filter fun x => x.stamp != e.stamp).find? (fun x => x.serial == serial) = none := by
  rw [List.find?_eq_none]
  intro x hx hserial
  obtain ⟨hmem, hstamp⟩ := List.mem_filter.1 hx
  have hfound : (e.serial == serial) = true := List.find?_some (p := fun x : DeferredEntry => x.serial == serial) hf
  have hsame : x.serial = e.serial := (beq_iff_eq.1 hserial).trans (beq_iff_eq.1 hfound).symm
  have hxe : x = e := List.inj_on_of_nodup_map hn hmem (List.mem_of_find?_eq_some hf) hsame
  simp [hxe] at hstamp

/-- The end of an event reads of its beginning whether a place was free and whether the output was. -/
theorem State.finish_before_congr (x : State) {a b : State} (hp : a.placeFree = b.placeFree)
    (hs : a.loop.sending = b.loop.sending) : x.finish a = x.finish b := by
  simp only [State.finish, State.checkMazeFull, hp, hs]

section Card

variable {s : State} {n : LaneId} {r : Role} {serial : Serial} {record : Record} {f : ReaderFrame}
  {e : DeferredEntry}

/-- Two parts on which a CARD has the same effect take it alike. -/
theorem exec_card_congr {s' : State} (hf : parseFrame f = some (.card serial record))
    (hp : s.placeFree = s'.placeFree) (hs : s.loop.sending = s'.loop.sending)
    (he : s.presentCard n serial record = s'.presentCard n serial record) :
    exec (.card n f) s = exec (.card n f) s' := by
  rw [exec_card n s hf, exec_card n s' hf, State.event, State.event, he]
  exact congrArg _ (State.finish_before_congr _ hp hs)

/-- A CARD that finds its day and no duplicate comes to the resolution step. -/
theorem State.Resolves.presentCard (h : s.Resolves n r serial) (hr : r = .ticket ∨ r = .settle) :
    s.presentCard n serial record = (s.holding n (s.openTransaction serial record)).resolveStep n := by
  obtain ⟨hrole, hidle, -, -, -, -, -, hd, ho⟩ := h
  rw [State.presentCard_of_idle hrole hr hidle, State.verdict_of_resolves
    (State.holding_txn s n (s.openTransaction serial record)) hd ((State.openElsewhere_withLane s n _ serial).trans ho)]

/-- `s` without the deferred entry of this stamp. -/
def State.withoutEntry (s : State) (stamp : Nat) : State :=
  { s with deferred := { s.deferred with
    entries := s.deferred.entries.filter fun x : DeferredEntry => x.stamp != stamp } }

/-- A CARD whose entry is gone goes on to its role's verdict, on any part that agrees in what its first steps read. -/
theorem State.Resolves.presentCard_gone {x : State} (h : s.Resolves n r serial) (hr : r = .ticket ∨ r = .settle)
    (hf : s.deferredFind serial = some e) (hn : (s.deferred.entries.map (·.serial)).Nodup)
    (hlanes : x.lanes = s.lanes) (hday : x.time.dayState = s.time.dayState)
    (hx : x.deferred.entries = (s.withoutEntry e.stamp).deferred.entries) :
    x.presentCard n serial record = (x.holding n (x.openTransaction serial record)).fromRecord n := by
  obtain ⟨hrole, hidle, -, -, -, -, -, hd, ho⟩ := h
  have hlane (m : LaneId) : x.lane m = s.lane m := by rw [State.lane, hlanes, State.lane]
  refine State.presentCard_of_fresh (by rw [hlane]; exact hrole) hr (by rw [hlane]; exact hidle) (by rwa [hday]) ?_ ?_
  · simpa only [State.openElsewhere, State.txn, hlane] using ho
  · rw [State.deferredFind, hx]
    exact find?_filter_stamp_eq_none hf hn

/-- A DAY_MARK entry seen complete: the CARD acts as though there had been none. -/
theorem exec_card_of_dayMark (hp : parseFrame f = some (.card serial record)) (h : s.Resolves n r serial)
    (hr : r = .ticket ∨ r = .settle) (hf : s.deferredFind serial = some e)
    (hn : (s.deferred.entries.map (·.serial)).Nodup) (hi : record = e.intended) (hk : e.kind = .dayMark) :
    exec (.card n f) s = exec (.card n f) (s.withoutEntry e.stamp) := by
  refine exec_card_congr hp rfl rfl ?_
  rw [h.presentCard hr, h.presentCard_gone hr hf hn (x := s.withoutEntry e.stamp) rfl rfl rfl,
    State.resolveStep_of_dayMark (State.holding_txn s n (s.openTransaction serial record)) hf hi hk]
  rfl

/-- An entry that the record has left behind: DEFERRED_STALE, and the CARD acts as though there had been none. -/
theorem exec_card_of_stale (hp : parseFrame f = some (.card serial record)) (h : s.Resolves n r serial)
    (hr : r = .ticket ∨ r = .settle) (hf : s.deferredFind serial = some e)
    (hn : (s.deferred.entries.map (·.serial)).Nodup) (hi : record ≠ e.intended)
    (hv : Record.checkValid record = true) (hb : Record.issue record ≠ e.baseIssue)
    (hq : s.LatchesSilently .deferredStale) :
    exec (.card n f) s = exec (.card n f) ((s.withoutEntry e.stamp).withFlag .deferredStale) := by
  have hlatch (u : State) (hu : u.mgmt = s.mgmt) (d : Nat) : u.latch .deferredStale d = u.withFlag .deferredStale :=
    State.latch_of_silent u _ d ((State.quietTo_of_mgmt hu).silent hq)
  refine exec_card_congr hp rfl rfl ?_
  rw [h.presentCard hr,
    h.presentCard_gone hr hf hn (x := (s.withoutEntry e.stamp).withFlag .deferredStale) rfl rfl rfl,
    State.resolveStep_of_stale (State.holding_txn s n (s.openTransaction serial record)) hf hi hv hb,
    hlatch ((s.holding n _).deferredRemove e.stamp) rfl]
  rfl

/-- An entry whose write has not reached the card: its intended record is written, or waits to be. -/
theorem exec_card_of_unwritten (hs : s.Settled) (hp : parseFrame f = some (.card serial record))
    (h : s.Resolves n r serial) (hr : r = .ticket ∨ r = .settle) (hf : s.deferredFind serial = some e)
    (hi : record ≠ e.intended) (hb : Record.checkValid record = false ∨ Record.issue record = e.baseIssue) :
    exec (.card n f) s = .next
      ((s.withPort n (if (s.port n).write.isNone
          then { (s.port n).sending [.write serial e.intended] with
            write := some ⟨⟨serial, e.intended, .resolution⟩, ⟨s.ms, 1000⟩⟩ }
          else { s.port n with waiting := some ⟨serial, e.intended, .resolution⟩ })).withLane n
        { s.lane n with
          txn := some { s.openTransaction serial record with resolving := some e.stamp }
          state := .resolving }) := by
  have hnone : (s.lane n).txn = none := by
    obtain ⟨-, -, -, hnone, -⟩ := h
    exact hnone
  have hres (l : Lane) (hl : l.txn = some { s.openTransaction serial record with resolving := some e.stamp }) :
      l.reservation = (s.lane n).reservation ∧ l.insertReservation = (s.lane n).insertReservation := by
    rw [Lane.reservation_of_txn hl, Lane.insertReservation_of_txn hl, Lane.reservation_of_none hnone,
      Lane.insertReservation_of_none hnone]
    exact ⟨rfl, rfl⟩
  rw [exec_card n s hp]
  refine congrArg _ (State.event_eq ?_ ((hs.withPort n _).withLane_reserving n _ (.inr (hres _ rfl).1) (hres _ rfl).2)
    (State.withLane_placeFree (s.withPort n _) n _ (hres _ rfl).1).trans)
  rw [h.presentCard hr,
    State.resolveStep_of_unwritten (State.holding_txn s n (s.openTransaction serial record)) hf hi hb,
    State.requestWrite_eq, State.holding_lane]
  simp only [State.holding, State.withLane_withLane, State.withLane_port, State.withPort_withLane, State.withLane_ms]
  rfl

/-- `s` with the refund counted and the entry gone. -/
def State.entryRefunded (s : State) (stamp refund : Nat) : State := (s.withoutEntry stamp).countRefund refund

/-- A SETTLEMENT entry seen complete on a lane that holds the transaction just opened. -/
theorem State.holding_refunded (t : Transaction) (refund impaired : Nat) (generation : BitVec 16)
    (ho : s.ownAddress.isSome = true) :
    (s.holding n t).refunded e refund impaired generation
      = ((s.entryRefunded e.stamp refund).holding n t).enqueue (.refund (s.refundOf e refund impaired generation)) := by
  rw [State.refunded, State.enqueue_eq (s := s.holding n t) _ ho,
    State.enqueue_eq (s := (s.entryRefunded e.stamp refund).holding n t) _ ho]
  rfl

section Settlement

variable {refund impaired : Nat} {generation : BitVec 16}

theorem State.Resolves.presentCard_of_settlement (h : s.Resolves n r serial) (hr : r = .ticket ∨ r = .settle)
    (hf : s.deferredFind serial = some e) (hi : record = e.intended)
    (hk : e.kind = .settlement refund impaired generation) (ho : s.ownAddress.isSome = true)
    (hroom : 0 < s.generalFree) :
    let notice := Outgoing.refund (s.refundOf e refund impaired generation)
    let x := (s.entryRefunded e.stamp refund).holding n (s.openTransaction serial record)
    s.presentCard n serial record = if r = .settle then (x.enqueue notice).settled n refund
      else (x.enqueue notice).fromRecord n := by
  intro notice x
  have hnone : (s.lane n).txn = none ∧ (s.lane n).role = some r := by
    obtain ⟨hrole, -, -, hnone, -⟩ := h
    exact ⟨hnone, hrole⟩
  have hrole : ((s.holding n (s.openTransaction serial record)).lane n).role = some r := by
    rw [State.holding_lane]; exact hnone.2
  rw [h.presentCard hr, State.resolveStep_of_settlement (State.holding_txn s n (s.openTransaction serial record)) hf hi
    hk (by rw [State.holding_generalFree s n _ hnone.1 rfl]; exact hroom), State.holding_refunded _ _ _ _ ho, hrole]
  simp only [Option.some.injEq]
  rfl

/-- A TICKET lane: the CARD acts as though there had been no entry, with the notice queued. -/
theorem exec_card_of_settlement_ticket (hp : parseFrame f = some (.card serial record))
    (h : s.Resolves n .ticket serial) (hf : s.deferredFind serial = some e)
    (hn : (s.deferred.entries.map (·.serial)).Nodup) (hi : record = e.intended)
    (hk : e.kind = .settlement refund impaired generation) (ho : s.ownAddress.isSome = true)
    (hroom : 0 < s.generalFree) :
    exec (.card n f) s = exec (.card n f)
      ((s.entryRefunded e.stamp refund).enqueue (.refund (s.refundOf e refund impaired generation))) := by
  have hqueued := State.enqueue_eq (s := s.entryRefunded e.stamp refund)
    (.refund (s.refundOf e refund impaired generation)) ho
  refine exec_card_congr hp (by rw [hqueued]; rfl) (by rw [hqueued]; rfl) ?_
  rw [h.presentCard_of_settlement (.inl rfl) hf hi hk ho hroom, if_neg (by decide),
    h.presentCard_gone (x := (s.entryRefunded e.stamp refund).enqueue _) (.inl rfl) hf hn (by rw [hqueued]; rfl)
      (by rw [hqueued]; rfl) (by rw [hqueued]; rfl), hqueued,
    State.enqueue_eq (s := (s.entryRefunded e.stamp refund).holding n _) _ ho]
  rfl

/-- A SETTLE lane: the transaction ends REFUNDED, with the notice offered to the output. -/
theorem exec_card_of_settlement_settle (hs : s.Settled) (hp : parseFrame f = some (.card serial record))
    (h : s.Resolves n .settle serial) (hf : s.deferredFind serial = some e) (hi : record = e.intended)
    (hk : e.kind = .settlement refund impaired generation) (ho : s.ownAddress.isSome = true)
    (hroom : 0 < s.generalFree) :
    exec (.card n f) s = .next (((s.entryRefunded e.stamp refund).withPort n ((s.port n).sending
      [.verdict true .refunded .green 0 refund, .release serial])).offered
        (.refund (s.refundOf e refund impaired generation))) := by
  obtain ⟨-, hidle, hrest, hnone, hpend, hhold, hheld, -⟩ := id h
  have hset : (s.entryRefunded e.stamp refund).Settled := hs.congr rfl rfl rfl rfl rfl rfl rfl rfl
  rw [exec_card n s hp]
  refine congrArg _ (State.event_eq_offered ?_ (hset.withPort n _) id ho (.inr (hs.pendingEvents_of_room hroom)))
  rw [h.presentCard_of_settlement (.inr rfl) hf hi hk ho hroom, if_pos rfl]
  generalize hx : (s.entryRefunded e.stamp refund).holding n (s.openTransaction serial record) = x
  have hlane : x.lane n = { s.lane n with txn := some (s.openTransaction serial record) } := by
    rw [← hx]; exact State.holding_lane _ _ _
  have hrest' : x.restingState n = .idle := by
    rw [← hrest]
    refine State.restingState_congr n (by rw [hlane]) (by rw [hlane]) (by rw [hlane]) ?_ ?_ ?_ <;> rw [← hx] <;> rfl
  have htxn : (x.lane n).txn = some (s.openTransaction serial record) := by rw [hlane]
  have hpend' : (x.lane n).pendingRole = none := by rw [hlane]; exact hpend
  have hheld' : n ∉ x.heldOrder := by rw [← hx]; exact hheld
  have hfault : x.restingState n ≠ .fault := by rw [hrest']; decide
  have hl : ({ s.lane n with txn := none, holdTimer := none, state := .idle } : Lane) = s.lane n := by
    rw [← hnone, ← hhold, ← hidle]
  rw [State.enqueue_settled _ refund htxn hpend' hfault hheld' (by rw [← hx]; exact ho),
    State.settled_eq refund htxn hpend' hfault hheld', hrest', hlane]
  refine congrArg (State.enqueue · _) ?_
  subst hx
  have hback : (((s.entryRefunded e.stamp refund).withPort n ((s.port n).sending
      [.verdict true .refunded .green 0 refund, .release serial])).withLane n (s.lane n))
      = (s.entryRefunded e.stamp refund).withPort n ((s.port n).sending
        [.verdict true .refunded .green 0 refund, .release serial]) := State.withLane_self _ n
  rw [← hback, ← hl, State.holding, State.withPort_withLane, State.withLane_withLane]
  rfl

end Settlement

end Card

/-- Settles O37: the four fates of an offered entry, and the four of an entry that a CARD meets. -/
theorem deferredOfferMeetsTable : Obligations.DeferredOfferMeetsTable := by
  intro s e hq stored
  refine ⟨fun old hf => State.deferredOffer_of_found hq hf, fun hf hl => State.deferredOffer_of_room hf hl,
    fun oldest hf hl ho => State.deferredOffer_of_full hq hf hl ho,
    fun hf hl ha => State.deferredOffer_of_settlements hq hf hl ha,
    fun n f serial record r hp h hr hf hn => ?_⟩
  intro gone
  refine ⟨fun hi hk => exec_card_of_dayMark hp h hr hf hn hi hk, fun refund impaired generation hi hk ho hroom => ?_,
    fun hi hb hs => exec_card_of_unwritten hs hp h hr hf hi hb,
    fun hi hv hb hqs => exec_card_of_stale hp h hr hf hn hi hv hb hqs⟩
  intro notice counted
  refine ⟨fun hrt => ?_, fun hrs hs => ?_⟩
  · subst hrt
    exact (exec_card_of_settlement_ticket hp h hf hn hi hk ho hroom).trans
      (congrArg (exec (.card n f)) (State.enqueue_eq (s := counted) notice ho))
  · subst hrs
    exact exec_card_of_settlement_settle hs hp h hf hi hk ho hroom

end Sys2Proof.Machine
end

