-- ==== Sys2Proof/Proofs/PassbackTable.lean ====
section
/-! PROOFS. The Passback Table: its order, the entry of a grant, and what its operations make of its law (R48 to
R58). -/

namespace Sys2Proof.Machine

/-! ### The entry of a grant (R52) -/

/-- The entry made at the unlock of `t` on lane `n` under this hold. -/
def State.grantEntry (s : State) (n : LaneId) (t : Transaction) (hold : Nat) : PassbackEntry :=
  ⟨t.serial, t.pinned.settingsInForce.ownGroup, s.ms + hold * 1000, false, .lane n⟩

/-- The own group of `t` has a pinned hold above 0 and is in the committed watch set. -/
def State.MakesEntry (s : State) (t : Transaction) : Prop :=
  ∃ hold, holdOf t.pinned.watchSet t.pinned.settingsInForce.ownGroup = some hold ∧ 0 < hold
    ∧ (holdOf s.tables.watchSet t.pinned.settingsInForce.ownGroup).isSome = true

section Unlock

variable {s : State} {t : Transaction} {hold : Nat} {old : PassbackEntry}

/-- Without a hold in both watch sets the unlock leaves the table alone. -/
theorem State.passbackUnlock_of_none (n : LaneId) (h : ¬s.MakesEntry t) : s.passbackUnlock n t = s := by
  unfold State.passbackUnlock
  dsimp only
  split
  · rename_i hold _ hpin hwatched
    exact if_neg fun hpos => h ⟨hold, hpin, hpos, by rw [hwatched]; rfl⟩
  · rfl

variable (n : LaneId) (hpin : holdOf t.pinned.watchSet t.pinned.settingsInForce.ownGroup = some hold)
  (hpos : 0 < hold) (hwatched : (holdOf s.tables.watchSet t.pinned.settingsInForce.ownGroup).isSome = true)

include hpin hpos hwatched

theorem State.passbackUnlock_of_new (hf : s.passbackFind t.serial t.pinned.settingsInForce.ownGroup = none) :
    s.passbackUnlock n t = s.passbackInsert (s.grantEntry n t hold) := by
  obtain ⟨_, hw⟩ := Option.isSome_iff_exists.1 hwatched
  simp only [State.passbackUnlock, hpin, hw, hpos, if_true, hf, State.grantEntry]

theorem State.passbackUnlock_of_local {m : LaneId}
    (hf : s.passbackFind t.serial t.pinned.settingsInForce.ownGroup = some old) (ho : old.origin = .lane m) :
    s.passbackUnlock n t = (s.passbackRemove t.serial t.pinned.settingsInForce.ownGroup).passbackPlace
      (s.grantEntry n t hold) := by
  obtain ⟨_, hw⟩ := Option.isSome_iff_exists.1 hwatched
  simp only [State.passbackUnlock, hpin, hw, hpos, if_true, hf, ho, State.grantEntry]

theorem State.passbackUnlock_of_remote {chip : Byte}
    (hf : s.passbackFind t.serial t.pinned.settingsInForce.ownGroup = some old) (ho : old.origin = .remote chip) :
    s.passbackUnlock n t = ((s.passbackRemove t.serial t.pinned.settingsInForce.ownGroup).passbackPlace
      (s.grantEntry n t hold)).latch .cloneSuspect t.serial.toNat := by
  obtain ⟨_, hw⟩ := Option.isSome_iff_exists.1 hwatched
  simp only [State.passbackUnlock, hpin, hw, hpos, if_true, hf, ho, State.grantEntry]

end Unlock

/-! ### The table as a list of entries -/

theorem insertByExpiry_perm (e : PassbackEntry) (l : List PassbackEntry) : (insertByExpiry e l).Perm (e :: l) := by
  induction l with
  | nil => exact .refl _
  | cons x l ih =>
    unfold insertByExpiry
    split
    · exact .refl _
    · exact (ih.cons x).trans (.swap e x l)

theorem insertByExpiry_ordered (e : PassbackEntry) {l : List PassbackEntry}
    (h : l.Pairwise fun a b => a.expiry ≤ b.expiry) :
    (insertByExpiry e l).Pairwise fun a b => a.expiry ≤ b.expiry := by
  induction l with
  | nil => exact List.pairwise_singleton _ e
  | cons x l ih =>
    obtain ⟨hx, hl⟩ := List.pairwise_cons.1 h
    unfold insertByExpiry
    split
    · rename_i hlt
      refine List.pairwise_cons.2 ⟨fun y hy => ?_, h⟩
      rcases List.mem_cons.1 hy with rfl | hy
      · exact hlt.le
      · exact hlt.le.trans (hx y hy)
    · rename_i hge
      refine List.pairwise_cons.2 ⟨fun y hy => ?_, ih hl⟩
      rcases mem_insertByExpiry.1 hy with rfl | hy
      · exact Nat.le_of_not_lt hge
      · exact hx y hy

/-- An entry's key: serial and lift group (R48). -/
def PassbackEntry.key (e : PassbackEntry) : Serial × Nat := (e.serial, e.group)

theorem PassbackEntry.hasKey_iff (e : PassbackEntry) (serial : Serial) (group : Nat) :
    e.hasKey serial group = true ↔ e.key = (serial, group) := by
  simp [PassbackEntry.hasKey, PassbackEntry.key]

/-- The law of R49 on a list of entries, under a watch set. -/
def PassbackLawOn (w : List WatchEntry) (p : List PassbackEntry) : Prop :=
  p.length ≤ 256 ∧ (p.map PassbackEntry.key).Nodup ∧ ∀ e ∈ p, (holdOf w e.group).isSome = true

/-- From `p` to `q` the law of R49 and the order of expiry are both kept. -/
def KeepsPassback (w : List WatchEntry) (p q : List PassbackEntry) : Prop :=
  (PassbackLawOn w p → PassbackLawOn w q)
    ∧ (p.Pairwise (fun a b => a.expiry ≤ b.expiry) → q.Pairwise fun a b => a.expiry ≤ b.expiry)

section Keeps

variable {w : List WatchEntry} {p q r : List PassbackEntry}

@[simp] theorem KeepsPassback.refl (w : List WatchEntry) (p : List PassbackEntry) : KeepsPassback w p p := ⟨id, id⟩

theorem KeepsPassback.trans (h : KeepsPassback w p q) (h' : KeepsPassback w q r) : KeepsPassback w p r :=
  ⟨h'.1 ∘ h.1, h'.2 ∘ h.2⟩

/-- Entries that leave. -/
theorem KeepsPassback.of_sublist (h : q.Sublist p) : KeepsPassback w p q :=
  ⟨fun ⟨hl, hn, hw⟩ => ⟨h.length_le.trans hl, hn.sublist (h.map _), fun e he => hw e (h.subset he)⟩,
    fun ho => ho.sublist h⟩

/-- Entries that change in neither key nor expiry. -/
theorem KeepsPassback.map {f : PassbackEntry → PassbackEntry} (hk : ∀ e, (f e).key = e.key)
    (he : ∀ e, (f e).expiry = e.expiry) : KeepsPassback w p (p.map f) := by
  refine ⟨fun ⟨hl, hn, hw⟩ => ⟨by simpa using hl, ?_, fun e hm => ?_⟩, fun ho => ?_⟩
  · rw [List.map_map, funext (f := PassbackEntry.key ∘ f) hk]
    exact hn
  · obtain ⟨x, hx, rfl⟩ := List.mem_map.1 hm
    rw [show (f x).group = x.group from congrArg Prod.snd (hk x)]
    exact hw x hx
  · exact List.pairwise_map.2 (ho.imp fun hab => by rwa [he, he])

/-- An entry of a watched group that takes its place among entries of other keys, once another has left or while
there is room. -/
theorem KeepsPassback.insert {e : PassbackEntry} (hs : q.Sublist p) (hl : q.length < 256 ∨ q.length < p.length)
    (hk : ∀ x ∈ q, x.key ≠ e.key) (hw : (holdOf w e.group).isSome = true) :
    KeepsPassback w p (insertByExpiry e q) := by
  refine ⟨fun ⟨hlen, hnodup, hwatched⟩ => ⟨?_, ?_, fun x hx => ?_⟩,
    fun ho => insertByExpiry_ordered e (ho.sublist hs)⟩
  · rw [insertByExpiry_length]
    omega
  · have hperm := (insertByExpiry_perm e q).map PassbackEntry.key
    rw [hperm.nodup_iff, List.map_cons, List.nodup_cons]
    refine ⟨fun hm => ?_, hnodup.sublist (hs.map _)⟩
    obtain ⟨x, hx, heq⟩ := List.mem_map.1 hm
    exact hk x hx heq
  · rcases mem_insertByExpiry.1 hx with rfl | hx
    · exact hw
    · exact hwatched x (hs.subset hx)

end Keeps

/-! ### The operations on the table (R51 to R58) -/

section Table

variable {w : List WatchEntry} {p : List PassbackEntry} {s : State} {n : LaneId} {t : Transaction}

/-- The entry that the table holds under a key. -/
theorem State.passbackFind_some {serial : Serial} {group : Nat} {old : PassbackEntry}
    (h : s.passbackFind serial group = some old) : old ∈ s.passback ∧ old.key = (serial, group) :=
  ⟨List.mem_of_find?_eq_some h, (old.hasKey_iff serial group).1
    (List.find?_some (p := fun e : PassbackEntry => e.hasKey serial group) h)⟩

theorem State.passbackFind_none {serial : Serial} {group : Nat} (h : s.passbackFind serial group = none) :
    ∀ x ∈ s.passback, x.key ≠ (serial, group) := fun x hx hkey =>
  List.find?_eq_none.1 h x hx ((x.hasKey_iff serial group).2 hkey)

/-- A new key of a watched group. -/
theorem State.keeps_passbackInsert {e : PassbackEntry} (h : KeepsPassback w p s.passback)
    (hk : ∀ x ∈ s.passback, x.key ≠ e.key) (hw : (holdOf w e.group).isSome = true) :
    KeepsPassback w p (s.passbackInsert e).passback := by
  refine h.trans ?_
  by_cases hroom : s.passback.length < 256
  · rw [State.passbackInsert_of_room e hroom]
    exact .insert (.refl _) (.inl hroom) hk hw
  · cases hp : s.passback with
    | nil => simp [hp] at hroom
    | cons first rest =>
      have hins : (s.passbackInsert e).passback = insertByExpiry e rest := by
        rw [State.passbackInsert_of_full e hp (Nat.le_of_not_lt hroom)]
        simp [State.passbackPlace]
      rw [hins]
      exact .insert (List.sublist_cons_self first rest) (.inr (Nat.lt_succ_self _))
        (fun x hx => hk x (by rw [hp]; exact List.mem_cons_of_mem _ hx)) hw

/-- An entry of a key takes the place of the one before it. -/
theorem KeepsPassback.replace {e old : PassbackEntry} {serial : Serial} {group : Nat}
    (h : s.passbackFind serial group = some old) (he : e.key = (serial, group))
    (hw : (holdOf w e.group).isSome = true) :
    KeepsPassback w s.passback ((s.passbackRemove serial group).passbackPlace e).passback := by
  obtain ⟨hmem, hkey⟩ := State.passbackFind_some h
  refine .insert List.filter_sublist (.inr ?_) (fun x hx => ?_) hw
  · exact List.length_filter_lt_length_iff_exists.2 ⟨old, hmem, by simp [(old.hasKey_iff serial group).2 hkey]⟩
  · have hnot := (List.mem_filter.1 hx).2
    rw [he]
    intro hx'
    simp [(x.hasKey_iff serial group).2 hx'] at hnot

/-- The entry made at an unlock: only of a group that is watched. -/
theorem State.keeps_passbackUnlock (n : LaneId) (t : Transaction) (h : KeepsPassback w p s.passback)
    (hw : s.tables.watchSet = w) : KeepsPassback w p (s.passbackUnlock n t).passback := by
  subst hw
  by_cases hmakes : s.MakesEntry t
  · obtain ⟨hold, hpin, hpos, hwatched⟩ := hmakes
    cases hf : s.passbackFind t.serial t.pinned.settingsInForce.ownGroup with
    | none =>
      rw [State.passbackUnlock_of_new n hpin hpos hwatched hf]
      exact State.keeps_passbackInsert h (State.passbackFind_none hf) hwatched
    | some old =>
      have hrep := h.trans (.replace (e := s.grantEntry n t hold) hf rfl hwatched)
      cases ho : old.origin with
      | lane m => rwa [State.passbackUnlock_of_local n hpin hpos hwatched hf ho]
      | remote chip => simpa [State.passbackUnlock_of_remote n hpin hpos hwatched hf ho] using hrep
  · rwa [State.passbackUnlock_of_none n hmakes]

/-- The entry offered by a PASSAGE notice: only of a group that is watched. -/
theorem State.keeps_passbackOffer (serial : Serial) (group expiry : Nat) (chip : Byte)
    (hw : (holdOf w group).isSome = true) :
    KeepsPassback w s.passback (s.passbackOffer serial group expiry chip).passback := by
  unfold State.passbackOffer
  split
  · rename_i hnew
    exact State.keeps_passbackInsert (.refl _ _) (State.passbackFind_none hnew) hw
  · rename_i old hold
    split
    · split
      · have hkey := (State.passbackFind_some hold).2
        refine .replace hold hkey ?_
        rw [show old.group = group from congrArg Prod.snd hkey]
        exact hw
      · exact .refl _ _
    · simp

theorem State.keeps_passbackConfirm (n : LaneId) (t : Transaction) (h : KeepsPassback w p s.passback) :
    KeepsPassback w p (s.passbackConfirm n t).passback :=
  h.trans (.map (fun e => by split <;> rfl) fun e => by split <;> rfl)

theorem State.keeps_passbackCancel (n : LaneId) (t : Transaction) (h : KeepsPassback w p s.passback) :
    KeepsPassback w p (s.passbackCancel n t).passback :=
  h.trans (.of_sublist List.filter_sublist)

end Table

/-! ### Expiry and eviction (R57, R58) -/

/-- In an ordered table an entry stands after those of an equal or earlier expiry (R49). -/
theorem insertByExpiry_eq (e : PassbackEntry) {l : List PassbackEntry}
    (h : l.Pairwise fun a b => a.expiry ≤ b.expiry) :
    insertByExpiry e l = l.filter (fun x : PassbackEntry => decide (x.expiry ≤ e.expiry)) ++ e ::
      l.filter (fun x : PassbackEntry => decide (e.expiry < x.expiry)) := by
  induction l with
  | nil => rfl
  | cons x l ih =>
    obtain ⟨hx, hl⟩ := List.pairwise_cons.1 h
    by_cases hlt : e.expiry < x.expiry
    · have hall : ∀ y ∈ x :: l, e.expiry < y.expiry := by
        intro y hy
        rcases List.mem_cons.1 hy with rfl | hy
        · exact hlt
        · exact hlt.trans_le (hx y hy)
      have hlate : (x :: l).filter (fun y : PassbackEntry => decide (e.expiry < y.expiry)) = x :: l :=
        List.filter_eq_self.2 fun y hy => decide_eq_true (hall y hy)
      have hearly : (x :: l).filter (fun y : PassbackEntry => decide (y.expiry ≤ e.expiry)) = [] :=
        List.filter_eq_nil_iff.2 fun y hy => by simpa using hall y hy
      rw [hlate, hearly, insertByExpiry, if_pos hlt, List.nil_append]
    · rw [insertByExpiry, if_neg hlt, ih hl]
      simp [hlt, Nat.le_of_not_lt hlt]

/-- A full table gives up its first entry, with PASSBACK_EVICT set and no report. -/
theorem State.passbackInsert_of_full_silent {s : State} (e : PassbackEntry) {first : PassbackEntry}
    {rest : List PassbackEntry} (hp : s.passback = first :: rest) (hl : s.passback.length = 256)
    (hq : s.LatchesSilently .passbackEvict) :
    s.passbackInsert e = { s with passback := insertByExpiry e rest }.withFlag .passbackEvict := by
  rw [State.passbackInsert_of_full e hp hl.ge]
  exact congrArg (State.passbackPlace · e) (State.latch_of_silent { s with passback := rest } _ _ hq)

theorem exec_passbackEntryExpiry (serial : Serial) (group : Nat) (s : State) :
    exec (.passbackEntryExpiry serial group) s = .next (s.event fun s => s.passbackExpire serial group) := rfl

/-- Settles O36: the operations' equations, case by case. -/
theorem passbackExpiryAndEviction : Obligations.PassbackExpiryAndEviction := by
  intro s
  refine ⟨fun serial group hs => ?_, fun e hl => State.passbackInsert_of_room e hl,
    fun e first rest hp hl hq => ?_, fun e ho => insertByExpiry_eq e ho, fun n t => ?_⟩
  · rw [exec_passbackEntryExpiry]
    exact congrArg _ (State.event_eq rfl (hs.congr rfl rfl rfl rfl rfl rfl rfl rfl) id)
  · have hins := State.passbackInsert_of_full_silent e hp hl hq
    refine ⟨hins, ?_⟩
    rw [hp, List.length_cons] at hl
    rw [hins]
    exact (insertByExpiry_length e rest).trans hl
  · intro group entry replaced
    refine ⟨fun h => State.passbackUnlock_of_none n ?_, fun hold hpin hpos hwatched => ⟨fun hf => ?_,
      fun old m hf ho => ?_, fun old chip hf ho hq => ?_⟩⟩
    · rintro ⟨hold, hpin, hpos, hwatched⟩
      rcases h with h | h | h
      · exact absurd (h.symm.trans hpin) (by simp)
      · exact absurd (Option.some.inj (h.symm.trans hpin)) hpos.ne
      · have hnone : holdOf s.tables.watchSet t.pinned.settingsInForce.ownGroup = none := h
        exact absurd hwatched (by simp [hnone])
    · exact State.passbackUnlock_of_new n hpin hpos hwatched hf
    · exact State.passbackUnlock_of_local n hpin hpos hwatched hf ho
    · rw [State.passbackUnlock_of_remote n hpin hpos hwatched hf ho]
      exact State.latch_of_silent (replaced hold) _ _ hq

end Sys2Proof.Machine
end

