-- ==== Sys2Proof/Proofs/PassbackLaw.lean ====
section
/-! PROOFS. Every step keeps the law of the Passback Table and the order of its entries (R49): operation by operation,
in the order of the model's files. -/

namespace Sys2Proof.Machine

section Table

variable {w : List WatchEntry} {p : List PassbackEntry} {s : State}

/-! ### The operations of the lanes -/

theorem State.keeps_unlock (n : LaneId) (h : KeepsPassback w p s.passback) (hw : s.tables.watchSet = w) :
    KeepsPassback w p (s.unlock n).passback := by
  unfold State.unlock
  split
  · exact h
  · exact State.keeps_passbackUnlock n _ (by simpa) (by simpa)

theorem State.keeps_unlockOrSettle (n : LaneId) (h : KeepsPassback w p s.passback) (hw : s.tables.watchSet = w) :
    KeepsPassback w p (s.unlockOrSettle n).passback := by
  unfold State.unlockOrSettle
  split
  · simpa
  · exact State.keeps_unlock n h hw

theorem State.keeps_lapse (n : LaneId) (h : KeepsPassback w p s.passback) :
    KeepsPassback w p (s.lapse n).passback := by
  unfold State.lapse
  split
  · exact h
  · simpa using State.keeps_passbackCancel n _ (s := State.count _ n .lapsed 1) (by simpa using h)

theorem State.keeps_passageOutcome (n : LaneId) (h : KeepsPassback w p s.passback) :
    KeepsPassback w p (s.passageOutcome n).passback := by
  unfold State.passageOutcome
  split
  · simpa using State.keeps_passbackConfirm n _ (s := State.credit _ _) (by simpa using h)
  · simpa

theorem State.keeps_endTransactionFree (n : LaneId) (h : KeepsPassback w p s.passback) :
    KeepsPassback w p (s.endTransactionFree n).passback := by
  unfold State.endTransactionFree
  split <;> simp [h, State.keeps_lapse]

theorem State.keeps_beginFreeFlowLane (n : LaneId) (h : KeepsPassback w p s.passback) :
    KeepsPassback w p (s.beginFreeFlowLane n).passback := by
  have hend : KeepsPassback w p ((s.closeLateTrail n).endTransactionFree n).passback :=
    State.keeps_endTransactionFree n (by simpa)
  unfold State.beginFreeFlowLane
  split
  · dsimp only
    split <;> simpa using hend
  · exact h

theorem State.keeps_freeFlowChange (before : Bool) (h : KeepsPassback w p s.passback) :
    KeepsPassback w p (s.freeFlowChange before).passback := by
  unfold State.freeFlowChange
  split
  · exact State.keeps_beginFreeFlowLane .l4 (State.keeps_beginFreeFlowLane .l3
      (State.keeps_beginFreeFlowLane .l2 (State.keeps_beginFreeFlowLane .l1 h)))
  · split
    · simpa [LaneId.all]
    · exact h

/-! ### The verdicts -/

theorem State.keeps_grant (n : LaneId) (h : KeepsPassback w p s.passback) (hw : s.tables.watchSet = w) :
    KeepsPassback w p (s.grant n).passback := by
  unfold State.grant
  split
  · exact h
  · split
    · split <;> simpa
    · exact State.keeps_unlockOrSettle n (by simpa) (by simpa)

theorem State.keeps_ticketFromRecord (n : LaneId) (h : KeepsPassback w p s.passback)
    (hw : s.tables.watchSet = w) : KeepsPassback w p (s.ticketFromRecord n).passback := by
  unfold State.ticketFromRecord State.ticketCapacity
  split
  · exact h
  · split
    · simpa
    · split
      · simpa
      · split
        · simpa
        · split
          · exact State.keeps_grant n (by simpa) (by simpa)
          · simpa

theorem State.keeps_fromRecord (n : LaneId) (h : KeepsPassback w p s.passback) (hw : s.tables.watchSet = w) :
    KeepsPassback w p (s.fromRecord n).passback := by
  unfold State.fromRecord
  split
  · simpa
  · exact State.keeps_ticketFromRecord n h hw

theorem State.keeps_resolveComplete (n : LaneId) (e : DeferredEntry) (h : KeepsPassback w p s.passback)
    (hw : s.tables.watchSet = w) : KeepsPassback w p (s.resolveComplete n e).passback := by
  unfold State.resolveComplete
  split
  · split
    · simpa
    · exact h
  · rename_i s' hs'
    obtain ⟨-, -, -, -, -, htables, -, -, hpassback, -⟩ := State.deferredComplete_frame s s' e hs'
    have hfrom := State.keeps_fromRecord (s := s') (w := w) (p := p) n (by rwa [hpassback]) (by rwa [htables])
    split
    · split
      · simpa [hpassback]
      · exact hfrom
    · exact hfrom

theorem State.keeps_resolveStep (n : LaneId) (h : KeepsPassback w p s.passback) (hw : s.tables.watchSet = w) :
    KeepsPassback w p (s.resolveStep n).passback := by
  unfold State.resolveStep
  split
  · exact h
  · split
    · exact State.keeps_fromRecord n h hw
    · split
      · exact State.keeps_resolveComplete n _ h hw
      · split
        · simpa
        · exact State.keeps_fromRecord n (by simpa) (by simpa)

theorem State.keeps_verdict (n : LaneId) (h : KeepsPassback w p s.passback) (hw : s.tables.watchSet = w) :
    KeepsPassback w p (s.verdict n).passback := by
  unfold State.verdict
  split
  · exact h
  · split
    · simpa
    · split
      · simpa
      · exact State.keeps_resolveStep n h hw

theorem State.keeps_resolutionOutcome (n : LaneId) (record : Record) (o : WriteOutcome)
    (h : KeepsPassback w p s.passback) (hw : s.tables.watchSet = w) :
    KeepsPassback w p (s.resolutionOutcome n record o).passback := by
  unfold State.resolutionOutcome
  split
  · exact h
  · split
    · dsimp only
      split
      · exact State.keeps_resolveComplete n _ (by simpa) (by simpa)
      · exact State.keeps_fromRecord n (by simpa) (by simpa)
    all_goals simpa

theorem State.keeps_grantOutcome (n : LaneId) (record : Record) (o : WriteOutcome)
    (h : KeepsPassback w p s.passback) (hw : s.tables.watchSet = w) :
    KeepsPassback w p (s.grantOutcome n record o).passback := by
  unfold State.grantOutcome
  split
  · exact h
  · dsimp only
    split
    · exact State.keeps_unlockOrSettle n (by simpa) (by simpa)
    · exact State.keeps_unlockOrSettle n (by simpa) (by simpa)
    · exact State.keeps_unlockOrSettle n (by simpa) (by simpa)
    all_goals simpa

theorem State.keeps_endWrite (n : LaneId) (x : WriteRequest) (o : WriteOutcome)
    (h : KeepsPassback w p s.passback) (hw : s.tables.watchSet = w) :
    KeepsPassback w p (s.endWrite n x o).passback := by
  simp only [State.endWrite, State.sendWaiting_frame, State.deliverOutcome]
  split
  · exact State.keeps_resolutionOutcome n _ o (by simpa) (by simpa)
  · exact State.keeps_grantOutcome n _ o (by simpa) (by simpa)
  · simpa
  · split <;> simpa
  · split <;> simpa
  · simpa

/-! ### The reader ports -/

theorem State.keeps_readerDown (n : LaneId) (h : KeepsPassback w p s.passback) :
    KeepsPassback w p (s.readerDown n).passback := by
  unfold State.readerDown
  split
  · split
    · exact h
    · simpa
    · simpa
    · split
      · exact h
      · split <;> simpa
    · simpa
    · simpa using State.keeps_lapse n h
    · simpa using State.keeps_lapse n h
    all_goals simpa
  · exact h

theorem State.keeps_setReaderStatus (n : LaneId) (st : ReaderStatus) (h : KeepsPassback w p s.passback) :
    KeepsPassback w p (s.setReaderStatus n st).passback := by
  unfold State.setReaderStatus
  dsimp only
  split
  · exact State.keeps_readerDown n (by split <;> simpa)
  · split
    · simp only [State.readerUpEvent_frame]
      split <;> simpa
    · split <;> simpa

theorem State.keeps_goodBeat (n : LaneId) (ok : Bool) (h : KeepsPassback w p s.passback) :
    KeepsPassback w p (s.goodBeat n ok).passback :=
  State.keeps_setReaderStatus n _ (by simpa)

theorem State.keeps_heartbeatLost (n : LaneId) (h : KeepsPassback w p s.passback) :
    KeepsPassback w p (s.heartbeatLost n).passback := by
  unfold State.heartbeatLost
  split
  · exact State.keeps_setReaderStatus n _ (by simpa)
  · exact h

theorem State.keeps_presentCard (n : LaneId) (serial : Serial) (record : Record) (h : KeepsPassback w p s.passback)
    (hw : s.tables.watchSet = w) : KeepsPassback w p (s.presentCard n serial record).passback := by
  have htake : KeepsPassback w p (s.takeCard n serial record).passback :=
    State.keeps_verdict n (by simpa) (by simpa)
  unfold State.presentCard
  split
  · simpa
  · simpa
  · simpa
  all_goals
    split
    · exact htake
    all_goals simpa

theorem State.keeps_writeResult (n : LaneId) (serial : Serial) (o : WriteOutcome) (h : KeepsPassback w p s.passback)
    (hw : s.tables.watchSet = w) : KeepsPassback w p (s.writeResult n serial o).passback := by
  unfold State.writeResult
  split
  · split
    · exact State.keeps_endWrite n _ o h hw
    · exact h
  · exact h

theorem State.keeps_writeTimeout (n : LaneId) (h : KeepsPassback w p s.passback) (hw : s.tables.watchSet = w) :
    KeepsPassback w p (s.writeTimeout n).passback := by
  unfold State.writeTimeout
  split
  · split
    · exact State.keeps_endWrite n _ .torn h hw
    · exact h
  · exact h

/-! ### The arm and the lane timers -/

theorem State.keeps_forwardStart (n : LaneId) (h : KeepsPassback w p s.passback) :
    KeepsPassback w p (s.forwardStart n).passback := by
  have hclose : KeepsPassback w p (s.closeTrailWindow n).passback := by
    unfold State.closeTrailWindow
    split
    · exact State.keeps_passageOutcome n h
    · simpa
    · simpa
  unfold State.forwardStart
  split
  · split
    · dsimp only
      split <;> simpa
    · simpa
  · exact h

theorem State.keeps_armReturn (n : LaneId) (h : KeepsPassback w p s.passback) :
    KeepsPassback w p (s.armReturn n).passback := by
  have habandon (x : State) (hx : KeepsPassback w p x.passback) : KeepsPassback w p (x.abandonRotation n).passback := by
    unfold State.abandonRotation
    split
    · simpa
    · split
      · split
        · exact hx
        · dsimp only
          split
          · simpa using State.keeps_lapse n (s := x.modLane n _) (by simpa)
          · simpa
      · split <;> simpa
      · simpa
  unfold State.armReturn
  split
  · exact h
  · simpa
  · dsimp only
    split
    · exact habandon _ (by simpa)
    · simpa

theorem State.keeps_grantTimeout (n : LaneId) (h : KeepsPassback w p s.passback) :
    KeepsPassback w p (s.grantTimeout n).passback := by
  unfold State.grantTimeout
  split
  · dsimp only
    split
    · simpa using State.keeps_lapse n (s := s.modLane n _) (by simpa)
    all_goals simpa
  · exact h

theorem State.keeps_trailTimeout (n : LaneId) (h : KeepsPassback w p s.passback) :
    KeepsPassback w p (s.trailTimeout n).passback := by
  unfold State.trailTimeout
  split
  · split
    · simpa
    · split
      · exact State.keeps_passageOutcome n h
      all_goals simpa
  · exact h

theorem State.keeps_recoveryTimeout (n : LaneId) (h : KeepsPassback w p s.passback) (hw : s.tables.watchSet = w) :
    KeepsPassback w p (s.recoveryTimeout n).passback := by
  unfold State.recoveryTimeout
  split
  · dsimp only
    split
    · exact State.keeps_unlock n (by simpa) (by simpa)
    · simpa
  · exact h

/-! ### The warm reset and the end of an event -/

theorem State.keeps_warmReset (h : KeepsPassback w p s.passback) : KeepsPassback w p s.warmReset.passback := by
  have hlane (x : State) (hx : KeepsPassback w p x.passback) (n : LaneId) :
      KeepsPassback w p (x.warmLane n).passback := by
    have hend (y : State) (b : Bool) (hy : KeepsPassback w p y.passback) :
        KeepsPassback w p (y.endTransactionWarm n b).passback := by
      unfold State.endTransactionWarm
      split
      · exact hy
      · split
        · exact State.keeps_lapse n hy
        · exact State.keeps_lapse n hy
        · split <;> simpa
    simpa [State.warmLane] using hend _ (x.abandonWrite n).2 (by simpa using hx)
  have hlanes := hlane _ (hlane _ (hlane _ (hlane s h .l1) .l2) .l3) .l4
  unfold State.warmReset
  dsimp only
  simp only [State.warmLoop, State.warmPassback, State.warmMaze_frame]
  exact hlanes.trans (.of_sublist List.filter_sublist)

theorem State.keeps_givePlaces (k : Nat) (h : KeepsPassback w p s.passback) (hw : s.tables.watchSet = w) :
    KeepsPassback w p (s.givePlaces k).passback := by
  induction k generalizing s with
  | zero => exact h
  | succ k ih =>
    unfold State.givePlaces
    split
    · exact h
    · split
      · exact ih (State.keeps_grant _ (by simpa) (by simpa)) (by simpa)
      · exact h

end Table

/-! ### Commands and steps -/

/-- From `s` to `t` the law of the Passback Table and its order are kept. -/
def State.PassbackKept (s t : State) : Prop :=
  (s.PassbackLaw → t.PassbackLaw) ∧ (s.PassbackOrdered → t.PassbackOrdered)

section Kept

variable {s t u : State} {m : Arrival}

theorem State.PassbackKept.refl (s : State) : s.PassbackKept s := ⟨id, id⟩

theorem State.PassbackKept.trans (h : s.PassbackKept t) (h' : t.PassbackKept u) : s.PassbackKept u :=
  ⟨h'.1 ∘ h.1, h'.2 ∘ h.2⟩

/-- Under the same watch set the law is that of the list of entries. -/
theorem State.PassbackKept.of_list (ht : t.tables = s.tables)
    (h : KeepsPassback s.tables.watchSet s.passback t.passback) : s.PassbackKept t := by
  refine ⟨fun hl => ?_, h.2⟩
  have hlaw := h.1 hl
  rw [← ht] at hlaw
  exact hlaw

theorem State.PassbackKept.of_frame (hp : t.passback = s.passback) (ht : t.tables = s.tables) : s.PassbackKept t :=
  .of_list ht (by rw [hp]; exact .refl _ _)

theorem State.PassbackKept.event {f : State → State} (h : s.PassbackKept (f s)) : s.PassbackKept (s.event f) := by
  refine h.trans (.of_list (by simp [State.event]) ?_)
  simpa [State.event, State.finish] using State.keeps_givePlaces _ (.refl _ (f s).passback) rfl

/-! ### The key switch and the link -/

theorem State.passbackKept_keyChanged (s : State) (n : LaneId) (level : Bool) :
    s.PassbackKept (s.keyChanged n level) := by
  unfold State.keyChanged
  dsimp only
  split <;> exact .of_frame (by simp) (by simp)

theorem State.passbackKept_linkLost (s : State) : s.PassbackKept s.linkLost :=
  .of_frame (by simp [State.linkLost]) (by simp [State.linkLost])

theorem State.passbackKept_silenceTimeout (s : State) : s.PassbackKept s.silenceTimeout := by
  unfold State.silenceTimeout
  split
  · split
    · exact .of_frame rfl rfl
    · exact s.passbackKept_linkLost
  · exact .refl s

theorem State.passbackKept_trainingTimeout (s : State) : s.PassbackKept s.trainingTimeout := by
  unfold State.trainingTimeout
  split
  · dsimp only
    split
    · split <;> exact .of_frame (by simp) (by simp)
    · exact .of_frame rfl rfl
  · exact .refl s

/-! ### Messages from the loop -/

theorem State.passbackKept_badMessage (s : State) : s.PassbackKept s.badMessage := by
  unfold State.badMessage
  dsimp only
  split
  · exact .of_frame rfl rfl
  · split
    · refine State.PassbackKept.trans ?_ (State.passbackKept_linkLost _)
      exact .of_frame rfl rfl
    · exact .of_frame rfl rfl
  · split
    · refine State.PassbackKept.trans ?_ (State.passbackKept_linkLost _)
      exact .of_frame rfl rfl
    · exact .of_frame rfl rfl

theorem State.passbackKept_forward (s : State) (type : Byte) (m : Arrival) : s.PassbackKept (s.forward type m) := by
  unfold State.forward
  split <;> exact .of_frame rfl rfl

/-- A message changes the table by its delivery alone. -/
theorem State.passbackKept_receive (type : Byte) (m : Arrival) {f : State → State}
    (h : ∀ x : State, x.PassbackKept (f x)) : s.PassbackKept (s.receive type m f) := by
  have hgood : s.PassbackKept s.goodMessage := .of_frame rfl rfl
  unfold State.receive
  split
  · exact s.passbackKept_badMessage
  · dsimp only
    split
    · exact hgood
    · split
      · exact hgood
      · split
        · exact .of_frame rfl rfl
        · split
          · exact hgood.trans (h _)
          · split
            · refine State.PassbackKept.trans ?_ (State.passbackKept_forward _ type m)
              split
              · exact hgood
              · exact hgood.trans (h _)
            · exact hgood.trans (State.passbackKept_forward _ type m)

theorem State.passbackKept_timeNotice (s : State) (m : Arrival) : s.PassbackKept (s.timeNotice m) := by
  unfold State.timeNotice State.badNotice
  split
  · exact .refl s
  · split <;> exact .of_frame (by simp) (by simp)

theorem State.passbackKept_dayOpenNotice (s : State) (m : Arrival) : s.PassbackKept (s.dayOpenNotice m) := by
  unfold State.dayOpenNotice State.badNotice
  dsimp only
  split
  · exact .refl s
  · split <;> exact .of_frame (by simp) (by simp)

theorem State.passbackKept_dayCloseNotice (s : State) (m : Arrival) : s.PassbackKept (s.dayCloseNotice m) := by
  unfold State.dayCloseNotice State.badNotice
  dsimp only
  split
  · exact .refl s
  · split
    · split
      · split <;> exact .of_frame (by simp) (by simp)
      · exact .refl s
    · exact .of_frame (by simp) (by simp)

theorem State.passbackKept_passageReceived (s : State) (m : Arrival) : s.PassbackKept (s.passageReceived m) := by
  unfold State.passageReceived
  dsimp only
  split
  · exact .refl s
  · split
    · exact .refl s
    · rename_i hwatched
      split
      · exact .refl s
      · exact .of_list (by simp) (State.keeps_passbackOffer _ _ _ _ (by rw [hwatched]; rfl))

/-! ### Commands from the loop -/

theorem State.passbackKept_takeCommand (s : State) (code : Byte) {body : State → CommandResult}
    (h : ∀ x : State, x.PassbackKept (body x).state) : s.PassbackKept (s.takeCommand code body) := by
  unfold State.takeCommand
  split
  · exact .of_frame rfl rfl
  · exact (h s).trans (.of_frame (by simp) (by simp))

theorem State.passbackKept_commandDelivered (s : State) (m : Arrival) {act : State → State}
    (h : s.PassbackKept (act s)) : s.PassbackKept (s.commandDelivered m act) := by
  unfold State.commandDelivered
  split
  · exact h
  · exact .refl s

theorem State.passbackKept_command (code : Byte) {body : State → CommandResult}
    (h : ∀ x : State, x.PassbackKept (body x).state) :
    s.PassbackKept (s.commandDelivered m fun x => x.takeCommand code body) :=
  s.passbackKept_commandDelivered m (s.passbackKept_takeCommand code h)

theorem tablesAfter_watchSet {named : List TableId} (shadows : Shadows) (set : TableSet)
    (h : TableId.watchSet ∉ named) : (tablesAfter named shadows set).watchSet = set.watchSet := by
  unfold tablesAfter
  induction named generalizing set with
  | nil => rfl
  | cons x named ih =>
    rw [List.foldl_cons, ih _ (List.not_mem_of_not_mem_cons h)]
    cases x with
    | watchSet => exact absurd List.mem_cons_self h
    | _ => rfl

/-- What the roles of a committed lane table leave alone. -/
theorem State.commitRole_frame (s : State) (n : LaneId) (r : Role) :
    (s.commitRole n r).tables = s.tables ∧ (s.commitRole n r).passback = s.passback := by
  unfold State.commitRole
  dsimp only
  (repeat' split) <;> simp

theorem State.commitRoles_frame (s : State) :
    s.commitRoles.tables = s.tables ∧ s.commitRoles.passback = s.passback := by
  unfold State.commitRoles
  split
  · exact ⟨rfl, rfl⟩
  · simp [LaneId.all, State.commitRole_frame]

/-- The tables that stand after the swap, and the entries of groups no longer watched gone (R51, R181). -/
theorem State.swapTables_frame (s : State) (named : List TableId) :
    (s.swapTables named).tables
        = { tablesAfter named s.mgmt.shadows s.tables with generation := s.tables.generation + 1 }
      ∧ (s.swapTables named).passback = if TableId.watchSet ∈ named
        then s.passback.filter fun e : PassbackEntry =>
          (holdOf (tablesAfter named s.mgmt.shadows s.tables).watchSet e.group).isSome
        else s.passback := by
  constructor
  · simp [State.swapTables, apply_ite State.tables, State.commitRoles_frame, State.commitWatchSet]
  · simp [State.swapTables, apply_ite State.passback, State.commitRoles_frame, State.commitWatchSet]

/-- The swap keeps the law: under a new watch set only entries of its groups stay (R51). -/
theorem State.passbackKept_swapTables (s : State) (named : List TableId) : s.PassbackKept (s.swapTables named) := by
  obtain ⟨htables, hpassback⟩ := s.swapTables_frame named
  unfold State.PassbackKept State.PassbackLaw State.PassbackOrdered
  rw [htables, hpassback]
  by_cases hn : TableId.watchSet ∈ named
  · rw [if_pos hn]
    refine ⟨fun ⟨hlen, hnodup, _⟩ => ⟨(List.length_filter_le _ _).trans hlen,
      hnodup.sublist (List.filter_sublist.map _), fun e he => ?_⟩, fun ho => ho.sublist List.filter_sublist⟩
    exact (List.mem_filter.1 he).2
  · rw [if_neg hn]
    dsimp only
    rw [tablesAfter_watchSet _ _ hn]
    exact ⟨id, id⟩

theorem State.passbackKept_loadCommand (s : State) (bs : List Byte) : s.PassbackKept (s.loadCommand bs).state := by
  unfold State.loadCommand
  split
  · exact .refl s
  · split
    · exact .refl s
    · split <;> exact .of_frame rfl rfl

theorem State.passbackKept_commitCommand (s : State) (bs : List Byte) :
    s.PassbackKept (s.commitCommand bs).state := by
  unfold State.commitCommand
  split
  · exact .refl s
  · split
    · exact .refl s
    · split
      · exact .refl s
      · exact s.passbackKept_swapTables _

theorem State.passbackKept_abortLoadCommand (s : State) (bs : List Byte) :
    s.PassbackKept (s.abortLoadCommand bs).state := by
  unfold State.abortLoadCommand
  split <;> exact .of_frame rfl rfl

theorem State.passbackKept_laneCommand (s : State) (bs : List Byte) : s.PassbackKept (s.laneCommand bs).state := by
  unfold State.laneCommand
  split
  · exact .refl s
  · split
    · exact .refl s
    · exact .of_frame (by simp [State.done]) (by simp [State.done])

theorem State.passbackKept_freeFlowChange (s x : State) (before : Bool) (hp : x.passback = s.passback)
    (ht : x.tables = s.tables) : s.PassbackKept (x.freeFlowChange before) :=
  .of_list (by simp [ht]) (State.keeps_freeFlowChange before (by rw [hp]; exact .refl _ _))

theorem State.passbackKept_freeFlowCommand (s : State) (bs : List Byte) :
    s.PassbackKept (s.freeFlowCommand bs).state := by
  unfold State.freeFlowCommand
  split
  · exact .refl s
  · exact State.passbackKept_freeFlowChange s _ _ rfl rfl

theorem State.passbackKept_loadingHoldCommand (s : State) (bs : List Byte) :
    s.PassbackKept (s.loadingHoldCommand bs).state := by
  unfold State.loadingHoldCommand State.setLoadingHold
  split
  · exact .refl s
  · dsimp only [State.done]
    split <;> exact .of_frame (by simp) (by simp)

theorem State.passbackKept_readStatusCommand (s : State) (bs : List Byte) :
    s.PassbackKept (s.readStatusCommand bs).state := by
  unfold State.readStatusCommand
  split
  · exact .refl s
  · split
    · exact .refl s
    · exact .of_frame rfl rfl

theorem State.passbackKept_readCountsCommand (s : State) (bs : List Byte) :
    s.PassbackKept (s.readCountsCommand bs).state := by
  unfold State.readCountsCommand
  split <;> exact .refl s

theorem State.passbackKept_flagCommands (s : State) (bs : List Byte) :
    s.PassbackKept (s.clearFlagsCommand bs).state ∧ s.PassbackKept (s.reportEnableCommand bs).state := by
  unfold State.clearFlagsCommand State.reportEnableCommand
  split <;> exact ⟨.of_frame rfl rfl, .of_frame rfl rfl⟩

theorem State.passbackKept_purgeDeferredCommand (s : State) (bs : List Byte) :
    s.PassbackKept (s.purgeDeferredCommand bs).state := by
  unfold State.purgeDeferredCommand
  split <;> exact .of_frame rfl rfl

/-- RESTART's warm reset removes the PENDING entries and those of the grants it ends (R54, R61). -/
theorem State.passbackKept_restartCommand (s : State) (bs : List Byte) : s.PassbackKept (s.restartCommand bs) := by
  unfold State.restartCommand
  split
  · exact s.passbackKept_takeCommand _ fun x => .refl x
  · split
    · exact s.passbackKept_takeCommand _ fun x => .refl x
    · refine (s.passbackKept_takeCommand _ fun x => .refl x).trans (.of_list ?_ (State.keeps_warmReset (.refl _ _)))
      simp [State.warmReset, State.warmLoop, LaneId.all]

theorem State.passbackKept_deliver (s : State) (type : Byte) (m : Arrival) : s.PassbackKept (s.deliver type m) := by
  unfold State.deliver
  split
  · exact s.passbackKept_timeNotice m
  · exact s.passbackKept_dayOpenNotice m
  · exact s.passbackKept_dayCloseNotice m
  · exact s.passbackKept_passageReceived m
  iterate 5 exact .refl s
  · exact State.passbackKept_command _ fun x => x.passbackKept_loadCommand _
  · exact State.passbackKept_command _ fun x => x.passbackKept_commitCommand _
  · exact State.passbackKept_command _ fun x => x.passbackKept_abortLoadCommand _
  · exact State.passbackKept_command _ fun x => x.passbackKept_laneCommand _
  · exact State.passbackKept_command _ fun x => x.passbackKept_freeFlowCommand _
  · exact State.passbackKept_command _ fun x => x.passbackKept_loadingHoldCommand _
  · exact State.passbackKept_command _ fun x => x.passbackKept_readStatusCommand _
  · exact State.passbackKept_command _ fun x => x.passbackKept_readCountsCommand _
  · exact State.passbackKept_command _ fun x => (x.passbackKept_flagCommands _).1
  · exact State.passbackKept_command _ fun x => (x.passbackKept_flagCommands _).2
  · exact State.passbackKept_command _ fun x => x.passbackKept_purgeDeferredCommand _
  · exact s.passbackKept_commandDelivered m (s.passbackKept_restartCommand _)
  · exact State.passbackKept_command _ fun x => .refl x

/-- Every command keeps the law and the order. -/
theorem passbackKept_exec (c : Instr) (h : exec c s = .next t) : s.PassbackKept t := by
  have hevent {f : State → State} (hc : exec c s = .next (s.event f)) (hf : s.PassbackKept (f s)) :
      s.PassbackKept t := Host.Outcome.next.inj (hc.symm.trans h) ▸ hf.event
  have hlist {f : State → State} (hc : exec c s = .next (s.event f)) (ht : (f s).tables = s.tables)
      (hf : KeepsPassback s.tables.watchSet s.passback (f s).passback) : s.PassbackKept t :=
    hevent hc (.of_list ht hf)
  have hframe {f : State → State} (hc : exec c s = .next (s.event f)) (ht : (f s).tables = s.tables)
      (hf : (f s).passback = s.passback) : s.PassbackKept t := hevent hc (.of_frame hf ht)
  have hp := KeepsPassback.refl s.tables.watchSet s.passback
  cases c with
  | card n f =>
    refine Host.Outcome.next.inj h ▸ ?_
    split
    · exact .event (.of_list (by simp) (State.keeps_presentCard n _ _ hp rfl))
    all_goals exact .refl s
  | gone n f =>
    refine Host.Outcome.next.inj h ▸ ?_
    split
    · exact .event (.of_frame (by simp) (by simp))
    all_goals exact .refl s
  | writeResult n f =>
    refine Host.Outcome.next.inj h ▸ ?_
    split
    · exact .event (.of_list (by simp) (State.keeps_writeResult n _ _ hp rfl))
    all_goals exact .refl s
  | beat n f =>
    refine Host.Outcome.next.inj h ▸ ?_
    split
    · exact .event (.of_list (by simp) (State.keeps_goodBeat n _ hp))
    all_goals exact .refl s
  | writeTimerExpiry n => exact hlist rfl (by simp) (State.keeps_writeTimeout n hp rfl)
  | heartbeatTimerExpiry n => exact hlist rfl (by simp) (State.keeps_heartbeatLost n hp)
  | rotateFwdStart n => exact hlist rfl (by simp) (State.keeps_forwardStart n hp)
  | rotateReturn n => exact hlist rfl (by simp) (State.keeps_armReturn n hp)
  | grantTimerExpiry n => exact hlist rfl (by simp) (State.keeps_grantTimeout n hp)
  | trailTimerExpiry n => exact hlist rfl (by simp) (State.keeps_trailTimeout n hp)
  | recoveryTimerExpiry n => exact hlist rfl (by simp) (State.keeps_recoveryTimeout n hp rfl)
  | freeFlowPinChange level => exact hevent rfl (State.passbackKept_freeFlowChange s _ _ rfl rfl)
  | passbackEntryExpiry serial group => exact hlist rfl rfl (.of_sublist List.filter_sublist)
  | passage m => exact hevent rfl (State.passbackKept_receive _ m fun x => x.passbackKept_passageReceived m)
  | time m => exact hevent rfl (State.passbackKept_receive _ m fun x => x.passbackKept_timeNotice m)
  | dayOpen m => exact hevent rfl (State.passbackKept_receive _ m fun x => x.passbackKept_dayOpenNotice m)
  | dayClose m => exact hevent rfl (State.passbackKept_receive _ m fun x => x.passbackKept_dayCloseNotice m)
  | transitMessage type m | unknownCommand type m =>
    exact hevent rfl (State.passbackKept_receive type m fun x => x.passbackKept_deliver type m)
  | load m => exact hevent rfl (State.passbackKept_receive 0x01 m fun x => x.passbackKept_deliver 0x01 m)
  | commit m => exact hevent rfl (State.passbackKept_receive 0x02 m fun x => x.passbackKept_deliver 0x02 m)
  | abortLoad m => exact hevent rfl (State.passbackKept_receive 0x03 m fun x => x.passbackKept_deliver 0x03 m)
  | lane m => exact hevent rfl (State.passbackKept_receive 0x04 m fun x => x.passbackKept_deliver 0x04 m)
  | freeFlow m => exact hevent rfl (State.passbackKept_receive 0x05 m fun x => x.passbackKept_deliver 0x05 m)
  | loadingHold m => exact hevent rfl (State.passbackKept_receive 0x06 m fun x => x.passbackKept_deliver 0x06 m)
  | readStatus m => exact hevent rfl (State.passbackKept_receive 0x07 m fun x => x.passbackKept_deliver 0x07 m)
  | readCounts m => exact hevent rfl (State.passbackKept_receive 0x08 m fun x => x.passbackKept_deliver 0x08 m)
  | clearFlags m => exact hevent rfl (State.passbackKept_receive 0x09 m fun x => x.passbackKept_deliver 0x09 m)
  | reportEnable m => exact hevent rfl (State.passbackKept_receive 0x0A m fun x => x.passbackKept_deliver 0x0A m)
  | purgeDeferred m => exact hevent rfl (State.passbackKept_receive 0x0B m fun x => x.passbackKept_deliver 0x0B m)
  | restart m => exact hevent rfl (State.passbackKept_receive 0x0C m fun x => x.passbackKept_deliver 0x0C m)
  | rotateFwdDone n | rotateRevStart n | rotateRevDone n | holdTimerExpiry n | liftRunChange level | chair
  | windowTimerExpiry | stationClockAdvance | intervalPrescalerExpiry | intervalEnd =>
    exact hevent rfl (.of_frame (by simp) (by simp))
  | idleFill | sendEnd => exact hevent rfl (.of_frame rfl rfl)
  | body n k | lgBeamBody k | alarmTimerExpiry n => exact hevent rfl (by split <;> exact .of_frame (by simp) (by simp))
  | keyChange n level => exact hevent rfl (s.passbackKept_keyChanged n level)
  | silenceTimerExpiry => exact hevent rfl s.passbackKept_silenceTimeout
  | trainingTimerExpiry => exact hevent rfl s.passbackKept_trainingTimeout
  | coldReset pins =>
    refine Host.Outcome.next.inj h ▸ ⟨fun _ => ⟨Nat.zero_le _, List.nodup_nil, fun e he => ?_⟩,
      fun _ => List.Pairwise.nil⟩
    exact absurd he List.not_mem_nil

theorem State.passbackKept_idle (s : State) : s.PassbackKept s.idle := by
  unfold State.idle
  split
  · exact .event (.of_frame (by simp) (by simp))
  · split <;> exact .of_frame rfl rfl

end Kept

/-- Settles O6: an idle step and every command keep the law and the order. -/
theorem passbackLawsKept : Obligations.PassbackLawsKept := by
  intro s t ht
  unfold step at ht
  split at ht
  · exact Host.Outcome.next.inj ht ▸ s.passbackKept_idle
  · rename_i c rest _
    have hkept : ({ s with pending := rest } : State).PassbackKept t := passbackKept_exec c ht
    exact hkept

end Sys2Proof.Machine
end

