-- ==== Sys2Proof/Proofs/GrantTimer.lean ====
section
/-! PROOFS. A grant that lapses to rest, and the end of the grant timer. -/

namespace Sys2Proof.Machine

theorem exec_grantTimerExpiry (n : LaneId) (s : State) :
    exec (.grantTimerExpiry n) s = .next (s.event fun s => s.grantTimeout n) := rfl

/-- `s` with the grant of `t` released and its PENDING entry removed. -/
def State.grantCancelled (s : State) (n : LaneId) (t : Transaction) : State :=
  (s.passbackCancel n t).withPort n ((s.port n).sending [.release t.serial])

/-- `s` with the grant of `t` lapsed on lane `n`, which stood as `l`, and the lane at rest: no window of it was in its
trail, and the maze takes nothing. -/
def State.lapsedTo (s : State) (n : LaneId) (t : Transaction) (l : Lane) : State :=
  (s.grantCancelled n t).withLane n { l.lapsed with state := s.restingState n }

theorem Lane.lapseCredit_of_none {l : Lane} (h : l.window = none) : l.lapseCredit = 0 := by
  simp [Lane.lapseCredit, h]

theorem Lane.lapsed_of_none {l : Lane} (h : l.window = none) : l.lapsed =
    { l.released with
      grantTimer := none
      grantExpired := false
      trailTimer := if l.lateFree.isSome then l.trailTimer else none
      recoveryTimer := none }.counting .lapsed 1 := by
  simp [Lane.lapsed, Lane.released, Lane.counting, h]

section Lapse

variable {s : State} {n : LaneId} {t : Transaction} {l : Lane}

/-- A lapse without maze credit, and the lane at rest (R65, R76). -/
theorem State.lapse_comeToRest (ht : l.txn = some t) (hrole : l.role = (s.lane n).role)
    (hkey : l.keyHigh = (s.lane n).keyHigh) (hopen : l.commandOpen = (s.lane n).commandOpen)
    (hp : l.pendingRole = none) (hr : s.restingState n ≠ .fault) (hheld : s.heldOrder = [])
    (hc : l.lapseCredit = 0) (hm : s.MazeInRange) :
    ((s.withLane n l).lapse n).comeToRest n = s.lapsedTo n t l := by
  have hsame : min 255 s.maze.count = s.maze.count := Nat.min_eq_right hm
  have hlapse : (s.withLane n l).lapse n = (s.grantCancelled n t).withLane n l.lapsed := by
    rw [State.lapse_eq (s := s.withLane n l) (t := t) (by simpa using ht)]
    simp only [State.withLane_lane_same, State.withLane_maze, State.withLane_heldOrder, State.withLane_passback, hc,
      hheld, List.filter_nil, Nat.add_zero, hsame, State.withLane_port, State.withPort_withLane,
      State.withLane_withLane]
    simp [State.grantCancelled, State.passbackCancel, State.withLane, State.withPort, ← hheld]
  have hrest : (s.grantCancelled n t).restingState n = s.restingState n :=
    State.restingState_withPort (s.passbackCancel n t) n n rfl
  rw [hlapse, State.comeToRest_withLane (s := s.grantCancelled n t) (l := l.lapsed) hrole hkey hopen hp
    (by rwa [hrest]), hrest]
  rfl

theorem State.lapsedTo_of_none (h : l.window = none) : s.lapsedTo n t l =
    (s.grantCancelled n t).withLane n ({ l.released with
      state := s.restingState n
      grantTimer := none
      grantExpired := false
      trailTimer := if l.lateFree.isSome then l.trailTimer else none
      recoveryTimer := none }.counting .lapsed 1) := by
  rw [State.lapsedTo, Lane.lapsed_of_none h]
  rfl

/-- A lapse of a transaction that holds no general entry keeps a part without held lanes settled. -/
theorem State.Settled.lapsedTo (hs : s.Settled) (ht : (s.lane n).txn = some t) (hi : t.insertReserved = false)
    (hheld : s.heldOrder = []) :
    (s.lapsedTo n t l).Settled ∧ (s.placeFree = true → (s.lapsedTo n t l).placeFree = true) := by
  generalize hl : ({ l.lapsed with state := s.restingState n } : Lane) = rested
  have hnone : rested.txn = none := by rw [← hl]; rfl
  have hins : rested.insertReservation = (s.lane n).insertReservation := by
    rw [Lane.insertReservation_of_none hnone, Lane.insertReservation_of_txn ht, hi]
    rfl
  rw [State.lapsedTo, hl]
  exact ⟨hs.of_given (.inl hheld) rfl rfl (State.withLane_generalReserved s n _ hins),
    s.withLane_placeFree_of_none n hnone⟩

/-- An event whose effect is such a lapse. -/
theorem State.Settled.event_lapsedTo {f : State → State} (hs : s.Settled) (ht : (s.lane n).txn = some t)
    (hi : t.insertReserved = false) (hheld : s.heldOrder = []) (hf : f s = s.lapsedTo n t l) :
    s.event f = s.lapsedTo n t l :=
  State.event_eq hf (hs.lapsedTo ht hi hheld).1 (hs.lapsedTo ht hi hheld).2

end Lapse

/-- Settles O29: a lapse to rest in UNLOCKED, and a change of the lane alone in PASSING. -/
theorem grantTimerEnds : Obligations.GrantTimerEnds := by
  intro s n g hs hg hdue
  have hend : timerDue (s.lane n).grantTimer s.ms = true := by rw [hg, timerDue_some]; exact hdue
  rw [exec_grantTimerExpiry]
  refine ⟨fun hst => congrArg _ (hs.event_withLane rfl ?_), fun t hst ht hi hw hp hr hheld hm => ?_⟩
  · rw [State.grantTimeout, if_pos hend, hst]
    simp [State.modLane_eq]
  · have heff : s.grantTimeout n = s.lapsedTo n t { s.lane n with grantTimer := none } := by
      rw [State.grantTimeout, if_pos hend, hst]
      exact State.lapse_comeToRest ht rfl rfl rfl hp hr hheld (Lane.lapseCredit_of_none hw) hm
    refine congrArg _ ((hs.event_lapsedTo ht hi hheld heff).trans ?_)
    rw [State.lapsedTo_of_none (l := { s.lane n with grantTimer := none }) hw]
    simp only [Lane.released, hw]
    rfl

end Sys2Proof.Machine
end

