-- ==== Sys2Proof/Proofs/FreeWindows.lean ====
section
/-! PROOFS. A free window that closes: its count and maze credit, and the lane that leaves FREE_FLOW. -/

namespace Sys2Proof.Machine

theorem exec_trailTimerExpiry (n : LaneId) (s : State) :
    exec (.trailTimerExpiry n) s = .next (s.event fun s => s.trailTimeout n) := rfl

theorem exec_rotateFwdStart (n : LaneId) (s : State) :
    exec (.rotateFwdStart n) s = .next (s.event fun s => s.forwardStart n) := rfl

section Credit

variable {s : State} {n : LaneId} {l : Lane} {k : Nat}

/-- A maze credit keeps a settled part settled (R94, R101). -/
theorem State.Settled.credit (hs : s.Settled) (hm : s.MazeInRange) (k : Nat) : (s.credit k).Settled := by
  have hm : s.maze.count ≤ 255 := hm
  refine hs.withMaze _ (.inl ?_)
  show s.maze.count ≤ min 255 (s.maze.count + k)
  omega

/-- An event that credits the maze and changes a lane, its transaction apart. -/
theorem State.Settled.event_credit_withLane {f : State → State} (hs : s.Settled) (hm : s.MazeInRange)
    (hq : s.LatchesSilently .mazeFull) (hl : l.txn = (s.lane n).txn) (hf : f s = (s.credit k).withLane n l) :
    s.event f = ((s.credit k).withLane n l).markFull s :=
  State.event_eq_full hf ((hs.credit hm k).withLane n l hl) hq

end Credit

section Leave

variable {s x : State} {n : LaneId} {l : Lane} {k : Nat}

/-- `l` differs from `l'` in nothing that the resting state or a role to come reads. -/
def Lane.RestsAs (l l' : Lane) : Prop :=
  l.role = l'.role ∧ l.keyHigh = l'.keyHigh ∧ l.commandOpen = l'.commandOpen ∧ l.pendingRole = l'.pendingRole

/-- `x` differs from `s` in nothing that the resting state or a recovery timer started now reads. -/
def State.RestsAs (x s : State) (n : LaneId) : Prop :=
  (x.lane n).RestsAs (s.lane n) ∧ x.tables = s.tables ∧ x.time.dayState = s.time.dayState
    ∧ (x.port n).status = (s.port n).status ∧ x.ms = s.ms ∧ x.freeFlowInForce = s.freeFlowInForce

theorem State.RestsAs.restingState (h : x.RestsAs s n) : x.restingState n = s.restingState n := by
  obtain ⟨⟨hr, hk, hc, -⟩, ht, hd, hp, -, -⟩ := h
  exact State.restingState_congr n hr hk hc ht hd hp

theorem State.RestsAs.leftFree (h : x.RestsAs s n) (l : Lane) : x.leftFree n l = s.leftFree n l := by
  have hrest := h.restingState
  obtain ⟨-, ht, -, -, hms, -⟩ := h
  have hset : x.settings = s.settings := by rw [State.settings, State.settings, ht]
  rw [State.leftFree, State.leftFree, hrest, hset, hms]

/-- The lane stays in FREE_FLOW while free-flow is in force (R87). -/
theorem State.leaveFreeFlow_of_inForce (hp : (s.lane n).pendingRole = none) (hf : s.freeFlowInForce = true) :
    s.leaveFreeFlow n = s := by
  simp [State.leaveFreeFlow, hp, hf]

/-- Where free-flow has ended it leaves for its resting state (R87). -/
theorem State.RestsAs.leaveFreeFlow (h : x.RestsAs s n) (hr : (s.lane n).role = some .ticket)
    (hp : (s.lane n).pendingRole = none) (hf : s.freeFlowInForce = false) (hrest : s.restingState n ≠ .fault) :
    x.leaveFreeFlow n = x.withLane n (s.leftFree n (x.lane n)) := by
  obtain ⟨⟨hrole, -, -, hpend⟩, -, -, -, -, hforce⟩ := id h
  rw [State.leaveFreeFlow_eq (hrole.trans hr) (hpend.trans hp) (hforce.trans hf) (by rwa [h.restingState]), h.leftFree]

/-- `s` with the free window of lane `n`, of `k` bodies and in its trail, counted and closed. -/
def State.freeWindowCounted (s : State) (n : LaneId) (k : Nat) : State :=
  (s.credit (max 1 k)).withLane n ({ s.lane n with window := none, trailTimer := none }.counting .free 1)

theorem State.freeWindowCounted_restsAs (s : State) (n : LaneId) (k : Nat) : (s.freeWindowCounted n k).RestsAs s n := by
  rw [State.RestsAs, State.freeWindowCounted, State.withLane_lane_same]
  exact ⟨⟨rfl, rfl, rfl, rfl⟩, rfl, rfl, rfl, rfl, rfl⟩

theorem State.closeFreeWindow_of_trail (hw : (s.lane n).window = some ⟨k, true⟩) :
    s.closeFreeWindow n = (s.freeWindowCounted n k).leaveFreeFlow n := by
  rw [State.closeFreeWindow, hw, State.modLane_eq]
  simp only [State.countFree_eq, State.withLane_lane_same, State.freeWindowCounted]
  exact congrArg (State.leaveFreeFlow · n) (State.withLane_withLane (s.credit (max 1 k)) n _ _)

/-- A free window in its trail closes, and the lane stays in FREE_FLOW (R86, R87). -/
theorem State.closeFreeWindow_inForce (hw : (s.lane n).window = some ⟨k, true⟩)
    (hp : (s.lane n).pendingRole = none) (hf : s.freeFlowInForce = true) :
    s.closeFreeWindow n = (s.credit (max 1 k)).withLane n
      ({ s.lane n with window := none, trailTimer := none }.counting .free 1) := by
  obtain ⟨⟨-, -, -, hpend⟩, -, -, -, -, hforce⟩ := s.freeWindowCounted_restsAs n k
  rw [State.closeFreeWindow_of_trail hw, State.leaveFreeFlow_of_inForce (hpend.trans hp) (hforce.trans hf)]
  rfl

/-- A free window in its trail closes, and the lane leaves FREE_FLOW (R86, R87). -/
theorem State.closeFreeWindow_ended (hw : (s.lane n).window = some ⟨k, true⟩) (hr : (s.lane n).role = some .ticket)
    (hp : (s.lane n).pendingRole = none) (hf : s.freeFlowInForce = false) (hrest : s.restingState n ≠ .fault) :
    s.closeFreeWindow n = (s.credit (max 1 k)).withLane n
      (s.leftFree n ({ s.lane n with window := none, trailTimer := none }.counting .free 1)) := by
  rw [State.closeFreeWindow_of_trail hw, (s.freeWindowCounted_restsAs n k).leaveFreeFlow hr hp hf hrest,
    State.freeWindowCounted, State.withLane_lane_same, State.withLane_withLane]

/-- A ticket lane comes to CLOSED, IDLE or FAULT (R65). -/
theorem State.restingState_of_ticket (hr : (s.lane n).role = some .ticket) (hrest : s.restingState n ≠ .fault) :
    s.restingState n = .closed ∨ s.restingState n = .idle := by
  have hcases : s.restingState n = if !s.readerUp n then .fault else if s.laneClosed n then .closed else .idle := by
    rw [State.restingState, hr]
  rw [hcases] at hrest ⊢
  split at hrest
  · exact absurd rfl hrest
  · split <;> simp_all

/-- In UNLOCKED and FREE_FLOW apart, a forward rotation is a locked one, or a free one begun in FREE_FLOW (R71, R79). -/
theorem State.beginRotation_of_other (free : Bool) (hu : (s.lane n).state ≠ .unlocked)
    (hf : (s.lane n).state ≠ .freeFlow) : s.beginRotation n free = s.withLane n
      (if free then { s.lane n with kept := 0, lateFree := some ⟨0, false⟩ } else { s.lane n with kept := 0 }) := by
  rw [State.beginRotation]
  split
  case h_1 h => exact absurd h hu
  case h_2 h => exact absurd h hf
  all_goals rfl

theorem State.closeTrailWindow_of_passing {w : PassageWindow} (hst : (s.lane n).state = .passing)
    (hw : (s.lane n).window = some w) : s.closeTrailWindow n = s.passageOutcome n := by
  simp [State.closeTrailWindow, hst, hw]

theorem State.closeTrailWindow_of_freeFlow {w : PassageWindow} (hst : (s.lane n).state = .freeFlow)
    (hw : (s.lane n).window = some w) : s.closeTrailWindow n = s.closeFreeWindow n := by
  simp [State.closeTrailWindow, hst, hw]

theorem State.closeTrailWindow_of_none (hw : (s.lane n).window = none) :
    s.closeTrailWindow n = s.closeLateTrail n := by
  simp [State.closeTrailWindow, hw]

/-- The forward start of a TICKET lane, from what the close of a window leaves (R69, R71). -/
theorem State.forwardStart_eq (ha : (s.lane n).arm = .atRest) (hr : (s.lane n).role = some .ticket)
    (hx : s.closeTrailWindow n = x) (hxr : (x.lane n).role = some .ticket) : s.forwardStart n =
      (x.withLane n { x.lane n with arm := .forward }).beginRotation n ((s.lane n).state == .freeFlow) := by
  have ht : s.isTicket n = true := by simp [State.isTicket, hr]
  have hxt : (x.withLane n { x.lane n with arm := .forward }).isTicket n = true := by simp [State.isTicket, hxr]
  rw [State.forwardStart, if_pos ha, if_pos ht, hx]
  exact if_pos hxt

/-- The rotation is a locked one, or a free one begun in FREE_FLOW, where the lane then stands in neither UNLOCKED nor
FREE_FLOW (R71, R79). -/
theorem State.forwardStart_of_other (ha : (s.lane n).arm = .atRest) (hr : (s.lane n).role = some .ticket)
    (hx : s.closeTrailWindow n = x) (hxr : (x.lane n).role = some .ticket) (hu : (x.lane n).state ≠ .unlocked)
    (hf : (x.lane n).state ≠ .freeFlow) : s.forwardStart n = x.withLane n
      (if (s.lane n).state = .freeFlow then
        { x.lane n with arm := .forward, kept := 0, lateFree := some ⟨0, false⟩ }
      else { x.lane n with arm := .forward, kept := 0 }) := by
  rw [State.forwardStart_eq ha hr hx hxr, State.beginRotation_of_other _ (by simpa using hu) (by simpa using hf),
    State.withLane_lane_same, State.withLane_withLane]
  simp only [beq_iff_eq]

end Leave

end Sys2Proof.Machine
end

