-- ==== Sys2Proof/Proofs/PassageOutcome.lean ====
section
/-! PROOFS. The passage outcome: its counters, its notice and the lane at rest, and the end of the trail timer. -/

namespace Sys2Proof.Machine

/-! ### A message queued, and what a lane or a port takes -/

theorem State.enqueue_withLane (s : State) (o : Outgoing) (n : LaneId) (l : Lane) :
    (s.enqueue o).withLane n l = (s.withLane n l).enqueue o := by
  by_cases h : s.ownAddress.isNone = true
  · have h' : (s.withLane n l).ownAddress.isNone = true := h
    rw [State.enqueue, State.enqueue, if_pos h, if_pos h']
  · have h' : ¬(s.withLane n l).ownAddress.isNone = true := h
    rw [State.enqueue, State.enqueue, if_neg h, if_neg h']
    rfl

theorem State.enqueue_withPort (s : State) (o : Outgoing) (n : LaneId) (p : Port) :
    (s.enqueue o).withPort n p = (s.withPort n p).enqueue o := by
  by_cases h : s.ownAddress.isNone = true
  · have h' : (s.withPort n p).ownAddress.isNone = true := h
    rw [State.enqueue, State.enqueue, if_pos h, if_pos h']
  · have h' : ¬(s.withPort n p).ownAddress.isNone = true := h
    rw [State.enqueue, State.enqueue, if_neg h, if_neg h']
    rfl

@[simp] theorem State.enqueue_lane (s : State) (o : Outgoing) (n : LaneId) : (s.enqueue o).lane n = s.lane n := by
  rw [State.lane, State.lane]
  simp only [State.enqueue_frame]

@[simp] theorem State.enqueue_port (s : State) (o : Outgoing) (n : LaneId) : (s.enqueue o).port n = s.port n := by
  rw [State.port, State.port]
  simp only [State.enqueue_frame]

section Outcome

variable {s x : State} {n : LaneId} {t : Transaction} {l : Lane} {k : Nat}

/-- A lane that rests as `s`'s does, with its recovery timer started if it comes to IDLE (R65, R77). -/
def Lane.restedIn (l : Lane) (s : State) (n : LaneId) : Lane :=
  { l with
    txn := none
    holdTimer := none
    state := s.restingState n
    recoveryTimer := if s.restingState n = .idle ∧ s.settings.recoveryTimeMs ≠ 0
      then some ⟨s.ms, s.settings.recoveryTimeMs⟩ else l.recoveryTimer }

/-- RELEASE, the resting state and the recovery timer end the transaction of a TICKET lane (R17, R65, R77). -/
theorem State.RestsAs.release_comeToRest (h : x.RestsAs s n) (ht : (x.lane n).txn = some t) (hn : n ∉ x.heldOrder)
    (hr : (s.lane n).role = some .ticket) (hp : (s.lane n).pendingRole = none) (hrest : s.restingState n ≠ .fault) :
    ((x.release n).comeToRest n).startRecoveryIfIdle n =
      (x.withPort n ((x.port n).sending [.release t.serial])).withLane n ((x.lane n).restedIn s n) := by
  have hsame := h.restingState
  obtain ⟨⟨hrole, -, -, hpend⟩, htab, -, -, hms, -⟩ := h
  have hset : x.settings = s.settings := by rw [State.settings, State.settings, htab]
  generalize hy : x.withPort n ((x.port n).sending [.release t.serial]) = y
  have hlane : y.lane n = x.lane n := by rw [← hy]; rfl
  have hysettings : y.settings = s.settings := by rw [← hy]; exact hset
  have hyms : y.ms = s.ms := by rw [← hy]; exact hms
  have hyrest : y.restingState n = s.restingState n := by
    rw [← hy, State.restingState_withPort _ n n (by rfl), hsame]
  have hcome := State.comeToRest_withLane (s := y) (n := n) (l := (x.lane n).released) (by rw [hlane]; rfl)
    (by rw [hlane]; rfl) (by rw [hlane]; rfl) (hpend.trans hp) (by rwa [hyrest])
  rw [Lane.released] at hcome
  rw [State.release_of_free ht hn, hy, hcome, hyrest, State.startRecoveryIfIdle, State.withLane_lane_same,
    State.startRecovery, State.modLane_eq, State.withLane_lane_same, State.withLane_withLane]
  have hrole' : (x.lane n).role = some .ticket := hrole.trans hr
  have hw (l : Lane) : (y.withLane n l).settings = s.settings := hysettings
  simp only [hrole', true_and, hw, Lane.restedIn, State.timer, State.withLane_ms, hyms]
  by_cases hidle : s.restingState n = .idle <;> by_cases hz : s.settings.recoveryTimeMs = 0 <;> simp [hidle, hz]

/-- The counters of a passage outcome with `k` bodies (R74). -/
def Lane.passageCounted (l : Lane) (k : Nat) : Lane :=
  if k = 0 then (l.counting .paid 1).counting .beamMiss 1 else (l.counting .paid 1).counting .tailgate (k - 1)

/-- The flag of a passage outcome with `k` bodies (R74). -/
def State.tailgated (s : State) (k : Nat) : State := if 1 < k then s.withFlag .tailgate else s

theorem State.countPassage_withLane (l : Lane) (hq : s.LatchesSilently .tailgate) :
    (s.withLane n l).countPassage n k = (s.tailgated k).withLane n (l.passageCounted k) := by
  simp only [State.countPassage, State.count_eq, State.withLane_lane_same, State.withLane_withLane, State.tailgated,
    Lane.passageCounted]
  by_cases hk : k = 0
  · subst hk
    rfl
  · simp only [if_neg hk]
    split
    · rw [State.latch_withLane, State.latch_of_silent _ _ _ hq]
    · rfl

/-- `s` with the passage of `k` bodies flagged, credited and confirmed, and RELEASE sent (R53, R74). -/
def State.passageCredited (s : State) (n : LaneId) (t : Transaction) (k : Nat) : State :=
  (((s.tailgated k).credit (max 1 k)).passbackConfirm n t).withPort n ((s.port n).sending [.release t.serial])

/-- The lane after the passage of `k` bodies (R74, R77). -/
def State.passedLane (s : State) (n : LaneId) (k : Nat) : Lane :=
  { (s.lane n).passageCounted k with
    window := none, trailTimer := none, grantTimer := none, grantExpired := false }.restedIn s n

theorem Lane.passageCounted_keeps (l : Lane) (k : Nat) :
    (l.passageCounted k).txn = l.txn ∧ (l.passageCounted k).RestsAs l := by
  rw [Lane.passageCounted]
  split <;> exact ⟨rfl, rfl, rfl, rfl, rfl⟩

theorem State.tailgated_keeps (s : State) (k : Nat) :
    s.QuietTo (s.tailgated k) ∧ s.tailgated k = { s with mgmt := (s.tailgated k).mgmt } := by
  rw [State.tailgated]
  split
  · exact ⟨s.quietTo_withFlag .tailgate, rfl⟩
  · exact ⟨State.quietTo_of_mgmt rfl, rfl⟩

/-- The passage outcome, with a general entry free for its notice (R74, R75). -/
theorem State.passageOutcome_eq (hr : (s.lane n).role = some .ticket) (hw : (s.lane n).window = some ⟨k, true⟩)
    (ht : (s.lane n).txn = some t) (hfree : 0 < s.generalFree) (hp : (s.lane n).pendingRole = none)
    (hrest : s.restingState n ≠ .fault) (hn : n ∉ s.heldOrder) (hq : s.LatchesSilently .tailgate) :
    s.passageOutcome n = ((s.passageCredited n t k).withLane n (s.passedLane n k)).enqueue
      (.passage (s.passageNotice n t k)) := by
  generalize hl : ({ s.lane n with
    window := none, trailTimer := none, grantTimer := none, grantExpired := false } : Lane) = l
  generalize hy : (((s.tailgated k).credit (max 1 k)).passbackConfirm n t).withLane n (l.passageCounted k) = y
  obtain ⟨hctxn, hcrole, hckey, hcopen, hcpend⟩ := l.passageCounted_keeps k
  obtain ⟨-, htail⟩ := s.tailgated_keeps k
  have hlane : y.lane n = l.passageCounted k := by rw [← hy, State.withLane_lane_same]
  have hyfree : y.generalFree = s.generalFree := by
    refine State.generalFree_congr ?_ ?_
    · rw [← hy, htail]
      rfl
    · rw [← hy]
      refine State.withLane_generalReserved (s.tailgated k) n (l.passageCounted k) ?_ |>.trans ?_
      · rw [Lane.insertReservation, hctxn, ← hl, htail]
        rfl
      · rw [htail]
        rfl
  have hrests : (y.enqueue (.passage (s.passageNotice n t k))).RestsAs s n := by
    rw [State.RestsAs, State.freeFlowInForce]
    simp only [State.enqueue_frame, State.enqueue_lane, State.enqueue_port, hlane]
    rw [← hy, htail, Lane.RestsAs, hcrole, hckey, hcopen, hcpend, ← hl]
    exact ⟨⟨rfl, rfl, rfl, rfl⟩, rfl, rfl, rfl, rfl, rfl⟩
  have hout : s.passageOutcome n = (((y.queuePassage (s.passageNotice n t k)).release n).comeToRest n
      |>.startRecoveryIfIdle n) := by
    rw [State.passageOutcome, State.txn, ht, hw]
    simp only [State.modLane_eq, hl, State.countPassage_withLane l hq]
    rw [← hy]
    rfl
  have htxn : ((y.enqueue (.passage (s.passageNotice n t k))).lane n).txn = some t := by
    rw [State.enqueue_lane, hlane, hctxn, ← hl]
    exact ht
  have hheld : n ∉ (y.enqueue (.passage (s.passageNotice n t k))).heldOrder := by
    simp only [State.enqueue_frame]
    rw [← hy, htail]
    exact hn
  have hport : y.port n = s.port n := by
    rw [← hy, htail]
    rfl
  have hpassed : (l.passageCounted k).restedIn s n = s.passedLane n k := by
    rw [State.passedLane, ← hl, Lane.passageCounted, Lane.passageCounted]
    split <;> rfl
  rw [hout, State.queuePassage, if_pos (by rw [hyfree]; exact hfree), hrests.release_comeToRest htxn hheld hr hp hrest,
    State.enqueue_withPort, State.enqueue_withLane, State.enqueue_port, State.enqueue_lane, hlane, hport, hpassed,
    ← hy, State.withPort_withLane, State.withLane_withLane]
  rfl

/-- What a passage leaves of the part: the lanes, the loop and the tables, with the credit at the count. -/
theorem State.passageCredited_keeps (s : State) (n : LaneId) (t : Transaction) (k : Nat) :
    s.QuietTo (s.passageCredited n t k) ∧ s.passageCredited n t k =
      { (s.credit (max 1 k)) with
        mgmt := (s.tailgated k).mgmt
        ports := s.ports.set n ((s.port n).sending [.release t.serial])
        passback := s.passback.map fun e : PassbackEntry =>
          if e.isGrantOf n t then { e with confirmed := true } else e } := by
  obtain ⟨hquiet, htail⟩ := s.tailgated_keeps k
  refine ⟨hquiet.trans (State.quietTo_of_mgmt rfl), ?_⟩
  rw [State.passageCredited, htail]
  rfl

/-- The credit of a passage is at least the reservation that ends with it, so no held lane finds a place. -/
theorem State.Settled.passageCredited (hs : s.Settled) (ht : (s.lane n).txn = some t) (hi : t.insertReserved = false)
    (hm : s.maze.count + max 1 k ≤ 255) (hl : l.txn = none) :
    ((s.passageCredited n t k).withLane n l).Settled := by
  obtain ⟨⟨hraised, -, -⟩, hcredited⟩ := s.passageCredited_keeps n t k
  have hins : l.insertReservation = (s.lane n).insertReservation := by
    rw [Lane.insertReservation_of_none hl, Lane.insertReservation_of_txn ht, hi]
    rfl
  have hgiven : ((s.passageCredited n t k).withLane n l).PlacesGiven := by
    refine hs.1.imp (fun hh => ?_) fun hfull => ?_
    · rw [hcredited]
      exact hh
    · have hsum := State.withLane_reservations_add s n l
      have hlt := (State.placeFree_iff s).not.1 (by simp [hfull])
      have hle : (s.lane n).reservation ≤ 1 := by
        rw [Lane.reservation_of_txn ht]
        split <;> omega
      have hplace : ¬((s.passageCredited n t k).withLane n l).placeFree = true := by
        rw [State.placeFree_iff, hcredited]
        show ¬min 255 (s.maze.count + max 1 k) + (s.withLane n l).reservations < s.settings.mazeLimit
        omega
      simpa using hplace
  refine hs.of_given hgiven hraised ?_ ?_
  · rw [hcredited]
    rfl
  · rw [hcredited]
    exact State.withLane_generalReserved s n l hins

/-- An event whose effect is a passage. -/
theorem State.Settled.event_passage {f : State → State} {p : PassageNotice} (hs : s.Settled)
    (ht : (s.lane n).txn = some t) (hi : t.insertReserved = false) (hm : s.maze.count + max 1 k ≤ 255)
    (hl : l.txn = none) (hq : s.LatchesSilently .mazeFull) (hown : s.ownAddress.isSome = true)
    (hfree : 0 < s.generalFree) (hf : f s = ((s.passageCredited n t k).withLane n l).enqueue (.passage p)) :
    s.event f = (((s.passageCredited n t k).withLane n l).markFull s).offered (.passage p) := by
  obtain ⟨hquiet, hcredited⟩ := s.passageCredited_keeps n t k
  refine State.event_eq_offered_full hf (hs.passageCredited ht hi hm hl) (hquiet.silent hq) ?_ (.inr ?_)
  · rw [hcredited]
    exact hown
  · rw [hcredited]
    exact hs.pendingEvents_of_room hfree

/-- A new rotation on a TICKET lane that has come to rest is a locked one with no body kept (R71, R73). -/
theorem State.forwardStart_of_passing (ha : (s.lane n).arm = .atRest) (hr : (s.lane n).role = some .ticket)
    (hst : (s.lane n).state = .passing) (hw : (s.lane n).window = some ⟨k, true⟩) (ht : (s.lane n).txn = some t)
    (hfree : 0 < s.generalFree) (hp : (s.lane n).pendingRole = none) (hrest : s.restingState n ≠ .fault)
    (hn : n ∉ s.heldOrder) (hq : s.LatchesSilently .tailgate) :
    s.forwardStart n = ((s.passageCredited n t k).withLane n
      { s.passedLane n k with arm := .forward, kept := 0 }).enqueue (.passage (s.passageNotice n t k)) := by
  have hclose := State.passageOutcome_eq hr hw ht hfree hp hrest hn hq
  have hlane : (((s.passageCredited n t k).withLane n (s.passedLane n k)).enqueue
      (.passage (s.passageNotice n t k))).lane n = s.passedLane n k := by
    rw [State.enqueue_lane, State.withLane_lane_same]
  have hstate : (s.passedLane n k).state = s.restingState n := rfl
  obtain ⟨-, hrole, -⟩ := (s.lane n).passageCounted_keeps k
  have hleft : s.restingState n ≠ .unlocked ∧ s.restingState n ≠ .freeFlow := by
    rcases State.restingState_of_ticket hr hrest with h | h <;> rw [h] <;> decide
  rw [State.forwardStart_of_other ha hr ((State.closeTrailWindow_of_passing hst hw).trans hclose)
    (by rw [hlane]; exact hrole.trans hr) (by rw [hlane, hstate]; exact hleft.1)
    (by rw [hlane, hstate]; exact hleft.2), if_neg (by rw [hst]; decide), hlane, State.enqueue_withLane,
    State.withLane_withLane]

/-- The trail timer's end closes the passage window with its outcome (R73). -/
theorem State.trailTimeout_of_passing (hd : timerDue (s.lane n).trailTimer s.ms = true)
    (hst : (s.lane n).state = .passing) (hl : (s.lane n).lateFree = none) : s.trailTimeout n = s.passageOutcome n := by
  simp [State.trailTimeout, hd, hst, hl]

/-- In FREE_FLOW it closes the free window (R86). -/
theorem State.trailTimeout_of_freeFlow (hd : timerDue (s.lane n).trailTimer s.ms = true)
    (hst : (s.lane n).state = .freeFlow) (hl : (s.lane n).lateFree = none) :
    s.trailTimeout n = s.closeFreeWindow n := by
  simp [State.trailTimeout, hd, hst, hl]

/-- It closes the free window of a lane that has left FREE_FLOW (log 29). -/
theorem State.trailTimeout_of_late (hd : timerDue (s.lane n).trailTimer s.ms = true)
    (hl : (s.lane n).lateFree = some ⟨k, true⟩) : s.trailTimeout n = (s.credit (max 1 k)).withLane n
      ({ s.lane n with lateFree := none, trailTimer := none }.counting .free 1) := by
  rw [State.trailTimeout, if_pos hd, hl]
  simp only [State.closeLateTrail_eq hl, State.modLane_eq, State.withLane_lane_same]
  exact State.withLane_withLane (s.credit (max 1 k)) n _ _

theorem State.credit_of_room {j : Nat} (hm : s.maze.count + j ≤ 255) :
    s.credit j = { s with maze := { s.maze with count := s.maze.count + j } } := by
  rw [State.credit, Nat.min_eq_right hm]

/-- What the statement writes of a passage is what the model makes of it. -/
theorem State.passageCredited_eq (hm : s.maze.count + max 1 k ≤ 255) : s.passageCredited n t k =
    { (if 1 < k then s.withFlag .tailgate else s) with
      maze := { s.maze with count := s.maze.count + max 1 k }
      passback := s.passback.map fun e : PassbackEntry =>
        if e.isGrantOf n t then { e with confirmed := true } else e }.withPort n
      ((s.port n).sending [.release t.serial]) := by
  have htail : (s.tailgated k).maze.count + max 1 k ≤ 255 := by
    obtain ⟨-, htail⟩ := s.tailgated_keeps k
    rw [htail]
    exact hm
  rw [State.passageCredited, State.credit_of_room htail, State.tailgated]
  split <;> rfl

/-- The lane after a passage, with its counters written out. -/
theorem State.passedLane_eq : s.passedLane n k =
    { (if k = 0 then ((s.lane n).counting .paid 1).counting .beamMiss 1
        else ((s.lane n).counting .paid 1).counting .tailgate (k - 1)) with
      txn := none, state := s.restingState n, window := none, trailTimer := none, grantTimer := none
      grantExpired := false, holdTimer := none
      recoveryTimer := if s.restingState n = LaneState.idle ∧ s.settings.recoveryTimeMs ≠ 0
        then some ⟨s.ms, s.settings.recoveryTimeMs⟩ else (s.lane n).recoveryTimer } := by
  rw [State.passedLane, Lane.passageCounted]
  split <;> rfl

end Outcome

/-- Settles O30: the outcome of a passage window, and the close of a free window in FREE_FLOW and out of it. -/
theorem passageCompletes : Obligations.PassageCompletes := by
  intro s n k trail hs hr hq
  rw [exec_trailTimerExpiry, exec_rotateFwdStart]
  refine ⟨fun t hst hw hl hown hfree ht _ hi hp hrest hn hm htail => ?_, fun hm htimer hdue => ?_⟩
  · intro rested outcome counted flagged completed
    have hcompleted (arm : Arm) (kept : Nat) :
        (((s.passageCredited n t k).withLane n { s.passedLane n k with arm := arm, kept := kept }).markFull s).offered
          (.passage (s.passageNotice n t k)) = completed arm kept := by
      rw [State.passageCredited_eq hm, State.passedLane_eq]
      rfl
    refine ⟨fun htimer hdue => ?_, fun ha => ?_⟩
    · have hd : timerDue (s.lane n).trailTimer s.ms = true := by rw [htimer, timerDue_some]; exact hdue
      have hout := (State.trailTimeout_of_passing hd hst hl).trans
        (State.passageOutcome_eq hr hw ht hfree hp hrest hn htail)
      have hkept : { s.passedLane n k with arm := (s.lane n).arm, kept := (s.lane n).kept } = s.passedLane n k := by
        rw [State.passedLane_eq]
        split <;> rfl
      rw [← hcompleted, hkept]
      exact congrArg _ (hs.event_passage ht hi hm rfl hq hown hfree hout)
    · rw [← hcompleted]
      exact congrArg _ (hs.event_passage ht hi hm rfl hq hown hfree
        (State.forwardStart_of_passing ha hr hst hw ht hfree hp hrest hn htail))
  · have hd : timerDue (s.lane n).trailTimer s.ms = true := by rw [htimer, timerDue_some]; exact hdue
    refine ⟨fun hst hw hl hp => ⟨fun hf => ?_, fun hf hrest => ?_⟩, fun hl => ?_⟩
    · exact congrArg _ (hs.event_credit_withLane hm hq rfl
        ((State.trailTimeout_of_freeFlow hd hst hl).trans (State.closeFreeWindow_inForce hw hp hf)))
    · exact congrArg _ (hs.event_credit_withLane hm hq rfl
        ((State.trailTimeout_of_freeFlow hd hst hl).trans (State.closeFreeWindow_ended hw hr hp hf hrest)))
    · exact congrArg _ (hs.event_credit_withLane hm hq rfl (State.trailTimeout_of_late hd hl))

end Sys2Proof.Machine
end

