-- ==== Sys2Proof/Proofs/ForwardRotations.lean ====
section
/-! PROOFS. A forward rotation on a TICKET lane: what its start opens, and what its return discards. -/

namespace Sys2Proof.Machine

section Start

variable {s x : State} {n : LaneId} {k : Nat}

/-- In UNLOCKED the rotation opens the passage window (R71). -/
theorem State.forwardStart_of_unlocked (ha : (s.lane n).arm = .atRest) (hr : (s.lane n).role = some .ticket)
    (hx : s.closeTrailWindow n = x) (hxr : (x.lane n).role = some .ticket) (hu : (x.lane n).state = .unlocked) :
    s.forwardStart n =
      x.withLane n { x.lane n with arm := .forward, state := .passing, window := some ⟨0, false⟩ } := by
  rw [State.forwardStart_eq ha hr hx hxr, State.beginRotation, State.withLane_lane_same, hu]
  simp only [State.modLane_eq, State.withLane_lane_same, State.withLane_withLane]

/-- In FREE_FLOW it opens a free window (R86). -/
theorem State.forwardStart_of_freeFlow (ha : (s.lane n).arm = .atRest) (hr : (s.lane n).role = some .ticket)
    (hx : s.closeTrailWindow n = x) (hxr : (x.lane n).role = some .ticket) (hf : (x.lane n).state = .freeFlow) :
    s.forwardStart n = x.withLane n { x.lane n with arm := .forward, window := some ⟨0, false⟩ } := by
  rw [State.forwardStart_eq ha hr hx hxr, State.beginRotation, State.withLane_lane_same, hf]
  simp only [State.modLane_eq, State.withLane_lane_same, State.withLane_withLane]

/-- With no window open none closes at the start. -/
theorem State.closeTrailWindow_of_closed (hw : (s.lane n).window = none) (hl : (s.lane n).lateFree = none) :
    s.closeTrailWindow n = s :=
  (State.closeTrailWindow_of_none hw).trans (State.closeLateTrail_of_none hl)

/-- The start of a rotation with no window open (R69 to R71, R86). -/
theorem State.forwardStart_of_closed (ha : (s.lane n).arm = .atRest) (hr : (s.lane n).role = some .ticket)
    (hw : (s.lane n).window = none) (hl : (s.lane n).lateFree = none) :
    s.forwardStart n = s.withLane n (match (s.lane n).state with
      | .unlocked => { s.lane n with arm := .forward, state := .passing, window := some ⟨0, false⟩ }
      | .freeFlow => { s.lane n with arm := .forward, window := some ⟨0, false⟩ }
      | _ => { s.lane n with arm := .forward, kept := 0 }) := by
  have hx := State.closeTrailWindow_of_closed hw hl
  split
  case h_1 hst => exact State.forwardStart_of_unlocked ha hr hx hr hst
  case h_2 hst => exact State.forwardStart_of_freeFlow ha hr hx hr hst
  case h_3 hu hf => rw [State.forwardStart_of_other ha hr hx hr hu hf, if_neg hf]

/-- A rotation in a free trail while free-flow is in force (R86). -/
theorem State.forwardStart_of_freeTrail (ha : (s.lane n).arm = .atRest) (hr : (s.lane n).role = some .ticket)
    (hst : (s.lane n).state = .freeFlow) (hw : (s.lane n).window = some ⟨k, true⟩)
    (hp : (s.lane n).pendingRole = none) (hf : s.freeFlowInForce = true) :
    s.forwardStart n = (s.credit (max 1 k)).withLane n
      { ({ s.lane n with arm := .forward, trailTimer := none } : Lane).counting .free 1 with
        window := some ⟨0, false⟩ } := by
  rw [State.forwardStart_of_freeFlow ha hr ((State.closeTrailWindow_of_freeFlow hst hw).trans
    (State.closeFreeWindow_inForce hw hp hf)) (by rw [State.withLane_lane_same]; exact hr)
    (by rw [State.withLane_lane_same]; exact hst), State.withLane_lane_same, State.withLane_withLane]
  rfl

/-- A rotation in a free trail once free-flow has ended: the new window outlives FREE_FLOW (R87, log 29). -/
theorem State.forwardStart_of_freeTrail_ended (ha : (s.lane n).arm = .atRest) (hr : (s.lane n).role = some .ticket)
    (hst : (s.lane n).state = .freeFlow) (hw : (s.lane n).window = some ⟨k, true⟩)
    (hp : (s.lane n).pendingRole = none) (hf : s.freeFlowInForce = false) (hrest : s.restingState n ≠ .fault) :
    s.forwardStart n = (s.credit (max 1 k)).withLane n (s.leftFree n
      { ({ s.lane n with arm := .forward, trailTimer := none } : Lane).counting .free 1 with
        window := none, kept := 0, lateFree := some ⟨0, false⟩ }) := by
  have hleft : s.restingState n ≠ .unlocked ∧ s.restingState n ≠ .freeFlow := by
    rcases State.restingState_of_ticket hr hrest with h | h <;> rw [h] <;> decide
  rw [State.forwardStart_of_other ha hr ((State.closeTrailWindow_of_freeFlow hst hw).trans
    (State.closeFreeWindow_ended hw hr hp hf hrest)) (by rw [State.withLane_lane_same]; exact hr)
    (by rw [State.withLane_lane_same]; exact hleft.1) (by rw [State.withLane_lane_same]; exact hleft.2), if_pos hst,
    State.withLane_lane_same, State.withLane_withLane]
  rfl

/-- A rotation in the trail of a free window that has outlived FREE_FLOW (R86, log 29). -/
theorem State.forwardStart_of_lateTrail (ha : (s.lane n).arm = .atRest) (hr : (s.lane n).role = some .ticket)
    (hst : (s.lane n).state ≠ .freeFlow) (hw : (s.lane n).window = none)
    (hl : (s.lane n).lateFree = some ⟨k, true⟩) :
    let counted : Lane := { s.lane n with arm := .forward, trailTimer := none, lateFree := none }.counting .free 1
    s.forwardStart n = (s.credit (max 1 k)).withLane n
      (if (s.lane n).state = LaneState.unlocked then { counted with state := .passing, window := some ⟨0, false⟩ }
        else { counted with kept := 0 }) := by
  intro counted
  have hx := (State.closeTrailWindow_of_none hw).trans (State.closeLateTrail_eq hl)
  split
  case isTrue hu =>
    rw [State.forwardStart_of_unlocked ha hr hx (by rw [State.withLane_lane_same]; exact hr)
      (by rw [State.withLane_lane_same]; exact hu), State.withLane_lane_same, State.withLane_withLane]
    rfl
  case isFalse hu =>
    rw [State.forwardStart_of_other ha hr hx (by rw [State.withLane_lane_same]; exact hr)
      (by rw [State.withLane_lane_same]; exact hu) (by rw [State.withLane_lane_same]; exact hst), if_neg hst,
      State.withLane_lane_same, State.withLane_withLane]
    rfl

end Start

section Return

variable {s x : State} {n : LaneId} {k : Nat} {t : Transaction}

/-- The return of a forward rotation puts the arm to rest and abandons the rotation (R69). -/
theorem State.armReturn_of_forward (ha : (s.lane n).arm = .forward) (hr : (s.lane n).role = some .ticket) :
    s.armReturn n = (s.withLane n { s.lane n with arm := .atRest }).abandonRotation n := by
  have ht : s.isTicket n = true := by simp [State.isTicket, hr]
  simp only [State.armReturn, ha, State.setArm, State.modLane_eq, ht, if_true]

/-- A free window that has outlived FREE_FLOW is discarded (log 29). -/
theorem State.abandonRotation_of_late {w : PassageWindow} (hl : (s.lane n).lateFree = some w) :
    s.abandonRotation n = s.withLane n { s.lane n with lateFree := none } := by
  simp [State.abandonRotation, hl, State.modLane_eq]

/-- An attempt ends, and the lane is UNLOCKED again or its recorded expiry lapses the grant (R72). -/
theorem State.abandonRotation_of_passing (hl : (s.lane n).lateFree = none) (hst : (s.lane n).state = .passing)
    (hw : (s.lane n).window = some ⟨k, false⟩) :
    s.abandonRotation n =
      if (s.lane n).grantExpired then
        ((s.withLane n { s.lane n with state := .unlocked, window := none }).lapse n).comeToRest n
      else s.withLane n { s.lane n with state := .unlocked, window := none } := by
  simp [State.abandonRotation, hl, hst, hw, State.modLane_eq]

/-- A free window closes uncounted (R86). -/
theorem State.abandonRotation_of_freeFlow (hl : (s.lane n).lateFree = none) (hst : (s.lane n).state = .freeFlow)
    (hw : (s.lane n).window = some ⟨k, false⟩) :
    s.abandonRotation n = (s.withLane n { s.lane n with window := none, trailTimer := none }).leaveFreeFlow n := by
  simp [State.abandonRotation, hl, hst, hw, State.closeFreeWindow, State.countFree, State.modLane_eq]

/-- A locked rotation loses its bodies (R70). -/
theorem State.abandonRotation_of_other (hl : (s.lane n).lateFree = none) (hp : (s.lane n).state ≠ .passing)
    (hf : (s.lane n).state ≠ .freeFlow) : s.abandonRotation n = s.withLane n { s.lane n with kept := 0 } := by
  simp only [State.abandonRotation, hl]
  split
  case h_1 h _ => exact absurd h hp
  case h_2 h _ => exact absurd h hf
  case h_3 => simp only [State.modLane_eq, hl]

/-- The lane after the return of an attempt whose grant time has not run out (R72). -/
theorem State.armReturn_of_passing (ha : (s.lane n).arm = .forward) (hr : (s.lane n).role = some .ticket)
    (hl : (s.lane n).lateFree = none) (hst : (s.lane n).state = .passing)
    (hw : (s.lane n).window = some ⟨k, false⟩) (he : (s.lane n).grantExpired = false) :
    s.armReturn n = s.withLane n { s.lane n with arm := .atRest, state := .unlocked, window := none } := by
  rw [State.armReturn_of_forward ha hr]
  generalize hrest : ({ s.lane n with arm := .atRest } : Lane) = l
  rw [State.abandonRotation_of_passing (k := k), State.withLane_lane_same, State.withLane_withLane, ← hrest]
  · exact if_neg (by simp [he])
  all_goals
    rw [State.withLane_lane_same, ← hrest]
    assumption

/-- The return of an attempt whose expiry has been recorded (R72, R76). -/
theorem State.armReturn_of_expired (ha : (s.lane n).arm = .forward) (hr : (s.lane n).role = some .ticket)
    (hl : (s.lane n).lateFree = none) (hst : (s.lane n).state = .passing)
    (hw : (s.lane n).window = some ⟨k, false⟩) (he : (s.lane n).grantExpired = true) (ht : (s.lane n).txn = some t)
    (hp : (s.lane n).pendingRole = none) (hrest : s.restingState n ≠ .fault) (hheld : s.heldOrder = [])
    (hm : s.MazeInRange) :
    s.armReturn n = s.lapsedTo n t { s.lane n with arm := .atRest, state := .unlocked, window := none } := by
  rw [State.armReturn_of_forward ha hr]
  generalize hx : ({ s.lane n with arm := .atRest } : Lane) = l
  rw [State.abandonRotation_of_passing (k := k), State.withLane_lane_same, State.withLane_withLane, ← hx]
  · refine (if_pos he).trans ?_
    exact State.lapse_comeToRest ht rfl rfl rfl hp hrest hheld (Lane.lapseCredit_of_none rfl) hm
  all_goals
    rw [State.withLane_lane_same, ← hx]
    assumption

/-- The return of a free rotation in FREE_FLOW (R86). -/
theorem State.armReturn_of_freeFlow (ha : (s.lane n).arm = .forward) (hr : (s.lane n).role = some .ticket)
    (hl : (s.lane n).lateFree = none) (hst : (s.lane n).state = .freeFlow)
    (hw : (s.lane n).window = some ⟨k, false⟩) :
    s.armReturn n =
      (s.withLane n { s.lane n with arm := .atRest, window := none, trailTimer := none }).leaveFreeFlow n := by
  rw [State.armReturn_of_forward ha hr]
  generalize hx : ({ s.lane n with arm := .atRest } : Lane) = l
  rw [State.abandonRotation_of_freeFlow (k := k), State.withLane_lane_same, State.withLane_withLane, ← hx]
  all_goals
    rw [State.withLane_lane_same, ← hx]
    assumption

/-- The return of a locked rotation (R70). -/
theorem State.armReturn_of_locked (ha : (s.lane n).arm = .forward) (hr : (s.lane n).role = some .ticket)
    (hl : (s.lane n).lateFree = none) (hp : (s.lane n).state ≠ .passing) (hf : (s.lane n).state ≠ .freeFlow) :
    s.armReturn n = s.withLane n { s.lane n with arm := .atRest, kept := 0 } := by
  rw [State.armReturn_of_forward ha hr]
  generalize hx : ({ s.lane n with arm := .atRest } : Lane) = l
  rw [State.abandonRotation_of_other, State.withLane_lane_same, State.withLane_withLane, ← hx]
  all_goals
    rw [State.withLane_lane_same, ← hx]
    assumption

/-- The return of a free rotation that has outlived FREE_FLOW (log 29). -/
theorem State.armReturn_of_late {w : PassageWindow} (ha : (s.lane n).arm = .forward)
    (hr : (s.lane n).role = some .ticket) (hl : (s.lane n).lateFree = some w) :
    s.armReturn n = s.withLane n { s.lane n with arm := .atRest, lateFree := none } := by
  rw [State.armReturn_of_forward ha hr,
    State.abandonRotation_of_late (w := w) (by rw [State.withLane_lane_same]; exact hl),
    State.withLane_lane_same, State.withLane_withLane]

end Return

/-- Settles O23: the start by the lane's state and window, the return by what the rotation was. -/
theorem forwardRotationBeginsOrReturns : Obligations.ForwardRotationBeginsOrReturns := by
  intro s n hs hr
  rw [exec_rotateFwdStart, exec_rotateReturn]
  refine ⟨fun ha => ⟨fun hw hl => ?_, fun k hst hw hp hm hq => ⟨fun hf => ?_, fun hf hrest => ?_⟩,
    fun k hst hw hl hm hq => ?_⟩, fun ha => ⟨fun hl => ⟨fun k hst hw he => ?_,
      fun k t hst hw he ht hi hp hrest hheld hm => ?_, fun k hst hw hp => ⟨fun hf => ?_, fun hf hrest => ?_⟩,
      fun hp hf => ?_⟩, fun w hl => ?_⟩⟩
  · refine congrArg _ (hs.event_withLane ?_ (State.forwardStart_of_closed ha hr hw hl))
    split <;> rfl
  · exact congrArg _ (hs.event_credit_withLane hm hq rfl (State.forwardStart_of_freeTrail ha hr hst hw hp hf))
  · exact congrArg _ (hs.event_credit_withLane hm hq rfl
      (State.forwardStart_of_freeTrail_ended ha hr hst hw hp hf hrest))
  · refine congrArg _ (hs.event_credit_withLane hm hq ?_ (State.forwardStart_of_lateTrail ha hr hst hw hl))
    split <;> rfl
  · exact congrArg _ (hs.event_withLane rfl (State.armReturn_of_passing ha hr hl hst hw he))
  · have hret := State.armReturn_of_expired ha hr hl hst hw he ht hp hrest hheld hm
    exact congrArg _ ((hs.event_lapsedTo ht hi hheld hret).trans rfl)
  · refine congrArg _ (hs.event_withLane rfl ((State.armReturn_of_freeFlow ha hr hl hst hw).trans ?_))
    exact State.leaveFreeFlow_of_inForce (by rw [State.withLane_lane_same]; exact hp) hf
  · generalize hc : ({ s.lane n with arm := .atRest, window := none, trailTimer := none } : Lane) = closed
    have hrests : (s.withLane n closed).RestsAs s n := by
      rw [State.RestsAs, State.withLane_lane_same, ← hc]
      exact ⟨⟨rfl, rfl, rfl, rfl⟩, rfl, rfl, rfl, rfl, rfl⟩
    have hret := State.armReturn_of_freeFlow ha hr hl hst hw
    rw [hc, hrests.leaveFreeFlow hr hp hf hrest, State.withLane_lane_same, State.withLane_withLane] at hret
    exact congrArg _ (hs.event_withLane (by rw [← hc]; rfl) hret)
  · exact congrArg _ (hs.event_withLane rfl (State.armReturn_of_locked ha hr hl hp hf))
  · exact congrArg _ (hs.event_withLane rfl (State.armReturn_of_late ha hr hl))

end Sys2Proof.Machine
end

