-- ==== Sys2Proof/Proofs/PassageNotices.lean ====
section
/-! PROOFS. A PASSAGE notice: the receive tests, the offer to the Passback Table, and a latch beside a broadcast. -/

namespace Sys2Proof.Machine

theorem exec_passage (m : Arrival) (s : State) :
    exec (.passage m) s = .next (s.event fun s => s.receive 0x23 m fun s => s.passageReceived m) := rfl

/-! ### A latch beside a message passed on (R162, R168, R183) -/

section Latch

variable {s t : State} {f : Flag} {d : Nat} {x : LoopMessage} {type : Byte} {m : Arrival}

/-- While the output is busy a message passed on waits in the transit FIFO or is dropped (R164). -/
theorem State.forward_of_busy (h : s.loop.sending.isSome = true) :
    s.forward type m = s.passedOn ⟨type, m.destination, m.source, m.hops + 1, m.payload⟩ := by
  have hn : ¬s.loop.sending.isNone = true := by simp [← Option.isSome_iff_ne_none, h]
  rw [State.forward, State.passedOn, if_neg hn]

/-- The loop with a message passed on while the output is busy. -/
def Loop.passingOn (l : Loop) (x : LoopMessage) : Loop :=
  if l.transit.length < 16 then { l with transit := l.transit ++ [x] }
  else { l with transitDrops := satAdd16 l.transitDrops 1 }

theorem Loop.passingOn_keeps (l : Loop) (x : LoopMessage) :
    (l.passingOn x).sending = l.sending ∧ (l.passingOn x).insertQueue = l.insertQueue
      ∧ (l.passingOn x).pendingEvents = l.pendingEvents := by
  rw [Loop.passingOn]
  split <;> exact ⟨rfl, rfl, rfl⟩

theorem State.passedOn_of_busy (h : s.loop.sending.isSome = true) :
    s.passedOn x = { s with loop := s.loop.passingOn x } := by
  have hn : ¬s.loop.sending.isNone = true := by simp [← Option.isSome_iff_ne_none, h]
  rw [State.passedOn, if_neg hn, Loop.passingOn]
  split <;> rfl

theorem State.latch_passedOn (h : s.loop.sending.isSome = true) :
    (s.latch f d).passedOn x = (s.passedOn x).latch f d := by
  obtain ⟨-, -, hpending⟩ := s.loop.passingOn_keeps x
  have hloop : (s.latch f d).loop = s.loop := by simp
  rw [State.passedOn_of_busy h, State.passedOn_of_busy (by rw [hloop]; exact h), hloop, State.latch, State.latch]
  by_cases hset : s.flagSet f = true
  · have hset' : ({ s with loop := s.loop.passingOn x } : State).flagSet f = true := hset
    rw [if_pos hset, if_pos hset']
  · have hset' : ¬({ s with loop := s.loop.passingOn x } : State).flagSet f = true := hset
    rw [if_neg hset, if_neg hset', State.eventPending, State.eventPending, hpending]
    rfl

/-- A report made while the output is busy waits behind it, whatever is passed on. -/
theorem State.reported_passedOn (r : EventReport) (h : s.loop.sending.isSome = true) :
    (s.reported r).passedOn x = (s.passedOn x).reported r := by
  obtain ⟨hsend, hinsert, hpending⟩ := s.loop.passingOn_keeps x
  have hfree : ({ s with loop := s.loop.passingOn x } : State).generalFree = s.generalFree :=
    State.generalFree_congr hinsert rfl
  rw [State.passedOn_of_busy h, State.reported, State.reported, hfree]
  by_cases hz : s.generalFree = 0
  · rw [if_pos hz, if_pos hz]
    refine (State.passedOn_of_busy ?_).trans ?_
    · exact h
    · simp only [Loop.passingOn]
      split <;> rfl
  · rw [if_neg hz, if_neg hz]
    by_cases hn : s.ownAddress.isNone = true
    · rw [if_pos hn, if_pos hn, State.passedOn_of_busy h]
    · rw [if_neg hn, if_neg hn, State.offered, State.offered, if_pos h, if_pos (by rw [hsend]; exact h)]
      refine (State.passedOn_of_busy ?_).trans ?_
      · exact h
      · simp only [Loop.passingOn]
        split <;> rfl

theorem State.latched_passedOn (h : s.loop.sending.isSome = true) :
    (s.latched f d).passedOn x = (s.passedOn x).latched f d := by
  obtain ⟨-, -, hpending⟩ := s.loop.passingOn_keeps x
  have hbusy : (s.withFlag f).loop.sending.isSome = true := h
  have hmade : ({ s with loop := s.loop.passingOn x } : State).eventPending f = s.eventPending f := by
    rw [State.eventPending, State.eventPending, hpending]
  have hflag : (s.withFlag f).passedOn x = ({ s with loop := s.loop.passingOn x } : State).withFlag f :=
    State.passedOn_of_busy hbusy
  rw [State.passedOn_of_busy h, State.latched, State.latched, hmade]
  by_cases hset : s.flagSet f = true
  · have hset' : ({ s with loop := s.loop.passingOn x } : State).flagSet f = true := hset
    rw [if_pos hset, if_pos hset', State.passedOn_of_busy h]
  · have hset' : ¬({ s with loop := s.loop.passingOn x } : State).flagSet f = true := hset
    rw [if_neg hset, if_neg hset']
    by_cases hreport : (s.flagEnabled f && !s.eventPending f) = true
    · rw [if_pos hreport, State.reported_passedOn _ hbusy, hflag]
      exact (if_pos hreport).symm
    · rw [if_neg hreport, hflag]
      exact (if_neg hreport).symm

/-- A message passed on while the output is busy keeps a settled part settled. -/
theorem State.Settled.passedOn_of_busy (hs : s.Settled) (h : s.loop.sending.isSome = true) :
    (s.passedOn x).Settled ∧ (s.passedOn x).placeFree = s.placeFree := by
  obtain ⟨hgiven, ⟨hraised, hqueued⟩, -⟩ := hs
  obtain ⟨hsend, hinsert, hpending⟩ := s.loop.passingOn_keeps x
  have hfree : ({ s with loop := s.loop.passingOn x } : State).generalFree = s.generalFree :=
    State.generalFree_congr hinsert rfl
  rw [State.passedOn_of_busy h]
  refine ⟨⟨hgiven, ⟨hraised, ?_⟩, .inl ?_⟩, rfl⟩
  · rw [hfree, hpending]
    exact hqueued
  · rw [hsend]
    exact h

/-- The event of a notice that is processed and latches a flag. Where the latch makes a report and the message is a
broadcast, the output is busy, so that neither is sent at this event. -/
theorem State.event_of_processes_latch {deliver : State → State} (h : s.Processes type m)
    (hf : deliver s.heard = t.latch f d) (ht : t.Settled) (hsend : t.loop.sending = s.loop.sending)
    (hp : s.placeFree = true → t.placeFree = true)
    (ho : t.LatchesSilently f ∨ s.loop.sending.isSome = true ∨ s.isOwn m.destination = true) :
    (s.event fun x => x.receive type m deliver) = (t.latched f d).onward s type m := by
  rcases ho with ho | hbusy
  · rw [State.latched_of_silent t f d ho]
    exact State.event_of_processes h (hf.trans (State.latch_of_silent t f d ho)) (ht.withFlag f) hp
  · simp only [State.event, State.receive_of_processes deliver h, hf, State.onward]
    split
    case isTrue => exact State.finish_latch f d ht hp
    case isFalse hown =>
      have hb : t.loop.sending.isSome = true := by rw [hsend]; exact hbusy.resolve_right hown
      generalize hx : (⟨type, m.destination, m.source, m.hops + 1, m.payload⟩ : LoopMessage) = x
      obtain ⟨hset, hfree⟩ := ht.passedOn_of_busy hb (x := x)
      rw [State.forward_of_busy (by simpa using hb), hx, State.latch_passedOn hb, State.latched_passedOn hb]
      exact State.finish_latch f d hset (hfree ▸ hp)

end Latch

/-! ### The offer to the Passback Table (R55 to R57) -/

section Offer

variable {s : State} {m : Arrival} {hold : Nat}

/-- The serial of a PASSAGE notice, its group and its age (R55). -/
def noticeSerial (m : Arrival) : Serial := BitVec.ofNat 32 (fieldLE m.payload 0 4)

def noticeGroup (m : Arrival) : Nat := fieldLE m.payload 4 1

def State.ageOf (s : State) (m : Arrival) : Nat := noticeAge s.time.stationTime (fieldLE m.payload 5 4)

/-- A PASSAGE notice that R55 ignores by what it says. -/
def NoticeMalformed (m : Arrival) : Prop :=
  m.payload.length ≠ 15 ∨ m.source = 0 ∨ noticeSerial m = 0 ∨ 63 < noticeGroup m
    ∨ 86399 < fieldLE m.payload 5 4

/-- A PASSAGE notice that R55 ignores. -/
def State.Ignores (s : State) (m : Arrival) : Prop :=
  NoticeMalformed m ∨ (holdOf s.tables.watchSet (noticeGroup m)).all (fun hold => decide (hold ≤ s.ageOf m)) = true

theorem State.passageReceived_of_ignored (h : s.Ignores m) : s.passageReceived m = s := by
  rw [State.passageReceived]
  by_cases hm : NoticeMalformed m
  · exact if_pos hm
  · refine (if_neg hm).trans ?_
    have hall := h.resolve_left hm
    show (match holdOf s.tables.watchSet (noticeGroup m) with
      | none => s
      | some hold => if hold ≤ s.ageOf m then s else _) = s
    cases hh : holdOf s.tables.watchSet (noticeGroup m) with
    | none => rfl
    | some hold => exact if_pos (by simpa [hh] using hall)

theorem State.passageReceived_of_offer (h : ¬s.Ignores m) (hh : holdOf s.tables.watchSet (noticeGroup m) = some hold) :
    s.passageReceived m =
      s.passbackOffer (noticeSerial m) (noticeGroup m) (s.ms + (hold - s.ageOf m) * 1000) m.source := by
  obtain ⟨hm, hage⟩ := not_or.1 h
  rw [State.passageReceived]
  refine (if_neg hm).trans ?_
  show (match holdOf s.tables.watchSet (noticeGroup m) with
    | none => s
    | some hold => if hold ≤ s.ageOf m then s else
      s.passbackOffer (noticeSerial m) (noticeGroup m) (s.ms + (hold - s.ageOf m) * 1000) m.source) = _
  rw [hh]
  exact if_neg (by simpa [hh] using hage)

end Offer

section Rows

variable {s : State} {serial : Serial} {group expiry : Nat} {chip : Byte} {old first : PassbackEntry}
  {rest : List PassbackEntry}

/-- A new key enters a table with room (R56). -/
theorem State.passbackOffer_of_new (hk : s.passbackFind serial group = none) (hroom : s.passback.length < 256) :
    s.passbackOffer serial group expiry chip = { s with
      passback := insertByExpiry ⟨serial, group, expiry, true, .remote chip⟩ s.passback } := by
  rw [State.passbackOffer, hk]
  exact State.passbackInsert_of_room _ hroom

/-- A latch reads nothing of the Passback Table. -/
theorem State.latch_withPassback (s : State) (f : Flag) (d : Nat) (p : List PassbackEntry) :
    ({ s with passback := p } : State).latch f d = { s.latch f d with passback := p } := by
  by_cases h : s.flagSet f = true
  · have h' : ({ s with passback := p } : State).flagSet f = true := h
    rw [State.latch, State.latch, if_pos h, if_pos h']
  · have h' : ¬({ s with passback := p } : State).flagSet f = true := h
    rw [State.latch, State.latch, if_neg h, if_neg h']
    rfl

/-- A new key displaces the first entry of a full table, with PASSBACK_EVICT (R57). -/
theorem State.passbackOffer_of_full (hk : s.passbackFind serial group = none) (hp : s.passback = first :: rest)
    (hfull : 256 ≤ s.passback.length) :
    s.passbackOffer serial group expiry chip = ({ s with
      passback := insertByExpiry ⟨serial, group, expiry, true, .remote chip⟩ rest } : State).latch .passbackEvict
        first.serial.toNat := by
  rw [State.passbackOffer, hk]
  exact (State.passbackInsert_of_full _ hp hfull).trans
    ((congrArg (State.passbackPlace · _) (State.latch_withPassback s _ _ rest)).trans
      (State.latch_withPassback s _ _ (insertByExpiry _ rest)).symm)

/-- A CONFIRMED entry takes the later expiry (R56). -/
theorem State.passbackOffer_of_confirmed (hk : s.passbackFind serial group = some old) (hc : old.confirmed = true) :
    s.passbackOffer serial group expiry chip = { s with
      passback := if old.expiry < expiry then insertByExpiry { old with expiry := expiry }
          (s.passback.filter fun e : PassbackEntry => !e.hasKey serial group)
        else s.passback } := by
  simp only [State.passbackOffer, hk, hc, if_true]
  split <;> rfl

/-- A PENDING entry stays as it is, with CLONE_SUSPECT (R56). -/
theorem State.passbackOffer_of_pending (hk : s.passbackFind serial group = some old) (hc : old.confirmed = false) :
    s.passbackOffer serial group expiry chip = s.latch .cloneSuspect serial.toNat := by
  simp [State.passbackOffer, hk, hc]

end Rows

/-- The Passback Table is no part of what an event settles. -/
theorem State.Settled.withPassback {s : State} (hs : s.Settled) (p : List PassbackEntry) :
    ({ s with passback := p } : State).Settled :=
  hs.congr rfl rfl rfl rfl rfl rfl rfl rfl

/-- Settles O47: the notice is ignored, or meets the Passback Table by the rows of R56. -/
theorem passageNoticeEnters : Obligations.PassageNoticeEnters := by
  intro s m hs hm ordered serial group noticeTime a age ignored
  have hheard := hs.heard
  have hignored : ignored ↔ s.heard.Ignores m := by
    rw [State.Ignores, NoticeMalformed, or_assoc, or_assoc, or_assoc, or_assoc]
    exact Iff.rfl
  rw [exec_passage]
  refine ⟨fun hi => ?_, fun hold hi hh => ?_⟩
  · exact congrArg _ (State.event_of_processes hm (State.passageReceived_of_ignored (hignored.1 hi)) hheard id)
  · intro expiry offered table
    have hout := State.passageReceived_of_offer (s := s.heard) (m := m) (mt hignored.2 hi) hh
    refine ⟨fun hk => ⟨fun hroom => ?_, fun first rest hp hfull ho => ?_⟩,
      fun old hk => ⟨fun hc => ?_, fun hc ho => ?_⟩⟩
    · exact congrArg _ (State.event_of_processes hm (hout.trans (State.passbackOffer_of_new hk hroom))
        (hheard.withPassback _) id)
    · exact congrArg _ (State.event_of_processes_latch hm (hout.trans (State.passbackOffer_of_full hk hp hfull))
        (hheard.withPassback _) rfl id ho)
    · exact congrArg _ (State.event_of_processes hm (hout.trans (State.passbackOffer_of_confirmed hk hc))
        (hheard.withPassback _) id)
    · exact congrArg _ (State.event_of_processes_latch hm (hout.trans (State.passbackOffer_of_pending hk hc))
        hheard rfl id ho)

end Sys2Proof.Machine
end

