-- ==== Sys2Proof/Proofs/CommitTables.lean ====
section
/-! PROOFS. The tables and the shadows after a COMMIT, and a message that stays queued or is sent at the end of an
event. -/

namespace Sys2Proof.Machine

/-! ### The tables committed together (R180, R181) -/

section Tables

variable {named : List TableId} {shadows : Shadows} {set : TableSet} {x : TableId}

/-- A part of the table set that one table fills and no other touches stands after a COMMIT as that table's own
shadow has it, if it is named. -/
theorem tablesAfter_part {α : Type} (part : TableSet → α)
    (hother : ∀ y shadow set, y ≠ x → part (decodeInto y shadow set) = part set)
    (hown : ∀ shadow set set', part (decodeInto x shadow set) = part (decodeInto x shadow set')) :
    part (tablesAfter named shadows set) = part (if x ∈ named then decodeInto x (shadows.get x) set else set) := by
  unfold tablesAfter
  induction named generalizing set with
  | nil => simp
  | cons y named ih =>
    rw [List.foldl_cons, ih]
    by_cases hxy : y = x
    · subst hxy
      rw [if_pos List.mem_cons_self]
      split
      · exact hown _ _ _
      · rfl
    · have hmem : x ∈ y :: named ↔ x ∈ named := by simp [Ne.symm hxy]
      by_cases hx : x ∈ named
      · rw [if_pos hx, if_pos (hmem.2 hx)]
        exact hown _ _ _
      · rw [if_neg hx, if_neg (mt hmem.1 hx)]
        exact hother y _ _ hxy

/-- Each part of the table set after a COMMIT. -/
theorem tablesAfter_parts (named : List TableId) (shadows : Shadows) (set : TableSet) :
    let standing (x : TableId) : TableSet := if x ∈ named then decodeInto x (shadows.get x) set else set
    let t := tablesAfter named shadows set
    t.blockList = (standing .blockList).blockList ∧ t.windows = (standing .windows).windows
      ∧ t.products = (standing .products).products ∧ t.categories = (standing .categories).categories
      ∧ t.watchSet = (standing .watchSet).watchSet ∧ t.dayQuality = (standing .dayQuality).dayQuality
      ∧ t.laneTable = (standing .laneTable).laneTable ∧ t.settings = (standing .settings).settings := by
  refine ⟨tablesAfter_part (·.blockList) ?_ fun _ _ _ => rfl, tablesAfter_part (·.windows) ?_ fun _ _ _ => rfl,
    tablesAfter_part (·.products) ?_ fun _ _ _ => rfl, tablesAfter_part (·.categories) ?_ fun _ _ _ => rfl,
    tablesAfter_part (·.watchSet) ?_ fun _ _ _ => rfl, tablesAfter_part (·.dayQuality) ?_ fun _ _ _ => rfl,
    tablesAfter_part (·.laneTable) ?_ fun _ _ _ => rfl, tablesAfter_part (·.settings) ?_ fun _ _ _ => rfl⟩
  all_goals
    intro y shadow set hy
    cases y <;> simp_all [decodeInto]

theorem Shadows.get_set (s : Shadows) (x y : TableId) (sh : Shadow) :
    (s.set y sh).get x = if x = y then sh else s.get x := by
  cases x <;> cases y <;> rfl

/-- The named shadows are ABSENT, and no other changes (R181). -/
theorem Shadows.clear_get (s : Shadows) (named : List TableId) (x : TableId) :
    (s.clear named).get x = if x ∈ named then .absent else s.get x := by
  unfold Shadows.clear
  induction named generalizing s with
  | nil => simp
  | cons y named ih =>
    rw [List.foldl_cons, ih, Shadows.get_set]
    by_cases hx : x ∈ named
    · simp [hx]
    · by_cases hxy : x = y <;> simp [hx, hxy]

end Tables

/-! ### A message queued, at the end of the event (R165 to R168) -/

/-- The message stands in the send order or is being sent. -/
def State.Carries (s : State) (o : Outgoing) : Prop :=
  o ∈ s.loop.insertQueue ∨ s.loop.sending = some (o.message s.ownByte)

section Carries

variable {s x : State} {o : Outgoing}

/-- A message in the send order of a part that queues more stays there. -/
theorem State.enqueue_mem (r : Outgoing) (h : o ∈ s.loop.insertQueue) : o ∈ (s.enqueue r).loop.insertQueue := by
  unfold State.enqueue
  split
  · exact h
  · exact List.mem_append_left _ h

theorem State.mem_enqueue (h : s.ownAddress.isSome = true) : o ∈ (s.enqueue o).loop.insertQueue := by
  have hn : ¬s.ownAddress.isNone = true := by simpa [← Option.isSome_iff_ne_none] using h
  rw [State.enqueue, if_neg hn]
  exact List.mem_append_right _ List.mem_cons_self

theorem State.drainPending_mem (k : Nat) (h : o ∈ s.loop.insertQueue) :
    o ∈ (s.drainPending k).loop.insertQueue := by
  induction k generalizing s with
  | zero => exact h
  | succ k ih =>
    unfold State.drainPending
    split
    · exact h
    · split
      · exact ih (State.enqueue_mem (s := { s with loop := { s.loop with pendingEvents := _ } }) _ h)
      · exact h

theorem State.drainPending_carries (k : Nat) (h : s.Carries o) : (s.drainPending k).Carries o := by
  have hbyte : (s.drainPending k).ownByte = s.ownByte := by simp [State.ownByte]
  unfold State.Carries
  rw [State.drainPending_sending, hbyte]
  exact h.imp (State.drainPending_mem k) id

theorem State.queueEvent_mem (r : EventReport) (h : o ∈ s.loop.insertQueue) :
    o ∈ (s.queueEvent r).loop.insertQueue := by
  unfold State.queueEvent
  split
  · exact State.enqueue_mem _ h
  · exact h

theorem State.flushRaised_mem (h : o ∈ s.loop.insertQueue) : o ∈ s.flushRaised.loop.insertQueue := by
  rw [State.flushRaised_eq]
  show o ∈ (s.made.foldl State.queueEvent s).loop.insertQueue
  generalize s.made = reports
  induction reports generalizing s with
  | nil => exact h
  | cons r reports ih => exact ih (State.queueEvent_mem r h)

theorem State.startTransit_carries (k : Nat) (h : o ∈ s.loop.insertQueue) : (s.startTransit k).Carries o := by
  unfold State.startTransit
  split <;> exact .inl h

/-- The first message of the send order is sent, and the others stay. -/
theorem State.startInsert_carries (k : Nat) (h : o ∈ s.loop.insertQueue) : (s.startInsert k).Carries o := by
  unfold State.startInsert
  split
  case h_1 hq => exact .inl h
  case h_2 first rest hq =>
    rw [hq] at h
    rcases List.mem_cons.1 h with rfl | h
    · exact .inr rfl
    · exact .inl h

/-- The output's choice sends a message of the send order or leaves it there. -/
theorem State.arbitrate_carries (b : Bool) (h : o ∈ s.loop.insertQueue) : (s.arbitrate b).Carries o := by
  have hchosen : o ∈ ({ s with choices := s.choices + 1 } : State).loop.insertQueue := h
  unfold State.arbitrate
  dsimp only
  split
  · exact .inl h
  · split
    · exact .inl h
    · exact State.startTransit_carries 0 h
    · exact State.startInsert_carries 0 h
    · split
      · split
        · exact State.startTransit_carries 0 hchosen
        · exact State.startInsert_carries 0 hchosen
      · split
        · exact State.startTransit_carries _ h
        · exact State.startInsert_carries 0 h

/-- A message queued at an event is still queued at its end, or is being sent. -/
theorem State.finish_carries (before : State) (h : o ∈ s.loop.insertQueue) : (s.finish before).Carries o := by
  have hgiven : o ∈ ((s.givePlaces s.heldOrder.length).checkMazeFull before).loop.insertQueue := by simpa using h
  exact State.drainPending_carries _
    (State.arbitrate_carries _ (State.flushRaised_mem (State.drainPending_mem _ hgiven)))

end Carries

end Sys2Proof.Machine
end

