-- ==== Sys2Proof/Proofs/CommitLanes.lean ====
section
/-! PROOFS. The lanes at a COMMIT: the role that each takes or has pending, and the resting state of each lane at
rest. -/

namespace Sys2Proof.Machine

/-! ### The lanes in turn -/

/-- From `s` to `x` nothing changes but lanes, the maze count and the flags. -/
structure State.LanesOnly (s x : State) : Prop where
  own      : x.ownAddress = s.ownAddress
  ms       : x.ms = s.ms
  pin      : x.freeFlowPin = s.freeFlowPin
  setting  : x.freeFlowSetting = s.freeFlowSetting
  held     : x.heldOrder = s.heldOrder
  tables   : x.tables = s.tables
  ports    : x.ports = s.ports
  passback : x.passback = s.passback
  deferred : x.deferred = s.deferred
  time     : x.time = s.time
  loop     : x.loop = s.loop
  shadows  : x.mgmt.shadows = s.mgmt.shadows
  lift     : x.maze.liftRun = s.maze.liftRun
  interval : x.maze.interval = s.maze.interval

section Turns

variable {s x y : State} {n : LaneId}

theorem State.LanesOnly.refl (s : State) : s.LanesOnly s :=
  ⟨rfl, rfl, rfl, rfl, rfl, rfl, rfl, rfl, rfl, rfl, rfl, rfl, rfl, rfl⟩

theorem State.LanesOnly.trans (h : s.LanesOnly x) (h' : x.LanesOnly y) : s.LanesOnly y where
  own := h'.own.trans h.own
  ms := h'.ms.trans h.ms
  pin := h'.pin.trans h.pin
  setting := h'.setting.trans h.setting
  held := h'.held.trans h.held
  tables := h'.tables.trans h.tables
  ports := h'.ports.trans h.ports
  passback := h'.passback.trans h.passback
  deferred := h'.deferred.trans h.deferred
  time := h'.time.trans h.time
  loop := h'.loop.trans h.loop
  shadows := h'.shadows.trans h.shadows
  lift := h'.lift.trans h.lift
  interval := h'.interval.trans h.interval

/-- What a resting state reads besides its lane stays. -/
theorem State.LanesOnly.restingState (h : s.LanesOnly x) (hr : (x.lane n).role = (s.lane n).role)
    (hk : (x.lane n).keyHigh = (s.lane n).keyHigh) (hc : (x.lane n).commandOpen = (s.lane n).commandOpen) :
    x.restingState n = s.restingState n :=
  State.restingState_congr n hr hk hc h.tables (by rw [h.time]) (by rw [State.port, State.port, h.ports])

/-- An act on each lane in turn that leaves the other lanes finds each as it was. -/
theorem State.foldl_lanes {act : State → LaneId → State} (hkeep : ∀ (x : State) m, x.LanesOnly (act x m))
    (hother : ∀ (x : State) m k, k ≠ m → (act x m).lane k = x.lane k) (lanes : List LaneId) (hl : lanes.Nodup)
    (s : State) : s.LanesOnly (lanes.foldl act s) ∧ (∀ k ∉ lanes, (lanes.foldl act s).lane k = s.lane k)
      ∧ ∀ n ∈ lanes, ∃ y, s.LanesOnly y ∧ y.lane n = s.lane n ∧ (act y n).LanesOnly (lanes.foldl act s)
        ∧ (lanes.foldl act s).lane n = (act y n).lane n := by
  induction lanes generalizing s with
  | nil => exact ⟨.refl s, fun _ _ => rfl, fun n hn => absurd hn (List.not_mem_nil)⟩
  | cons m rest ih =>
    obtain ⟨hm, hrest⟩ := List.nodup_cons.1 hl
    obtain ⟨hall, hout, hin⟩ := ih hrest (act s m)
    refine ⟨(hkeep s m).trans hall, fun k hk => ?_, fun n hn => ?_⟩
    · obtain ⟨hkm, hkr⟩ := not_or.1 (mt List.mem_cons.2 hk)
      rw [List.foldl_cons, hout k hkr, hother s m k hkm]
    · rcases List.mem_cons.1 hn with rfl | hn
      · exact ⟨s, .refl s, rfl, hall, hout n hm⟩
      · obtain ⟨y, hy, hlane, hend, hact⟩ := hin n hn
        exact ⟨y, (hkeep s m).trans hy, hlane.trans (hother s m n (ne_of_mem_of_not_mem hn hm)), hend, hact⟩

end Turns

/-! ### A resting state entered (R65, R67, R81) -/

/-- The lane in a state of rest, in FAULT without its recovery timer. -/
def Lane.entering (l : Lane) (st : LaneState) : Lane :=
  { l with state := st, recoveryTimer := if st = .fault then none else l.recoveryTimer }

section Rest

variable {s : State} {n m : LaneId}

theorem State.latch_lane (s : State) (f : Flag) (d : Nat) : (s.latch f d).lane m = s.lane m := by
  rw [State.lane, State.lane]
  simp

theorem State.entersState_lane (st : LaneState) : (s.entersState n st).lane n = (s.lane n).entering st := by
  cases st with
  | fault => exact (State.latch_lane _ _ _).trans (State.modLane_lane_same _ _ _)
  | _ => exact State.modLane_lane_same _ _ _

theorem State.entersState_lane_other (st : LaneState) (h : m ≠ n) : (s.entersState n st).lane m = s.lane m := by
  cases st with
  | fault => exact (State.latch_lane _ _ _).trans (State.modLane_lane_other _ h _)
  | _ => exact State.modLane_lane_other _ h _

theorem State.rest_lane_other (h : m ≠ n) : (s.rest n).lane m = s.lane m := by
  by_cases hst : (s.lane n).state = s.restingState n
  · simp [State.rest, hst]
  · rw [State.rest_eq_entersState hst, State.entersState_lane_other _ h]

theorem State.closureChange_lane_other (h : m ≠ n) : (s.closureChange n).lane m = s.lane m := by
  unfold State.closureChange
  split
  · exact State.rest_lane_other h
  · rfl

theorem State.lanesOnly_closureChange : s.LanesOnly (s.closureChange n) := by constructor <;> simp

/-- A lane at its rest changes its state and its recovery timer alone. -/
theorem State.rest_lane (s : State) (n : LaneId) :
    ∃ recovery, (s.rest n).lane n = { s.lane n with state := s.restingState n, recoveryTimer := recovery } := by
  by_cases hst : (s.lane n).state = s.restingState n
  · have hsame : s.rest n = s := by simp [State.rest, hst]
    exact ⟨(s.lane n).recoveryTimer, by rw [hsame, ← hst]⟩
  · rw [State.rest_eq_entersState hst, State.entersState_lane]
    exact ⟨_, rfl⟩

/-- The closure conditions reach a lane at rest, and no other (R67). -/
theorem State.closureChange_lane (s : State) (n : LaneId) : (s.closureChange n).lane n = s.lane n
      ∧ (s.lane n).state.atRest = false
    ∨ (s.lane n).state.atRest = true ∧ ∃ recovery, (s.closureChange n).lane n =
        { s.lane n with state := s.restingState n, recoveryTimer := recovery } := by
  unfold State.closureChange
  split
  case isTrue h => exact .inr ⟨h, s.rest_lane n⟩
  case isFalse h => exact .inl ⟨rfl, by simpa using h⟩

end Rest

/-! ### A role taken (R64, R89) -/

/-- The lane with a role taken, before its first state. -/
def Lane.taking (l : Lane) (r : Role) : Lane :=
  { l.lateTrailClosed with
    role := some r, pendingRole := none, kept := 0, window := none, lateFree := none
    recoveryTimer := if r = .settle then none else l.lateTrailClosed.recoveryTimer }

/-- The maze count with a credit, held at 255 where there is one (R94). -/
def credited (count credit : Nat) : Nat := if credit = 0 then count else min 255 (count + credit)

theorem credited_credited (count a b : Nat) : credited (credited count a) b = credited count (a + b) := by
  simp only [credited]
  split <;> split <;> split <;> omega

section Role

variable {s : State} {n m : LaneId} {r : Role}

theorem State.closeLateTrail_lane (s : State) (n : LaneId) :
    (s.closeLateTrail n).lane n = (s.lane n).lateTrailClosed ∧ (∀ m ≠ n, (s.closeLateTrail n).lane m = s.lane m)
      ∧ (s.closeLateTrail n).maze.count = credited s.maze.count (s.lane n).trailCredit := by
  cases hw : (s.lane n).lateFree with
  | none =>
    rw [State.closeLateTrail_of_none hw]
    simp [Lane.lateTrailClosed, Lane.trailCredit, credited, hw]
  | some w =>
    obtain ⟨k, trail⟩ := w
    cases trail with
    | true =>
      rw [State.closeLateTrail_eq hw, State.withLane_lane_same]
      refine ⟨by simp [Lane.lateTrailClosed, hw], fun m hm => State.withLane_lane_other _ hm _, ?_⟩
      have hcredit : (s.lane n).trailCredit = max 1 k := by simp [Lane.trailCredit, hw]
      rw [hcredit, credited, if_neg (by omega)]
      rfl
    | false => simp [State.closeLateTrail, Lane.lateTrailClosed, Lane.trailCredit, credited, hw]

theorem State.roleSet_lane (s : State) (n : LaneId) (r : Role) :
    (s.roleSet n r).lane n = (s.lane n).taking r ∧ (∀ m ≠ n, (s.roleSet n r).lane m = s.lane m)
      ∧ (s.roleSet n r).maze.count = credited s.maze.count (s.lane n).trailCredit := by
  obtain ⟨hlane, hother, hcount⟩ := s.closeLateTrail_lane n
  generalize hset : ((s.closeLateTrail n).modLane n fun l => { l with
    role := some r, pendingRole := none, kept := 0, window := none, lateFree := none
    recoveryTimer := if r = .settle then none else l.recoveryTimer }) = set
  have hsetLane : set.lane n = (s.lane n).taking r := by
    rw [← hset, State.modLane_lane_same, hlane]
    rfl
  have hsetOther (m : LaneId) (hm : m ≠ n) : set.lane m = s.lane m := by
    rw [← hset, State.modLane_lane_other _ hm, hother m hm]
  have hsetCount : set.maze.count = credited s.maze.count (s.lane n).trailCredit := by
    rw [← hset]
    exact hcount
  rw [State.roleSet, hset]
  split
  · refine ⟨(State.latch_lane _ _ _).trans hsetLane,
      fun m hm => (State.latch_lane _ _ _).trans (hsetOther m hm), ?_⟩
    simpa using hsetCount
  · exact ⟨hsetLane, hsetOther, hsetCount⟩

theorem State.lanesOnly_roleSet : s.LanesOnly (s.roleSet n r) := by
  constructor <;> · simp only [State.roleSet]; split <;> simp

theorem State.takeRole_lane (s : State) (n : LaneId) (r : Role) :
    (s.takeRole n r).lane n = (if r = .ticket ∧ s.freeFlowInForce then ((s.lane n).taking r).inFreeFlow
      else ((s.lane n).taking r).entering ((s.roleSet n r).restingState n)) := by
  obtain ⟨hlane, -, -⟩ := s.roleSet_lane n r
  rw [State.takeRole_eq]
  split
  · rw [State.enterFreeFlow_eq, State.withLane_lane_same, hlane]
  · rw [State.entersState_lane, hlane]

theorem State.takeRole_lane_other (h : m ≠ n) : (s.takeRole n r).lane m = s.lane m := by
  obtain ⟨-, hother, -⟩ := s.roleSet_lane n r
  rw [State.takeRole_eq]
  split
  · rw [State.enterFreeFlow_eq, State.withLane_lane_other _ h, hother m h]
  · rw [State.entersState_lane_other _ h, hother m h]

theorem State.takeRole_count (s : State) (n : LaneId) (r : Role) :
    (s.takeRole n r).maze.count = credited s.maze.count (s.lane n).trailCredit := by
  obtain ⟨-, -, hcount⟩ := s.roleSet_lane n r
  rw [← hcount, State.takeRole_eq]
  split
  · rfl
  · cases (s.roleSet n r).restingState n with
    | fault => exact congrArg Maze.count (by simp [State.entersState])
    | _ => rfl

theorem State.lanesOnly_takeRole : s.LanesOnly (s.takeRole n r) := by constructor <;> simp

/-- What a role taken makes of its lane, its state apart. -/
structure Lane.Took (l : Lane) (r : Role) (l' : Lane) : Prop where
  role     : l'.role = some r
  pending  : l'.pendingRole = none
  txn      : l'.txn = l.txn
  day      : l'.day = l.trailCounted.day
  interval : l'.interval = l.trailCounted.interval
  hold     : l.holdTimer = none → l'.holdTimer = none
  late     : l'.lateFree = none
  key      : l'.keyHigh = l.keyHigh
  opened   : l'.commandOpen = l.commandOpen

theorem Lane.took_taking (l : Lane) (r : Role) : l.Took r (l.taking r) := by
  have hclosed : l.lateTrailClosed.txn = l.txn ∧ l.lateTrailClosed.day = l.trailCounted.day
      ∧ l.lateTrailClosed.interval = l.trailCounted.interval ∧ l.lateTrailClosed.holdTimer = l.holdTimer
      ∧ l.lateTrailClosed.keyHigh = l.keyHigh ∧ l.lateTrailClosed.commandOpen = l.commandOpen := by
    rw [Lane.lateTrailClosed, Lane.trailCounted]
    split <;> exact ⟨rfl, rfl, rfl, rfl, rfl, rfl⟩
  obtain ⟨htxn, hday, hint, hhold, hkey, hopen⟩ := hclosed
  exact ⟨rfl, rfl, htxn, hday, hint, hhold.trans, rfl, hkey, hopen⟩

/-- A role taken: the lane, and its first state (R64). -/
theorem State.takeRole_took (s : State) (n : LaneId) (r : Role) :
    (s.lane n).Took r ((s.takeRole n r).lane n)
      ∧ ((s.takeRole n r).lane n).state = (if r = .ticket ∧ s.freeFlowInForce = true then .freeFlow
        else (s.takeRole n r).restingState n) := by
  have htook := (s.lane n).took_taking r
  obtain ⟨hrole, hpend, htxn, hday, hint, hhold, hlate, hkey, hopen⟩ := htook
  obtain ⟨hset, -, -⟩ := s.roleSet_lane n r
  have hlane := s.takeRole_lane n r
  by_cases hf : r = .ticket ∧ s.freeFlowInForce = true
  · rw [if_pos hf] at hlane
    rw [hlane, if_pos hf]
    exact ⟨⟨hrole, hpend, htxn, hday, hint, fun _ => rfl, rfl, hkey, hopen⟩, rfl⟩
  · rw [if_neg hf] at hlane
    have hkeep : s.LanesOnly (s.takeRole n r) := State.lanesOnly_takeRole
    have hkeep' : s.LanesOnly (s.roleSet n r) := State.lanesOnly_roleSet
    have hrest : (s.takeRole n r).restingState n = (s.roleSet n r).restingState n :=
      State.restingState_congr n (by rw [hlane, hset]; rfl) (by rw [hlane, hset]; rfl) (by rw [hlane, hset]; rfl)
        (hkeep.tables.trans hkeep'.tables.symm) (by rw [hkeep.time, hkeep'.time])
        (by rw [State.port, State.port, hkeep.ports, hkeep'.ports])
    rw [hlane, if_neg hf, hrest]
    exact ⟨⟨hrole, hpend, htxn, hday, hint, hhold, hlate, hkey, hopen⟩, rfl⟩

end Role

/-! ### The roles of a committed lane table (R64) -/

/-- A changed role is taken at once. -/
def Lane.atOnce (l : Lane) : Bool := l.state.atRest || (l.state == .freeFlow && l.window.isNone)

/-- The maze credit of a role taken at once. -/
def Lane.roleCredit (l : Lane) (r : Role) : Nat := if l.role ≠ some r ∧ l.atOnce = true then l.trailCredit else 0

/-- What a committed role makes of its lane, whose first state in it is `first`. -/
structure Lane.Committed (l : Lane) (r : Role) (first : LaneState) (l' : Lane) : Prop where
  same  : l.role = some r → l' = { l with pendingRole := none }
  took  : l.role ≠ some r → l.atOnce = true → l.Took r l' ∧ l'.state = first
  waits : l.role ≠ some r → l.atOnce = false → l' = { l with pendingRole := some r }

section Commit

variable {s x : State} {n m : LaneId} {r : Role} {table : PerLane LaneEntry}

theorem State.commitRole_of_same (h : (s.lane n).role = some r) :
    s.commitRole n r = s.withLane n { s.lane n with pendingRole := none } := if_pos h

theorem State.commitRole_of_atOnce (h : (s.lane n).role ≠ some r) (ha : (s.lane n).atOnce = true) :
    s.commitRole n r = s.takeRole n r := (if_neg h).trans (if_pos ha)

theorem State.commitRole_of_later (h : (s.lane n).role ≠ some r) (ha : (s.lane n).atOnce = false) :
    s.commitRole n r = s.withLane n { s.lane n with pendingRole := some r } :=
  (if_neg h).trans (if_neg (Bool.eq_false_iff.1 ha))

theorem State.lanesOnly_withLane (s : State) (n : LaneId) (l : Lane) : s.LanesOnly (s.withLane n l) :=
  ⟨rfl, rfl, rfl, rfl, rfl, rfl, rfl, rfl, rfl, rfl, rfl, rfl, rfl, rfl⟩

theorem State.commitRole_cases (s : State) (n : LaneId) (r : Role) :
    (∃ p, s.commitRole n r = s.withLane n { s.lane n with pendingRole := p }) ∧ (s.lane n).roleCredit r = 0
      ∨ s.commitRole n r = s.takeRole n r ∧ (s.lane n).roleCredit r = (s.lane n).trailCredit := by
  by_cases hr : (s.lane n).role = some r
  · exact .inl ⟨⟨_, State.commitRole_of_same hr⟩, if_neg fun h => h.1 hr⟩
  · cases ha : (s.lane n).atOnce with
    | true => exact .inr ⟨State.commitRole_of_atOnce hr ha, if_pos ⟨hr, ha⟩⟩
    | false => exact .inl ⟨⟨_, State.commitRole_of_later hr ha⟩, if_neg fun h => by simp [ha] at h⟩

theorem State.lanesOnly_commitRole (s : State) (n : LaneId) (r : Role) : s.LanesOnly (s.commitRole n r) := by
  rcases s.commitRole_cases n r with ⟨⟨p, h⟩, -⟩ | ⟨h, -⟩ <;> rw [h]
  · exact s.lanesOnly_withLane n _
  · exact State.lanesOnly_takeRole

theorem State.commitRole_lane_other (h : m ≠ n) : (s.commitRole n r).lane m = s.lane m := by
  rcases s.commitRole_cases n r with ⟨⟨p, he⟩, -⟩ | ⟨he, -⟩ <;> rw [he]
  · exact State.withLane_lane_other _ h _
  · exact State.takeRole_lane_other h

theorem State.commitRole_count (s : State) (n : LaneId) (r : Role) :
    (s.commitRole n r).maze.count = credited s.maze.count ((s.lane n).roleCredit r) := by
  rcases s.commitRole_cases n r with ⟨⟨p, h⟩, hc⟩ | ⟨h, hc⟩ <;> rw [h, hc]
  · rfl
  · exact s.takeRole_count n r

theorem State.commitRole_committed (s : State) (n : LaneId) (r : Role) :
    (s.lane n).Committed r (if r = .ticket ∧ s.freeFlowInForce = true then .freeFlow
      else (s.commitRole n r).restingState n) ((s.commitRole n r).lane n) where
  same h := by rw [State.commitRole_of_same h, State.withLane_lane_same]
  took h ha := by
    rw [State.commitRole_of_atOnce h ha]
    exact s.takeRole_took n r
  waits h ha := by rw [State.commitRole_of_later h ha, State.withLane_lane_same]

/-- The lanes take their credits in turn. -/
theorem State.foldl_count {act : State → LaneId → State} {credit : LaneId → Nat}
    (hact : ∀ (x : State) m, x.lane m = s.lane m → (act x m).maze.count = credited x.maze.count (credit m))
    (hother : ∀ (x : State) m k, k ≠ m → (act x m).lane k = x.lane k) (lanes : List LaneId) (hl : lanes.Nodup)
    (hx : ∀ k ∈ lanes, x.lane k = s.lane k) :
    (lanes.foldl act x).maze.count = credited x.maze.count (lanes.map credit).sum := by
  induction lanes generalizing x with
  | nil => simp [credited]
  | cons m rest ih =>
    obtain ⟨hm, hrest⟩ := List.nodup_cons.1 hl
    rw [List.foldl_cons, ih hrest fun k hk => (hother x m k (ne_of_mem_of_not_mem hk hm)).trans
      (hx k (List.mem_cons_of_mem m hk)), hact x m (hx m List.mem_cons_self), credited_credited, List.map_cons,
      List.sum_cons]

theorem State.commitRoles_of_some (h : s.tables.laneTable = some table) :
    s.commitRoles = LaneId.all.foldl (fun s n => s.commitRole n (table.get n).role) s := by
  simp only [State.commitRoles, h]

/-- The roles of a committed lane table, lane by lane. -/
theorem State.commitRoles_committed (h : s.tables.laneTable = some table) (n : LaneId) :
    s.LanesOnly s.commitRoles ∧ (s.lane n).Committed (table.get n).role
      (if (table.get n).role = .ticket ∧ s.freeFlowInForce = true then .freeFlow else s.commitRoles.restingState n)
      (s.commitRoles.lane n) := by
  obtain ⟨hall, -, hin⟩ := State.foldl_lanes (act := fun s n => s.commitRole n (table.get n).role)
    (fun x m => x.lanesOnly_commitRole m _) (fun _ _ _ hk => State.commitRole_lane_other hk) LaneId.all (by decide) s
  rw [← State.commitRoles_of_some h] at hall hin
  obtain ⟨y, hy, hlane, hend, hact⟩ := hin n (by cases n <;> decide)
  have hdone := y.commitRole_committed n (table.get n).role
  have hforce : y.freeFlowInForce = s.freeFlowInForce := by
    rw [State.freeFlowInForce, State.freeFlowInForce, hy.pin, hy.setting]
  rw [hlane, hforce, ← hact, ← hend.restingState (by rw [hact]) (by rw [hact]) (by rw [hact])] at hdone
  exact ⟨hall, hdone⟩

theorem State.commitRoles_count (h : s.tables.laneTable = some table) : s.commitRoles.maze.count
    = credited s.maze.count (LaneId.all.map fun n => (s.lane n).roleCredit (table.get n).role).sum := by
  rw [State.commitRoles_of_some h]
  exact State.foldl_count (s := s) (fun x m hm => hm ▸ x.commitRole_count m _)
    (fun _ _ _ hk => State.commitRole_lane_other hk) LaneId.all (by decide) fun _ _ => rfl

/-- The closure conditions reach the lanes in turn (R67). -/
theorem State.closureChangeAll_lane (s : State) (n : LaneId) : s.LanesOnly s.closureChangeAll
    ∧ (s.closureChangeAll.lane n = s.lane n ∧ (s.lane n).state.atRest = false
      ∨ (s.lane n).state.atRest = true ∧ ∃ recovery, s.closureChangeAll.lane n =
        { s.lane n with state := s.restingState n, recoveryTimer := recovery }) := by
  obtain ⟨hall, -, hin⟩ := State.foldl_lanes (act := State.closureChange) (fun x m => State.lanesOnly_closureChange)
    (fun _ _ _ hk => State.closureChange_lane_other hk) LaneId.all (by decide) s
  obtain ⟨y, hy, hlane, -, hact⟩ := hin n (by cases n <;> decide)
  have hdone := y.closureChange_lane n
  rw [← hact, hlane, hy.restingState (by rw [hlane]) (by rw [hlane]) (by rw [hlane])] at hdone
  exact ⟨hall, hdone⟩

end Commit

end Sys2Proof.Machine
end

