-- ==== Sys2Proof/Proofs/CommitSwap.lean ====
section
/-! PROOFS. The swap of a COMMIT stage by stage: the tables, the roles, the resting states and the interval. -/

namespace Sys2Proof.Machine

/-! ### The stages (R181) -/

/-- `s` with the tables swapped, the named shadows ABSENT, and the passback entries of groups no longer watched
gone. -/
def State.tablesSwapped (s : State) (named : List TableId) : State :=
  let swapped : State := { s with
    tables := { tablesAfter named s.mgmt.shadows s.tables with generation := s.tables.generation + 1 }
    mgmt := { s.mgmt with shadows := s.mgmt.shadows.clear named } }
  if named.contains .watchSet then swapped.commitWatchSet else swapped

/-- And the roles of a named lane table taken or pending. -/
def State.rolesSwapped (s : State) (named : List TableId) : State :=
  if named.contains .laneTable then (s.tablesSwapped named).commitRoles else s.tablesSwapped named

/-- And the lanes at rest in their resting states. -/
def State.lanesSwapped (s : State) (named : List TableId) : State :=
  if named.contains .laneTable || named.contains .settings then (s.rolesSwapped named).closureChangeAll
  else s.rolesSwapped named

theorem State.swapTables_eq (s : State) (named : List TableId) :
    s.swapTables named = if named.contains .settings then (s.lanesSwapped named).intervalCommit s.tables.settings
      else s.lanesSwapped named := rfl

/-- The lane changes its role at once. -/
def State.changesAt (s : State) (named : List TableId) (n : LaneId) : Bool :=
  named.contains .laneTable && (s.lane n).atOnce
    && (tablesAfter named s.mgmt.shadows s.tables).laneTable.any fun x => (s.lane n).role != some (x.get n).role

/-- The lane whose counters stand as the swap leaves them. -/
def State.swapCounted (s : State) (named : List TableId) (n : LaneId) : Lane :=
  if s.changesAt named n then (s.lane n).trailCounted else s.lane n

/-- The maze credit of the swap at lane `n`. -/
def State.swapCredit (s : State) (named : List TableId) (n : LaneId) : Nat :=
  if s.changesAt named n then (s.lane n).trailCredit else 0

section Stages

variable {s : State} {named : List TableId} {n : LaneId}

theorem State.tablesSwapped_eq (s : State) (named : List TableId) : ∃ p, s.tablesSwapped named = { s with
    tables := { tablesAfter named s.mgmt.shadows s.tables with generation := s.tables.generation + 1 }
    mgmt := { s.mgmt with shadows := s.mgmt.shadows.clear named }
    passback := p } := by
  rw [State.tablesSwapped]
  dsimp only
  split
  · exact ⟨_, rfl⟩
  · exact ⟨s.passback, rfl⟩

theorem tablesAfter_laneTable (named : List TableId) (shadows : Shadows) (set : TableSet) :
    (TableId.laneTable ∈ named → ∃ x, (tablesAfter named shadows set).laneTable = some x) := by
  intro h
  obtain ⟨-, -, -, -, -, -, hlane, -⟩ := tablesAfter_parts named shadows set
  dsimp only at hlane
  rw [if_pos h] at hlane
  exact ⟨_, hlane⟩

/-- The lane after the roles have been swapped, as R64 and R89 leave it in `z`. -/
structure State.LaneSwapped (s : State) (named : List TableId) (n : LaneId) (z : State) : Prop where
  txn      : (z.lane n).txn = (s.lane n).txn
  day      : (z.lane n).day = (s.swapCounted named n).day
  interval : (z.lane n).interval = (s.swapCounted named n).interval
  kept     : TableId.laneTable ∉ named →
    (z.lane n).role = (s.lane n).role ∧ (z.lane n).pendingRole = (s.lane n).pendingRole
  same     : ∀ x, TableId.laneTable ∈ named → z.tables.laneTable = some x → (s.lane n).role = some (x.get n).role →
    (z.lane n).role = some (x.get n).role ∧ (z.lane n).pendingRole = none
  took     : ∀ x, TableId.laneTable ∈ named → z.tables.laneTable = some x → (s.lane n).role ≠ some (x.get n).role →
    (s.lane n).atOnce = true → (z.lane n).role = some (x.get n).role ∧ (z.lane n).pendingRole = none
      ∧ (z.lane n).state = if (x.get n).role = .ticket ∧ s.freeFlowInForce = true then .freeFlow
        else z.restingState n
  waits    : ∀ x, TableId.laneTable ∈ named → z.tables.laneTable = some x → (s.lane n).role ≠ some (x.get n).role →
    (s.lane n).atOnce = false → (z.lane n).role = (s.lane n).role
      ∧ (z.lane n).pendingRole = some (x.get n).role ∧ (z.lane n).state = (s.lane n).state
  held     : (s.lane n).state = .held → ∃ p, z.lane n = { s.lane n with pendingRole := p }

/-- Without a lane table named the lane stands as it was. -/
theorem State.laneSwapped_of_unnamed {z : State} (hn : TableId.laneTable ∉ named) (hz : z.lane n = s.lane n) :
    s.LaneSwapped named n z := by
  have hcounted : s.swapCounted named n = s.lane n := if_neg (by simp [State.changesAt, hn])
  refine ⟨?_, ?_, ?_, fun _ => ?_, fun _ h => absurd h hn, fun _ h => absurd h hn, fun _ h => absurd h hn,
    fun _ => ⟨_, hz⟩⟩ <;> rw [hz]
  · rw [hcounted]
  · rw [hcounted]
  · exact ⟨rfl, rfl⟩

/-- A committed role leaves the lane as R64 says. -/
theorem State.laneSwapped_of_committed {z : State} {table : PerLane LaneEntry} (hn : TableId.laneTable ∈ named)
    (ht : (tablesAfter named s.mgmt.shadows s.tables).laneTable = some table) (hz : z.tables.laneTable = some table)
    (h : (s.lane n).Committed (table.get n).role
      (if (table.get n).role = .ticket ∧ s.freeFlowInForce = true then .freeFlow else z.restingState n) (z.lane n)) :
    s.LaneSwapped named n z := by
  obtain ⟨hsame, htook, hwaits⟩ := h
  have hchanges : s.changesAt named n = ((s.lane n).atOnce && (s.lane n).role != some (table.get n).role) := by
    simp [State.changesAt, hn, ht]
  have huniq {x : PerLane LaneEntry} (hx : z.tables.laneTable = some x) : x = table :=
    Option.some.inj (hx.symm.trans hz)
  by_cases hr : (s.lane n).role = some (table.get n).role
  · have hcounted : s.swapCounted named n = s.lane n := if_neg (by simp [hchanges, hr])
    have hlane := hsame hr
    refine ⟨?_, ?_, ?_, fun h => absurd hn h, fun x _ hx _ => ?_, fun x _ hx hne => ?_, fun x _ hx hne => ?_,
      fun _ => ⟨_, hlane⟩⟩
    · rw [hlane]
    · rw [hlane, hcounted]
    · rw [hlane, hcounted]
    · rw [huniq hx, hlane]
      exact ⟨hr, rfl⟩
    · exact absurd (huniq hx ▸ hr) hne
    · exact absurd (huniq hx ▸ hr) hne
  · cases ha : (s.lane n).atOnce with
    | true =>
      have hcounted : s.swapCounted named n = (s.lane n).trailCounted := if_pos (by simp [hchanges, hr, ha])
      obtain ⟨⟨hrole, hpend, htxn, hday, hint, -, -, -, -⟩, hfirst⟩ := htook hr ha
      refine ⟨htxn, ?_, ?_, fun h => absurd hn h, fun x _ hx he => ?_, fun x _ hx _ _ => ?_,
        fun x _ hx _ hfalse => ?_, fun hst => ?_⟩
      · rw [hday, hcounted]
      · rw [hint, hcounted]
      · exact absurd (huniq hx ▸ he) hr
      · rw [huniq hx]
        exact ⟨hrole, hpend, hfirst⟩
      · exact absurd (ha.symm.trans hfalse) (by decide)
      · simp [Lane.atOnce, hst, LaneState.atRest] at ha
    | false =>
      have hcounted : s.swapCounted named n = s.lane n := if_neg (by simp [hchanges, ha])
      have hlane := hwaits hr ha
      refine ⟨?_, ?_, ?_, fun h => absurd hn h, fun x _ hx he => ?_, fun x _ hx _ htrue => ?_, fun x _ hx _ _ => ?_,
        fun _ => ⟨_, hlane⟩⟩
      · rw [hlane]
      · rw [hlane, hcounted]
      · rw [hlane, hcounted]
      · exact absurd (huniq hx ▸ he) hr
      · exact absurd (ha.symm.trans htrue) (by decide)
      · rw [huniq hx, hlane]
        exact ⟨rfl, rfl, rfl⟩

/-- The closure conditions then reach the lane at rest (R67). -/
theorem State.LaneSwapped.closureChange {b c : State} (h : s.LaneSwapped named n b) (hk : b.LanesOnly c)
    (hc : c.lane n = b.lane n ∧ (b.lane n).state.atRest = false
      ∨ (b.lane n).state.atRest = true ∧ ∃ recovery, c.lane n =
        { b.lane n with state := b.restingState n, recoveryTimer := recovery }) :
    s.LaneSwapped named n c ∧ ((c.lane n).state.atRest = true → (c.lane n).state = c.restingState n) := by
  obtain ⟨htxn, hday, hint, hkept, hsame, htook, hwaits, hheld⟩ := h
  rcases hc with ⟨hlane, hout⟩ | ⟨hin, recovery, hlane⟩
  · have hrest : c.restingState n = b.restingState n := hk.restingState (by rw [hlane]) (by rw [hlane]) (by rw [hlane])
    refine ⟨?_, fun hat => ?_⟩
    · constructor <;> rw [hlane]
      case txn => exact htxn
      case day => exact hday
      case interval => exact hint
      case kept => exact hkept
      case same => rw [hk.tables]; exact hsame
      case took => rw [hk.tables, hrest]; exact htook
      case waits => rw [hk.tables]; exact hwaits
      case held => exact hheld
    · rw [hlane, hout] at hat
      exact absurd hat (by decide)
  · have hrest : c.restingState n = b.restingState n := hk.restingState (by rw [hlane]) (by rw [hlane]) (by rw [hlane])
    refine ⟨⟨?_, ?_, ?_, fun hn => ?_, fun x hn hx he => ?_, fun x hn hx he ha => ?_, fun x hn hx he ha => ?_,
      fun hst => ?_⟩, fun _ => ?_⟩
    · rw [hlane]; exact htxn
    · rw [hlane]; exact hday
    · rw [hlane]; exact hint
    · rw [hlane]; exact hkept hn
    · rw [hlane]; exact hsame x hn (hk.tables ▸ hx) he
    · obtain ⟨hrole, hpend, hstate⟩ := htook x hn (hk.tables ▸ hx) he ha
      rw [hlane]
      refine ⟨hrole, hpend, ?_⟩
      by_cases hf : (x.get n).role = .ticket ∧ s.freeFlowInForce = true
      · rw [if_pos hf] at hstate
        rw [hstate] at hin
        exact absurd hin (by decide)
      · rw [if_neg hf, hrest]
    · obtain ⟨-, -, hstate⟩ := hwaits x hn (hk.tables ▸ hx) he ha
      rw [hstate] at hin
      simp [Lane.atOnce, hin] at ha
    · obtain ⟨p, hb⟩ := hheld hst
      rw [hb, hst] at hin
      exact absurd hin (by decide)
    · rw [hlane, hrest]

theorem State.tablesSwapped_laneTable (hn : TableId.laneTable ∈ named) :
    ∃ x, (tablesAfter named s.mgmt.shadows s.tables).laneTable = some x
      ∧ (s.tablesSwapped named).tables.laneTable = some x := by
  obtain ⟨x, hx⟩ := tablesAfter_laneTable named s.mgmt.shadows s.tables hn
  obtain ⟨p, hp⟩ := s.tablesSwapped_eq named
  exact ⟨x, hx, by rw [hp]; exact hx⟩

theorem State.tablesSwapped_lane (s : State) (named : List TableId) (n : LaneId) :
    (s.tablesSwapped named).lane n = s.lane n := by
  obtain ⟨p, hp⟩ := s.tablesSwapped_eq named
  rw [hp]
  rfl

/-- The lanes after the roles of the COMMIT. -/
theorem State.rolesSwapped_lane (s : State) (named : List TableId) (n : LaneId) :
    (s.tablesSwapped named).LanesOnly (s.rolesSwapped named) ∧ s.LaneSwapped named n (s.rolesSwapped named) := by
  have hbase := s.tablesSwapped_lane named n
  by_cases hn : TableId.laneTable ∈ named
  · obtain ⟨x, hx, hstands⟩ := State.tablesSwapped_laneTable (s := s) hn
    have hroles : s.rolesSwapped named = (s.tablesSwapped named).commitRoles := if_pos (by simpa using hn)
    have hforce : (s.tablesSwapped named).freeFlowInForce = s.freeFlowInForce := by
      obtain ⟨p, hp⟩ := s.tablesSwapped_eq named
      rw [hp]
      rfl
    obtain ⟨hkeep, hdone⟩ := State.commitRoles_committed hstands n
    rw [hroles]
    rw [hbase, hforce] at hdone
    exact ⟨hkeep, State.laneSwapped_of_committed hn hx (by rw [hkeep.tables]; exact hstands) hdone⟩
  · have hroles : s.rolesSwapped named = s.tablesSwapped named := if_neg (by simpa using hn)
    rw [hroles]
    exact ⟨.refl _, State.laneSwapped_of_unnamed hn hbase⟩

/-- The lanes after the COMMIT, the interval apart. -/
theorem State.lanesSwapped_lane (s : State) (named : List TableId) (n : LaneId) :
    (s.tablesSwapped named).LanesOnly (s.lanesSwapped named) ∧ s.LaneSwapped named n (s.lanesSwapped named)
      ∧ (TableId.laneTable ∈ named ∨ TableId.settings ∈ named → ((s.lanesSwapped named).lane n).state.atRest = true →
        ((s.lanesSwapped named).lane n).state = (s.lanesSwapped named).restingState n) := by
  obtain ⟨hkeep, hlane⟩ := s.rolesSwapped_lane named n
  by_cases hn : TableId.laneTable ∈ named ∨ TableId.settings ∈ named
  · have hclosed : s.lanesSwapped named = (s.rolesSwapped named).closureChangeAll := if_pos (by simpa using hn)
    obtain ⟨hclosure, hdone⟩ := (s.rolesSwapped named).closureChangeAll_lane n
    obtain ⟨hswapped, hrests⟩ := hlane.closureChange hclosure hdone
    rw [hclosed]
    exact ⟨hkeep.trans hclosure, hswapped, fun _ => hrests⟩
  · have hsame : s.lanesSwapped named = s.rolesSwapped named := if_neg (by simpa using hn)
    rw [hsame]
    exact ⟨hkeep, hlane, fun h => absurd h hn⟩

/-- The maze count after the COMMIT: the credits of the free windows that a role taken at once has closed. -/
theorem State.lanesSwapped_count (s : State) (named : List TableId) : (s.lanesSwapped named).maze.count
    = credited s.maze.count (LaneId.all.map (s.swapCredit named)).sum := by
  have hclosed : (s.lanesSwapped named).maze.count = (s.rolesSwapped named).maze.count := by
    rw [State.lanesSwapped]
    split
    · simp
    · rfl
  obtain ⟨p, hp⟩ := s.tablesSwapped_eq named
  have hbase : (s.tablesSwapped named).maze = s.maze := by rw [hp]
  rw [hclosed]
  by_cases hn : TableId.laneTable ∈ named
  · obtain ⟨x, hx, hstands⟩ := State.tablesSwapped_laneTable (s := s) hn
    have hroles : s.rolesSwapped named = (s.tablesSwapped named).commitRoles := if_pos (by simpa using hn)
    have hcredit (n : LaneId) : ((s.tablesSwapped named).lane n).roleCredit (x.get n).role = s.swapCredit named n := by
      rw [s.tablesSwapped_lane named n, Lane.roleCredit, State.swapCredit, State.changesAt, hx]
      by_cases hr : (s.lane n).role = some (x.get n).role <;> cases (s.lane n).atOnce <;> simp [hr, hn]
    rw [hroles, State.commitRoles_count hstands, hbase]
    simp only [hcredit]
  · have hroles : s.rolesSwapped named = s.tablesSwapped named := if_neg (by simpa using hn)
    have hnone (n : LaneId) : s.swapCredit named n = 0 := if_neg (by simp [State.changesAt, hn])
    rw [hroles, hbase]
    simp [LaneId.all, hnone, credited]

end Stages

end Sys2Proof.Machine
end

