-- ==== Sys2Proof/Proofs/CommitInterval.lean ====
section
/-! PROOFS. The interval at a COMMIT of the settings: started, left alone, or ended with its SHORT report. -/

namespace Sys2Proof.Machine

/-! ### The end of an interval (R158) -/

section Interval

variable {s x : State} {n : LaneId} {short : Bool} {seconds : Nat}

theorem State.endInterval_lane (x : State) (short : Bool) (seconds : Nat) (n : LaneId) :
    (x.endInterval short seconds).lane n = { x.lane n with interval := .zero } := by
  simp [State.endInterval, State.lane]

theorem State.endInterval_maze (x : State) (short : Bool) (seconds : Nat) :
    (x.endInterval short seconds).maze = { x.maze with interval := .zero } := by
  simp [State.endInterval]

theorem State.endInterval_time (x : State) (short : Bool) (seconds : Nat) :
    (x.endInterval short seconds).time = { x.bringRunTimes.time with
      sequence := x.time.sequence + 1, intervalRun := x.bringRunTimes.time.intervalRun % 1000
      intervalDue := false } := by
  simp [State.endInterval, State.bringRunTimes]

/-- The COUNT report of an interval that ends. -/
def State.intervalReport (x : State) (short : Bool) (seconds : Nat) : CountReport :=
  x.bringRunTimes.countReport (x.time.sequence + 1) short seconds

/-- With a general entry free the report is queued (R166). -/
theorem State.endInterval_report (x : State) (short : Bool) (seconds : Nat) (hfree : 0 < x.generalFree)
    (hown : x.ownAddress.isSome = true) :
    .count (x.intervalReport short seconds) ∈ (x.endInterval short seconds).loop.insertQueue := by
  have hroom : 0 < x.bringRunTimes.generalFree := hfree
  have hqueued : x.bringRunTimes.queueReport (.count (x.intervalReport short seconds))
      = x.bringRunTimes.enqueue (.count (x.intervalReport short seconds)) := if_pos hroom
  show Outgoing.count (x.intervalReport short seconds)
    ∈ (x.bringRunTimes.queueReport (.count (x.intervalReport short seconds))).loop.insertQueue
  rw [hqueued]
  exact State.mem_enqueue hown

/-- Settings of another period or postscaler end the interval SHORT (R159). -/
theorem State.intervalCommit_of_changed {old : Settings} (hdue : x.time.intervalDue = false)
    (h : ¬(old.intervalPeriodS = x.settings.intervalPeriodS ∧ old.intervalPostscale = x.settings.intervalPostscale)) :
    x.intervalCommit (some old) = (x.endInterval true (x.elapsedSeconds old)).startInterval := by
  simp only [State.intervalCommit, if_neg h, hdue, Bool.false_eq_true, if_false]

theorem State.intervalCommit_of_same {old : Settings}
    (h : old.intervalPeriodS = x.settings.intervalPeriodS ∧ old.intervalPostscale = x.settings.intervalPostscale) :
    x.intervalCommit (some old) = x := if_pos h

/-- The interval timer at a COMMIT changes of a lane its accumulators alone, and leaves the maze count. -/
theorem State.intervalCommit_lane (x : State) (old : Option Settings) :
    (∀ n, ∃ i, (x.intervalCommit old).lane n = { x.lane n with interval := i })
      ∧ (x.intervalCommit old).maze.count = x.maze.count := by
  have hend (y : State) (short : Bool) (seconds : Nat) :
      (∀ n, ∃ i, (y.endInterval short seconds).lane n = { y.lane n with interval := i })
        ∧ (y.endInterval short seconds).maze.count = y.maze.count :=
    ⟨fun n => ⟨_, y.endInterval_lane short seconds n⟩, by rw [y.endInterval_maze]⟩
  cases old with
  | none => exact ⟨fun n => ⟨_, rfl⟩, rfl⟩
  | some old =>
    by_cases h : old.intervalPeriodS = x.settings.intervalPeriodS ∧ old.intervalPostscale = x.settings.intervalPostscale
    · rw [State.intervalCommit_of_same h]
      exact ⟨fun n => ⟨_, rfl⟩, rfl⟩
    · cases hdue : x.time.intervalDue with
      | false =>
        rw [State.intervalCommit_of_changed hdue h]
        exact hend x true _
      | true =>
        have htwice : x.intervalCommit (some old) = ((x.endInterval false old.intervalSeconds).endInterval true
            ((x.endInterval false old.intervalSeconds).elapsedSeconds old)).startInterval := by
          simp only [State.intervalCommit, if_neg h, hdue, if_true]
        rw [htwice]
        obtain ⟨hfirst, hfirstCount⟩ := hend x false old.intervalSeconds
        generalize x.endInterval false old.intervalSeconds = y at hfirst hfirstCount ⊢
        obtain ⟨hsecond, hsecondCount⟩ := hend y true (y.elapsedSeconds old)
        generalize y.endInterval true (y.elapsedSeconds old) = z at hsecond hsecondCount ⊢
        refine ⟨fun n => ?_, hsecondCount.trans hfirstCount⟩
        obtain ⟨i, hi⟩ := hfirst n
        obtain ⟨j, hj⟩ := hsecond n
        exact ⟨j, hj.trans (by rw [hi])⟩

/-- The run times are brought up from the time, the clock and the lift. -/
theorem State.bringRunTimes_congr (ht : x.time = s.time) (hms : x.ms = s.ms) (hl : x.maze.liftRun = s.maze.liftRun) :
    x.bringRunTimes.time = s.bringRunTimes.time := by
  have hday : x.dayRunning = s.dayRunning := by
    unfold State.dayRunning State.stationMinute
    rw [ht, hl]
  simp only [State.bringRunTimes, hday, ht, hms, hl]

end Interval

/-! ### The interval at the swap -/

/-- The time base with the interval timer started at this ms. -/
def TimeBase.started (time : TimeBase) (ms : Nat) : TimeBase :=
  { time with prescaler := some ⟨ms, 1000⟩, periodCount := 0, postscaleCount := 0, intervalDue := false }

section Swap

variable {s : State} {named : List TableId} {n : LaneId} {new old : Settings}

/-- What the lanes' part of the swap leaves to the interval. -/
theorem State.lanesSwapped_keeps (s : State) (named : List TableId) :
    (s.lanesSwapped named).time = s.time ∧ (s.lanesSwapped named).ms = s.ms
      ∧ (s.lanesSwapped named).ownAddress = s.ownAddress ∧ (s.lanesSwapped named).loop = s.loop
      ∧ (s.lanesSwapped named).heldOrder = s.heldOrder ∧ (s.lanesSwapped named).deferred = s.deferred
      ∧ (s.lanesSwapped named).maze.liftRun = s.maze.liftRun
      ∧ (s.lanesSwapped named).maze.interval = s.maze.interval
      ∧ (s.lanesSwapped named).ports = s.ports
      ∧ (s.lanesSwapped named).mgmt.shadows = s.mgmt.shadows.clear named := by
  obtain ⟨hkeep, -, -⟩ := s.lanesSwapped_lane named .l1
  obtain ⟨p, hp⟩ := s.tablesSwapped_eq named
  rw [hp] at hkeep
  exact ⟨hkeep.time, hkeep.ms, hkeep.own, hkeep.loop, hkeep.held, hkeep.deferred, hkeep.lift, hkeep.interval,
    hkeep.ports, hkeep.shadows⟩

/-- What the whole swap leaves. -/
theorem State.swapTables_keeps (s : State) (named : List TableId) :
    (s.swapTables named).ms = s.ms ∧ (s.swapTables named).ownAddress = s.ownAddress
      ∧ (s.swapTables named).heldOrder = s.heldOrder ∧ (s.swapTables named).deferred = s.deferred
      ∧ (s.swapTables named).ports = s.ports
      ∧ (s.swapTables named).mgmt.shadows = s.mgmt.shadows.clear named
      ∧ (∀ n, ∃ i, (s.swapTables named).lane n = { (s.lanesSwapped named).lane n with interval := i })
      ∧ (s.swapTables named).maze.count = (s.lanesSwapped named).maze.count := by
  obtain ⟨-, hms, hown, -, hheld, hdef, -, -, hports, hsh⟩ := s.lanesSwapped_keeps named
  obtain ⟨hlanes, hcount⟩ := (s.lanesSwapped named).intervalCommit_lane s.tables.settings
  rw [State.swapTables_eq]
  split
  · simp only [State.intervalCommit_frame]
    exact ⟨hms, hown, hheld, hdef, hports, hsh, hlanes, hcount⟩
  · exact ⟨hms, hown, hheld, hdef, hports, hsh, fun n => ⟨_, rfl⟩, rfl⟩

/-- The accumulators stand as the counters of the swap leave them. -/
def State.IntervalKept (s : State) (named : List TableId) (x : State) : Prop :=
  (∀ n, (x.lane n).interval = (s.swapCounted named n).interval) ∧ x.maze.interval = s.maze.interval

theorem State.lanesSwapped_intervalKept (s : State) (named : List TableId) :
    s.IntervalKept named (s.lanesSwapped named) := by
  obtain ⟨-, -, -, -, -, -, -, hint, -, -⟩ := s.lanesSwapped_keeps named
  refine ⟨fun n => ?_, hint⟩
  obtain ⟨-, hlane, -⟩ := s.lanesSwapped_lane named n
  exact hlane.interval

/-- Without settings named the time base and the accumulators stay. -/
theorem State.swapTables_unnamed (h : TableId.settings ∉ named) :
    (s.swapTables named).time = s.time ∧ s.IntervalKept named (s.swapTables named) := by
  have hswap : s.swapTables named = s.lanesSwapped named := if_neg (by simpa using h)
  obtain ⟨htime, -⟩ := s.lanesSwapped_keeps named
  rw [hswap]
  exact ⟨htime, s.lanesSwapped_intervalKept named⟩

theorem State.swapTables_named (h : TableId.settings ∈ named) :
    s.swapTables named = (s.lanesSwapped named).intervalCommit s.tables.settings := if_pos (by simpa using h)

/-- The first settings start the interval timer (R159). -/
theorem State.swapTables_first (h : TableId.settings ∈ named) (hold : s.tables.settings = none) :
    (s.swapTables named).time = s.time.started s.ms ∧ s.IntervalKept named (s.swapTables named) := by
  obtain ⟨htime, hms, -⟩ := s.lanesSwapped_keeps named
  rw [State.swapTables_named h, hold]
  refine ⟨?_, s.lanesSwapped_intervalKept named⟩
  rw [← htime, ← hms]
  rfl

/-- Settings of the same period and postscaler leave it alone (R159). -/
theorem State.swapTables_same (h : TableId.settings ∈ named) (hold : s.tables.settings = some old)
    (hsame : old.intervalPeriodS = (s.lanesSwapped named).settings.intervalPeriodS
      ∧ old.intervalPostscale = (s.lanesSwapped named).settings.intervalPostscale) :
    (s.swapTables named).time = s.time ∧ s.IntervalKept named (s.swapTables named) := by
  obtain ⟨htime, -⟩ := s.lanesSwapped_keeps named
  rw [State.swapTables_named h, hold, State.intervalCommit_of_same hsame]
  exact ⟨htime, s.lanesSwapped_intervalKept named⟩

theorem State.lanesSwapped_generalFree (s : State) (named : List TableId) :
    (s.lanesSwapped named).generalFree = s.generalFree := by
  obtain ⟨-, -, -, hloop, -⟩ := s.lanesSwapped_keeps named
  refine State.generalFree_congr (by rw [hloop]) (State.reservations_of_txns fun n => ?_).2
  obtain ⟨-, hlane, -⟩ := s.lanesSwapped_lane named n
  exact hlane.txn

/-- Others end it SHORT, with its report and its accumulators cleared, and start it afresh (R158, R159). -/
theorem State.swapTables_changed (h : TableId.settings ∈ named) (hold : s.tables.settings = some old)
    (hdue : s.time.intervalDue = false)
    (hne : ¬(old.intervalPeriodS = (s.lanesSwapped named).settings.intervalPeriodS
      ∧ old.intervalPostscale = (s.lanesSwapped named).settings.intervalPostscale)) :
    let u := s.bringRunTimes.time
    (s.swapTables named).time = TimeBase.started
        { u with sequence := s.time.sequence + 1, intervalRun := u.intervalRun % 1000 } s.ms
      ∧ (∀ n, ((s.swapTables named).lane n).interval = .zero) ∧ (s.swapTables named).maze.interval = .zero
      ∧ (0 < s.generalFree → s.ownAddress.isSome = true → ∃ r : CountReport,
        .count r ∈ (s.swapTables named).loop.insertQueue ∧ r.sequence = s.time.sequence + 1 ∧ r.short = true
          ∧ r.seconds = s.time.postscaleCount * old.intervalPeriodS + s.time.periodCount
          ∧ r.lanes = ⟨(s.swapCounted named .l1).interval, (s.swapCounted named .l2).interval,
            (s.swapCounted named .l3).interval, (s.swapCounted named .l4).interval⟩
          ∧ r.loading = s.maze.interval ∧ r.runSeconds = u.intervalRun / 1000) := by
  intro u
  obtain ⟨htime, hms, hown, hloop, -, -, hlift, -, -, -⟩ := s.lanesSwapped_keeps named
  obtain ⟨hints, hmaze⟩ := s.lanesSwapped_intervalKept named
  have hfree := s.lanesSwapped_generalFree named
  have hrun := State.bringRunTimes_congr htime hms hlift
  rw [State.swapTables_named h, hold, State.intervalCommit_of_changed (by rw [htime]; exact hdue) hne]
  generalize s.lanesSwapped named = z at htime hms hown hloop hlift hints hmaze hfree hrun
  refine ⟨?_, fun n => ?_, ?_, fun hroom hsome =>
    ⟨z.intervalReport true (z.elapsedSeconds old), ?_, ?_, rfl, ?_, ?_, ?_, ?_⟩⟩
  · show TimeBase.started (z.endInterval true (z.elapsedSeconds old)).time
      (z.endInterval true (z.elapsedSeconds old)).ms = _
    rw [State.endInterval_time, hrun, htime]
    simp only [State.endInterval_frame, hms]
    rfl
  · exact congrArg Lane.interval (z.endInterval_lane true (z.elapsedSeconds old) n)
  · exact congrArg Maze.interval (z.endInterval_maze true (z.elapsedSeconds old))
  · exact z.endInterval_report true _ (by rw [hfree]; exact hroom) (by rw [hown]; exact hsome)
  · show z.time.sequence + 1 = _
    rw [htime]
  · show z.elapsedSeconds old = _
    rw [State.elapsedSeconds, htime]
  · rw [← hints .l1, ← hints .l2, ← hints .l3, ← hints .l4]
    rfl
  · exact hmaze
  · show z.bringRunTimes.time.intervalRun / 1000 = _
    rw [hrun]

end Swap

end Sys2Proof.Machine
end

