-- ==== Sys2Proof/Proofs/PlacesTaken.lean ====
section
/-! PROOFS. The held lanes that take the places free at the end of an event (R41, R101). -/

namespace Sys2Proof.Machine

/-! ### One held lane takes a place -/

/-- `x` with the first place given to lane `n`, the held order as `rest`: the lane carries on at step 13. -/
def State.placeTakenBy (x : State) (n : LaneId) (rest : List LaneId) : State :=
  ((({ x with heldOrder := rest } : State).modLane n fun l => { l with holdTimer := none }).reserve n).grant n

/-- The card of a FREE day is gone. -/
def Transaction.Gone (t : Transaction) : Prop := t.today = some .free ∧ t.present = false

/-- A lane whose card of a FREE day is gone has no late free window. -/
def Lane.GoesQuietly (l : Lane) : Prop := ∀ t, l.txn = some t → t.Gone → l.lateFree = none

/-- What a place makes of a held lane with the transaction `t`. -/
structure Lane.Placed (l : Lane) (t : Transaction) (l' : Lane) : Prop where
  gone  : t.Gone → l'.txn = none
  keeps : ¬t.Gone → (∃ y, l'.txn = some y ∧ y.serial = t.serial ∧ y.reserved = true)
    ∧ l'.state = (if t.today = some .free then .writing
      else if l.recoveryTimer.isSome then .settling
      else if l.arm = .forward ∧ l.lateFree = none then .passing else .unlocked)

/-- From `x` to `y` lane `n` has taken a place. -/
structure State.TakesPlace (x : State) (n : LaneId) (rest : List LaneId) (y : State) : Prop where
  others  : ∀ m ≠ n, y.lane m = x.lane m
  order   : y.heldOrder = rest ∨ y.heldOrder = rest.filter (· != n)
  count   : y.maze.count = x.maze.count
  sum     : y.mazeSum ≤ x.mazeSum + 1
  limit   : y.mazeLimit = x.mazeLimit
  hold    : (y.lane n).holdTimer = none
  quiet   : (y.lane n).GoesQuietly
  placed  : ∀ t, (x.lane n).txn = some t → (x.lane n).Placed t (y.lane n)

section Place

variable {s x y : State} {n : LaneId} {rest : List LaneId} {t : Transaction}

theorem Lane.reservation_le (l : Lane) : l.reservation ≤ 1 := by
  unfold Lane.reservation
  split <;> omega

/-- A state that differs in one lane holds at most one reservation more. -/
theorem State.reservations_le (h : ∀ m ≠ n, y.lane m = x.lane m) : y.reservations ≤ x.reservations + 1 := by
  have hsame := (State.reservations_of_txns (s := x.withLane n (y.lane n)) (x := y) fun m => ?_).1
  · have hadd := State.withLane_reservations_add x n (y.lane n)
    have hone := (y.lane n).reservation_le
    omega
  · by_cases hm : m = n
    · rw [hm, State.withLane_lane_same]
    · rw [State.withLane_lane_other _ hm, h m hm]

theorem State.mazeSum_le (h : ∀ m ≠ n, y.lane m = x.lane m) (hc : y.maze.count = x.maze.count) :
    y.mazeSum ≤ x.mazeSum + 1 := by
  have hres := State.reservations_le h
  simp only [State.mazeSum, hc]
  omega

/-- A lane at its rest after a refusal: it holds nothing, and gives the maze the credit of a late free window. -/
theorem State.comeToRest_keeps (h : (s.lane n).holdTimer = none) (hl : (s.lane n).lateFree = none) :
    (∀ m ≠ n, (s.comeToRest n).lane m = s.lane m) ∧ (s.comeToRest n).maze.count = s.maze.count
      ∧ ((s.comeToRest n).lane n).txn = (s.lane n).txn ∧ ((s.comeToRest n).lane n).holdTimer = none := by
  unfold State.comeToRest
  split
  case h_1 r _ =>
    obtain ⟨htook, -⟩ := s.takeRole_took n r
    have hcredit : (s.lane n).trailCredit = 0 := by simp [Lane.trailCredit, hl]
    refine ⟨fun m hm => State.takeRole_lane_other hm, ?_, htook.txn, htook.hold h⟩
    rw [State.takeRole_count, hcredit]
    rfl
  case h_2 =>
    obtain ⟨recovery, hrest⟩ := s.rest_lane n
    exact ⟨fun m hm => State.rest_lane_other hm, by simp, by rw [hrest], by rw [hrest]; exact h⟩

/-- A refusal ends the transaction; without a late free window it leaves the maze count. -/
theorem State.refuse_keeps (e : Display) (days : Nat) (ht : (s.lane n).txn = some t)
    (hl : (s.lane n).lateFree = none) :
    (∀ m ≠ n, (s.refuse n e days).lane m = s.lane m)
      ∧ (s.refuse n e days).heldOrder = s.heldOrder.filter (· != n)
      ∧ (s.refuse n e days).maze.count = s.maze.count
      ∧ ((s.refuse n e days).lane n).txn = none ∧ ((s.refuse n e days).lane n).holdTimer = none := by
  rw [State.refuse, State.sendFinal_release_eq e .red days 0 ht, State.count_eq]
  generalize hz : ({ (s.withPort n _).withLane n (s.lane n).released with
    heldOrder := s.heldOrder.filter (· != n) } : State) = z
  have hlane : z.lane n = (s.lane n).released := by rw [← hz]; exact State.withLane_lane_same _ n _
  have hother (m : LaneId) (hm : m ≠ n) : z.lane m = s.lane m := by
    rw [← hz]; exact State.withLane_lane_other (s.withPort n _) hm _
  have horder : z.heldOrder = s.heldOrder.filter (· != n) := by rw [← hz]
  have hcount : z.maze.count = s.maze.count := by rw [← hz]; rfl
  generalize hu : z.withLane n ((z.lane n).counting .refused 1) = u
  have hulane : u.lane n = (s.lane n).released.counting .refused 1 := by
    rw [← hu, State.withLane_lane_same, hlane]
  obtain ⟨hrest, hrestCount, htxn, hhold⟩ := State.comeToRest_keeps (s := u) (n := n) (by rw [hulane]; rfl)
    (by rw [hulane]; exact hl)
  refine ⟨fun m hm => ?_, ?_, ?_, ?_, hhold⟩
  · rw [hrest m hm, ← hu, State.withLane_lane_other _ hm, hother m hm]
  · rw [← horder, ← hu]
    simp
  · rw [hrestCount, ← hcount, ← hu]
    rfl
  · rw [htxn, hulane]
    rfl

/-- The lane at the moment of the grant of `t` (R46). -/
def Lane.granting (l : Lane) (t : Transaction) (ms : Nat) : Lane :=
  if l.recoveryTimer.isSome then { l with txn := some t, state := .settling }
  else { l with txn := some t }.unlocking ⟨ms, t.pinned.settingsInForce.grantTimeS * 1000⟩

/-- The transaction that has taken a place: its day is to be written, or was USED already. -/
def Transaction.placed (t : Transaction) : Transaction :=
  if t.today = some .free then
    { t with reserved := true, built := some (Record.dayMarked t.card (t.day - Record.first t.card)) }
  else { t with reserved := true, finalDays := some (Record.daysRemaining t.serial t.card) }

/-- The lane that has taken a place with its card present, or for a day already USED. -/
def Lane.placed (l : Lane) (t : Transaction) (ms : Nat) : Lane :=
  if t.today = some .free then { l with holdTimer := none, txn := some t.placed, state := .writing }
  else { l with holdTimer := none }.granting t.placed ms

theorem Transaction.placed_keeps (t : Transaction) : t.placed.serial = t.serial ∧ t.placed.reserved = true
    ∧ t.placed.today = t.today ∧ t.placed.present = t.present := by
  rw [Transaction.placed]
  split <;> exact ⟨rfl, rfl, rfl, rfl⟩

theorem Lane.unlocking_keeps (l : Lane) (grant : Timer) : (l.unlocking grant).txn = l.txn
    ∧ (l.unlocking grant).holdTimer = l.holdTimer
    ∧ (l.unlocking grant).state = if l.arm = .forward ∧ l.lateFree = none then .passing else .unlocked := by
  rw [Lane.unlocking]
  split <;> exact ⟨rfl, rfl, rfl⟩

theorem Lane.granting_keeps (l : Lane) (t : Transaction) (ms : Nat) : (l.granting t ms).txn = some t
    ∧ (l.granting t ms).holdTimer = l.holdTimer
    ∧ (l.granting t ms).state = if l.recoveryTimer.isSome then .settling
      else if l.arm = .forward ∧ l.lateFree = none then .passing else .unlocked := by
  rw [Lane.granting]
  split
  · exact ⟨rfl, rfl, rfl⟩
  · exact Lane.unlocking_keeps { l with txn := some t } ⟨ms, t.pinned.settingsInForce.grantTimeS * 1000⟩

theorem State.grantedAt_lanes (s : State) (n : LaneId) (l : Lane) (t : Transaction) :
    (s.grantedAt n l t).lane n = l.granting t s.ms ∧ (∀ m ≠ n, (s.grantedAt n l t).lane m = s.lane m)
      ∧ (s.grantedAt n l t).heldOrder = s.heldOrder ∧ (s.grantedAt n l t).maze = s.maze
      ∧ (s.grantedAt n l t).tables = s.tables := by
  rw [State.grantedAt, Lane.granting]
  split
  · exact ⟨State.withLane_lane_same _ _ _, fun m hm => State.withLane_lane_other _ hm _, rfl, rfl, rfl⟩
  · refine ⟨State.withLane_lane_same _ _ _, fun m hm => ?_, by simp, by simp, by simp⟩
    rw [State.withLane_lane_other _ hm]
    simp [State.lane]

theorem State.placeGiven_lanes (x : State) (n : LaneId) (rest : List LaneId) (t : Transaction) :
    (x.placeGiven n rest t).lane n = (x.lane n).placed t x.ms
      ∧ (∀ m ≠ n, (x.placeGiven n rest t).lane m = x.lane m) ∧ (x.placeGiven n rest t).heldOrder = rest
      ∧ (x.placeGiven n rest t).maze = x.maze ∧ (x.placeGiven n rest t).tables = x.tables := by
  by_cases hf : t.today = some .free
  · rw [State.placeGiven, Lane.placed, Transaction.placed, if_pos hf, if_pos hf, if_pos hf]
    exact ⟨State.withLane_lane_same _ _ _, fun m hm => State.withLane_lane_other _ hm _, rfl, rfl, rfl⟩
  · rw [State.placeGiven, Lane.placed, Transaction.placed, if_neg hf, if_neg hf, if_neg hf]
    exact State.grantedAt_lanes { x with heldOrder := rest } n _ _

/-- The lane that has taken a place, for a card that is not gone. -/
theorem Lane.placed_placed (l : Lane) (ms : Nat) (hg : ¬t.Gone) :
    (l.placed t ms).holdTimer = none ∧ (l.placed t ms).GoesQuietly ∧ l.Placed t (l.placed t ms) := by
  obtain ⟨hserial, hreserved, htoday, hpresent⟩ := t.placed_keeps
  have hstays : ¬t.placed.Gone := by rwa [Transaction.Gone, htoday, hpresent]
  have hlane : (l.placed t ms).txn = some t.placed ∧ (l.placed t ms).holdTimer = none
      ∧ (l.placed t ms).state = (if t.today = some .free then .writing
        else if l.recoveryTimer.isSome then .settling
        else if l.arm = .forward ∧ l.lateFree = none then .passing else .unlocked) := by
    rw [Lane.placed]
    split
    · exact ⟨rfl, rfl, rfl⟩
    · exact Lane.granting_keeps { l with holdTimer := none } t.placed ms
  obtain ⟨htxn, hhold, hstate⟩ := hlane
  exact ⟨hhold, fun z hz hgone => absurd (Option.some.inj (hz.symm.trans htxn) ▸ hgone) hstays,
    fun hgone => absurd hgone hg, fun _ => ⟨⟨t.placed, htxn, hserial, hreserved⟩, hstate⟩⟩

/-- A lane takes a place with its card present, or for a day already USED (R44). -/
theorem State.takesPlace_of_stays (ht : (x.lane n).txn = some t) (hg : ¬t.Gone) :
    x.TakesPlace n rest (x.placeTakenBy n rest) := by
  have hgiven : x.placeTakenBy n rest = x.placeGiven n rest t :=
    State.givePlaces_first ht fun hfree => by simpa [Transaction.Gone, hfree] using hg
  obtain ⟨hlane, hother, horder, hmaze, htables⟩ := x.placeGiven_lanes n rest t
  obtain ⟨hhold, hquiet, hplaced⟩ := (x.lane n).placed_placed x.ms hg
  rw [hgiven]
  refine ⟨hother, .inl horder, by rw [hmaze], State.mazeSum_le hother (by rw [hmaze]), ?_,
    by rw [hlane]; exact hhold, by rw [hlane]; exact hquiet, fun z hz => ?_⟩
  · simp only [State.mazeLimit, State.settings, htables]
  · rw [hlane, ← Option.some.inj (ht.symm.trans hz)]
    exact hplaced

/-- A lane whose card of a FREE day is gone is refused (R44, R47). -/
theorem State.takesPlace_of_gone (ht : (x.lane n).txn = some t) (hg : t.Gone) (hl : (x.lane n).lateFree = none) :
    x.TakesPlace n rest (x.placeTakenBy n rest) := by
  obtain ⟨hfree, hcard⟩ := hg
  generalize ho : ({ x with heldOrder := rest } : State) = g
  generalize hlane : ({ x.lane n with holdTimer := none } : Lane) = l
  generalize hr : ({ t with reserved := true } : Transaction) = t'
  have htaken : x.placeTakenBy n rest = ((g.withLane n l).holding n t').refuse n .gone t'.daysOnCard := by
    have hreserve : (g.modLane n fun l => { l with holdTimer := none }).reserve n = (g.withLane n l).holding n t' := by
      have heq : g.modLane n (fun l => { l with holdTimer := none }) = g.withLane n l := by rw [← hlane, ← ho]; rfl
      rw [heq, ← hr]
      exact State.modTxn_eq_holding (t := t) _ (by rw [State.withLane_lane_same, ← hlane]; exact ht)
    have htxn : ((g.withLane n l).holding n t').txn n = some t' := by simp [State.txn, State.holding]
    have hstep : t'.today = some .free ∧ t'.present = false := by rw [← hr]; exact ⟨hfree, hcard⟩
    rw [State.placeTakenBy, ho, hreserve]
    simp [State.grant, htxn, hstep]
  obtain ⟨hother, horder, hcount, htxn, hhold⟩ := State.refuse_keeps (s := (g.withLane n l).holding n t') (n := n)
    (t := t') .gone t'.daysOnCard (by simp [State.holding]) (by simpa [State.holding, ← hlane] using hl)
  rw [← htaken] at hother horder hcount htxn hhold
  have hothers (m : LaneId) (hm : m ≠ n) : (x.placeTakenBy n rest).lane m = x.lane m := by
    rw [hother m hm, State.holding, State.withLane_lane_other _ hm, State.withLane_lane_other _ hm, ← ho]
    rfl
  have hmaze : (x.placeTakenBy n rest).maze.count = x.maze.count := by rw [hcount, ← ho]; rfl
  refine ⟨hothers, .inr (by rw [horder, ← ho]; rfl), hmaze, State.mazeSum_le hothers hmaze, ?_, hhold,
    fun z hz => ?_, fun z hz => ?_⟩
  · simp [State.mazeLimit, State.settings, State.placeTakenBy]
  · exact absurd (hz.symm.trans htxn) (by simp)
  · have hzt : z = t := Option.some.inj (hz.symm.trans ht)
    exact ⟨fun _ => htxn, fun hstays => absurd (hzt ▸ ⟨hfree, hcard⟩) hstays⟩

/-- A lane without a transaction leaves the held order. -/
theorem State.takesPlace_of_none (ht : (x.lane n).txn = none) : x.TakesPlace n rest (x.placeTakenBy n rest) := by
  have htaken : x.placeTakenBy n rest = ({ x with heldOrder := rest } : State).withLane n
      { x.lane n with holdTimer := none } := by
    generalize hg : ({ x with heldOrder := rest } : State) = g
    generalize hl : ({ x.lane n with holdTimer := none } : Lane) = l
    have hnone : l.txn = none := by rw [← hl]; exact ht
    have heq : g.modLane n (fun l => { l with holdTimer := none }) = g.withLane n l := by rw [← hl, ← hg]; rfl
    have hmap : ({ l with txn := l.txn.map fun t => { t with reserved := true } } : Lane) = l := by
      cases l
      cases hnone
      rfl
    rw [State.placeTakenBy, hg, heq, State.reserve, State.modTxn, State.modLane_eq, State.withLane_lane_same, hmap,
      State.withLane_withLane]
    simp [State.grant, State.txn, hnone]
  rw [htaken]
  have hothers (m : LaneId) (hm : m ≠ n) : (({ x with heldOrder := rest } : State).withLane n
      { x.lane n with holdTimer := none }).lane m = x.lane m := State.withLane_lane_other _ hm _
  refine ⟨hothers, .inl rfl, rfl, State.mazeSum_le hothers rfl, rfl, by simp, fun z hz => ?_, fun z hz => ?_⟩
  · rw [State.withLane_lane_same] at hz
    exact absurd (hz.symm.trans ht) (by simp)
  · exact absurd (hz.symm.trans ht) (by simp)

/-- A held lane takes a place. -/
theorem State.takesPlace (hq : (x.lane n).GoesQuietly) : x.TakesPlace n rest (x.placeTakenBy n rest) := by
  cases ht : (x.lane n).txn with
  | none => exact State.takesPlace_of_none ht
  | some t =>
    by_cases hg : t.Gone
    · exact State.takesPlace_of_gone ht hg (hq t ht hg)
    · exact State.takesPlace_of_stays ht hg

end Place

/-! ### The places of an event -/

/-- From `x` to `y` held lanes have taken places, in the order of the held order. -/
structure State.PlacesTaken (x y : State) : Prop where
  stays  : ∀ n ∈ y.heldOrder, y.lane n = x.lane n
  suffix : y.heldOrder <:+ x.heldOrder
  limit  : y.heldOrder ≠ x.heldOrder → y.mazeSum ≤ y.mazeLimit
  still  : y.heldOrder = x.heldOrder → y.mazeSum = x.mazeSum
  placed : ∀ n ∈ x.heldOrder, n ∉ y.heldOrder → (y.lane n).holdTimer = none
    ∧ ∀ t, (x.lane n).txn = some t → (x.lane n).Placed t (y.lane n)

section Places

variable {x : State}

theorem State.givePlaces_of_free {n : LaneId} {rest : List LaneId} (k : Nat) (h : x.heldOrder = n :: rest)
    (hf : x.placeFree = true) : x.givePlaces (k + 1) = (x.placeTakenBy n rest).givePlaces k := by
  rw [State.givePlaces, h]
  exact if_pos hf

/-- Without a free place, or nobody held, nothing is given. -/
theorem State.givePlaces_cases (k : Nat) (x : State) : x.givePlaces (k + 1) = x
    ∨ ∃ n rest, x.heldOrder = n :: rest ∧ x.placeFree = true
      ∧ x.givePlaces (k + 1) = (x.placeTakenBy n rest).givePlaces k := by
  cases hh : x.heldOrder with
  | nil => exact .inl (State.givePlaces_of_given _ _ (.inl hh))
  | cons n rest =>
    cases hf : x.placeFree with
    | false => exact .inl (State.givePlaces_of_given _ _ (.inr hf))
    | true => exact .inr ⟨n, rest, rfl, rfl, State.givePlaces_of_free k hh hf⟩

/-- The places leave the maze count and every lane that is not held. -/
theorem State.givePlaces_outside (k : Nat) (hq : ∀ n ∈ x.heldOrder, (x.lane n).GoesQuietly) :
    (x.givePlaces k).maze.count = x.maze.count ∧ ∀ n ∉ x.heldOrder, (x.givePlaces k).lane n = x.lane n := by
  induction k generalizing x with
  | zero => exact ⟨rfl, fun _ _ => rfl⟩
  | succ k ih =>
    rcases x.givePlaces_cases k with hsame | ⟨n, rest, hh, -, hstep⟩
    · rw [hsame]
      exact ⟨rfl, fun _ _ => rfl⟩
    · obtain ⟨hothers, horder, hcount, -, -, -, hquiet, -⟩ :=
        State.takesPlace (rest := rest) (hq n (hh ▸ List.mem_cons_self))
      have hsub (m : LaneId) (hm : m ∈ (x.placeTakenBy n rest).heldOrder) : m ∈ x.heldOrder := by
        rw [hh]
        rcases horder with h | h <;> rw [h] at hm
        · exact List.mem_cons_of_mem n hm
        · exact List.mem_cons_of_mem n (List.mem_filter.1 hm).1
      rw [hstep]
      obtain ⟨hendCount, hendLane⟩ := ih (x := x.placeTakenBy n rest) fun m hm => by
        by_cases hmn : m = n
        · rw [hmn]; exact hquiet
        · rw [hothers m hmn]; exact hq m (hsub m hm)
      refine ⟨hendCount.trans hcount, fun m hm => ?_⟩
      rw [hendLane m (mt (hsub m) hm), hothers m fun h => hm (by rw [h, hh]; exact List.mem_cons_self)]

/-- The places are taken in the order of the held order, up to the limit (R101). -/
theorem State.givePlaces_taken (k : Nat) (hn : x.heldOrder.Nodup)
    (hq : ∀ n ∈ x.heldOrder, (x.lane n).GoesQuietly) : x.PlacesTaken (x.givePlaces k) := by
  induction k generalizing x with
  | zero => exact ⟨fun _ _ => rfl, List.suffix_rfl, fun h => absurd rfl h, fun _ => rfl,
      fun _ h h' => absurd h h'⟩
  | succ k ih =>
    rcases x.givePlaces_cases k with hsame | ⟨n, rest, hh, hfree, hstep⟩
    · rw [hsame]
      exact ⟨fun _ _ => rfl, List.suffix_rfl, fun h => absurd rfl h, fun _ => rfl,
      fun _ h h' => absurd h h'⟩
    · obtain ⟨hout, hrest⟩ := List.nodup_cons.1 (hh ▸ hn)
      obtain ⟨hothers, horder, -, hsum, hlimit, hhold, -, hplaced⟩ :=
        State.takesPlace (rest := rest) (hq n (hh ▸ List.mem_cons_self))
      rw [hstep]
      generalize x.placeTakenBy n rest = y at hothers horder hsum hlimit hhold hplaced ⊢
      have hyorder : y.heldOrder = rest := by
        rcases horder with h | h
        · exact h
        · rw [h, filter_ne_of_not_mem hout]
      have hyquiet (m : LaneId) (hm : m ∈ y.heldOrder) : (y.lane m).GoesQuietly := by
        rw [hyorder] at hm
        rw [hothers m (ne_of_mem_of_not_mem hm hout)]
        exact hq m (hh ▸ List.mem_cons_of_mem n hm)
      obtain ⟨hstays, hsuffix, hlast, hstill, hlater⟩ := ih (x := y) (hyorder ▸ hrest) hyquiet
      obtain ⟨-, hunheld⟩ := State.givePlaces_outside k hyquiet
      have hend : (y.givePlaces k).heldOrder <:+ rest := hyorder ▸ hsuffix
      refine ⟨fun m hm => ?_, ?_, fun _ => ?_, fun hsame => ?_, fun m hm hm' => ?_⟩
      · rw [hstays m hm, hothers m (ne_of_mem_of_not_mem (hend.subset hm) hout)]
      · rw [hh]
        exact hend.trans (List.suffix_cons n rest)
      · by_cases hmore : (y.givePlaces k).heldOrder = y.heldOrder
        · have hroom : x.mazeSum < x.mazeLimit := by simpa [State.placeFree] using hfree
          have hend : (y.givePlaces k).mazeLimit = y.mazeLimit := by simp [State.mazeLimit, State.settings]
          rw [hstill hmore, hend, hlimit]
          omega
        · exact hlast hmore
      · have hlength := hend.length_le
        simp [hsame, hh] at hlength
      · by_cases hmn : m = n
        · rw [hmn, hunheld n (hyorder ▸ hout)]
          exact ⟨hhold, hplaced⟩
        · have hmrest : m ∈ y.heldOrder := by
            rw [hyorder]
            exact (List.mem_cons.1 (hh ▸ hm)).resolve_left hmn
          rw [← hothers m hmn]
          exact hlater m hmrest hm'

end Places

end Sys2Proof.Machine
end

