-- ==== Sys2Proof/Proofs/Commits.lean ====
section
/-! PROOFS. The event of a COMMIT: the swap, its ANSWER, and the held lanes that take the places it has freed. -/

namespace Sys2Proof.Machine

/-! ### The end of an event beside held lanes (R101) -/

section Finish

variable {x : State}

/-- The end of an event leaves the rider side as the places given do. -/
theorem State.finish_riders (x before : State) :
    (x.finish before).heldOrder = (x.givePlaces x.heldOrder.length).heldOrder
      ∧ (x.finish before).lanes = (x.givePlaces x.heldOrder.length).lanes
      ∧ (x.finish before).maze = (x.givePlaces x.heldOrder.length).maze
      ∧ (x.finish before).tables = (x.givePlaces x.heldOrder.length).tables := by
  simp only [State.finish]
  simp

theorem State.finish_outside (before : State) (hq : ∀ n ∈ x.heldOrder, (x.lane n).GoesQuietly) :
    (x.finish before).maze.count = x.maze.count ∧ ∀ n ∉ x.heldOrder, (x.finish before).lane n = x.lane n := by
  obtain ⟨-, hlanes, hmaze, -⟩ := x.finish_riders before
  obtain ⟨hcount, hlane⟩ := State.givePlaces_outside x.heldOrder.length hq
  refine ⟨by rw [hmaze, hcount], fun n hn => ?_⟩
  rw [State.lane, hlanes]
  exact hlane n hn

theorem State.finish_taken (before : State) (hn : x.heldOrder.Nodup)
    (hq : ∀ n ∈ x.heldOrder, (x.lane n).GoesQuietly) : x.PlacesTaken (x.finish before) := by
  obtain ⟨horder, hlanes, hmaze, htables⟩ := x.finish_riders before
  obtain ⟨hstays, hsuffix, hlimit, hstill, hplaced⟩ := State.givePlaces_taken x.heldOrder.length hn hq
  have hlane (n : LaneId) : (x.finish before).lane n = (x.givePlaces x.heldOrder.length).lane n := by
    rw [State.lane, hlanes, State.lane]
  have hsum : (x.finish before).mazeSum = (x.givePlaces x.heldOrder.length).mazeSum := by
    simp only [State.mazeSum, State.reservations, hmaze, hlanes]
  have hfull : (x.finish before).mazeLimit = (x.givePlaces x.heldOrder.length).mazeLimit := by
    simp only [State.mazeLimit, State.settings, htables]
  constructor
  · simpa only [horder, hlane] using hstays
  · simpa only [horder] using hsuffix
  · simpa only [horder, hsum, hfull] using hlimit
  · simpa only [horder, hsum] using hstill
  · simpa only [horder, hlane] using hplaced

end Finish

/-! ### The event of a COMMIT (R181) -/

/-- The ANSWER of a COMMIT that swaps: DONE and the new generation. -/
def State.commitAnswer (s : State) : Outgoing :=
  .answer ⟨0x02, .done, 0xFF, bytesLE 2 (s.tables.generation + 1).toNat⟩

/-- `s` with the COMMIT carried out and answered, before the end of its event. -/
def State.swapDone (s : State) (named : List TableId) : State := (s.heard.swapTables named).enqueue s.commitAnswer

/-- `s` after the event of the COMMIT. -/
def State.afterCommit (s : State) (named : List TableId) : State := (s.swapDone named).finish s

/-- Each held lane is HELD, and one whose card of a FREE day is gone has no late free window. -/
def State.HeldReady (s : State) : Prop := ∀ n ∈ s.heldOrder, (s.lane n).state = .held ∧ (s.lane n).GoesQuietly

section Commit

variable {s : State} {m : Arrival} {named : List TableId} {n : LaneId} {new old : Settings}

theorem exec_commit (s : State) (m : Arrival) : exec (.commit m) s
    = .next (s.event fun x => x.receive 0x02 m fun x => x.commandDelivered m fun x =>
      x.takeCommand 0x02 fun x => x.commitCommand m.payload) := rfl

theorem State.commitCommand_eq (h : tableMaskOf m.payload = some named)
    (hc : firstIncomplete named s.mgmt.shadows = none) (hi : firstInvalid named s.mgmt.shadows s.tables = none) :
    s.commitCommand m.payload = (s.swapTables named).done (bytesLE 2 (s.tables.generation + 1).toNat) := by
  simp only [State.commitCommand, h, hc, hi]

theorem exec_commit_eq (ht : s.TakesCommand 0x02 m) (h : tableMaskOf m.payload = some named)
    (hc : firstIncomplete named s.mgmt.shadows = none) (hi : firstInvalid named s.mgmt.shadows s.tables = none) :
    exec (.commit m) s = .next (s.afterCommit named) := by
  obtain ⟨-, hconsumes, hsource, hdest, hroom⟩ := ht
  have hfree : ¬4 ≤ s.heard.answersOccupied := Nat.not_le.2 hroom
  have heff : s.receive 0x02 m (fun x => x.commandDelivered m fun x => x.takeCommand 0x02 fun x =>
      x.commitCommand m.payload) = s.swapDone named := by
    rw [State.receive_of_consumes _ hconsumes, State.commandDelivered, if_pos ⟨hsource, hdest⟩, State.takeCommand,
      if_neg hfree, State.commitCommand_eq (s := s.heard) h hc hi]
    rfl
  rw [exec_commit, State.event, heff]
  rfl

/-- What stands after the COMMIT, the lanes apart. -/
theorem State.afterCommit_keeps (s : State) (named : List TableId) :
    (s.afterCommit named).tables
        = { tablesAfter named s.mgmt.shadows s.tables with generation := s.tables.generation + 1 }
      ∧ (s.afterCommit named).mgmt.shadows = s.mgmt.shadows.clear named
      ∧ (s.afterCommit named).deferred = s.deferred ∧ (s.afterCommit named).ms = s.ms
      ∧ (s.afterCommit named).ownAddress = s.ownAddress
      ∧ (s.afterCommit named).time = (s.heard.swapTables named).time
      ∧ (s.afterCommit named).maze.interval = (s.heard.swapTables named).maze.interval := by
  obtain ⟨hms, hown, -, hdef, -, hsh, -, -⟩ := s.heard.swapTables_keeps named
  obtain ⟨htables, -⟩ := s.heard.swapTables_frame named
  simp only [State.afterCommit, State.swapDone, State.finish_frame, State.enqueue_frame]
  exact ⟨htables, hsh, hdef, hms, hown, trivial, trivial⟩

/-- Each part of the tables that stand after the COMMIT. -/
theorem State.afterCommit_parts (s : State) (named : List TableId) :
    let standing (x : TableId) : TableSet :=
      if x ∈ named then decodeInto x (s.mgmt.shadows.get x) s.tables else s.tables
    let t := (s.afterCommit named).tables
    t.blockList = (standing .blockList).blockList ∧ t.windows = (standing .windows).windows
      ∧ t.products = (standing .products).products ∧ t.categories = (standing .categories).categories
      ∧ t.watchSet = (standing .watchSet).watchSet ∧ t.dayQuality = (standing .dayQuality).dayQuality
      ∧ t.laneTable = (standing .laneTable).laneTable ∧ t.settings = (standing .settings).settings := by
  intro standing t
  obtain ⟨htables, -⟩ := s.afterCommit_keeps named
  have ht : t = { tablesAfter named s.mgmt.shadows s.tables with generation := s.tables.generation + 1 } := htables
  rw [ht]
  exact tablesAfter_parts named s.mgmt.shadows s.tables

/-- The ANSWER is queued or being sent, and so is a report that the swap has queued. -/
theorem State.afterCommit_carries {o : Outgoing} (hown : s.ownAddress.isSome = true)
    (h : o = s.commitAnswer ∨ o ∈ (s.heard.swapTables named).loop.insertQueue) :
    o ∈ (s.afterCommit named).loop.insertQueue
      ∨ (s.afterCommit named).loop.sending = some (o.message s.ownByte) := by
  obtain ⟨-, hswapOwn, -⟩ := s.heard.swapTables_keeps named
  obtain ⟨-, -, -, -, hend, -⟩ := s.afterCommit_keeps named
  have hmem : o ∈ (s.swapDone named).loop.insertQueue := by
    rw [State.swapDone]
    rcases h with rfl | h
    · exact State.mem_enqueue (by rw [hswapOwn]; exact hown)
    · exact State.enqueue_mem _ h
  have hcarries : (s.afterCommit named).Carries o := State.finish_carries s hmem
  have hbyte : (s.afterCommit named).ownByte = s.ownByte := by rw [State.ownByte, hend, State.ownByte]
  rwa [State.Carries, hbyte] at hcarries

/-! ### Its held lanes -/

theorem State.swapDone_lane (s : State) (named : List TableId) (n : LaneId) :
    (s.swapDone named).lane n = (s.heard.swapTables named).lane n := by
  rw [State.swapDone, State.lane, State.lane]
  simp

theorem State.swapDone_heldOrder (s : State) (named : List TableId) : (s.swapDone named).heldOrder = s.heldOrder := by
  obtain ⟨-, -, hheld, -⟩ := s.heard.swapTables_keeps named
  have hqueued : (s.swapDone named).heldOrder = (s.heard.swapTables named).heldOrder := by
    rw [State.swapDone]
    simp
  exact hqueued.trans hheld

/-- The swap leaves a HELD lane but for its pending role and its accumulators. -/
theorem State.swapDone_held (h : (s.lane n).state = .held) :
    ∃ p i, (s.swapDone named).lane n = { s.lane n with pendingRole := p, interval := i } := by
  obtain ⟨-, -, -, -, -, -, hlanes, -⟩ := s.heard.swapTables_keeps named
  obtain ⟨-, hswapped, -⟩ := s.heard.lanesSwapped_lane named n
  obtain ⟨i, hi⟩ := hlanes n
  obtain ⟨p, hp⟩ := hswapped.held h
  refine ⟨p, i, ?_⟩
  rw [State.swapDone_lane, hi, hp]
  rfl

theorem State.HeldReady.swapDone (h : s.HeldReady) :
    ∀ n ∈ (s.swapDone named).heldOrder, ((s.swapDone named).lane n).GoesQuietly := by
  intro n hn
  rw [State.swapDone_heldOrder] at hn
  obtain ⟨hstate, hquiet⟩ := h n hn
  obtain ⟨p, i, hlane⟩ := State.swapDone_held (named := named) hstate
  rw [hlane]
  exact hquiet

/-- The maze count after the COMMIT, and the lanes that are not held. -/
theorem State.HeldReady.afterCommit_outside (h : s.HeldReady) (named : List TableId) :
    (s.afterCommit named).maze.count = credited s.maze.count (LaneId.all.map (s.swapCredit named)).sum
      ∧ ∀ n ∉ s.heldOrder, (s.afterCommit named).lane n = (s.heard.swapTables named).lane n := by
  obtain ⟨-, -, -, -, -, -, -, hswapCount⟩ := s.heard.swapTables_keeps named
  obtain ⟨hcount, hlane⟩ := State.finish_outside (x := s.swapDone named) s h.swapDone
  rw [State.swapDone_heldOrder] at hlane
  refine ⟨?_, fun n hn => (hlane n hn).trans (s.swapDone_lane named n)⟩
  have hdone : (s.swapDone named).maze.count = (s.heard.swapTables named).maze.count := by
    rw [State.swapDone]
    simp
  have hcredits := s.heard.lanesSwapped_count named
  rw [State.afterCommit, hcount, hdone, hswapCount, hcredits]
  rfl

/-- The accumulators after the COMMIT, as the swap leaves them. -/
theorem State.HeldReady.afterCommit_kept (h : s.HeldReady) (hk : s.IntervalKept named (s.heard.swapTables named)) :
    (∀ n ∉ s.heldOrder, ((s.afterCommit named).lane n).interval = (s.swapCounted named n).interval)
      ∧ (s.afterCommit named).maze.interval = s.maze.interval := by
  obtain ⟨hints, hmaze⟩ := hk
  obtain ⟨-, hlane⟩ := h.afterCommit_outside named
  obtain ⟨-, -, -, -, -, -, hend⟩ := s.afterCommit_keeps named
  exact ⟨fun n hn => by rw [hlane n hn, hints n], hend.trans hmaze⟩

/-- The held lanes that take the places the COMMIT has freed (R99, R101). -/
theorem State.HeldReady.afterCommit_taken (h : s.HeldReady) (hn : s.heldOrder.Nodup) (named : List TableId) :
    (s.afterCommit named).heldOrder <:+ s.heldOrder
      ∧ ((s.afterCommit named).heldOrder ≠ [] → (s.afterCommit named).placeFree = false)
      ∧ ((s.afterCommit named).heldOrder ≠ s.heldOrder
        → (s.afterCommit named).mazeSum ≤ (s.afterCommit named).mazeLimit)
      ∧ ∀ n x, n ∈ s.heldOrder → (s.lane n).txn = some x →
        (n ∈ (s.afterCommit named).heldOrder → ((s.afterCommit named).lane n).txn = some x
          ∧ ((s.afterCommit named).lane n).state = .held
          ∧ ((s.afterCommit named).lane n).holdTimer = (s.lane n).holdTimer)
        ∧ (n ∉ (s.afterCommit named).heldOrder → ((s.afterCommit named).lane n).holdTimer = none
          ∧ (s.lane n).Placed x ((s.afterCommit named).lane n)) := by
  obtain ⟨hgiven, -⟩ := State.finish_settled (s.swapDone named) s
  obtain ⟨hstays, hsuffix, hlimit, -, hplaced⟩ := State.finish_taken (x := s.swapDone named) s
    (by rw [State.swapDone_heldOrder]; exact hn) h.swapDone
  rw [State.swapDone_heldOrder] at hsuffix hlimit hplaced
  refine ⟨hsuffix, fun hne => hgiven.resolve_left hne, hlimit, fun n x hheld hx => ?_⟩
  obtain ⟨hstate, -⟩ := h n hheld
  obtain ⟨p, i, hlane⟩ := State.swapDone_held (named := named) hstate
  refine ⟨fun hin => ?_, fun hout => ?_⟩
  · rw [State.afterCommit, hstays n hin, hlane]
    exact ⟨hx, hstate, rfl⟩
  · obtain ⟨hhold, hnow⟩ := hplaced n hheld hout
    obtain ⟨hgone, hkeeps⟩ := hnow x (by rw [hlane]; exact hx)
    rw [hlane] at hkeeps
    exact ⟨hhold, hgone, hkeeps⟩

/-! ### Its lanes with nobody held -/

theorem State.intervalCommit_dayState (x : State) (o : Option Settings) :
    (x.intervalCommit o).time.dayState = x.time.dayState := by
  unfold State.intervalCommit
  (repeat' split) <;> simp [State.endInterval_time, State.startInterval, State.bringRunTimes]

/-- A resting state is read from what the interval timer leaves. -/
theorem State.swapTables_restingState (s : State) (named : List TableId) (n : LaneId) :
    (s.swapTables named).restingState n = (s.lanesSwapped named).restingState n := by
  obtain ⟨-, -, -, -, -, -, hlanes, -⟩ := s.swapTables_keeps named
  obtain ⟨i, hi⟩ := hlanes n
  have hframe : (s.swapTables named).tables = (s.lanesSwapped named).tables
      ∧ (s.swapTables named).time.dayState = (s.lanesSwapped named).time.dayState
      ∧ (s.swapTables named).ports = (s.lanesSwapped named).ports := by
    rw [State.swapTables_eq]
    split
    · exact ⟨by simp, State.intervalCommit_dayState _ _, by simp⟩
    · exact ⟨rfl, rfl, rfl⟩
  obtain ⟨htables, hday, hports⟩ := hframe
  exact State.restingState_congr n (by rw [hi]) (by rw [hi]) (by rw [hi]) htables hday
    (by rw [State.port, State.port, hports])

/-- With nobody held the lanes and the Passback Table stand as the swap leaves them. -/
theorem State.afterCommit_unheld (h : s.heldOrder = []) (named : List TableId) :
    (s.afterCommit named).passback = (s.heard.swapTables named).passback
      ∧ (∀ n, ∃ i, (s.afterCommit named).lane n = { (s.heard.lanesSwapped named).lane n with interval := i })
      ∧ ∀ n, (s.afterCommit named).restingState n = (s.heard.lanesSwapped named).restingState n := by
  obtain ⟨-, -, -, -, -, -, hlanes, -⟩ := s.heard.swapTables_keeps named
  obtain ⟨htables, -⟩ := s.heard.swapTables_frame named
  obtain ⟨hend, -, -, -, -, htime, -⟩ := s.afterCommit_keeps named
  obtain ⟨-, hendLanes, hports, hpassback⟩ := State.finish_keeps_of_given (s.swapDone named) s
    (.inl ((s.swapDone_heldOrder named).trans h))
  have hlane (n : LaneId) : (s.afterCommit named).lane n = (s.heard.swapTables named).lane n := by
    rw [← s.swapDone_lane named n, State.lane, State.afterCommit, hendLanes, State.lane]
  have hdone : (s.swapDone named).passback = (s.heard.swapTables named).passback
      ∧ (s.swapDone named).ports = (s.heard.swapTables named).ports := by
    rw [State.swapDone]
    simp
  obtain ⟨hdonePassback, hdonePorts⟩ := hdone
  have hendPorts : (s.afterCommit named).ports = (s.heard.swapTables named).ports := hports.trans hdonePorts
  refine ⟨hpassback.trans hdonePassback, fun n => ?_, fun n => ?_⟩
  · rw [hlane n]
    exact hlanes n
  · rw [← s.heard.swapTables_restingState named n]
    exact State.restingState_congr n (by rw [hlane]) (by rw [hlane]) (by rw [hlane]) (hend.trans htables.symm)
      (by rw [htime]) (by rw [State.port, State.port, hendPorts])

theorem State.lanesSwapped_tables (s : State) (named : List TableId) : (s.lanesSwapped named).tables
    = { tablesAfter named s.mgmt.shadows s.tables with generation := s.tables.generation + 1 } := by
  obtain ⟨hkeep, -, -⟩ := s.lanesSwapped_lane named .l1
  obtain ⟨p, hp⟩ := s.tablesSwapped_eq named
  rw [hkeep.tables, hp]

/-- A lane after the COMMIT, with nobody held (R64, R65). -/
theorem State.afterCommit_lane (h : s.heldOrder = []) (named : List TableId) (n : LaneId) :
    ((s.afterCommit named).lane n).txn = (s.lane n).txn
      ∧ ((s.afterCommit named).lane n).day = (s.swapCounted named n).day
      ∧ (TableId.laneTable ∉ named → ((s.afterCommit named).lane n).role = (s.lane n).role
        ∧ ((s.afterCommit named).lane n).pendingRole = (s.lane n).pendingRole)
      ∧ (∀ x, TableId.laneTable ∈ named → (s.afterCommit named).tables.laneTable = some x →
        ((s.lane n).role = some (x.get n).role → ((s.afterCommit named).lane n).role = some (x.get n).role
          ∧ ((s.afterCommit named).lane n).pendingRole = none)
        ∧ ((s.lane n).role ≠ some (x.get n).role → (s.lane n).atOnce = true →
          ((s.afterCommit named).lane n).role = some (x.get n).role
          ∧ ((s.afterCommit named).lane n).pendingRole = none
          ∧ ((s.afterCommit named).lane n).state = (if (x.get n).role = .ticket ∧ s.freeFlowInForce = true
            then .freeFlow else (s.afterCommit named).restingState n))
        ∧ ((s.lane n).role ≠ some (x.get n).role → (s.lane n).atOnce = false →
          ((s.afterCommit named).lane n).role = (s.lane n).role
          ∧ ((s.afterCommit named).lane n).pendingRole = some (x.get n).role
          ∧ ((s.afterCommit named).lane n).state = (s.lane n).state))
      ∧ (TableId.laneTable ∈ named ∨ TableId.settings ∈ named → ((s.afterCommit named).lane n).state.atRest = true →
        ((s.afterCommit named).lane n).state = (s.afterCommit named).restingState n) := by
  obtain ⟨-, hlanes, hrest⟩ := State.afterCommit_unheld h named
  obtain ⟨htables, -⟩ := s.afterCommit_keeps named
  have hztables : (s.heard.lanesSwapped named).tables = (s.afterCommit named).tables :=
    (s.heard.lanesSwapped_tables named).trans htables.symm
  obtain ⟨-, ⟨htxn, hday, -, hkept, hsame, htook, hwaits, -⟩, hrests⟩ := s.heard.lanesSwapped_lane named n
  obtain ⟨i, hlane⟩ := hlanes n
  rw [hztables] at hsame htook hwaits
  rw [hlane, hrest n]
  exact ⟨htxn, hday, hkept, fun x hn hx => ⟨hsame x hn hx, htook x hn hx, hwaits x hn hx⟩, hrests⟩

/-! ### Its interval (R158, R159) -/

theorem State.lanesSwapped_settings (h : (s.afterCommit named).tables.settings = some new) :
    (s.heard.lanesSwapped named).settings = new := by
  obtain ⟨htables, -⟩ := s.afterCommit_keeps named
  have hztables : (s.heard.lanesSwapped named).tables = (s.afterCommit named).tables :=
    (s.heard.lanesSwapped_tables named).trans htables.symm
  rw [State.settings, TableSet.settingsInForce, hztables, h]
  rfl

/-- Settings that change the interval end it with its SHORT report, and clear the accumulators. -/
theorem State.afterCommit_changed (hown : s.ownAddress.isSome = true) (h : TableId.settings ∈ named)
    (hnew : (s.afterCommit named).tables.settings = some new) (hold : s.tables.settings = some old)
    (hdue : s.time.intervalDue = false) (hne : ¬(old.intervalPeriodS = new.intervalPeriodS
      ∧ old.intervalPostscale = new.intervalPostscale)) :
    let u := s.bringRunTimes.time
    (s.afterCommit named).time = TimeBase.started
        { u with sequence := s.time.sequence + 1, intervalRun := u.intervalRun % 1000 } s.ms
      ∧ (s.HeldReady → (∀ n ∉ s.heldOrder, ((s.afterCommit named).lane n).interval = .zero)
        ∧ (s.afterCommit named).maze.interval = .zero)
      ∧ (0 < s.generalFree → ∃ r : CountReport,
        (.count r ∈ (s.afterCommit named).loop.insertQueue
          ∨ (s.afterCommit named).loop.sending = some ((Outgoing.count r).message s.ownByte))
        ∧ r.sequence = s.time.sequence + 1 ∧ r.short = true
        ∧ r.seconds = s.time.postscaleCount * old.intervalPeriodS + s.time.periodCount
        ∧ r.lanes = ⟨(s.swapCounted named .l1).interval, (s.swapCounted named .l2).interval,
          (s.swapCounted named .l3).interval, (s.swapCounted named .l4).interval⟩
        ∧ r.loading = s.maze.interval ∧ r.runSeconds = u.intervalRun / 1000) := by
  intro u
  obtain ⟨-, -, -, -, -, htime, hmaze⟩ := s.afterCommit_keeps named
  have hsettings := State.lanesSwapped_settings hnew
  obtain ⟨hswapTime, hints, hswapMaze, hreport⟩ := State.swapTables_changed (s := s.heard) h hold hdue
    (by rw [hsettings]; exact hne)
  refine ⟨htime.trans hswapTime, fun hready => ⟨fun n hn => ?_, hmaze.trans hswapMaze⟩, fun hroom => ?_⟩
  · obtain ⟨-, hlane⟩ := hready.afterCommit_outside named
    rw [hlane n hn]
    exact hints n
  · obtain ⟨r, hqueued, hr⟩ := hreport hroom hown
    exact ⟨r, State.afterCommit_carries hown (.inr hqueued), hr⟩

/-- Other settings, and none, leave the time base and the accumulators; the first settings start the timer. -/
theorem State.afterCommit_time (s : State) (named : List TableId) :
    (TableId.settings ∉ named → (s.afterCommit named).time = s.time
      ∧ s.IntervalKept named (s.heard.swapTables named))
    ∧ ∀ new, TableId.settings ∈ named → (s.afterCommit named).tables.settings = some new →
      (s.tables.settings = none → (s.afterCommit named).time = s.time.started s.ms
        ∧ s.IntervalKept named (s.heard.swapTables named))
      ∧ ∀ old, s.tables.settings = some old →
        old.intervalPeriodS = new.intervalPeriodS ∧ old.intervalPostscale = new.intervalPostscale →
        (s.afterCommit named).time = s.time ∧ s.IntervalKept named (s.heard.swapTables named) := by
  obtain ⟨-, -, -, -, -, htime, -⟩ := s.afterCommit_keeps named
  rw [htime]
  refine ⟨fun h => State.swapTables_unnamed (s := s.heard) h, fun new h hnew =>
    ⟨State.swapTables_first (s := s.heard) h, fun old hold hsame => State.swapTables_same (s := s.heard) h hold ?_⟩⟩
  rw [State.lanesSwapped_settings hnew]
  exact hsame

end Commit

end Sys2Proof.Machine
end

