-- ==== Sys2Proof/Proofs/CommitSwaps.lean ====
section
/-! PROOFS. The COMMIT that swaps the named tables. -/

namespace Sys2Proof.Machine

/-- Settles O53: the swap stage by stage, the event's ANSWER, and the held lanes that take the places freed. -/
theorem commitSwapsTables : Obligations.CommitSwapsTables := by
  intro s m named htakes hmask hcomplete hvalid answer standing started atOnce changes counted credit credits kept
    heldReady
  obtain ⟨htables, hshadows, hdeferred, hms, hown, -, -⟩ := s.afterCommit_keeps named
  obtain ⟨hblock, hwindows, hproducts, hcategories, hwatch, hquality, hlaneTable, hsettings⟩ :=
    s.afterCommit_parts named
  have hstanding : (standing .laneTable).laneTable = (tablesAfter named s.mgmt.shadows s.tables).laneTable := by
    rw [htables] at hlaneTable
    exact hlaneTable.symm
  have hchanges (n : LaneId) : changes n = s.changesAt named n := by
    rw [State.changesAt, ← hstanding]
    rfl
  have hcounted (n : LaneId) : counted n = s.swapCounted named n := by
    rw [State.swapCounted, ← hchanges]
  have hcredit (n : LaneId) : credit n = s.swapCredit named n := by
    rw [State.swapCredit, ← hchanges]
  have hcredits : (LaneId.all.map (s.swapCredit named)).sum = credits := by
    simp only [LaneId.all, List.map_cons, List.map_nil, List.sum_cons, List.sum_nil, ← hcredit, credits]
    omega
  have hready (h : heldReady) : s.HeldReady := by
    intro n hn
    obtain ⟨hstate, hlate⟩ := h n hn
    exact ⟨hstate, fun t ht ⟨hfree, hcard⟩ => hlate t ht hfree hcard⟩
  have hkept (hk : s.IntervalKept named (s.heard.swapTables named)) (h : heldReady) : kept (s.afterCommit named) := by
    obtain ⟨hints, hmaze⟩ := (hready h).afterCommit_kept hk
    exact ⟨fun n hn => by rw [hcounted, hints n hn], hmaze⟩
  obtain ⟨hunnamed, hnamed⟩ := s.afterCommit_time named
  refine ⟨s.afterCommit named, exec_commit_eq htakes hmask hcomplete hvalid, htables, hblock, hwindows, hproducts,
    hcategories, hwatch, hquality, hlaneTable, hsettings, fun x => ?_, State.afterCommit_carries htakes.own (.inl rfl),
    hdeferred, hms, hown, fun h => ?_, fun hnodup h => ?_, fun hempty => ⟨?_, fun n => ?_⟩, fun h => ?_,
    fun new h hnew => ⟨fun hfirst => ?_, fun old hold => ?_⟩⟩
  · rw [hshadows, Shadows.clear_get]
  · obtain ⟨hcount, -⟩ := (hready h).afterCommit_outside named
    rw [hcount, hcredits]
    rfl
  · obtain ⟨hsuffix, hfull, hlimit, hlanes⟩ := (hready h).afterCommit_taken hnodup named
    refine ⟨hsuffix, hfull, hlimit, fun n x hn hx => ?_⟩
    obtain ⟨hstays, htaken⟩ := hlanes n x hn hx
    refine ⟨hstays, fun hout hfree hcard => ?_, fun hout hpresent => ?_⟩
    · obtain ⟨hhold, hgone, -⟩ := htaken hout
      exact ⟨hhold, hgone ⟨hfree, hcard⟩⟩
    · obtain ⟨hhold, -, hkeeps⟩ := htaken hout
      have hcard : ¬x.Gone := fun ⟨hfree, hgone⟩ => hpresent.elim (absurd hfree) (by simp [hgone])
      exact ⟨hhold, hkeeps hcard⟩
  · obtain ⟨hpassback, -⟩ := State.afterCommit_unheld hempty named
    obtain ⟨-, hswap⟩ := s.heard.swapTables_frame named
    rw [hpassback, hswap, htables]
    rfl
  · obtain ⟨htxn, hday, hrest⟩ := State.afterCommit_lane hempty named n
    exact ⟨htxn, by rw [hday, hcounted], hrest⟩
  · obtain ⟨htime, hk⟩ := hunnamed h
    exact ⟨htime, hkept hk⟩
  · obtain ⟨hstart, -⟩ := hnamed new h hnew
    obtain ⟨htime, hk⟩ := hstart hfirst
    exact ⟨htime, hkept hk⟩
  · intro same
    obtain ⟨-, hleft⟩ := hnamed new h hnew
    refine ⟨fun hsame => ?_, fun hne hdue => ?_⟩
    · obtain ⟨htime, hk⟩ := hleft old hold hsame
      exact ⟨htime, hkept hk⟩
    · obtain ⟨htime, hcleared, hreport⟩ := State.afterCommit_changed htakes.own h hnew hold hdue hne
      simp only [hcounted]
      exact ⟨htime, fun hr => hcleared (hready hr), hreport⟩

end Sys2Proof.Machine
end

section
/-! PROOFS. The arm on a lane of another role, and a forward rotation that completes on a TICKET lane. -/

namespace Sys2Proof.Machine

theorem exec_rotateFwdDone (n : LaneId) (s : State) :
    exec (.rotateFwdDone n) s = .next (s.event fun s => s.forwardDone n) := rfl

theorem State.setArm_eq (s : State) (n : LaneId) (a : Arm) :
    s.setArm n a = s.withLane n { s.lane n with arm := a } := rfl

/-! ### The arm on a lane of another role (R69) -/

section OtherRole

variable {s : State} {n : LaneId}

theorem State.isTicket_of_other (hr : (s.lane n).role ≠ some .ticket) : s.isTicket n = false := by
  simp [State.isTicket, hr]

/-- The event of a tracker that moves where a condition holds, and of one that cannot be in a position to move. -/
theorem State.Settled.event_setArm_if (hs : s.Settled) {f : State → State} {a : Arm} {c : Prop} [Decidable c]
    (hf : f s = if c then s.setArm n a else s) :
    s.event f = if c then s.withLane n { s.lane n with arm := a } else s := by
  split at hf
  case isTrue hc => rw [if_pos hc]; exact hs.event_withLane rfl hf
  case isFalse hc => rw [if_neg hc]; exact State.event_same hf hs

theorem State.forwardStart_of_other_role (hr : (s.lane n).role ≠ some .ticket) :
    s.forwardStart n = if (s.lane n).arm = .atRest then s.setArm n .forward else s := by
  simp [State.forwardStart, State.isTicket_of_other hr]

theorem State.forwardDone_of_other_role (hr : (s.lane n).role ≠ some .ticket) :
    s.forwardDone n = if (s.lane n).arm = .forward then s.setArm n .atRest else s := by
  simp [State.forwardDone, State.isTicket_of_other hr]

theorem State.reverseDone_of_other_role (hr : (s.lane n).role ≠ some .ticket) :
    s.reverseDone n = if (s.lane n).arm = .reverse then s.setArm n .atRest else s := by
  simp [State.reverseDone, State.isTicket_of_other hr]

/-- Wherever the arm stands, its return leaves it at rest. -/
theorem State.armReturn_of_other_role (hr : (s.lane n).role ≠ some .ticket) :
    s.armReturn n = s.withLane n { s.lane n with arm := .atRest } := by
  cases ha : (s.lane n).arm with
  | atRest =>
    have hsame : ({ s.lane n with arm := .atRest } : Lane) = s.lane n := by rw [← ha]
    simp [State.armReturn, ha, hsame, State.withLane_self]
  | forward => simp [State.armReturn, ha, State.isTicket_of_other hr, State.setArm_eq]
  | reverse => exact State.armReturn_of_reverse ha

end OtherRole

/-- Settles O22: each event moves the tracker from the one position it can be taken in, and the return from any. -/
theorem armTracked : Obligations.ArmTracked := by
  intro s n hs hr moved
  rw [exec_rotateFwdStart, exec_rotateFwdDone, exec_rotateRevStart, exec_rotateRevDone, exec_rotateReturn]
  exact ⟨congrArg _ (hs.event_setArm_if (State.forwardStart_of_other_role hr)),
    congrArg _ (hs.event_setArm_if (State.forwardDone_of_other_role hr)),
    congrArg _ (hs.event_setArm_if rfl),
    congrArg _ (hs.event_setArm_if (State.reverseDone_of_other_role hr)),
    congrArg _ (hs.event_withLane rfl (State.armReturn_of_other_role hr))⟩

/-! ### A forward rotation completes (R73, R79, R86) -/

section Done

variable {s : State} {n : LaneId} {l : Lane} {k : Nat}

/-- The completion puts the arm of a TICKET lane to rest and completes its rotation (R69). -/
theorem State.forwardDone_eq (ha : (s.lane n).arm = .forward) (hr : (s.lane n).role = some .ticket) :
    s.forwardDone n = (s.withLane n { s.lane n with arm := .atRest }).completeRotation n := by
  have ht : s.isTicket n = true := by simp [State.isTicket, hr]
  simp only [State.forwardDone, ha, ht, if_true, State.setArm_eq]

/-- A free window that has outlived FREE_FLOW begins its trail (log 29). -/
theorem State.completeRotation_of_late {w : PassageWindow} (hl : l.lateFree = some w) :
    (s.withLane n l).completeRotation n = s.withLane n { l with
      lateFree := some ⟨w.k, true⟩, trailTimer := some ⟨s.ms, s.settings.trailTimeMs⟩ } := by
  simp only [State.completeRotation, State.withLane_lane_same, hl, State.modLane_eq, State.withLane_withLane]
  rfl

/-- A passage window begins its trail, and its grant timer is forgotten (R73). -/
theorem State.completeRotation_of_passing (hl : l.lateFree = none) (hst : l.state = .passing)
    (hw : l.window = some ⟨k, false⟩) :
    (s.withLane n l).completeRotation n = s.withLane n { l with
      window := some ⟨k, true⟩, grantTimer := none, grantExpired := false
      trailTimer := some ⟨s.ms, s.settings.trailTimeMs⟩ } := by
  simp only [State.completeRotation, State.completeWindow, State.withLane_lane_same, hl, hst, hw, State.modLane_eq,
    State.withLane_withLane, Bool.false_eq_true, if_false]
  rfl

/-- A free window begins its trail (R86). -/
theorem State.completeRotation_of_freeFlow (hl : l.lateFree = none) (hst : l.state = .freeFlow)
    (hw : l.window = some ⟨k, false⟩) :
    (s.withLane n l).completeRotation n = s.withLane n { l with
      window := some ⟨k, true⟩, trailTimer := some ⟨s.ms, s.settings.trailTimeMs⟩ } := by
  simp only [State.completeRotation, State.completeWindow, State.withLane_lane_same, hl, hst, hw, State.modLane_eq,
    State.withLane_withLane]
  rfl

theorem State.completeRotation_of_none (hl : (s.lane n).lateFree = none) :
    s.completeRotation n = s.completeWindow n := by
  rw [State.completeRotation, hl]

/-- Outside PASSING and FREE_FLOW a rotation was a locked one, and its completion is a forced passage (R79). -/
theorem State.completeWindow_of_locked (hp : (s.lane n).state ≠ .passing) (hf : (s.lane n).state ≠ .freeFlow) :
    s.completeWindow n = s.forcedPassage n := by
  unfold State.completeWindow
  split
  case h_1 h _ => exact absurd h hp
  case h_2 h _ => exact absurd h hf
  case h_3 h _ => exact absurd h hf
  case h_4 => rfl

/-- A forced passage whose latch makes no report: the alarm, the count, the maze credit and FORCED (R79, R90, R94). -/
theorem State.forcedPassage_eq (hq : s.LatchesSilently .forced) :
    (s.withLane n l).forcedPassage n = ((s.credit (max 1 l.kept)).withLane n
      ({ l with kept := 0, alarmTimer := some ⟨s.ms, 1000⟩ }.counting .forced 1)).withFlag .forced := by
  simp only [State.forcedPassage, State.modLane_eq, State.count_eq, State.withLane_lane_same, State.withLane_withLane]
  exact State.latch_of_silent _ _ _ hq

/-- The lane, the maze and FORCED after the completion of a locked rotation (R79). -/
theorem State.completeRotation_of_locked (hl : l.lateFree = none) (hp : l.state ≠ .passing) (hf : l.state ≠ .freeFlow)
    (hq : s.LatchesSilently .forced) :
    (s.withLane n l).completeRotation n = ((s.credit (max 1 l.kept)).withLane n
      ({ l with kept := 0, alarmTimer := some ⟨s.ms, 1000⟩ }.counting .forced 1)).withFlag .forced := by
  have hlane := s.withLane_lane_same n l
  rw [State.completeRotation_of_none (by rwa [hlane])]
  exact (State.completeWindow_of_locked (by rwa [hlane]) (by rwa [hlane])).trans (State.forcedPassage_eq hq)

/-- The event of a maze credit, a lane changed and a flag set. -/
theorem State.Settled.event_credit_withLane_withFlag {f : State → State} {flag : Flag} (hs : s.Settled)
    (hm : s.MazeInRange) (hq : s.LatchesSilently .mazeFull) (hl : l.txn = (s.lane n).txn)
    (hf : f s = ((s.credit k).withLane n l).withFlag flag) :
    s.event f = (((s.credit k).withLane n l).withFlag flag).markFull s :=
  State.event_eq_full hf (((hs.credit hm k).withLane n l hl).withFlag flag)
    ((((s.credit k).withLane n l).quietTo_withFlag flag).silent hq)

end Done

/-- Settles O24: the window that the rotation opened begins its trail, and a rotation without one is forced. -/
theorem forwardRotationCompletes : Obligations.ForwardRotationCompletes := by
  intro s n hs hr ha
  rw [exec_rotateFwdDone]
  have hdone := State.forwardDone_eq ha hr
  refine ⟨fun hl => ⟨fun k hst hw => ?_, fun k hst hw => ?_, fun hp hf hm hq hfull => ?_⟩, fun w hl => ?_⟩
  · exact congrArg _ (hs.event_withLane rfl (hdone.trans (State.completeRotation_of_passing hl hst hw)))
  · exact congrArg _ (hs.event_withLane rfl (hdone.trans (State.completeRotation_of_freeFlow hl hst hw)))
  · exact congrArg _ (hs.event_credit_withLane_withFlag hm hfull rfl
      (hdone.trans (State.completeRotation_of_locked hl hp hf hq)))
  · exact congrArg _ (hs.event_withLane rfl (hdone.trans (State.completeRotation_of_late hl)))

end Sys2Proof.Machine
end

section
/-! PROOFS. The key switch and the LANE command: how they close and open a lane. -/

namespace Sys2Proof.Machine

theorem exec_keyChange (n : LaneId) (level : Bool) (s : State) :
    exec (.keyChange n level) s = .next (s.event fun s => s.keyChanged n level) := rfl

theorem exec_lane (m : Arrival) (s : State) : exec (.lane m) s
    = .next (s.event fun x => x.receive 0x04 m fun x => x.commandDelivered m fun x =>
      x.takeCommand 0x04 fun x => x.laneCommand m.payload) := rfl

/-! ### The closure conditions of a lane (R65 to R67) -/

section Closure

variable {s : State} {n : LaneId} {l : Lane} {opened : Bool}

theorem State.shut_withLane_of_key (hk : s.keyControl n = true) : (s.withLane n l).shut n = !l.keyHigh := by
  have hk' : (s.withLane n l).keyControl n = true := hk
  rw [State.shut, if_pos hk', State.withLane_lane_same]

theorem State.shut_withLane_of_command (hk : s.keyControl n = false) :
    (s.withLane n l).shut n = !l.commandOpen := by
  have hk' : ¬(s.withLane n l).keyControl n = true := by rw [Bool.not_eq_true]; exact hk
  rw [State.shut, if_neg hk', State.withLane_lane_same]

/-- A lane at rest whose resting state is not FAULT takes it, with nothing else (R67). -/
theorem State.closureChange_eq {st : LaneState} (ha : l.state.atRest = true)
    (hst : (s.withLane n l).restingState n = st) (hf : st ≠ .fault) :
    (s.withLane n l).closureChange n = s.withLane n { l with state := st } := by
  have hlane := s.withLane_lane_same n l
  rw [State.closureChange, if_pos (by rwa [hlane]), State.rest_eq (by rwa [hst]), hst, hlane, State.withLane_withLane]

/-- The resting state of a TICKET or SETTLE lane that is otherwise open is its key's or its command's alone (R65). -/
theorem State.restingState_of_otherwiseOpen (hr : (s.lane n).role = some .ticket ∨ (s.lane n).role = some .settle)
    (ho : s.OtherwiseOpen n) (hs : s.shut n = !opened) :
    s.restingState n = if opened then .idle else .closed := by
  obtain ⟨hlanes, hsettings, hday, hup⟩ := ho
  have hclosed : s.laneClosed n = !opened := by
    simp [State.laneClosed, hday, hs, Option.isNone_eq_false_iff.2 hlanes, Option.isNone_eq_false_iff.2 hsettings]
  rcases hr with hr | hr <;> cases opened <;> simp [State.restingState, hr, hup, hclosed]

/-- The resting state of an EXIT lane (R65, R89). -/
theorem State.restingState_of_exit (hr : (s.lane n).role = some .exit) (hs : s.shut n = !opened) :
    s.restingState n = if opened then .exit else .closed := by
  cases opened <;> simp [State.restingState, hr, hs]

/-- A resting TICKET or SETTLE lane that is otherwise open closes and opens. -/
theorem State.closureChange_of_otherwiseOpen (hr : l.role = some .ticket ∨ l.role = some .settle)
    (ho : s.OtherwiseOpen n) (hrest : l.state = .idle ∨ l.state = .closed)
    (hs : (s.withLane n l).shut n = !opened) :
    (s.withLane n l).closureChange n = s.withLane n { l with state := if opened then .idle else .closed } := by
  have hlane := s.withLane_lane_same n l
  refine State.closureChange_eq ?_ (State.restingState_of_otherwiseOpen (by rwa [hlane]) ho hs) ?_
  · rcases hrest with h | h <;> rw [h] <;> rfl
  · split <;> decide

/-- An EXIT lane closes and opens. -/
theorem State.closureChange_of_exit (hr : l.role = some .exit) (hrest : l.state = .exit ∨ l.state = .closed)
    (hs : (s.withLane n l).shut n = !opened) :
    (s.withLane n l).closureChange n = s.withLane n { l with state := if opened then .exit else .closed } := by
  have hlane := s.withLane_lane_same n l
  refine State.closureChange_eq ?_ (State.restingState_of_exit (by rwa [hlane]) hs) ?_
  · rcases hrest with h | h <;> rw [h] <;> rfl
  · split <;> decide

end Closure

/-! ### The key switch (R66) -/

section Key

variable {s : State} {n : LaneId} {level : Bool}

/-- With key control clear the level alone changes. -/
theorem State.keyChanged_of_command (hk : s.keyControl n = false) :
    s.keyChanged n level = s.withLane n { s.lane n with keyHigh := level } :=
  if_neg (by simp [hk])

/-- With key control set the closure conditions reach the lane with the new level. -/
theorem State.keyChanged_of_key (hk : s.keyControl n = true) :
    s.keyChanged n level = (s.withLane n { s.lane n with keyHigh := level }).closureChange n := if_pos hk

end Key

/-- Settles O28: the level alone, or the resting state that it gives with the lane's other conditions. -/
theorem keyOpensAndCloses : Obligations.KeyOpensAndCloses := by
  intro s n level hs
  rw [exec_keyChange]
  refine ⟨fun hk => ?_, fun hk hr ho hrest => ?_, fun hk hr hrest => ?_⟩
  · exact congrArg _ (hs.event_withLane rfl (State.keyChanged_of_command hk))
  · exact congrArg _ (hs.event_withLane rfl ((State.keyChanged_of_key hk).trans
      (State.closureChange_of_otherwiseOpen hr ho hrest (State.shut_withLane_of_key hk))))
  · exact congrArg _ (hs.event_withLane rfl ((State.keyChanged_of_key hk).trans
      (State.closureChange_of_exit hr hrest (State.shut_withLane_of_key hk))))

/-! ### The LANE command (R66) -/

section Command

variable {s t : State} {m : Arrival} {n : LaneId} {opened : Bool}

/-- Under key control the command is refused. -/
theorem State.laneCommand_of_key (h : laneCommandOf m.payload = some (n, opened)) (hk : s.keyControl n = true) :
    s.laneCommand m.payload = s.refused .keyControl := by
  simp [State.laneCommand, h, hk]

/-- Otherwise it sets the command setting, and the closure conditions reach the lane. -/
theorem State.laneCommand_of_command (h : laneCommandOf m.payload = some (n, opened)) (hk : s.keyControl n = false) :
    s.laneCommand m.payload = ((s.withLane n { s.lane n with commandOpen := opened }).closureChange n).done [] := by
  simp [State.laneCommand, h, hk, State.modLane_eq]

theorem State.laneCommand_of_otherwiseOpen (h : laneCommandOf m.payload = some (n, opened))
    (hk : s.keyControl n = false) (hr : (s.lane n).role = some .ticket ∨ (s.lane n).role = some .settle)
    (ho : s.OtherwiseOpen n) (hrest : s.Resting n) :
    s.laneCommand m.payload = (s.withLane n { s.lane n with
      commandOpen := opened, state := if opened then .idle else .closed }).done [] := by
  have hclosure : (s.withLane n { s.lane n with commandOpen := opened }).closureChange n = _ :=
    State.closureChange_of_otherwiseOpen hr ho hrest (State.shut_withLane_of_command hk)
  rw [State.laneCommand_of_command h hk, hclosure]

/-- The LANE command from its result: what it leaves, with its ANSWER offered (R174). -/
theorem exec_lane_eq {status : Status} (h : s.TakesCommand 0x04 m)
    (hb : s.heard.laneCommand m.payload = ⟨t, status, 0xFF, []⟩) (ht : t.Settled)
    (hp : s.placeFree = true → t.placeFree = true) (ho : t.ownAddress = s.ownAddress) :
    exec (.lane m) s = .next (t.offered (.answer ⟨0x04, status, 0xFF, []⟩)) := by
  have hevent := State.event_of_command (code := 0x04) (body := fun x => x.laneCommand m.payload) h
    (congrArg CommandResult.state hb) ht hp ho
  rw [exec_lane, hevent, hb]

end Command

/-- Settles O56: the refusal under key control, and the resting state that the new setting gives. -/
theorem laneCommandActs : Obligations.LaneCommandActs := by
  intro s m n opened h hpay
  have hs : s.heard.Settled := h.1.heard
  refine ⟨fun hk => ?_, fun hk hr ho hrest => ?_⟩
  · exact exec_lane_eq h (State.laneCommand_of_key (s := s.heard) hpay hk) hs id rfl
  · exact exec_lane_eq h (State.laneCommand_of_otherwiseOpen (s := s.heard) hpay hk hr ho hrest)
      (hs.withLane n _ rfl) (State.withLane_placeFree s.heard n _ (by rfl)).trans rfl

end Sys2Proof.Machine
end

section
/-! PROOFS. The loading gate: the lift, the chairs, the end of a window and the loading hold. -/

namespace Sys2Proof.Machine

theorem exec_liftRunChange (level : Bool) (s : State) :
    exec (.liftRunChange level) s = .next (s.event fun s => s.liftChange level) := rfl

theorem exec_chair (s : State) : exec .chair s = .next (s.event fun s => s.chairPulse) := rfl

theorem exec_windowTimerExpiry (s : State) :
    exec .windowTimerExpiry s = .next (s.event fun s => s.chairTimeout) := rfl

theorem exec_loadingHold (m : Arrival) (s : State) : exec (.loadingHold m) s
    = .next (s.event fun x => x.receive 0x06 m fun x => x.commandDelivered m fun x =>
      x.takeCommand 0x06 fun x => x.loadingHoldCommand m.payload) := rfl

/-! ### A window recorded (R110) -/

@[simp] theorem Maze.recorded_window (m : Maze) : m.recorded.window = none := by
  unfold Maze.recorded
  split
  · rfl
  · assumption

/-- A record leaves the count and the gate with its inputs. -/
@[simp] theorem Maze.recorded_frame (m : Maze) :
    m.recorded.count = m.count ∧ m.recorded.gate = m.gate ∧ m.recorded.liftRun = m.liftRun
      ∧ m.recorded.loadingHold = m.loadingHold := by
  unfold Maze.recorded
  split <;> exact ⟨rfl, rfl, rfl, rfl⟩

/-- The record does not read the gate and its inputs. -/
theorem Maze.recorded_withInputs (m : Maze) (gate : GateState) (liftRun loadingHold : Bool) :
    ({ m with gate := gate, liftRun := liftRun, loadingHold := loadingHold } : Maze).recorded
      = { m.recorded with gate := gate, liftRun := liftRun, loadingHold := loadingHold } := by
  cases hw : m.window <;> simp [Maze.recorded, hw]

/-- A recorded window closes into the state that the close enters. -/
theorem State.closeChairWindow_setGate (s : State) (g : GateState) :
    s.closeChairWindow.setGate g = { s with maze := { s.maze.recorded with gate := g } } := by
  rw [State.closeChairWindow_eq, State.setGate]

/-! ### What each input makes of the gate (R104 to R107, R110) -/

/-- The maze with a chair window opened for the seats and the time in force (R107). -/
def Maze.openedAt (m : Maze) (st : Settings) (ms : Nat) : Maze :=
  { m with gate := .opened, window := some ⟨m.count, 0, st.seats, ⟨ms, st.loadingWindowMs⟩⟩ }

/-- The maze with the loading hold set or clear, and the gate that follows it (R105). -/
def Maze.holding (m : Maze) (on : Bool) : Maze :=
  match m.gate, on with
  | .waiting, true => { m with loadingHold := true, gate := .held }
  | .opened, true => { m.recorded with loadingHold := true, gate := .held }
  | .held, false => { m with loadingHold := false, gate := .waiting }
  | _, _ => { m with loadingHold := on }

section Gate

variable {s : State}

theorem State.openChairWindow_eq (s : State) :
    s.openChairWindow = { s with maze := s.maze.openedAt s.settings s.ms } := rfl

theorem State.liftChange_same (s : State) : s.liftChange s.maze.liftRun = s := if_pos rfl

/-- A rise leaves STOPPED for HELD or WAITING (R104). -/
theorem State.liftChange_rise (ho : s.ownAddress.isSome = true) (h : s.maze.liftRun = false) :
    s.liftChange true = ({ s with
      time := s.bringRunTimes.time
      maze := { s.maze with
        liftRun := true, gate := if s.maze.loadingHold then .held else .waiting } } : State).latch .liftRunning 0 := by
  simp only [State.liftChange, h, State.passThrough_of_address ho, Bool.false_eq_true, if_false, if_true]
  rfl

/-- A fall closes the window into STOPPED (R104). -/
theorem State.liftChange_fall (ho : s.ownAddress.isSome = true) (h : s.maze.liftRun = true) :
    s.liftChange false = ({ s with
      time := s.bringRunTimes.time
      maze := { s.maze.recorded with liftRun := false, gate := .stopped } } : State).latch .liftStopped 0 := by
  have hrecorded : ({ s.maze with liftRun := false } : Maze).recorded = { s.maze.recorded with liftRun := false } := by
    simpa using s.maze.recorded_withInputs s.maze.gate false s.maze.loadingHold
  simp only [State.liftChange, h, State.passThrough_of_address ho, Bool.true_eq_false, Bool.false_eq_true, if_false,
    State.closeChairWindow_setGate]
  rw [show s.bringRunTimes.maze = s.maze from rfl, hrecorded]
  rfl

/-! ### The rows of R106 -/

theorem State.chairPulse_of_stopped (hg : s.maze.gate = .stopped) : s.chairPulse = s := by
  simp [State.chairPulse, hg]

theorem State.chairPulse_of_waiting (ho : s.ownAddress.isSome = true) (hg : s.maze.gate = .waiting) :
    s.chairPulse = { s with maze := s.maze.openedAt s.settings s.ms } := by
  simp only [State.chairPulse, State.passThrough_of_address ho, hg, State.openChairWindow_eq, Bool.false_eq_true,
    if_false]

/-- The window that stands is recorded, and a new one opens. -/
theorem State.chairPulse_of_opened (ho : s.ownAddress.isSome = true) (hg : s.maze.gate = .opened) :
    s.chairPulse = { s with maze := s.maze.recorded.openedAt s.settings s.ms } := by
  simp only [State.chairPulse, State.passThrough_of_address ho, hg, State.openChairWindow_eq,
    State.closeChairWindow_eq, Bool.false_eq_true, if_false]
  rfl

/-- A chair that passes while loading is held is counted. -/
theorem State.chairPulse_of_held (ho : s.ownAddress.isSome = true) (hg : s.maze.gate = .held) :
    s.chairPulse = s.countLoading fun c => { c with heldChairs := satAdd16 c.heldChairs 1 } := by
  simp only [State.chairPulse, State.passThrough_of_address ho, hg, Bool.false_eq_true, if_false]

/-- The end of the window timer closes the window into WAITING (R110). -/
theorem State.chairTimeout_of_due {w : ChairWindow} (h : s.maze.window = some w)
    (hdue : w.timer.start + w.timer.duration ≤ s.ms) :
    s.chairTimeout = { s with maze := { s.maze.recorded with gate := .waiting } } := by
  have hd : w.timer.due s.ms = true := decide_eq_true hdue
  simp only [State.chairTimeout, h, hd, if_true, State.closeChairWindow_setGate]

/-- The gate and its window follow the loading hold (R105). -/
theorem State.setLoadingHold_eq (s : State) (on : Bool) :
    s.setLoadingHold on = { s with maze := s.maze.holding on } := by
  cases hg : s.maze.gate <;> cases on <;>
    simp [State.setLoadingHold, State.closeChairWindow_eq, State.setGate, Maze.holding, hg, Maze.recorded_withInputs]

end Gate

/-! ### The events of the gate -/

section Events

variable {s : State} {f : State → State} {m : Maze} {time : TimeBase}

/-- Whether a place is free depends on the maze count alone of the maze and the Time Base (R97). -/
theorem State.placeFree_withGate (s : State) (hm : m.count = s.maze.count) (time : TimeBase) :
    ({ s with time := time, maze := m } : State).placeFree = s.placeFree := State.placeFree_congr hm rfl rfl

/-- A change of the maze that keeps its count, and of the Time Base, keeps a settled part settled. -/
theorem State.Settled.withGate (hs : s.Settled) (hm : m.count = s.maze.count) (time : TimeBase) :
    ({ s with time := time, maze := m } : State).Settled :=
  hs.congr rfl (s.placeFree_withGate hm time) rfl rfl rfl rfl rfl rfl

/-- The event that changes the maze but for its count. -/
theorem State.Settled.event_withGate (hs : s.Settled) (hf : f s = { s with maze := m })
    (hm : m.count = s.maze.count) : s.event f = { s with maze := m } :=
  State.event_eq hf (hs.withGate hm s.time) (s.placeFree_withGate hm s.time).trans

/-- The same with a flag latched. -/
theorem State.Settled.event_withGate_latch (hs : s.Settled) {g : Flag} {detail : Nat}
    (hf : f s = ({ s with time := time, maze := m } : State).latch g detail) (hm : m.count = s.maze.count) :
    s.event f = ({ s with time := time, maze := m } : State).latched g detail := by
  rw [State.event, hf]
  exact State.finish_latch g detail (hs.withGate hm time) (s.placeFree_withGate hm time).trans

end Events

/-- Settles O33: each change of level as the gate follows it, and the run times that no place depends on. -/
theorem liftRunChanges : Obligations.LiftRunChanges := by
  intro s level hs ho
  rw [exec_liftRunChange]
  refine ⟨fun h => ?_, fun h hl => ?_, fun h hl => ?_⟩
  · exact congrArg _ (State.event_same (h ▸ s.liftChange_same) hs)
  · subst hl
    exact congrArg _ (hs.event_withGate_latch (State.liftChange_rise ho h) rfl)
  · subst hl
    exact congrArg _ (hs.event_withGate_latch (State.liftChange_fall ho h) (by simp))

/-- Settles O34: the four rows of R106, and the window that its timer ends. -/
theorem chairsAndWindows : Obligations.ChairsAndWindows := by
  intro s hs ho opened
  rw [exec_chair, exec_windowTimerExpiry]
  refine ⟨congrArg _ ?_, fun w hw hdue => ?_⟩
  · split
    case h_1 hg => exact State.event_same (State.chairPulse_of_stopped hg) hs
    case h_2 hg => exact hs.event_withGate (State.chairPulse_of_waiting ho hg) rfl
    case h_3 hg =>
      refine hs.event_withGate ((State.chairPulse_of_opened ho hg).trans ?_) (by simp [opened])
      simp [opened, Maze.openedAt]
    case h_4 hg => exact hs.event_withGate (State.chairPulse_of_held ho hg) rfl
  · exact congrArg _ (hs.event_withGate (State.chairTimeout_of_due hw hdue) (by simp))

/-- The loading hold keeps the maze count. -/
theorem Maze.holding_count (m : Maze) (on : Bool) : (m.holding on).count = m.count := by
  unfold Maze.holding
  split <;> simp

/-- Settles O57: the command is taken, and no place depends on the gate. -/
theorem loadingHoldActs : Obligations.LoadingHoldActs := by
  intro s m on h hpay
  have hbody : s.heard.loadingHoldCommand m.payload = ({ s.heard with maze := s.maze.holding on } : State).done [] := by
    simp only [State.loadingHoldCommand, hpay, State.setLoadingHold_eq]
    rfl
  have hcount : (s.maze.holding on).count = s.heard.maze.count := s.maze.holding_count on
  have hevent := State.event_of_command (code := 0x06) (body := fun x => x.loadingHoldCommand m.payload) h
    (congrArg CommandResult.state hbody) (h.1.heard.withGate hcount s.heard.time)
    (s.heard.placeFree_withGate hcount s.heard.time).trans rfl
  rw [exec_loadingHold, hevent, hbody]
  rfl

end Sys2Proof.Machine
end

section
/-! PROOFS. The decrement that finds the maze empty. -/

namespace Sys2Proof.Machine

/-! ### Flags after latches and after the end of an event (R182) -/

theorem State.flagSet_latch (s : State) (f g : Flag) (detail : Nat) :
    (s.latch f detail).flagSet g = (s.flagSet g || f == g) := by
  simp [State.latch_eq, State.flagSet, State.latches, Mgmt.latchingAll_flags]

/-- The end of an event clears no flag. -/
theorem State.flagSet_finish_of_given {s before : State} (hg : s.PlacesGiven) {f : Flag} (hf : s.flagSet f = true) :
    (s.finish before).flagSet f = true := by
  have hfull : (s.checkMazeFull before).flagSet f = true := by
    unfold State.checkMazeFull
    split
    · rw [State.flagSet_latch, hf, Bool.true_or]
    · exact hf
  have hflags : (s.finish before).mgmt.flags = (s.checkMazeFull before).mgmt.flags := by
    simp [State.finish, State.givePlaces_of_given _ _ hg, State.flushRaised]
  rw [State.flagSet, hflags]
  exact hfull

/-! ### The maze after an underrun (R95) -/

/-- One underrun counted, in the day and in the interval (R95). -/
def Maze.underrun (m : Maze) : Maze :=
  { m with
    day := { m.day with mazeUnderrun := satAdd16 m.day.mazeUnderrun 1 }
    interval := { m.interval with mazeUnderrun := satAdd16 m.interval.mazeUnderrun 1 } }

/-- A decrement of an empty maze latches MAZE_UNDERRUN and counts the underrun (R95). -/
theorem State.decrement_of_empty {s : State} (h : s.maze.count = 0) :
    s.decrement = ({ s with maze := s.maze.underrun } : State).latch .mazeUnderrun 0 := if_pos h

/-- What an event with an underrun leaves in `x`: these lanes and this maze, MAZE_UNDERRUN set, and the other blocks
as in `s`. -/
structure State.Underran (s x : State) (lanes : PerLane Lane) (maze : Maze) : Prop where
  lanes : x.lanes = lanes
  maze : x.maze = maze
  flag : x.flagSet .mazeUnderrun = true
  ports : x.ports = s.ports
  held : x.heldOrder = s.heldOrder
  passback : x.passback = s.passback
  deferred : x.deferred = s.deferred
  time : x.time = s.time
  tables : x.tables = s.tables
  ms : x.ms = s.ms

section Underruns

variable {s x : State} {lanes : PerLane Lane} {maze : Maze}

/-- The decrement of a part that differs from `s` in its lanes, its maze and its flags. -/
theorem State.underran_decrement (hx : x.maze.count = 0) (hports : x.ports = s.ports)
    (hheld : x.heldOrder = s.heldOrder) (hpassback : x.passback = s.passback) (hdeferred : x.deferred = s.deferred)
    (htime : x.time = s.time) (htables : x.tables = s.tables) (hms : x.ms = s.ms) :
    s.Underran x.decrement x.lanes x.maze.underrun := by
  rw [State.decrement_of_empty hx]
  constructor
  case flag => simp [State.flagSet_latch]
  all_goals simp [*]

/-- The window that stands closes and is recorded, and the gate enters a state. -/
theorem State.Underran.closeChairWindow (h : s.Underran x lanes maze) (g : GateState) :
    s.Underran (x.closeChairWindow.setGate g) lanes { maze.recorded with gate := g } := by
  rw [State.closeChairWindow_setGate]
  exact { h with maze := by rw [h.maze] }

/-- Where no place has fallen free the end of the event keeps all of it. -/
theorem State.Underran.finish (h : s.Underran x lanes maze) (hg : x.PlacesGiven) :
    s.Underran (x.finish s) lanes maze := by
  obtain ⟨hheld, hlanes, hports, hpassback⟩ := State.finish_keeps_of_given x s hg
  have hmaze : (x.finish s).maze = x.maze := by simp [State.finish, State.givePlaces_of_given _ _ hg]
  exact {
    lanes := hlanes.trans h.lanes
    maze := hmaze.trans h.maze
    flag := State.flagSet_finish_of_given hg h.flag
    ports := hports.trans h.ports
    held := hheld.trans h.held
    passback := hpassback.trans h.passback
    deferred := by simp [h.deferred]
    time := by simp [h.time]
    tables := by simp [h.tables]
    ms := by simp [h.ms] }

/-- An underrun frees no place: the count stays 0 and the lanes keep their transactions (R95, R101). -/
theorem State.Underran.placesGiven (h : s.Underran x lanes maze) (hs : s.Settled)
    (hm : maze.count = s.maze.count) (hl : ∀ n, (lanes.get n).txn = (s.lane n).txn) : x.PlacesGiven := by
  have hcount : x.maze.count = s.maze.count := by rw [h.maze, hm]
  have htxns : x.reservations = s.reservations :=
    (State.reservations_of_txns fun n => by rw [State.lane, h.lanes, hl]).1
  have hfree := State.placeFree_congr hcount htxns h.tables
  rw [State.PlacesGiven, h.held, hfree]
  exact hs.1

/-- The command with an underrun, from the effect of its event. -/
theorem State.Underran.exec_next {c : Instr} {f : State → State} (h : s.Underran (f s) lanes maze) (hs : s.Settled)
    (hm : maze.count = s.maze.count) (hl : ∀ n, (lanes.get n).txn = (s.lane n).txn)
    (hc : exec c s = .next (s.event f)) :
    ∃ t, exec c s = .next t ∧ t.lanes = lanes ∧ t.maze = maze ∧ t.flagSet .mazeUnderrun = true
      ∧ t.ports = s.ports ∧ t.heldOrder = s.heldOrder ∧ t.passback = s.passback
      ∧ t.deferred = s.deferred ∧ t.time = s.time ∧ t.tables = s.tables ∧ t.ms = s.ms := by
  have hfin := h.finish (h.placesGiven hs hm hl)
  exact ⟨s.event f, hc, hfin.lanes, hfin.maze, hfin.flag, hfin.ports, hfin.held, hfin.passback, hfin.deferred,
    hfin.time, hfin.tables, hfin.ms⟩

/-! ### The three events that make a decrement -/

/-- A lane that takes another count keeps its transaction. -/
theorem State.withLane_lane_txn (s : State) (n m : LaneId) {l : Lane} (hl : l.txn = (s.lane n).txn) :
    ((s.withLane n l).lane m).txn = (s.lane m).txn := by
  by_cases h : m = n
  · subst h
    simpa using hl
  · rw [State.withLane_lane_other s h]

/-- A reverse passage of a TICKET lane (R80). -/
theorem State.reverseDone_underran {n : LaneId} (h : s.maze.count = 0) (ha : (s.lane n).arm = .reverse)
    (hr : (s.lane n).role = some .ticket) (hst : (s.lane n).state ≠ .freeFlow) :
    s.Underran (s.reverseDone n) (s.lanes.set n ({ s.lane n with arm := .atRest }.counting .reverse 1))
      s.maze.underrun := by
  have hcond : (s.isTicket n && (s.lane n).state != .freeFlow) = true := by simp [State.isTicket, hr, hst]
  have heffect : s.reverseDone n
      = (s.withLane n ({ s.lane n with arm := .atRest }.counting .reverse 1)).decrement := by
    simp only [State.reverseDone, ha, hcond, if_true, State.setArm_eq, State.count_eq, State.withLane_lane_same,
      State.withLane_withLane]
  rw [heffect]
  exact State.underran_decrement h rfl rfl rfl rfl rfl rfl rfl

/-- A body on an open EXIT lane (R89). -/
theorem State.laneBody_underran {n : LaneId} (h : s.maze.count = 0) (hr : (s.lane n).role = some .exit)
    (hst : (s.lane n).state = .exit) :
    s.Underran (s.laneBody n) (s.lanes.set n ((s.lane n).counting .exit 1)) s.maze.underrun := by
  have heffect : s.laneBody n = (s.withLane n ((s.lane n).counting .exit 1)).decrement := by
    simp only [State.laneBody, hr, hst, if_true, State.count_eq]
  rw [heffect]
  exact State.underran_decrement h rfl rfl rfl rfl rfl rfl rfl

/-- A body at LG_BEAM in an open window, which its last seat closes (R108, R110). -/
theorem State.gateBody_underran_of_window {w : ChairWindow} (h : s.maze.count = 0) (ho : s.ownAddress.isSome = true)
    (hw : s.maze.window = some w) :
    let taken : Maze := { s.maze.underrun with window := some { w with loaded := w.loaded + 1 } }
    s.Underran s.gateBody s.lanes
      (if w.loaded + 1 = w.seats then { taken.recorded with gate := .waiting } else taken) := by
  intro taken
  have hloaded : s.Underran
      (State.decrement { s with maze := { s.maze with window := some { w with loaded := w.loaded + 1 } } }) s.lanes
      taken := State.underran_decrement h rfl rfl rfl rfl rfl rfl rfl
  simp only [State.gateBody, State.passThrough_of_address ho, hw, Bool.false_eq_true, if_false]
  split
  · exact hloaded.closeChairWindow .waiting
  · exact hloaded

/-- The decrement after a loading counter has been raised and a flag latched. -/
theorem State.underran_latch_decrement (h : s.maze.count = 0) (f : LoadingCounters → LoadingCounters) (g : Flag) :
    s.Underran ((s.countLoading f).latch g 0).decrement s.lanes (s.countLoading f).maze.underrun := by
  have hcount : (s.countLoading f).maze.count = 0 := h
  simpa [hcount] using State.underran_decrement (s := s) (x := (s.countLoading f).latch g 0)

/-- A body at LG_BEAM with no window open (R109). -/
theorem State.gateBody_underran_of_none (h : s.maze.count = 0) (ho : s.ownAddress.isSome = true)
    (hw : s.maze.window = none) :
    s.Underran s.gateBody s.lanes
      (s.countLoading fun c => { c with loadingForced := satAdd16 c.loadingForced 1 }).maze.underrun := by
  simp only [State.gateBody, State.passThrough_of_address ho, hw, Bool.false_eq_true, if_false]
  exact State.underran_latch_decrement h _ .loadingForced

end Underruns

/-- Settles O26: each event is carried out in full around a decrement that counts the underrun. -/
theorem decrementUnderruns : Obligations.DecrementUnderruns := by
  intro s hs h counted forced under leaves
  have hbody {breakMs : Nat} (hb : s.settings.beamMinimumMs ≤ min breakMs s.ms) (x : State) :
      (if s.isBody breakMs then x else s) = x := if_pos ((s.isBody_iff breakMs).2 hb)
  refine ⟨fun n hr hst ha => ?_, fun n breakMs hr hst hb => ?_, fun breakMs ho hb => ⟨fun w hw => ?_, fun hw => ?_⟩⟩
  · exact (State.reverseDone_underran h ha hr hst).exec_next hs rfl (fun m => s.withLane_lane_txn n m rfl)
      (exec_rotateRevDone n s)
  · have heffect := State.laneBody_underran h hr hst
    rw [← hbody hb (s.laneBody n)] at heffect
    exact heffect.exec_next hs rfl (fun m => s.withLane_lane_txn n m rfl) (exec_body n breakMs s)
  · have heffect := State.gateBody_underran_of_window h ho hw
    rw [← hbody hb s.gateBody] at heffect
    refine heffect.exec_next hs ?_ (fun m => rfl) (exec_lgBeamBody breakMs s)
    split <;> simp [Maze.underrun]
  · have heffect := State.gateBody_underran_of_none h ho hw
    rw [← hbody hb s.gateBody] at heffect
    exact heffect.exec_next hs rfl (fun m => rfl) (exec_lgBeamBody breakMs s)

end Sys2Proof.Machine
end

section
/-! PROOFS. What the commands but those of the gate make of the maze: the gate, its inputs and its window stay, and a
count in range stays in range (R94, R95, R103), operation by operation, in the order of the model's files. -/

namespace Sys2Proof.Machine

/-- From `m` to `m'` the gate, its inputs and its window stay, and a count in range stays in range. -/
structure Maze.KeepsGate (m m' : Maze) : Prop where
  gate : m'.gate = m.gate
  liftRun : m'.liftRun = m.liftRun
  loadingHold : m'.loadingHold = m.loadingHold
  window : m'.window = m.window
  count : m.count ≤ 255 → m'.count ≤ 255

theorem Maze.KeepsGate.refl (m : Maze) : m.KeepsGate m := ⟨rfl, rfl, rfl, rfl, id⟩

theorem Maze.KeepsGate.trans {m m' m'' : Maze} (h : m.KeepsGate m') (h' : m'.KeepsGate m'') : m.KeepsGate m'' :=
  ⟨h'.gate.trans h.gate, h'.liftRun.trans h.liftRun, h'.loadingHold.trans h.loadingHold, h'.window.trans h.window,
    h'.count ∘ h.count⟩

section Keeps

variable {m : Maze} {s : State}

/-- What each lane in turn keeps, all of them keep. -/
theorem State.keepsGate_foldl {f : State → LaneId → State} (lanes : List LaneId)
    (hf : ∀ (x : State) (n : LaneId), m.KeepsGate x.maze → m.KeepsGate (f x n).maze) (h : m.KeepsGate s.maze) :
    m.KeepsGate (lanes.foldl f s).maze := by
  induction lanes generalizing s with
  | nil => exact h
  | cons n lanes ih => exact ih (hf s n h)

/-! ### Credits, decrements and counters -/

@[simp] theorem State.keepsGate_credit (k : Nat) (h : m.KeepsGate s.maze) : m.KeepsGate (s.credit k).maze :=
  h.trans ⟨rfl, rfl, rfl, rfl, fun _ => Nat.min_le_left _ _⟩

@[simp] theorem State.keepsGate_countLoading (f : LoadingCounters → LoadingCounters) (h : m.KeepsGate s.maze) :
    m.KeepsGate (s.countLoading f).maze :=
  h.trans ⟨rfl, rfl, rfl, rfl, id⟩

@[simp] theorem State.keepsGate_decrement (h : m.KeepsGate s.maze) : m.KeepsGate s.decrement.maze := by
  unfold State.decrement
  split
  · simp [h]
  · exact h.trans ⟨rfl, rfl, rfl, rfl, fun hc => (Nat.sub_le _ _).trans hc⟩

/-! ### The operations of the lanes -/

@[simp] theorem State.keepsGate_countFree (n : LaneId) (w : PassageWindow) (h : m.KeepsGate s.maze) :
    m.KeepsGate (s.countFree n w).maze := by
  unfold State.countFree
  split <;> simp [h]

@[simp] theorem State.keepsGate_closeLateTrail (n : LaneId) (h : m.KeepsGate s.maze) :
    m.KeepsGate (s.closeLateTrail n).maze := by
  unfold State.closeLateTrail
  split
  · split <;> simp [h]
  · exact h

@[simp] theorem State.keepsGate_takeRole (n : LaneId) (r : Role) (h : m.KeepsGate s.maze) :
    m.KeepsGate (s.takeRole n r).maze := by
  have hclosed := State.keepsGate_closeLateTrail n h
  simp only [State.takeRole]
  (repeat' split) <;> simp [hclosed]

@[simp] theorem State.keepsGate_comeToRest (n : LaneId) (h : m.KeepsGate s.maze) :
    m.KeepsGate (s.comeToRest n).maze := by
  unfold State.comeToRest
  split <;> simp [h]

@[simp] theorem State.keepsGate_refuse (n : LaneId) (e : Display) (days : Nat) (h : m.KeepsGate s.maze) :
    m.KeepsGate (s.refuse n e days).maze := by
  simp [State.refuse, h]

@[simp] theorem State.keepsGate_lapse (n : LaneId) (h : m.KeepsGate s.maze) : m.KeepsGate (s.lapse n).maze := by
  unfold State.lapse
  split <;> simp [h]

@[simp] theorem State.keepsGate_passageOutcome (n : LaneId) (h : m.KeepsGate s.maze) :
    m.KeepsGate (s.passageOutcome n).maze := by
  unfold State.passageOutcome
  split <;> simp [h]

/-! ### Free-flow -/

@[simp] theorem State.keepsGate_leaveFreeFlow (n : LaneId) (h : m.KeepsGate s.maze) :
    m.KeepsGate (s.leaveFreeFlow n).maze := by
  unfold State.leaveFreeFlow
  split
  · simp [h]
  · split <;> simp [h]

@[simp] theorem State.keepsGate_closeFreeWindow (n : LaneId) (h : m.KeepsGate s.maze) :
    m.KeepsGate (s.closeFreeWindow n).maze := by
  unfold State.closeFreeWindow
  refine State.keepsGate_leaveFreeFlow n ?_
  split <;> simp [h]

@[simp] theorem State.keepsGate_endTransactionFree (n : LaneId) (h : m.KeepsGate s.maze) :
    m.KeepsGate (s.endTransactionFree n).maze := by
  unfold State.endTransactionFree
  split <;> simp [h]

@[simp] theorem State.keepsGate_beginFreeFlowLane (n : LaneId) (h : m.KeepsGate s.maze) :
    m.KeepsGate (s.beginFreeFlowLane n).maze := by
  have hended : m.KeepsGate ((s.closeLateTrail n).endTransactionFree n).maze :=
    State.keepsGate_endTransactionFree n (State.keepsGate_closeLateTrail n h)
  unfold State.beginFreeFlowLane
  split
  · dsimp only
    split <;> simp [hended]
  · exact h

@[simp] theorem State.keepsGate_endFreeFlowLane (n : LaneId) (h : m.KeepsGate s.maze) :
    m.KeepsGate (s.endFreeFlowLane n).maze := by
  unfold State.endFreeFlowLane
  split <;> simp [h]

@[simp] theorem State.keepsGate_freeFlowChange (before : Bool) (h : m.KeepsGate s.maze) :
    m.KeepsGate (s.freeFlowChange before).maze := by
  unfold State.freeFlowChange
  split
  · exact State.keepsGate_foldl _ (fun _ n => State.keepsGate_beginFreeFlowLane n) h
  · split
    · exact State.keepsGate_foldl _ (fun _ n => State.keepsGate_endFreeFlowLane n) h
    · exact h

/-! ### The verdicts -/

@[simp] theorem State.keepsGate_grant (n : LaneId) (h : m.KeepsGate s.maze) : m.KeepsGate (s.grant n).maze := by
  unfold State.grant
  split
  · exact h
  · split
    · split <;> simp [h]
    · simp [h]

@[simp] theorem State.keepsGate_ticketFromRecord (n : LaneId) (h : m.KeepsGate s.maze) :
    m.KeepsGate (s.ticketFromRecord n).maze := by
  unfold State.ticketFromRecord State.ticketCapacity
  (repeat' split) <;> simp [h]

@[simp] theorem State.keepsGate_settleFromRecord (n : LaneId) (h : m.KeepsGate s.maze) :
    m.KeepsGate (s.settleFromRecord n).maze := by
  simp only [State.settleFromRecord, State.settleWrite]
  (repeat' split) <;> simp [h]

@[simp] theorem State.keepsGate_settled (n : LaneId) (amount : Nat) (h : m.KeepsGate s.maze) :
    m.KeepsGate (s.settled n amount).maze := by
  simp [State.settled, h]

@[simp] theorem State.keepsGate_fromRecord (n : LaneId) (h : m.KeepsGate s.maze) :
    m.KeepsGate (s.fromRecord n).maze := by
  unfold State.fromRecord
  split <;> simp [h]

@[simp] theorem State.keepsGate_resolveComplete (n : LaneId) (e : DeferredEntry) (h : m.KeepsGate s.maze) :
    m.KeepsGate (s.resolveComplete n e).maze := by
  unfold State.resolveComplete
  split
  · split <;> simp [h]
  · rename_i s' hs'
    obtain ⟨-, -, -, -, -, -, -, -, -, hmaze, -⟩ := State.deferredComplete_frame s s' e hs'
    have h' : m.KeepsGate s'.maze := by rwa [hmaze]
    split
    · split <;> simp [h']
    · simp [h']

@[simp] theorem State.keepsGate_resolveStep (n : LaneId) (h : m.KeepsGate s.maze) :
    m.KeepsGate (s.resolveStep n).maze := by
  unfold State.resolveStep
  (repeat' split) <;> simp [h]

@[simp] theorem State.keepsGate_verdict (n : LaneId) (h : m.KeepsGate s.maze) : m.KeepsGate (s.verdict n).maze := by
  unfold State.verdict
  (repeat' split) <;> simp [h]

/-! ### The ends of a write -/

theorem State.keepsGate_resolutionOutcome (n : LaneId) (record : Record) (o : WriteOutcome)
    (h : m.KeepsGate s.maze) : m.KeepsGate (s.resolutionOutcome n record o).maze := by
  simp only [State.resolutionOutcome]
  (repeat' split) <;> simp [h]

theorem State.keepsGate_grantOutcome (n : LaneId) (record : Record) (o : WriteOutcome) (h : m.KeepsGate s.maze) :
    m.KeepsGate (s.grantOutcome n record o).maze := by
  simp only [State.grantOutcome]
  (repeat' split) <;> simp [h]

theorem State.keepsGate_settlementOutcome (n : LaneId) (record : Record) (o : WriteOutcome)
    (h : m.KeepsGate s.maze) : m.KeepsGate (s.settlementOutcome n record o).maze := by
  simp only [State.settlementOutcome]
  (repeat' split) <;> simp [h]

@[simp] theorem State.keepsGate_endWrite (n : LaneId) (w : WriteRequest) (o : WriteOutcome)
    (h : m.KeepsGate s.maze) : m.KeepsGate (s.endWrite n w o).maze := by
  simp only [State.endWrite, State.sendWaiting_frame, State.deliverOutcome]
  split
  · exact State.keepsGate_resolutionOutcome n _ o (by simpa)
  · exact State.keepsGate_grantOutcome n _ o (by simpa)
  · exact State.keepsGate_settlementOutcome n _ o (by simpa)
  · split <;> simp [h]
  · split <;> simp [h]
  · simp [h]

/-! ### The reader ports -/

@[simp] theorem State.keepsGate_readerDown (n : LaneId) (h : m.KeepsGate s.maze) :
    m.KeepsGate (s.readerDown n).maze := by
  unfold State.readerDown
  (repeat' split) <;> simp [h]

@[simp] theorem State.keepsGate_setReaderStatus (n : LaneId) (st : ReaderStatus) (h : m.KeepsGate s.maze) :
    m.KeepsGate (s.setReaderStatus n st).maze := by
  simp only [State.setReaderStatus]
  (repeat' split) <;> simp [h]

theorem State.keepsGate_goodBeat (n : LaneId) (ok : Bool) (h : m.KeepsGate s.maze) :
    m.KeepsGate (s.goodBeat n ok).maze := by
  simp [State.goodBeat, h]

theorem State.keepsGate_heartbeatLost (n : LaneId) (h : m.KeepsGate s.maze) :
    m.KeepsGate (s.heartbeatLost n).maze := by
  unfold State.heartbeatLost
  split <;> simp [h]

theorem State.keepsGate_presentCard (n : LaneId) (serial : Serial) (record : Record) (h : m.KeepsGate s.maze) :
    m.KeepsGate (s.presentCard n serial record).maze := by
  unfold State.presentCard State.takeCard
  (repeat' split) <;> simp [h]

theorem State.keepsGate_cardGone (n : LaneId) (serial : Serial) (h : m.KeepsGate s.maze) :
    m.KeepsGate (s.cardGone n serial).maze := by
  simp only [State.cardGone]
  (repeat' split) <;> simp [h]

theorem State.keepsGate_writeResult (n : LaneId) (serial : Serial) (o : WriteOutcome) (h : m.KeepsGate s.maze) :
    m.KeepsGate (s.writeResult n serial o).maze := by
  unfold State.writeResult
  (repeat' split) <;> simp [h]

theorem State.keepsGate_writeTimeout (n : LaneId) (h : m.KeepsGate s.maze) :
    m.KeepsGate (s.writeTimeout n).maze := by
  unfold State.writeTimeout
  (repeat' split) <;> simp [h]

/-! ### The arm, the beam and the lane timers -/

theorem State.keepsGate_forwardStart (n : LaneId) (h : m.KeepsGate s.maze) :
    m.KeepsGate (s.forwardStart n).maze := by
  have hclose : m.KeepsGate (s.closeTrailWindow n).maze := by
    unfold State.closeTrailWindow
    split <;> simp [h]
  simp only [State.forwardStart]
  (repeat' split) <;> simp [h, hclose]

@[simp] theorem State.keepsGate_forcedPassage (n : LaneId) (h : m.KeepsGate s.maze) :
    m.KeepsGate (s.forcedPassage n).maze := by
  simp [State.forcedPassage, h]

@[simp] theorem State.keepsGate_completeRotation (n : LaneId) (h : m.KeepsGate s.maze) :
    m.KeepsGate (s.completeRotation n).maze := by
  simp only [State.completeRotation, State.completeWindow]
  (repeat' split) <;> simp [h]

theorem State.keepsGate_forwardDone (n : LaneId) (h : m.KeepsGate s.maze) : m.KeepsGate (s.forwardDone n).maze := by
  simp only [State.forwardDone]
  (repeat' split) <;> simp [h]

theorem State.keepsGate_reverseDone (n : LaneId) (h : m.KeepsGate s.maze) : m.KeepsGate (s.reverseDone n).maze := by
  simp only [State.reverseDone]
  (repeat' split) <;> simp [h]

@[simp] theorem State.keepsGate_abandonRotation (n : LaneId) (h : m.KeepsGate s.maze) :
    m.KeepsGate (s.abandonRotation n).maze := by
  simp only [State.abandonRotation]
  (repeat' split) <;> simp [h]

theorem State.keepsGate_armReturn (n : LaneId) (h : m.KeepsGate s.maze) : m.KeepsGate (s.armReturn n).maze := by
  simp only [State.armReturn]
  (repeat' split) <;> simp [h]

theorem State.keepsGate_laneBody (n : LaneId) (h : m.KeepsGate s.maze) : m.KeepsGate (s.laneBody n).maze := by
  unfold State.laneBody State.ticketBody
  (repeat' split) <;> simp [h]

theorem State.keepsGate_grantTimeout (n : LaneId) (h : m.KeepsGate s.maze) :
    m.KeepsGate (s.grantTimeout n).maze := by
  simp only [State.grantTimeout]
  (repeat' split) <;> simp [h]

theorem State.keepsGate_trailTimeout (n : LaneId) (h : m.KeepsGate s.maze) :
    m.KeepsGate (s.trailTimeout n).maze := by
  unfold State.trailTimeout
  (repeat' split) <;> simp [h]

theorem State.keepsGate_holdTimeout (n : LaneId) (h : m.KeepsGate s.maze) : m.KeepsGate (s.holdTimeout n).maze := by
  simp only [State.holdTimeout]
  (repeat' split) <;> simp [h]

/-! ### The Time Base -/

@[simp] theorem State.keepsGate_clearDayCounters (h : m.KeepsGate s.maze) : m.KeepsGate s.clearDayCounters.maze :=
  h.trans ⟨rfl, rfl, rfl, rfl, id⟩

@[simp] theorem State.keepsGate_openDay (day openMinute closeMinute : Nat) (h : m.KeepsGate s.maze) :
    m.KeepsGate (s.openDay day openMinute closeMinute).maze := by
  simp only [State.openDay]
  (repeat' split) <;> simp [h]

@[simp] theorem State.keepsGate_endInterval (short : Bool) (seconds : Nat) (h : m.KeepsGate s.maze) :
    m.KeepsGate (s.endInterval short seconds).maze := by
  have hqueued (r : Outgoing) : m.KeepsGate (s.bringRunTimes.queueReport r).maze := by simpa
  exact (hqueued _).trans ⟨rfl, rfl, rfl, rfl, id⟩

theorem State.keepsGate_intervalEndEvent (h : m.KeepsGate s.maze) : m.KeepsGate s.intervalEndEvent.maze := by
  unfold State.intervalEndEvent
  split <;> simp [h]

@[simp] theorem State.keepsGate_intervalCommit (old : Option Settings) (h : m.KeepsGate s.maze) :
    m.KeepsGate (s.intervalCommit old).maze := by
  simp only [State.intervalCommit]
  (repeat' split) <;> simp [h]

/-! ### A COMMIT, the lanes at the warm reset, and the end of an event -/

@[simp] theorem State.keepsGate_commitRole (n : LaneId) (r : Role) (h : m.KeepsGate s.maze) :
    m.KeepsGate (s.commitRole n r).maze := by
  simp only [State.commitRole]
  (repeat' split) <;> simp [h]

@[simp] theorem State.keepsGate_commitRoles (h : m.KeepsGate s.maze) : m.KeepsGate s.commitRoles.maze := by
  unfold State.commitRoles
  split
  · exact h
  · exact State.keepsGate_foldl _ (fun _ n => State.keepsGate_commitRole n _) h

theorem State.keepsGate_swapTables (named : List TableId) (h : m.KeepsGate s.maze) :
    m.KeepsGate (s.swapTables named).maze := by
  simp only [State.swapTables, State.commitWatchSet]
  (repeat' split) <;> simp [h]

@[simp] theorem State.keepsGate_warmLane (n : LaneId) (h : m.KeepsGate s.maze) : m.KeepsGate (s.warmLane n).maze := by
  have hend (x : State) (b : Bool) (hx : m.KeepsGate x.maze) : m.KeepsGate (x.endTransactionWarm n b).maze := by
    unfold State.endTransactionWarm
    (repeat' split) <;> simp [hx]
  have hrest (x : State) (hx : m.KeepsGate x.maze) : m.KeepsGate (x.warmLaneRest n).maze := by
    simp only [State.warmLaneRest]
    (repeat' split) <;> simp [hx]
  simp only [State.warmLane, State.restartHeartbeat_frame]
  exact hrest _ (hend _ _ (by simpa))

@[simp] theorem State.keepsGate_givePlaces (k : Nat) (h : m.KeepsGate s.maze) :
    m.KeepsGate (s.givePlaces k).maze := by
  induction k generalizing s with
  | zero => exact h
  | succ k ih =>
    unfold State.givePlaces
    (repeat' split) <;> simp [h, ih]

theorem State.keepsGate_event {f : State → State} (h : m.KeepsGate (f s).maze) : m.KeepsGate (s.event f).maze := by
  simp [State.event, State.finish, h]

end Keeps

end Sys2Proof.Machine
end

section
/-! PROOFS. Every step keeps the maze count in range, the gate as its inputs say and an open window below its seats
(R94, R103, R108). -/

namespace Sys2Proof.Machine

/-- From `s` to `t` the three laws of the maze and the gate are kept. -/
structure State.KeepsMazeLaws (s t : State) : Prop where
  range : s.MazeInRange → t.MazeInRange
  gate : s.GateLaw → t.GateLaw
  seats : s.SeatsLaw → t.SeatsLaw

section Kept

variable {s t u : State}

theorem State.KeepsMazeLaws.refl (s : State) : s.KeepsMazeLaws s := ⟨id, id, id⟩

theorem State.KeepsMazeLaws.trans (h : s.KeepsMazeLaws t) (h' : t.KeepsMazeLaws u) : s.KeepsMazeLaws u :=
  ⟨h'.range ∘ h.range, h'.gate ∘ h.gate, h'.seats ∘ h.seats⟩

/-- Where the gate with its inputs and its window stays and the count stays in range, so do the laws, as long as the
seats in force do. -/
theorem State.KeepsMazeLaws.of_seats (hm : s.maze.KeepsGate t.maze) (ho : t.ownAddress = s.ownAddress)
    (hs : 1 ≤ s.settings.seats → 1 ≤ t.settings.seats) : s.KeepsMazeLaws t where
  range := hm.count
  gate h := by
    rwa [State.GateLaw, Maze.gateFits, State.passThrough, hm.gate, hm.window, hm.liftRun, hm.loadingHold, ho]
  seats h := by
    obtain ⟨hloaded, hseats⟩ := h
    exact ⟨by rwa [hm.window], hs hseats⟩

theorem State.KeepsMazeLaws.of_keepsGate (hm : s.maze.KeepsGate t.maze) (ho : t.ownAddress = s.ownAddress)
    (ht : t.tables = s.tables) : s.KeepsMazeLaws t :=
  .of_seats hm ho (by rw [State.settings, State.settings, ht]; exact id)

theorem State.KeepsMazeLaws.of_frame (hm : t.maze = s.maze) (ho : t.ownAddress = s.ownAddress)
    (ht : t.tables = s.tables) : s.KeepsMazeLaws t :=
  .of_keepsGate (hm ▸ .refl _) ho ht

theorem State.KeepsMazeLaws.event {f : State → State} (h : s.KeepsMazeLaws (f s)) : s.KeepsMazeLaws (s.event f) :=
  h.trans (.of_keepsGate (State.keepsGate_event (.refl _)) (by simp [State.event]) (by simp [State.event]))

end Kept

/-! ### The gate by its inputs (R103, R104) -/

section Gate

variable {s t : State}

theorem State.passThrough_or_address (s : State) : s.passThrough = true ∨ s.ownAddress.isSome = true := by
  rw [State.passThrough]
  cases s.ownAddress <;> simp

/-- What the law says of a gate that stands otherwise than OPEN: no window is open. -/
theorem State.GateLaw.window_none (h : s.GateLaw) (hg : s.maze.gate ≠ .opened) : s.maze.window = none := by
  obtain ⟨hopen, -⟩ := h
  simpa using hopen.not.1 hg

/-- The gate of a pass-through chip stays STOPPED, and no window opens there (R114). -/
theorem State.GateLaw.of_passThrough (h : s.GateLaw) (hp : s.passThrough = true) :
    s.maze.gate = .stopped ∧ s.maze.window = none := by
  have hstopped : s.maze.gate = .stopped := by simpa [hp] using h.2
  exact ⟨hstopped, h.window_none (by simp [hstopped])⟩

theorem State.GateLaw.fits (h : s.GateLaw) (hp : s.passThrough = false) : s.maze.gateFits = true := by
  simpa [hp] using h.2

/-- While a window is open the lift runs and loading is not held. -/
theorem State.GateLaw.running_of_window (h : s.GateLaw) (hw : s.maze.window.isSome = true) :
    s.passThrough = false ∧ s.maze.liftRun = true ∧ s.maze.loadingHold = false := by
  have hopen := h.1.2 hw
  have hp : s.passThrough = false := by
    by_contra hp
    rw [(h.of_passThrough (by simpa using hp)).1] at hopen
    exact absurd hopen (by decide)
  exact ⟨hp, by simpa [Maze.gateFits, hopen] using h.fits hp⟩

/-- With no window open the law asks for the gate that the inputs give. -/
theorem State.gateLaw_of_closed (hp : t.passThrough = false) (hw : t.maze.window = none)
    (hg : t.maze.gate = t.maze.warmGate) : t.GateLaw := by
  rw [State.GateLaw, Maze.gateFits, hp, hw, hg, Maze.warmGate]
  cases t.maze.liftRun <;> cases t.maze.loadingHold <;> simp

/-- On a pass-through chip the law asks for a gate that stands STOPPED with no window open. -/
theorem State.gateLaw_of_stopped (hp : t.passThrough = true) (hg : t.maze.gate = .stopped)
    (hw : t.maze.window = none) : t.GateLaw := by
  rw [State.GateLaw, hp, hg, hw]
  simp

/-- Where no window is open any more, the laws are those of the count and of the gate. -/
theorem State.KeepsMazeLaws.of_closed (hc : t.maze.count ≤ s.maze.count) (hw : t.maze.window = none)
    (ht : t.tables = s.tables) (hg : s.GateLaw → t.GateLaw) : s.KeepsMazeLaws t where
  range h := hc.trans h
  gate := hg
  seats h := by
    obtain ⟨-, hseats⟩ := h
    refine ⟨by simp [hw], ?_⟩
    rwa [State.settings, ht]

/-- A latch touches none of the laws. -/
theorem State.KeepsMazeLaws.latch (h : s.KeepsMazeLaws t) (f : Flag) (detail : Nat) :
    s.KeepsMazeLaws (t.latch f detail) :=
  h.trans (.of_frame (by simp) (by simp) (by simp))

/-! ### What each input of the gate keeps -/

/-- The lift starts: no window was open while it stood, and the gate follows it (R104). -/
theorem State.keepsMazeLaws_liftRise (ho : s.ownAddress.isSome = true) (h : s.maze.liftRun = false) :
    s.KeepsMazeLaws (s.liftChange true) := by
  rw [State.liftChange_rise ho h]
  refine State.KeepsMazeLaws.latch ?_ _ _
  refine ⟨id, fun hg => ?_, id⟩
  have hclosed : s.maze.window = none := by
    by_contra hw
    obtain ⟨-, hlift, -⟩ := hg.running_of_window (Option.isSome_iff_ne_none.2 hw)
    rw [h] at hlift
    exact absurd hlift (by decide)
  exact State.gateLaw_of_closed (State.passThrough_of_address ho) hclosed rfl

/-- The lift stops: the window closes (R104). -/
theorem State.keepsMazeLaws_liftFall (ho : s.ownAddress.isSome = true) (h : s.maze.liftRun = true) :
    s.KeepsMazeLaws (s.liftChange false) := by
  rw [State.liftChange_fall ho h]
  refine State.KeepsMazeLaws.latch ?_ _ _
  refine .of_closed s.maze.recorded_frame.1.le s.maze.recorded_window rfl fun _ => ?_
  exact State.gateLaw_of_closed (State.passThrough_of_address ho) s.maze.recorded_window rfl

theorem State.keepsMazeLaws_liftChange (s : State) (level : Bool) : s.KeepsMazeLaws (s.liftChange level) := by
  by_cases hl : s.maze.liftRun = level
  · rw [← hl, s.liftChange_same]
    exact .refl s
  · rcases s.passThrough_or_address with hp | ho
    · rw [State.liftChange, if_neg hl, if_pos hp]
      refine ⟨id, fun hg => ?_, id⟩
      obtain ⟨hstopped, hclosed⟩ := hg.of_passThrough hp
      exact State.gateLaw_of_stopped hp hstopped hclosed
    · cases level with
      | true => exact State.keepsMazeLaws_liftRise ho (by simpa using hl)
      | false => exact State.keepsMazeLaws_liftFall ho (by simpa using hl)

/-- A window opens with a seat left, in WAITING or in the place of another (R106, R107). -/
theorem State.keepsMazeLaws_openedAt (ho : s.ownAddress.isSome = true)
    (hg : s.maze.gate = .waiting ∨ s.maze.gate = .opened) {m : Maze} (hc : m.count = s.maze.count)
    (hl : m.liftRun = s.maze.liftRun) (hh : m.loadingHold = s.maze.loadingHold) :
    s.KeepsMazeLaws { s with maze := m.openedAt s.settings s.ms } where
  range := hc.le.trans
  gate h := by
    have hp := State.passThrough_of_address ho
    have hfits := h.fits hp
    have hp' : ({ s with maze := m.openedAt s.settings s.ms } : State).passThrough = false := hp
    rw [State.GateLaw, hp']
    rcases hg with hg | hg <;> simpa [Maze.openedAt, Maze.gateFits, hg, hl, hh] using hfits
  seats h := by
    obtain ⟨-, hseats⟩ := h
    refine ⟨fun w hw => ?_, hseats⟩
    cases hw
    exact hseats

theorem State.keepsMazeLaws_chairPulse (s : State) : s.KeepsMazeLaws s.chairPulse := by
  rcases s.passThrough_or_address with hp | ho
  · rw [State.chairPulse, if_pos hp]
    exact .refl s
  · cases hg : s.maze.gate with
    | stopped =>
      rw [State.chairPulse_of_stopped hg]
      exact .refl s
    | waiting =>
      rw [State.chairPulse_of_waiting ho hg]
      exact State.keepsMazeLaws_openedAt ho (.inl hg) rfl rfl rfl
    | opened =>
      rw [State.chairPulse_of_opened ho hg]
      exact State.keepsMazeLaws_openedAt ho (.inr hg) (by simp) (by simp) (by simp)
    | held =>
      rw [State.chairPulse_of_held ho hg]
      exact .of_keepsGate (State.keepsGate_countLoading _ (.refl _)) rfl rfl

/-- A window that was open in `s` closes into WAITING, since the lift runs and loading is not held (R110). -/
theorem State.keepsMazeLaws_closeWaiting {x : State} (hw : s.maze.window.isSome = true)
    (hm : x.maze.count ≤ s.maze.count ∧ x.maze.liftRun = s.maze.liftRun ∧ x.maze.loadingHold = s.maze.loadingHold)
    (ho : x.ownAddress = s.ownAddress) (ht : x.tables = s.tables) :
    s.KeepsMazeLaws (x.closeChairWindow.setGate .waiting) := by
  obtain ⟨hcount, hlift, hhold⟩ := hm
  rw [State.closeChairWindow_setGate]
  refine .of_closed (by simpa using hcount) x.maze.recorded_window ht fun h => ?_
  obtain ⟨hp, hruns, hfree⟩ := h.running_of_window hw
  refine State.gateLaw_of_closed ?_ x.maze.recorded_window (by simp [Maze.warmGate, hlift, hhold, hruns, hfree])
  rw [State.passThrough, ← hp, State.passThrough]
  exact congrArg _ ho

theorem State.keepsMazeLaws_chairTimeout (s : State) : s.KeepsMazeLaws s.chairTimeout := by
  unfold State.chairTimeout
  split
  case h_1 w hw =>
    split
    · exact State.keepsMazeLaws_closeWaiting (by simp [hw]) ⟨le_rfl, rfl, rfl⟩ rfl rfl
    · exact .refl s
  case h_2 => exact .refl s

theorem State.decrement_count_le (s : State) : s.decrement.maze.count ≤ s.maze.count := by
  unfold State.decrement
  split
  · simp [State.countLoading]
  · exact Nat.sub_le _ _

/-- A rider loaded into a window that keeps a seat (R108). -/
theorem State.keepsMazeLaws_loaded {w : ChairWindow} (hw : s.maze.window = some w) (hlast : w.loaded + 1 ≠ w.seats) :
    s.KeepsMazeLaws { s with maze := { s.maze with window := some { w with loaded := w.loaded + 1 } } } where
  range := id
  gate h := by
    obtain ⟨hopen, hfits⟩ := h
    rw [hw] at hopen
    exact ⟨hopen, hfits⟩
  seats h := by
    obtain ⟨hloaded, hseats⟩ := h
    refine ⟨fun x hx => ?_, hseats⟩
    cases hx
    have hroom := hloaded w hw
    show w.loaded + 1 < w.seats
    omega

/-- A rider is loaded: the window has a seat left, or its last seat closes it (R108). -/
theorem State.keepsMazeLaws_gateBody (s : State) : s.KeepsMazeLaws s.gateBody := by
  unfold State.gateBody
  split
  · exact .refl s
  · split
    case h_1 w hw =>
      dsimp only
      split
      · have hkeeps := State.keepsGate_decrement (.refl
          ({ s with maze := { s.maze with window := some { w with loaded := w.loaded + 1 } } } : State).maze)
        exact State.keepsMazeLaws_closeWaiting (by simp [hw])
          ⟨State.decrement_count_le _, hkeeps.liftRun, hkeeps.loadingHold⟩ (by simp) (by simp)
      · rename_i hlast
        exact (State.keepsMazeLaws_loaded hw hlast).trans
          (.of_keepsGate (State.keepsGate_decrement (.refl _)) (by simp) (by simp))
    case h_2 => exact .of_keepsGate (by simp [Maze.KeepsGate.refl]) (by simp) (by simp)

theorem Maze.holding_of_closed {m : Maze} (hg : m.gate ≠ .opened) (on : Bool) :
    (m.holding on).window = m.window ∧ (m.gate = .stopped → (m.holding on).gate = .stopped)
      ∧ (m.gateFits = true → (m.holding on).gate = (m.holding on).warmGate) := by
  cases h : m.gate <;> cases on <;> simp_all [Maze.holding, Maze.gateFits, Maze.warmGate]

/-- A window is open only while loading is not held: the hold closes it, and its clearing changes nothing. -/
theorem State.keepsMazeLaws_holding_of_opened (hg : s.maze.gate = .opened) (on : Bool) :
    s.KeepsMazeLaws { s with maze := s.maze.holding on } := by
  cases on with
  | true =>
    have hheld : s.maze.holding true = { s.maze.recorded with loadingHold := true, gate := .held } := by
      simp only [Maze.holding, hg]
    rw [hheld]
    refine .of_closed s.maze.recorded_frame.1.le s.maze.recorded_window rfl fun h => ?_
    obtain ⟨hp, hlift, -⟩ := h.running_of_window (h.1.1 hg)
    exact State.gateLaw_of_closed hp s.maze.recorded_window (by simp [Maze.warmGate, hlift])
  | false =>
    have hclear : s.maze.holding false = { s.maze with loadingHold := false } := by
      simp only [Maze.holding, hg]
    rw [hclear]
    refine ⟨id, fun h => ?_, id⟩
    obtain ⟨-, -, hhold⟩ := h.running_of_window (h.1.1 hg)
    rwa [← hhold]

/-- The setting follows the command, and the gate the setting (R105). -/
theorem State.keepsMazeLaws_setLoadingHold (s : State) (on : Bool) : s.KeepsMazeLaws (s.setLoadingHold on) := by
  rw [State.setLoadingHold_eq]
  by_cases hg : s.maze.gate = .opened
  · exact State.keepsMazeLaws_holding_of_opened hg on
  · obtain ⟨hwindow, hstopped, hfits⟩ := Maze.holding_of_closed hg on
    refine ⟨(s.maze.holding_count on).le.trans, fun h => ?_, fun ⟨hloaded, hseats⟩ => ⟨?_, hseats⟩⟩
    · have hclosed := hwindow.trans (h.window_none hg)
      rcases s.passThrough_or_address with hp | ho
      · exact State.gateLaw_of_stopped hp (hstopped (h.of_passThrough hp).1) hclosed
      · have hp := State.passThrough_of_address ho
        exact State.gateLaw_of_closed hp hclosed (hfits (h.fits hp))
    · exact hwindow ▸ hloaded

theorem State.keepsMazeLaws_warmMaze (s : State) : s.KeepsMazeLaws s.warmMaze := by
  rcases s.passThrough_or_address with hp | ho
  · have hwarm : s.warmMaze = { s with maze := s.maze.recorded } := by
      rw [State.warmMaze, State.closeChairWindow_eq]
      exact if_pos hp
    rw [hwarm]
    refine .of_closed s.maze.recorded_frame.1.le s.maze.recorded_window rfl fun h => ?_
    exact State.gateLaw_of_stopped hp (s.maze.recorded_frame.2.1.trans (h.of_passThrough hp).1) s.maze.recorded_window
  · rw [State.warmMaze_eq ho]
    refine .of_closed s.maze.recorded_frame.1.le s.maze.recorded_window rfl fun h => ?_
    exact State.gateLaw_of_closed (State.passThrough_of_address ho) s.maze.recorded_window (by simp [Maze.warmGate])

end Gate

/-! ### Messages from the loop -/

section Messages

variable {s : State} {m : Arrival}

theorem State.badMessage_frame (s : State) : s.badMessage.maze = s.maze ∧ s.badMessage.tables = s.tables
    ∧ s.badMessage.ownAddress = s.ownAddress := by
  simp only [State.badMessage, State.linkLost]
  (repeat' split) <;> simp

theorem State.forward_frame (s : State) (type : Byte) (m : Arrival) : (s.forward type m).maze = s.maze
    ∧ (s.forward type m).tables = s.tables ∧ (s.forward type m).ownAddress = s.ownAddress := by
  unfold State.forward
  split <;> exact ⟨rfl, rfl, rfl⟩

/-- What a message leaves beside the loop is what its delivery leaves, if it is delivered at all. -/
theorem State.receive_delivers (s : State) (type : Byte) (m : Arrival) (f : State → State) :
    ∃ x, (x = s ∨ x = f s.goodMessage) ∧ (s.receive type m f).maze = x.maze
      ∧ (s.receive type m f).tables = x.tables ∧ (s.receive type m f).ownAddress = x.ownAddress := by
  unfold State.receive
  split
  · exact ⟨s, .inl rfl, s.badMessage_frame⟩
  · dsimp only
    split
    · exact ⟨s, .inl rfl, rfl, rfl, rfl⟩
    · split
      · exact ⟨s, .inl rfl, rfl, rfl, rfl⟩
      · split
        · exact ⟨s, .inl rfl, rfl, rfl, rfl⟩
        · split
          · exact ⟨_, .inr rfl, rfl, rfl, rfl⟩
          · split
            · split
              · exact ⟨s, .inl rfl, State.forward_frame _ type m⟩
              · exact ⟨_, .inr rfl, State.forward_frame _ type m⟩
            · exact ⟨s, .inl rfl, State.forward_frame _ type m⟩

/-- A message keeps the laws by its delivery. -/
theorem State.keepsMazeLaws_receive (type : Byte) (m : Arrival) {f : State → State}
    (h : ∀ x : State, x.KeepsMazeLaws (f x)) : s.KeepsMazeLaws (s.receive type m f) := by
  have hgood : s.KeepsMazeLaws s.goodMessage := .of_frame rfl rfl rfl
  obtain ⟨x, hx, hmaze, htables, hown⟩ := s.receive_delivers type m f
  have hdelivered : s.KeepsMazeLaws x := by
    rcases hx with rfl | rfl
    · exact .refl x
    · exact hgood.trans (h _)
  exact hdelivered.trans (.of_frame hmaze hown htables)

theorem State.keepsMazeLaws_command (code : Byte) {body : State → CommandResult}
    (h : s.KeepsMazeLaws (body s).state) :
    s.KeepsMazeLaws (s.commandDelivered m fun x => x.takeCommand code body) := by
  unfold State.commandDelivered State.takeCommand
  split
  · dsimp only
    split
    · exact .of_frame rfl rfl rfl
    · exact h.trans (.of_frame (by simp) (by simp) (by simp))
  · exact .refl s

/-! ### The notices -/

theorem State.keepsMazeLaws_timeNotice (s : State) (m : Arrival) : s.KeepsMazeLaws (s.timeNotice m) := by
  unfold State.timeNotice State.badNotice
  (repeat' split) <;> exact .of_frame (by simp) (by simp) (by simp)

/-- A DAY_OPEN clears the day counters of the maze alone (R150). -/
theorem State.keepsMazeLaws_dayOpenNotice (s : State) (m : Arrival) : s.KeepsMazeLaws (s.dayOpenNotice m) := by
  unfold State.dayOpenNotice State.badNotice
  dsimp only
  split
  · exact .refl s
  · split
    · exact .of_keepsGate (State.keepsGate_openDay _ _ _ (.refl _)) (by simp) (by simp)
    · exact .of_frame (by simp) (by simp) (by simp)

theorem State.keepsMazeLaws_dayCloseNotice (s : State) (m : Arrival) : s.KeepsMazeLaws (s.dayCloseNotice m) := by
  unfold State.dayCloseNotice State.badNotice
  dsimp only
  (repeat' split) <;> exact .of_frame (by simp) (by simp) (by simp)

theorem State.keepsMazeLaws_passageReceived (s : State) (m : Arrival) : s.KeepsMazeLaws (s.passageReceived m) := by
  unfold State.passageReceived
  dsimp only
  (repeat' split) <;> exact .of_frame (by simp) (by simp) (by simp)

/-! ### The commands -/

/-- Before the settings are first committed six seats are in force, and settings in range have at least one (R29,
R107). -/
theorem seats_of_ranges {set : TableSet} (h : set.settings.all settingsRangesValid = true) :
    1 ≤ set.settingsInForce.seats := by
  rw [TableSet.settingsInForce]
  cases hset : set.settings with
  | none => decide
  | some st =>
    have hranges : settingsRangesValid st = true := by simpa [hset] using h
    simp only [settingsRangesValid, Bool.and_eq_true, decide_eq_true_eq] at hranges
    show 1 ≤ st.seats
    omega

/-- A COMMIT that names the settings passes their validation, so a seat is in force after it (R29, R180). -/
theorem seats_of_valid {named : List TableId} {shadows : Shadows} {committed : TableSet}
    (hvalid : firstInvalid named shadows committed = none) (h : 1 ≤ committed.settingsInForce.seats) :
    1 ≤ (tablesAfter named shadows committed).settingsInForce.seats := by
  by_cases hn : TableId.settings ∈ named
  · have hrow : tableValid .settings (shadows.get .settings) (tablesAfter named shadows committed) = true := by
      simpa using List.find?_eq_none.1 hvalid _ hn
    simp only [tableValid, Bool.and_eq_true] at hrow
    obtain ⟨⟨⟨hranges, -⟩, -⟩, -⟩ := hrow
    exact seats_of_ranges hranges
  · obtain ⟨-, -, -, -, -, -, -, hsettings⟩ := tablesAfter_parts named shadows committed
    simp only [if_neg hn] at hsettings
    rwa [TableSet.settingsInForce, hsettings]

theorem State.keepsMazeLaws_commitCommand (s : State) (bs : List Byte) :
    s.KeepsMazeLaws (s.commitCommand bs).state := by
  unfold State.commitCommand
  split
  · exact .refl s
  case h_2 named _ =>
    split
    · exact .refl s
    · split
      · exact .refl s
      case h_2 hvalid =>
        obtain ⟨-, hown, -⟩ := s.swapTables_keeps named
        obtain ⟨htables, -⟩ := s.swapTables_frame named
        refine .of_seats (State.keepsGate_swapTables named (.refl _)) hown fun hseats => ?_
        have hafter := seats_of_valid hvalid hseats
        rw [State.settings, State.done, htables]
        exact hafter

theorem State.keepsMazeLaws_loadCommand (s : State) (bs : List Byte) : s.KeepsMazeLaws (s.loadCommand bs).state := by
  unfold State.loadCommand
  (repeat' split) <;> exact .of_frame rfl rfl rfl

theorem State.keepsMazeLaws_laneCommand (s : State) (bs : List Byte) : s.KeepsMazeLaws (s.laneCommand bs).state := by
  unfold State.laneCommand State.done
  (repeat' split) <;> exact .of_frame (by simp [State.refused]) (by simp [State.refused]) (by simp [State.refused])

/-- A change of free-flow, by the pin or by the setting. -/
theorem State.keepsMazeLaws_freeFlowChange (s x : State) (before : Bool) (hm : x.maze = s.maze)
    (ho : x.ownAddress = s.ownAddress) (ht : x.tables = s.tables) : s.KeepsMazeLaws (x.freeFlowChange before) :=
  .of_keepsGate (State.keepsGate_freeFlowChange before (hm ▸ .refl _)) (by simpa) (by simpa)

theorem State.keepsMazeLaws_freeFlowCommand (s : State) (bs : List Byte) :
    s.KeepsMazeLaws (s.freeFlowCommand bs).state := by
  unfold State.freeFlowCommand
  split
  · exact .refl s
  · exact s.keepsMazeLaws_freeFlowChange _ _ rfl rfl rfl

theorem State.keepsMazeLaws_loadingHoldCommand (s : State) (bs : List Byte) :
    s.KeepsMazeLaws (s.loadingHoldCommand bs).state := by
  unfold State.loadingHoldCommand
  split
  · exact .refl s
  · exact s.keepsMazeLaws_setLoadingHold _

theorem State.keepsMazeLaws_readStatusCommand (s : State) (bs : List Byte) :
    s.KeepsMazeLaws (s.readStatusCommand bs).state := by
  unfold State.readStatusCommand
  (repeat' split) <;> exact .of_frame rfl rfl rfl

/-- ABORT_LOAD, READ_COUNTS, CLEAR_FLAGS, REPORT_ENABLE and PURGE_DEFERRED touch neither the maze nor a table in
force. -/
theorem State.keepsMazeLaws_otherCommands (s : State) (bs : List Byte) :
    s.KeepsMazeLaws (s.abortLoadCommand bs).state ∧ s.KeepsMazeLaws (s.readCountsCommand bs).state
      ∧ s.KeepsMazeLaws (s.clearFlagsCommand bs).state ∧ s.KeepsMazeLaws (s.reportEnableCommand bs).state
      ∧ s.KeepsMazeLaws (s.purgeDeferredCommand bs).state := by
  unfold State.abortLoadCommand State.readCountsCommand State.clearFlagsCommand State.reportEnableCommand
    State.purgeDeferredCommand
  refine ⟨?_, ?_, ?_, ?_, ?_⟩ <;> split <;> exact .of_frame rfl rfl rfl

/-- The lanes end their transactions, and the gate takes the state of its inputs (R93, R115). -/
theorem State.keepsMazeLaws_warmReset (s : State) : s.KeepsMazeLaws s.warmReset := by
  have hlanes : s.KeepsMazeLaws (LaneId.all.foldl State.warmLane s) :=
    .of_keepsGate (State.keepsGate_foldl _ (fun _ n => State.keepsGate_warmLane n) (.refl _))
      (by simp [LaneId.all]) (by simp [LaneId.all])
  rw [State.warmReset]
  generalize LaneId.all.foldl State.warmLane s = x at hlanes ⊢
  have hempty : x.KeepsMazeLaws { x with heldOrder := [] } := .of_frame rfl rfl rfl
  have hrest (y : State) : y.KeepsMazeLaws y.warmPassback.warmLoop := .of_frame rfl rfl rfl
  exact (hlanes.trans hempty).trans ((State.keepsMazeLaws_warmMaze _).trans (hrest _))

theorem State.keepsMazeLaws_deliverRestart (s : State) (m : Arrival) : s.KeepsMazeLaws (s.deliverRestart m) := by
  have hanswer (body : State → CommandResult) (hb : ∀ x, (body x).state = x) :
      s.KeepsMazeLaws (s.takeCommand 0x0C body) := by
    unfold State.takeCommand
    split
    · exact .of_frame rfl rfl rfl
    · exact .of_frame (by simp [hb]) (by simp [hb]) (by simp [hb])
  unfold State.deliverRestart State.commandDelivered State.restartCommand
  split
  · dsimp only
    split
    · exact hanswer _ fun _ => rfl
    · split
      · exact hanswer _ fun _ => rfl
      · exact (hanswer _ fun _ => rfl).trans (State.keepsMazeLaws_warmReset _)
  · exact .refl s

theorem State.keepsMazeLaws_deliver (s : State) (type : Byte) (m : Arrival) : s.KeepsMazeLaws (s.deliver type m) := by
  obtain ⟨habort, hcounts, hclear, henable, hpurge⟩ := s.keepsMazeLaws_otherCommands m.payload
  unfold State.deliver
  split
  · exact s.keepsMazeLaws_timeNotice m
  · exact s.keepsMazeLaws_dayOpenNotice m
  · exact s.keepsMazeLaws_dayCloseNotice m
  · exact s.keepsMazeLaws_passageReceived m
  iterate 5 exact .refl s
  · exact State.keepsMazeLaws_command _ (s.keepsMazeLaws_loadCommand _)
  · exact State.keepsMazeLaws_command _ (s.keepsMazeLaws_commitCommand _)
  · exact State.keepsMazeLaws_command _ habort
  · exact State.keepsMazeLaws_command _ (s.keepsMazeLaws_laneCommand _)
  · exact State.keepsMazeLaws_command _ (s.keepsMazeLaws_freeFlowCommand _)
  · exact State.keepsMazeLaws_command _ (s.keepsMazeLaws_loadingHoldCommand _)
  · exact State.keepsMazeLaws_command _ (s.keepsMazeLaws_readStatusCommand _)
  · exact State.keepsMazeLaws_command _ hcounts
  · exact State.keepsMazeLaws_command _ hclear
  · exact State.keepsMazeLaws_command _ henable
  · exact State.keepsMazeLaws_command _ hpurge
  · exact s.keepsMazeLaws_deliverRestart m
  · exact State.keepsMazeLaws_command _ (.refl s)

end Messages

/-! ### Commands and steps -/

section Steps

variable {s t : State}

theorem State.keepsMazeLaws_silenceTimeout (s : State) : s.KeepsMazeLaws s.silenceTimeout := by
  unfold State.silenceTimeout State.linkLost
  (repeat' split) <;> exact .of_frame (by simp) (by simp) (by simp)

theorem State.keepsMazeLaws_trainingTimeout (s : State) : s.KeepsMazeLaws s.trainingTimeout := by
  unfold State.trainingTimeout
  dsimp only
  (repeat' split) <;> exact .of_frame (by simp) (by simp) (by simp)

theorem State.keepsMazeLaws_keyChanged (s : State) (n : LaneId) (level : Bool) :
    s.KeepsMazeLaws (s.keyChanged n level) := by
  unfold State.keyChanged
  dsimp only
  split <;> exact .of_frame (by simp) (by simp) (by simp)

/-- A part reset cold stands as the laws ask, whatever stood before (R92, R114). -/
theorem State.keepsMazeLaws_cold (pins : ResetPins) : s.KeepsMazeLaws (State.cold pins) :=
  ⟨fun _ => Nat.zero_le _, fun _ => State.cold_gateLaw pins, fun _ => State.cold_seatsLaw pins⟩

/-- Every command keeps the three laws. -/
theorem keepsMazeLaws_exec (c : Instr) (h : exec c s = .next t) : s.KeepsMazeLaws t := by
  have hevent {f : State → State} (hc : exec c s = .next (s.event f)) (hf : s.KeepsMazeLaws (f s)) :
      s.KeepsMazeLaws t := Host.Outcome.next.inj (hc.symm.trans h) ▸ hf.event
  have hkeeps {f : State → State} (hc : exec c s = .next (s.event f)) (hm : s.maze.KeepsGate (f s).maze)
      (ho : (f s).ownAddress = s.ownAddress) (ht : (f s).tables = s.tables) : s.KeepsMazeLaws t :=
    hevent hc (.of_keepsGate hm ho ht)
  have hmessage (type : Byte) (m : Arrival)
      (hc : exec c s = .next (s.event fun x => x.receive type m fun x => x.deliver type m)) : s.KeepsMazeLaws t :=
    hevent hc (State.keepsMazeLaws_receive type m fun x => x.keepsMazeLaws_deliver type m)
  have hm := Maze.KeepsGate.refl s.maze
  cases c with
  | card n f =>
    refine Host.Outcome.next.inj h ▸ ?_
    split
    · exact .event (.of_keepsGate (State.keepsGate_presentCard n _ _ hm) (by simp) (by simp))
    all_goals exact .refl s
  | gone n f =>
    refine Host.Outcome.next.inj h ▸ ?_
    split
    · exact .event (.of_keepsGate (State.keepsGate_cardGone n _ hm) (by simp) (by simp))
    all_goals exact .refl s
  | writeResult n f =>
    refine Host.Outcome.next.inj h ▸ ?_
    split
    · exact .event (.of_keepsGate (State.keepsGate_writeResult n _ _ hm) (by simp) (by simp))
    all_goals exact .refl s
  | beat n f =>
    refine Host.Outcome.next.inj h ▸ ?_
    split
    · exact .event (.of_keepsGate (State.keepsGate_goodBeat n _ hm) (by simp) (by simp))
    all_goals exact .refl s
  | writeTimerExpiry n => exact hkeeps rfl (State.keepsGate_writeTimeout n hm) (by simp) (by simp)
  | heartbeatTimerExpiry n => exact hkeeps rfl (State.keepsGate_heartbeatLost n hm) (by simp) (by simp)
  | rotateFwdStart n => exact hkeeps rfl (State.keepsGate_forwardStart n hm) (by simp) (by simp)
  | rotateFwdDone n => exact hkeeps rfl (State.keepsGate_forwardDone n hm) (by simp) (by simp)
  | rotateRevDone n => exact hkeeps rfl (State.keepsGate_reverseDone n hm) (by simp) (by simp)
  | rotateReturn n => exact hkeeps rfl (State.keepsGate_armReturn n hm) (by simp) (by simp)
  | grantTimerExpiry n => exact hkeeps rfl (State.keepsGate_grantTimeout n hm) (by simp) (by simp)
  | trailTimerExpiry n => exact hkeeps rfl (State.keepsGate_trailTimeout n hm) (by simp) (by simp)
  | holdTimerExpiry n => exact hkeeps rfl (State.keepsGate_holdTimeout n hm) (by simp) (by simp)
  | intervalEnd => exact hkeeps rfl (State.keepsGate_intervalEndEvent hm) (by simp) (by simp)
  | body n k =>
    refine hevent rfl ?_
    split
    · exact .of_keepsGate (State.keepsGate_laneBody n hm) (by simp) (by simp)
    · exact .refl s
  | freeFlowPinChange level => exact hevent rfl (s.keepsMazeLaws_freeFlowChange _ _ rfl rfl rfl)
  | liftRunChange level => exact hevent rfl (s.keepsMazeLaws_liftChange level)
  | chair => exact hevent rfl s.keepsMazeLaws_chairPulse
  | windowTimerExpiry => exact hevent rfl s.keepsMazeLaws_chairTimeout
  | lgBeamBody k =>
    refine hevent rfl ?_
    split
    · exact s.keepsMazeLaws_gateBody
    · exact .refl s
  | keyChange n level => exact hevent rfl (s.keepsMazeLaws_keyChanged n level)
  | silenceTimerExpiry => exact hevent rfl s.keepsMazeLaws_silenceTimeout
  | trainingTimerExpiry => exact hevent rfl s.keepsMazeLaws_trainingTimeout
  | alarmTimerExpiry n => exact hevent rfl (by split <;> exact .of_frame (by simp) (by simp) (by simp))
  | rotateRevStart n | recoveryTimerExpiry n | stationClockAdvance | intervalPrescalerExpiry =>
    exact hevent rfl (.of_frame (by simp) (by simp) (by simp))
  | passbackEntryExpiry serial group | idleFill | sendEnd => exact hevent rfl (.of_frame rfl rfl rfl)
  | transitMessage type m | unknownCommand type m => exact hmessage type m rfl
  | time m => exact hmessage 0x20 m rfl
  | dayOpen m => exact hmessage 0x21 m rfl
  | dayClose m => exact hmessage 0x22 m rfl
  | passage m => exact hmessage 0x23 m rfl
  | load m => exact hmessage 0x01 m rfl
  | commit m => exact hmessage 0x02 m rfl
  | abortLoad m => exact hmessage 0x03 m rfl
  | lane m => exact hmessage 0x04 m rfl
  | freeFlow m => exact hmessage 0x05 m rfl
  | loadingHold m => exact hmessage 0x06 m rfl
  | readStatus m => exact hmessage 0x07 m rfl
  | readCounts m => exact hmessage 0x08 m rfl
  | clearFlags m => exact hmessage 0x09 m rfl
  | reportEnable m => exact hmessage 0x0A m rfl
  | purgeDeferred m => exact hmessage 0x0B m rfl
  | restart m => exact hmessage 0x0C m rfl
  | coldReset pins =>
    have hcold := (State.keepsMazeLaws_cold (s := s) pins).trans
      (.of_frame rfl rfl rfl : (State.cold pins).KeepsMazeLaws
        { State.cold pins with pending := s.pending, choices := s.choices })
    exact Host.Outcome.next.inj h ▸ hcold

theorem State.keepsMazeLaws_idle (s : State) : s.KeepsMazeLaws s.idle := by
  unfold State.idle
  split
  · exact .event (.of_frame (by simp) (by simp) (by simp))
  · split <;> exact .of_frame rfl rfl rfl

end Steps

/-- Settles O5: an idle step and every command keep the three laws. -/
theorem mazeLawsKept : Obligations.MazeLawsKept := by
  intro s t ht
  have hkeeps : s.KeepsMazeLaws t := by
    unfold step at ht
    split at ht
    · exact Host.Outcome.next.inj ht ▸ s.keepsMazeLaws_idle
    · rename_i c rest _
      have htaken : s.KeepsMazeLaws { s with pending := rest } := .of_frame rfl rfl rfl
      exact htaken.trans (keepsMazeLaws_exec c ht)
  exact ⟨hkeeps.range, hkeeps.gate, hkeeps.seats⟩

end Sys2Proof.Machine
end

section
/-! PROOFS. Every step keeps the law of the Deferred Write Table (R117): what is removed from the table and what is
offered to it keep the law, then operation by operation, in the order of the model's files. -/

namespace Sys2Proof.Machine

/-! ### The table: entries removed, stored and offered (R117, R120, R121) -/

/-- The law of R117, of the table alone. -/
def DeferredTable.Law (d : DeferredTable) : Prop :=
  d.entries.length ≤ 32 ∧ (d.entries.map (·.serial)).Nodup

theorem State.deferredLaw_iff (s : State) : s.DeferredLaw ↔ s.deferred.Law := Iff.rfl

section Table

variable {d d' : DeferredTable} {e x : DeferredEntry}

theorem DeferredTable.Law.of_sublist (h : d.Law) (hs : d'.entries.Sublist d.entries) : d'.Law := by
  obtain ⟨hlength, hserials⟩ := h
  exact ⟨hs.length_le.trans hlength, hserials.sublist (hs.map _)⟩

/-- One entry per serial: an entry of a held serial is the one held. -/
theorem DeferredTable.Law.eq_of_serial (h : d.Law) (he : e ∈ d.entries) (hx : x ∈ d.entries)
    (hs : e.serial = x.serial) : e = x := by
  obtain ⟨-, hserials⟩ := h
  exact List.inj_on_of_nodup_map hserials he hx hs

theorem DeferredTable.without_sublist (d : DeferredTable) (stamp : Nat) :
    (d.without stamp).entries.Sublist d.entries := List.filter_sublist

theorem DeferredTable.without_length_lt (hx : x ∈ d.entries) :
    (d.without x.stamp).entries.length < d.entries.length :=
  List.length_filter_lt_length_iff_exists.2 ⟨x, hx, by simp⟩

theorem DeferredTable.not_mem_without (d : DeferredTable) (x : DeferredEntry) : x ∉ (d.without x.stamp).entries := by
  simp [DeferredTable.without]

/-- A table with room takes an entry of a serial that it does not hold. -/
theorem DeferredTable.Law.appending (h : d.Law) (hroom : d.entries.length < 32)
    (hnew : ∀ x ∈ d.entries, x.serial ≠ e.serial) : (d.appending e).Law := by
  obtain ⟨-, hserials⟩ := h
  refine ⟨by simpa [DeferredTable.appending] using hroom, ?_⟩
  simpa [DeferredTable.appending, List.nodup_append, hserials] using hnew

/-- One entry, of the serial offered or given up by a full table, makes the room for another. -/
theorem DeferredTable.Law.replacing (h : d.Law) (hx : x ∈ d.entries)
    (hnew : ∀ y ∈ d.entries, y.serial = e.serial → y = x) : ((d.without x.stamp).appending e).Law := by
  have hremoved : (d.without x.stamp).Law := h.of_sublist (d.without_sublist _)
  obtain ⟨hlength, -⟩ := h
  have hroom : (d.without x.stamp).entries.length < 32 := (DeferredTable.without_length_lt hx).trans_le hlength
  refine hremoved.appending hroom fun y hy hserial => ?_
  have hyx : y = x := hnew y ((d.without_sublist _).subset hy) hserial
  exact d.not_mem_without x (hyx ▸ hy)

theorem DeferredTable.Law.offer (h : d.Law) (e : DeferredEntry) : (d.offer e).table.Law := by
  unfold DeferredTable.offer
  split
  case h_1 old hold =>
    have hserial : old.serial = e.serial := by simpa using List.find?_some hold
    have hmem := List.mem_of_find?_eq_some hold
    split
    · exact h
    · exact h.replacing hmem fun y hy hye => h.eq_of_serial hy hmem (hye.trans hserial.symm)
  case h_2 hnone =>
    have hnew : ∀ x ∈ d.entries, x.serial ≠ e.serial := by simpa using hnone
    split
    case isTrue hroom => exact h.appending hroom hnew
    case isFalse =>
      split
      case h_1 oldest holdest =>
        exact h.replacing (List.mem_of_find?_eq_some holdest) fun y hy hye => absurd hye (hnew y hy)
      case h_2 => exact h

end Table

section Kept

variable {s t : State}

/-! ### The operations on the table -/

@[simp] theorem State.law_deferredRemove (stamp : Nat) (h : s.deferred.Law) : (s.deferredRemove stamp).deferred.Law :=
  h.of_sublist (s.deferred.without_sublist stamp)

@[simp] theorem State.law_deferredOffer (e : DeferredEntry) (h : s.deferred.Law) :
    (s.deferredOffer e).1.deferred.Law := by
  rw [State.deferredOffer_eq]
  exact h.offer e

theorem State.law_deferredComplete (e : DeferredEntry) (h : s.deferred.Law) (hc : s.deferredComplete e = some t) :
    t.deferred.Law := by
  unfold State.deferredComplete at hc
  split at hc
  · cases hc
    simp [h]
  · split at hc
    · cases hc
      simp [h]
    · cases hc

/-! ### The verdicts -/

@[simp] theorem State.law_resolveComplete (n : LaneId) (e : DeferredEntry) (h : s.deferred.Law) :
    (s.resolveComplete n e).deferred.Law := by
  unfold State.resolveComplete
  split
  · split <;> simpa
  case h_2 hc =>
    have hcompleted := State.law_deferredComplete e h hc
    split
    · split <;> simpa
    · simpa

@[simp] theorem State.law_resolveStep (n : LaneId) (h : s.deferred.Law) : (s.resolveStep n).deferred.Law := by
  unfold State.resolveStep
  (repeat' split) <;> simp [h]

@[simp] theorem State.law_verdict (n : LaneId) (h : s.deferred.Law) : (s.verdict n).deferred.Law := by
  unfold State.verdict
  (repeat' split) <;> simp [h]

/-! ### The ends of a write -/

theorem State.law_resolutionOutcome (n : LaneId) (record : Record) (o : WriteOutcome) (h : s.deferred.Law) :
    (s.resolutionOutcome n record o).deferred.Law := by
  simp only [State.resolutionOutcome]
  (repeat' split) <;> simp [h]

theorem State.law_grantOutcome (n : LaneId) (record : Record) (o : WriteOutcome) (h : s.deferred.Law) :
    (s.grantOutcome n record o).deferred.Law := by
  simp only [State.grantOutcome]
  (repeat' split) <;> simp [h]

theorem State.law_settlementOutcome (n : LaneId) (record : Record) (o : WriteOutcome) (h : s.deferred.Law) :
    (s.settlementOutcome n record o).deferred.Law := by
  simp only [State.settlementOutcome]
  (repeat' split) <;> simp [h]

@[simp] theorem State.law_endWrite (n : LaneId) (w : WriteRequest) (o : WriteOutcome) (h : s.deferred.Law) :
    (s.endWrite n w o).deferred.Law := by
  simp only [State.endWrite, State.sendWaiting_frame, State.deliverOutcome]
  split
  · exact State.law_resolutionOutcome n _ o (by simpa)
  · exact State.law_grantOutcome n _ o (by simpa)
  · exact State.law_settlementOutcome n _ o (by simpa)
  · split <;> simp [h]
  · split <;> simp [h]
  · simpa

/-! ### The reader ports -/

theorem State.law_presentCard (n : LaneId) (serial : Serial) (record : Record) (h : s.deferred.Law) :
    (s.presentCard n serial record).deferred.Law := by
  unfold State.presentCard State.takeCard
  (repeat' split) <;> simp [h]

theorem State.law_writeResult (n : LaneId) (serial : Serial) (o : WriteOutcome) (h : s.deferred.Law) :
    (s.writeResult n serial o).deferred.Law := by
  unfold State.writeResult
  (repeat' split) <;> simp [h]

theorem State.law_writeTimeout (n : LaneId) (h : s.deferred.Law) : (s.writeTimeout n).deferred.Law := by
  unfold State.writeTimeout
  (repeat' split) <;> simp [h]

/-! ### The day, the warm reset and the purge -/

/-- The entries that the retention purge keeps (R126). -/
theorem State.purgeOld_deferred (s : State) (day : Nat) : (s.purgeOld day).deferred =
    { s.deferred with entries := s.deferred.entries.filter fun e => e.kept day s.settings.retentionDays } := by
  unfold State.purgeOld
  dsimp only
  split <;> simp

/-- A DAY_OPEN changes the table by its retention purge alone (R126, R150). -/
theorem State.openDay_deferred (s : State) (day openMinute closeMinute : Nat) :
    (s.openDay day openMinute closeMinute).deferred =
      { s.deferred with entries := s.deferred.entries.filter fun e => e.kept day s.settings.retentionDays } := by
  unfold State.openDay
  dsimp only
  (repeat' split) <;> simp [State.purgeOld_deferred, State.settings]

/-- A lane's abandoned write is offered, where it leaves an entry (R20, R118, R119). -/
theorem State.law_warmLane (n : LaneId) (h : s.deferred.Law) : (s.warmLane n).deferred.Law := by
  have habandon : (s.abandonWrite n).1.deferred.Law := by
    rcases s.abandonWrite_cases n with ⟨-, hw⟩ | ⟨e, -, hw⟩ <;> rw [hw]
    · exact h
    · exact State.law_deferredOffer e h
  simpa [State.warmLane] using habandon

theorem State.law_warmReset (h : s.deferred.Law) : s.warmReset.deferred.Law := by
  have hlanes : (LaneId.all.foldl State.warmLane s).deferred.Law :=
    State.law_warmLane .l4 (State.law_warmLane .l3 (State.law_warmLane .l2 (State.law_warmLane .l1 h)))
  simpa [State.warmReset, State.warmLoop] using hlanes

theorem purgeEntries_sublist (which : Option Serial) (entries : List DeferredEntry) :
    (purgeEntries which entries).Sublist entries := by
  cases which with
  | none => exact List.nil_sublist entries
  | some serial => exact List.filter_sublist

/-! ### Messages from the loop -/

/-- A message reaches the table by its delivery alone. -/
theorem State.law_receive (type : Byte) (m : Arrival) {f : State → State}
    (hf : ∀ x : State, x.deferred.Law → (f x).deferred.Law) (h : s.deferred.Law) :
    (s.receive type m f).deferred.Law := by
  have hbad : s.badMessage.deferred = s.deferred := by
    simp only [State.badMessage, State.linkLost]
    (repeat' split) <;> simp
  have hforward (x : State) : (x.forward type m).deferred = x.deferred := by
    unfold State.forward
    split <;> rfl
  have hgood : s.goodMessage.deferred.Law := h
  have hdelivered := hf s.goodMessage hgood
  unfold State.receive
  split
  · rwa [hbad]
  · dsimp only
    (repeat' split) <;> simpa [hforward]

theorem State.law_dayOpenNotice (m : Arrival) (h : s.deferred.Law) : (s.dayOpenNotice m).deferred.Law := by
  have hopened (day openMinute closeMinute : Nat) : (s.openDay day openMinute closeMinute).deferred.Law := by
    rw [State.openDay_deferred]
    exact h.of_sublist List.filter_sublist
  simp only [State.dayOpenNotice, State.badNotice]
  (repeat' split) <;> simp [h, hopened]

/-- TIME, DAY_CLOSE and PASSAGE leave the table. -/
theorem State.otherNotices_deferred (s : State) (m : Arrival) : (s.timeNotice m).deferred = s.deferred
    ∧ (s.dayCloseNotice m).deferred = s.deferred ∧ (s.passageReceived m).deferred = s.deferred := by
  simp only [State.timeNotice, State.dayCloseNotice, State.passageReceived, State.badNotice]
  refine ⟨?_, ?_, ?_⟩ <;> (repeat' split) <;> simp

/-! ### Commands from the loop -/

/-- A command reaches the table by its body alone. -/
theorem State.law_command (m : Arrival) (code : Byte) {body : State → CommandResult} (h : s.deferred.Law)
    (hb : (body s).state.deferred.Law) :
    (s.commandDelivered m fun x => x.takeCommand code body).deferred.Law := by
  unfold State.commandDelivered State.takeCommand
  split
  · dsimp only
    split <;> simpa
  · exact h

theorem State.commitCommand_deferred (s : State) (bs : List Byte) :
    (s.commitCommand bs).state.deferred = s.deferred := by
  have hswap (named : List TableId) : (s.swapTables named).deferred = s.deferred := by
    obtain ⟨-, -, -, hdeferred, -⟩ := s.swapTables_keeps named
    exact hdeferred
  unfold State.commitCommand
  (repeat' split) <;> simp [State.done, State.refused, State.refusedTable, hswap]

/-- LOAD, ABORT_LOAD and the commands of the lanes and the gate leave the table. -/
theorem State.settingCommands_deferred (s : State) (bs : List Byte) : (s.loadCommand bs).state.deferred = s.deferred
    ∧ (s.abortLoadCommand bs).state.deferred = s.deferred ∧ (s.laneCommand bs).state.deferred = s.deferred
    ∧ (s.freeFlowCommand bs).state.deferred = s.deferred
    ∧ (s.loadingHoldCommand bs).state.deferred = s.deferred := by
  unfold State.loadCommand State.abortLoadCommand State.laneCommand State.freeFlowCommand State.loadingHoldCommand
    State.setLoadingHold
  refine ⟨?_, ?_, ?_, ?_, ?_⟩ <;> (repeat' split) <;> simp [State.done, State.refused]

/-- The commands that read, and those of the flags, leave the table. -/
theorem State.readCommands_deferred (s : State) (bs : List Byte) :
    (s.readStatusCommand bs).state.deferred = s.deferred ∧ (s.readCountsCommand bs).state.deferred = s.deferred
    ∧ (s.clearFlagsCommand bs).state.deferred = s.deferred
    ∧ (s.reportEnableCommand bs).state.deferred = s.deferred := by
  unfold State.readStatusCommand State.readCountsCommand State.clearFlagsCommand State.reportEnableCommand
  refine ⟨?_, ?_, ?_, ?_⟩ <;> (repeat' split) <;> simp [State.done, State.refused]

/-- The entries that PURGE_DEFERRED leaves are some of those held (R127). -/
theorem State.law_purgeDeferredCommand (bs : List Byte) (h : s.deferred.Law) :
    (s.purgeDeferredCommand bs).state.deferred.Law := by
  unfold State.purgeDeferredCommand
  split
  · exact h
  · exact h.of_sublist (purgeEntries_sublist _ _)

theorem State.law_deliverRestart (m : Arrival) (h : s.deferred.Law) : (s.deliverRestart m).deferred.Law := by
  have hanswer (body : State → CommandResult) (hb : (body s).state.deferred = s.deferred) :
      (s.takeCommand 0x0C body).deferred.Law := by
    unfold State.takeCommand
    dsimp only
    split <;> simpa [hb]
  unfold State.deliverRestart State.commandDelivered State.restartCommand
  split
  · dsimp only
    split
    · exact hanswer _ rfl
    · split
      · exact hanswer _ rfl
      · exact State.law_warmReset (hanswer _ rfl)
  · exact h

theorem State.law_deliver (type : Byte) (m : Arrival) (h : s.deferred.Law) : (s.deliver type m).deferred.Law := by
  have hcommand (code : Byte) (body : State → CommandResult) (hb : (body s).state.deferred = s.deferred) :
      (s.commandDelivered m fun x => x.takeCommand code body).deferred.Law :=
    State.law_command m code h (by rwa [hb])
  obtain ⟨htime, hclose, hpassage⟩ := s.otherNotices_deferred m
  obtain ⟨hload, habort, hlane, hfree, hhold⟩ := s.settingCommands_deferred m.payload
  obtain ⟨hstatus, hcounts, hclear, henable⟩ := s.readCommands_deferred m.payload
  unfold State.deliver
  split
  · rwa [htime]
  · exact State.law_dayOpenNotice m h
  · rwa [hclose]
  · rwa [hpassage]
  iterate 5 exact h
  · exact hcommand _ _ hload
  · exact hcommand _ _ (s.commitCommand_deferred _)
  · exact hcommand _ _ habort
  · exact hcommand _ _ hlane
  · exact hcommand _ _ hfree
  · exact hcommand _ _ hhold
  · exact hcommand _ _ hstatus
  · exact hcommand _ _ hcounts
  · exact hcommand _ _ hclear
  · exact hcommand _ _ henable
  · exact State.law_command m _ h (State.law_purgeDeferredCommand _ h)
  · exact State.law_deliverRestart m h
  · exact hcommand _ _ rfl

/-! ### Commands and steps -/

/-- The end of an event leaves the table. -/
theorem State.event_deferred (s : State) (f : State → State) : (s.event f).deferred = (f s).deferred := by
  simp [State.event]

theorem State.silenceTimeout_deferred (s : State) : s.silenceTimeout.deferred = s.deferred := by
  unfold State.silenceTimeout State.linkLost
  (repeat' split) <;> simp

theorem State.trainingTimeout_deferred (s : State) : s.trainingTimeout.deferred = s.deferred := by
  unfold State.trainingTimeout
  dsimp only
  (repeat' split) <;> simp

theorem State.keyChanged_deferred (s : State) (n : LaneId) (level : Bool) :
    (s.keyChanged n level).deferred = s.deferred := by
  unfold State.keyChanged
  dsimp only
  split <;> simp

/-- Every command keeps the law. -/
theorem deferredLaw_exec (c : Instr) (h : s.deferred.Law) (hc : exec c s = .next t) : t.deferred.Law := by
  have hevent {f : State → State} (hf : exec c s = .next (s.event f)) (hl : (f s).deferred.Law) : t.deferred.Law := by
    rwa [← Host.Outcome.next.inj (hf.symm.trans hc), State.event_deferred]
  have hframe {f : State → State} (hf : exec c s = .next (s.event f)) (hd : (f s).deferred = s.deferred) :
      t.deferred.Law := hevent hf (hd ▸ h)
  have hmessage (type : Byte) (m : Arrival)
      (hf : exec c s = .next (s.event fun x => x.receive type m fun x => x.deliver type m)) : t.deferred.Law :=
    hevent hf (State.law_receive type m (fun _ hx => State.law_deliver type m hx) h)
  cases c with
  | card n f =>
    refine Host.Outcome.next.inj hc ▸ ?_
    split
    · rw [State.event_deferred]
      exact State.law_presentCard n _ _ h
    all_goals exact h
  | gone n f =>
    refine Host.Outcome.next.inj hc ▸ ?_
    split
    · simpa [State.event_deferred]
    all_goals exact h
  | writeResult n f =>
    refine Host.Outcome.next.inj hc ▸ ?_
    split
    · rw [State.event_deferred]
      exact State.law_writeResult n _ _ h
    all_goals exact h
  | beat n f =>
    refine Host.Outcome.next.inj hc ▸ ?_
    split
    · simpa [State.event_deferred]
    all_goals exact h
  | writeTimerExpiry n => exact hevent rfl (State.law_writeTimeout n h)
  | keyChange n level => exact hframe rfl (s.keyChanged_deferred n level)
  | silenceTimerExpiry => exact hframe rfl s.silenceTimeout_deferred
  | trainingTimerExpiry => exact hframe rfl s.trainingTimeout_deferred
  | body n k | lgBeamBody k | alarmTimerExpiry n => exact hframe rfl (by split <;> simp)
  | idleFill | sendEnd => exact hframe rfl rfl
  | heartbeatTimerExpiry n | rotateFwdStart n | rotateFwdDone n | rotateRevStart n | rotateRevDone n | rotateReturn n
  | grantTimerExpiry n | trailTimerExpiry n | recoveryTimerExpiry n | holdTimerExpiry n | freeFlowPinChange level
  | liftRunChange level | chair | windowTimerExpiry | passbackEntryExpiry serial group | stationClockAdvance
  | intervalPrescalerExpiry | intervalEnd =>
    exact hframe rfl (by simp)
  | transitMessage type m | unknownCommand type m => exact hmessage type m rfl
  | time m => exact hmessage 0x20 m rfl
  | dayOpen m => exact hmessage 0x21 m rfl
  | dayClose m => exact hmessage 0x22 m rfl
  | passage m => exact hmessage 0x23 m rfl
  | load m => exact hmessage 0x01 m rfl
  | commit m => exact hmessage 0x02 m rfl
  | abortLoad m => exact hmessage 0x03 m rfl
  | lane m => exact hmessage 0x04 m rfl
  | freeFlow m => exact hmessage 0x05 m rfl
  | loadingHold m => exact hmessage 0x06 m rfl
  | readStatus m => exact hmessage 0x07 m rfl
  | readCounts m => exact hmessage 0x08 m rfl
  | clearFlags m => exact hmessage 0x09 m rfl
  | reportEnable m => exact hmessage 0x0A m rfl
  | purgeDeferred m => exact hmessage 0x0B m rfl
  | restart m => exact hmessage 0x0C m rfl
  | coldReset pins =>
    have hcold : (State.cold pins).deferred.Law := ⟨Nat.zero_le _, List.nodup_nil⟩
    rwa [← Host.Outcome.next.inj hc]

theorem State.idle_deferred (s : State) : s.idle.deferred = s.deferred := by
  unfold State.idle
  split
  · simp [State.event_deferred]
  · split <;> rfl
end Kept

/-- Settles O7: an idle step leaves the table, and every command keeps its law. -/
theorem deferredLawKept : Obligations.DeferredLawKept := by
  intro s t h ht
  rw [State.deferredLaw_iff] at h ⊢
  unfold step at ht
  split at ht
  · rwa [← Host.Outcome.next.inj ht, State.idle_deferred]
  · rename_i c rest _
    have htaken : ({ s with pending := rest } : State).deferred.Law := h
    exact deferredLaw_exec c htaken ht

end Sys2Proof.Machine
end

section
/-! PROOFS. The commands CLEAR_FLAGS, REPORT_ENABLE and PURGE_DEFERRED. -/

namespace Sys2Proof.Machine

theorem exec_clearFlags (m : Arrival) (s : State) : exec (.clearFlags m) s
    = .next (s.event fun x => x.receive 0x09 m fun x => x.commandDelivered m fun x =>
      x.takeCommand 0x09 fun x => x.clearFlagsCommand m.payload) := rfl

theorem exec_reportEnable (m : Arrival) (s : State) : exec (.reportEnable m) s
    = .next (s.event fun x => x.receive 0x0A m fun x => x.commandDelivered m fun x =>
      x.takeCommand 0x0A fun x => x.reportEnableCommand m.payload) := rfl

theorem exec_purgeDeferred (m : Arrival) (s : State) : exec (.purgeDeferred m) s
    = .next (s.event fun x => x.receive 0x0B m fun x => x.commandDelivered m fun x =>
      x.takeCommand 0x0B fun x => x.purgeDeferredCommand m.payload) := rfl

section Commands

variable {s : State} {m : Arrival}

/-- The event of a command that is carried out: what it makes of the part that has heard it, with its ANSWER DONE
offered, where it leaves what the end of an event reads (R174). -/
theorem State.event_of_done {t : State} {type code : Byte} {data : List Byte} {body : State → CommandResult}
    (h : s.TakesCommand type m) (hb : body s.heard = t.done data) (ht : t.Settled) (hp : t.placeFree = s.placeFree)
    (ho : t.ownAddress = s.ownAddress) :
    (s.event fun x => x.receive type m fun x => x.commandDelivered m fun x => x.takeCommand code body)
      = t.offered (.answer ⟨code, .done, 0xFF, data⟩) := by
  have hevent := State.event_of_command (code := code) h (congrArg CommandResult.state hb) ht hp.symm.le ho
  rwa [hb] at hevent

/-! ### The effects (R127, R184) -/

/-- A flag stays set that was set and is not named by the mask. -/
theorem State.clearFlagMask_flags (s : State) (mask : BitVec 32) (i : Nat) :
    (s.clearFlagMask mask).mgmt.flags.getLsbD i = (s.mgmt.flags.getLsbD i && !mask.getLsbD i) := by
  by_cases hi : i < 32
  · simp [State.clearFlagMask, hi]
  · simp [State.clearFlagMask, BitVec.getLsbD_of_ge _ i (Nat.le_of_not_lt hi)]

/-- PURGE_DEFERRED names the entry of its serial, or every entry (R127). -/
def DeferredEntry.named (which : Option Serial) (e : DeferredEntry) : Bool :=
  decide (which = none ∨ which = some e.serial)

theorem purgeEntries_eq (which : Option Serial) (entries : List DeferredEntry) :
    purgeEntries which entries = entries.filter fun e => !e.named which := by
  cases which with
  | none => simp [purgeEntries, DeferredEntry.named]
  | some serial =>
    have hnamed (e : DeferredEntry) : (e.serial != serial) = !e.named (some serial) := by
      simp [DeferredEntry.named, bne, eq_comm, beq_eq_decide]
    simp only [purgeEntries, hnamed]

/-- The number that PURGE_DEFERRED answers is that of the entries named. -/
theorem purgeEntries_removed (which : Option Serial) (entries : List DeferredEntry) :
    entries.length - (purgeEntries which entries).length = (entries.filter (·.named which)).length := by
  have hparts := List.length_eq_length_filter_add (l := entries) (·.named which)
  rw [purgeEntries_eq]
  omega

/-- `s` with the entries gone that PURGE_DEFERRED names. -/
def State.purged (s : State) (which : Option Serial) : State :=
  { s with deferred := { s.deferred with entries := s.deferred.entries.filter fun e => !e.named which } }

theorem State.purgeDeferredCommand_eq (s : State) {which : Option Serial} (h : purgeOf m.payload = some which) :
    s.purgeDeferredCommand m.payload
      = (s.purged which).done (bytesLE 1 (s.deferred.entries.filter (·.named which)).length) := by
  rw [State.purged, ← purgeEntries_eq, ← purgeEntries_removed]
  simp only [State.purgeDeferredCommand, h]

end Commands

/-- Settles O59: each command's effect on the part that has heard it, with the ANSWER DONE. -/
theorem flagAndPurgeCommandsAct : Obligations.FlagAndPurgeCommandsAct := by
  intro s m
  refine ⟨fun mask hmask h => ⟨_, s.clearFlagMask_flags mask, ?_⟩, fun mask hmask h => ?_, fun which h hwhich => ?_⟩
  · have hbody : s.heard.clearFlagsCommand m.payload = (s.heard.clearFlagMask mask).done [] := by
      simp only [State.clearFlagsCommand, hmask]
    have hsettled : (s.heard.clearFlagMask mask).Settled := h.1.heard.congr rfl rfl rfl rfl rfl rfl rfl rfl
    rw [exec_clearFlags]
    exact congrArg _ (State.event_of_done h hbody hsettled rfl rfl)
  · have hbody : s.heard.reportEnableCommand m.payload = (s.heard.setEnables mask).done [] := by
      simp only [State.reportEnableCommand, hmask]
    have hsettled : (s.heard.setEnables mask).Settled := h.1.heard.congr rfl rfl rfl rfl rfl rfl rfl rfl
    rw [exec_reportEnable]
    exact congrArg _ (State.event_of_done h hbody hsettled rfl rfl)
  · have hbody := s.heard.purgeDeferredCommand_eq hwhich
    have hsettled : (s.heard.purged which).Settled := h.1.heard.congr rfl rfl rfl rfl rfl rfl rfl rfl
    rw [exec_purgeDeferred]
    exact congrArg _ (State.event_of_done h hbody hsettled rfl rfl)

end Sys2Proof.Machine
end

section
/-! PROOFS. A DAY_OPEN that opens its season day (R126, R150, R151). -/

namespace Sys2Proof.Machine

theorem exec_dayOpen (m : Arrival) (s : State) : exec (.dayOpen m) s
    = .next (s.event fun x => x.receive 0x21 m fun x => x.dayOpenNotice m) := rfl

/-! ### What a DAY_OPEN leaves (R150) -/

/-- `t` is `s` with the day of this DAY_OPEN opened: the schedule set, and the day counters, the refunds and the day
run time afresh. The maze count, the intervals and the transactions stand as in `s`. -/
structure State.DayOpened (s : State) (day openMinute closeMinute : Nat) (t : State) : Prop where
  ms         : t.ms = s.ms
  tables     : t.tables = s.tables
  passback   : t.passback = s.passback
  heldOrder  : t.heldOrder = s.heldOrder
  deferred   : t.deferred =
    { s.deferred with entries := s.deferred.entries.filter fun e => e.kept day s.settings.retentionDays }
  maze       : t.maze = { s.maze with day := .zero }
  time       : t.time = { s.bringRunTimes.time with
    refundsCount := 0, refundsSum := 0, dayRun := 0
    dayState := .opened, seasonDay := day, openMinute := openMinute, closeMinute := closeMinute }
  laneDay    : ∀ n, (t.lane n).day = (s.lane n).clearDay.day
  laneRest   : ∀ n, (t.lane n).interval = (s.lane n).interval ∧ (t.lane n).txn = (s.lane n).txn

section Opened

variable {s t : State} {day openMinute closeMinute : Nat}

/-- The closure conditions reach the lanes with their counters and transactions as they stand (R67). -/
theorem State.closureChangeAll_keeps (s : State) (n : LaneId) :
    (s.closureChangeAll.lane n).day = (s.lane n).day ∧ (s.closureChangeAll.lane n).interval = (s.lane n).interval
      ∧ (s.closureChangeAll.lane n).txn = (s.lane n).txn := by
  obtain ⟨-, ⟨hsame, -⟩ | ⟨-, recovery, hrest⟩⟩ := s.closureChangeAll_lane n
  · rw [hsame]
    exact ⟨rfl, rfl, rfl⟩
  · rw [hrest]
    exact ⟨rfl, rfl, rfl⟩

theorem State.DayOpened.closureChangeAll (h : s.DayOpened day openMinute closeMinute t) :
    s.DayOpened day openMinute closeMinute t.closureChangeAll where
  ms := by simp [h.ms]
  tables := by simp [h.tables]
  passback := by simp [h.passback]
  heldOrder := by simp [h.heldOrder]
  deferred := by simp [h.deferred]
  maze := by simp [h.maze]
  time := by simp [h.time]
  laneDay n := by
    obtain ⟨hday, -, -⟩ := t.closureChangeAll_keeps n
    rw [hday, h.laneDay]
  laneRest n := by
    obtain ⟨-, hinterval, htxn⟩ := t.closureChangeAll_keeps n
    rw [hinterval, htxn]
    exact h.laneRest n

/-- The run times brought up to date, and the DAY report of a day still open queued: step 1 of a DAY_OPEN. -/
def State.dayReported (s : State) : State :=
  if s.time.dayState = .opened then s.bringRunTimes.queueReport (.day (s.bringRunTimes.dayReport true))
  else s.bringRunTimes

/-- The report is queued before the counters are cleared, and changes nothing of them. -/
theorem State.dayReported_frame (s : State) :
    s.dayReported.ms = s.ms ∧ s.dayReported.tables = s.tables ∧ s.dayReported.passback = s.passback
      ∧ s.dayReported.heldOrder = s.heldOrder ∧ s.dayReported.deferred = s.deferred ∧ s.dayReported.maze = s.maze
      ∧ s.dayReported.time = s.bringRunTimes.time ∧ s.dayReported.lanes = s.lanes := by
  unfold State.dayReported
  split <;> simp

/-- The counters cleared, the table purged and the schedule set. -/
def State.dayScheduled (s : State) (day openMinute closeMinute : Nat) : State :=
  { s.dayReported.clearDayCounters.purgeOld day with
    time := { s.dayReported.clearDayCounters.time with
      dayState := .opened, seasonDay := day, openMinute := openMinute, closeMinute := closeMinute } }

theorem State.openDay_eq (s : State) (day openMinute closeMinute : Nat) : s.openDay day openMinute closeMinute =
    if s.time.dayState = .opened then s.dayScheduled day openMinute closeMinute
    else (s.dayScheduled day openMinute closeMinute).closureChangeAll := by
  have htime : (s.dayReported.clearDayCounters.purgeOld day).time = s.dayReported.clearDayCounters.time := by simp
  rw [State.dayScheduled, ← htime]
  rfl

theorem State.dayScheduled_dayOpened (s : State) (day openMinute closeMinute : Nat) :
    s.DayOpened day openMinute closeMinute (s.dayScheduled day openMinute closeMinute) := by
  obtain ⟨hms, htables, hpassback, hheld, hdeferred, hmaze, htime, hlanes⟩ := s.dayReported_frame
  have hlane (n : LaneId) : (s.dayScheduled day openMinute closeMinute).lane n = (s.lane n).clearDay := by
    simp [State.dayScheduled, State.clearDayCounters, State.lane, hlanes]
  exact {
    ms := by simp [State.dayScheduled, hms]
    tables := by simp [State.dayScheduled, htables]
    passback := by simp [State.dayScheduled, hpassback]
    heldOrder := by simp [State.dayScheduled, hheld]
    deferred := by simp [State.dayScheduled, State.purgeOld_deferred, State.settings, hdeferred, htables]
    maze := by simp [State.dayScheduled, State.clearDayCounters, hmaze]
    time := by simp [State.dayScheduled, State.clearDayCounters, htime]
    laneDay := fun n => by rw [hlane]
    laneRest := fun n => by rw [hlane]; exact ⟨rfl, rfl⟩ }

theorem State.openDay_dayOpened (s : State) (day openMinute closeMinute : Nat) :
    s.DayOpened day openMinute closeMinute (s.openDay day openMinute closeMinute) := by
  have hscheduled := s.dayScheduled_dayOpened day openMinute closeMinute
  rw [State.openDay_eq]
  split
  · exact hscheduled
  · exact hscheduled.closureChangeAll

/-! ### The event (R101, R162) -/

/-- The maze count and the transactions stand, so no place falls free at a DAY_OPEN (R101). -/
theorem State.DayOpened.placesGiven (h : s.DayOpened day openMinute closeMinute t) (hs : s.PlacesGiven) :
    t.PlacesGiven := by
  have hreservations := (State.reservations_of_txns fun n => (h.laneRest n).2).1
  have hfree : t.placeFree = s.placeFree := State.placeFree_congr (by rw [h.maze]) hreservations h.tables
  rwa [State.PlacesGiven, h.heldOrder, hfree]

/-- The end of the event leaves the riders, the table and the clock of a part with no place to give. -/
theorem State.DayOpened.finish (h : s.DayOpened day openMinute closeMinute t) (ht : t.PlacesGiven) (before : State) :
    s.DayOpened day openMinute closeMinute (t.finish before) := by
  obtain ⟨hheld, hlanes, -, hpassback⟩ := t.finish_keeps_of_given before ht
  have hlane (n : LaneId) : (t.finish before).lane n = t.lane n := by rw [State.lane, hlanes, State.lane]
  have hmaze : (t.finish before).maze = t.maze := by
    simp [State.finish, State.givePlaces_of_given _ _ ht]
  exact {
    ms := by simp [h.ms]
    tables := by simp [h.tables]
    passback := hpassback.trans h.passback
    heldOrder := hheld.trans h.heldOrder
    deferred := by simp [h.deferred]
    maze := hmaze.trans h.maze
    time := by simp [h.time]
    laneDay := fun n => by rw [hlane, h.laneDay]
    laneRest := fun n => by rw [hlane]; exact h.laneRest n }

/-- Hearing the message changes the loop alone (R169). -/
theorem State.DayOpened.of_heard (h : s.heard.DayOpened day openMinute closeMinute t) :
    s.DayOpened day openMinute closeMinute t := by
  obtain ⟨hms, htables, hpassback, hheld, hdeferred, hmaze, htime, hday, hrest⟩ := h
  exact ⟨hms, htables, hpassback, hheld, hdeferred, hmaze, htime, hday, hrest⟩

/-- A message passed on changes the loop alone (R164). -/
theorem State.DayOpened.forward (h : s.DayOpened day openMinute closeMinute t) (type : Byte) (m : Arrival) :
    s.DayOpened day openMinute closeMinute (t.forward type m) := by
  unfold State.forward
  obtain ⟨hms, htables, hpassback, hheld, hdeferred, hmaze, htime, hday, hrest⟩ := h
  split <;> exact ⟨hms, htables, hpassback, hheld, hdeferred, hmaze, htime, hday, hrest⟩

theorem State.dayOpenNotice_of_valid {m : Arrival} (hsource : m.source = 0) (hlength : m.payload.length = 6)
    (hday : seasonDayValid (fieldLE m.payload 0 2) = true) (horder : fieldLE m.payload 2 2 ≤ fieldLE m.payload 4 2)
    (hclose : fieldLE m.payload 4 2 ≤ 1440) : s.dayOpenNotice m
      = s.openDay (fieldLE m.payload 0 2) (fieldLE m.payload 2 2) (fieldLE m.payload 4 2) := by
  simp [State.dayOpenNotice, hsource, hlength, hday, horder, hclose]

/-- The event of a DAY_OPEN that is processed and opens this day. -/
theorem State.event_dayOpened {m : Arrival} (hs : s.Settled) (hm : s.Processes 0x21 m)
    (hnotice : s.heard.dayOpenNotice m = s.heard.openDay day openMinute closeMinute) :
    s.DayOpened day openMinute closeMinute (s.event fun x => x.receive 0x21 m fun x => x.dayOpenNotice m) := by
  have hopened : s.DayOpened day openMinute closeMinute (s.heard.dayOpenNotice m) :=
    hnotice ▸ (s.heard.openDay_dayOpened day openMinute closeMinute).of_heard
  have hreceived : s.DayOpened day openMinute closeMinute (s.receive 0x21 m fun x => x.dayOpenNotice m) := by
    rw [State.receive_of_processes _ hm]
    split
    · exact hopened
    · exact hopened.forward 0x21 m
  exact hreceived.finish (hreceived.placesGiven hs.1) s

end Opened

/-- Settles O44: a processed DAY_OPEN in range is valid, and its event leaves the part with the day opened. -/
theorem dayOpens : Obligations.DayOpens := by
  intro s m hs hm hsource hlength day hfirst hlast horder hclose
  have hday : seasonDayValid day = true := by simp [seasonDayValid, hfirst, hlast]
  have h := State.event_dayOpened hs hm (State.dayOpenNotice_of_valid hsource hlength hday horder hclose)
  refine ⟨_, exec_dayOpen m s, ?_⟩
  rw [h.time, h.maze, h.deferred]
  refine ⟨rfl, rfl, rfl, rfl, rfl, rfl, rfl, rfl, rfl, rfl, fun n => ⟨?_, h.laneRest n⟩, rfl, h.passback, h.tables, h.ms⟩
  rw [h.laneDay]
  simp [Lane.clearDay, Lane.carriesGrant]

end Sys2Proof.Machine
end

section
/-! PROOFS. The refund (R135 to R137): the computation as the rules say it, and the bounds of its result. -/

namespace Sys2Proof.Machine

/-! ### The steps of the computation -/

/-- A difference held at 0 (R135, R137) is the subtraction on `Nat`. -/
theorem sub_held_at_zero (a b : Nat) : (if b < a then a - b else 0) = a - b := by
  split <;> omega

/-- A day that is not impaired credits nothing, so the credits add up over the impaired days alone (R136). -/
theorem sum_weatherCredit (rate threshold : Nat) (qualities : List Nat) :
    (qualities.map (weatherCredit rate threshold)).sum
      = ((qualities.filter fun q => decide (q < threshold)).map fun q => rate * (1000 - q) / 1000).sum := by
  induction qualities with
  | nil => rfl
  | cons q rest ih => by_cases hq : q < threshold <;> simp [weatherCredit, hq, ih]

/-! ### The bounds of the result -/

section Result

variable {price days factor fee threshold step cap : Nat} {qualities ladder : List Nat} {x : RefundResult}
  (hx : computeRefund price days qualities factor ladder fee threshold step cap = x)

include hx

theorem refund_eq_min_rounded_cap : x.refund = min x.rounded cap := by
  subst hx
  rfl

/-- The gross is held at the price (R136), and the fee and the rounding only lower it (R137). -/
theorem rounded_le_price : x.rounded ≤ price := by
  subst hx
  exact (Nat.div_mul_le_self _ _).trans ((Nat.sub_le _ _).trans (Nat.min_le_left _ _))

theorem refund_le_rounded : x.refund ≤ x.rounded :=
  refund_eq_min_rounded_cap hx ▸ Nat.min_le_left _ _

theorem refund_le_cap : x.refund ≤ cap :=
  refund_eq_min_rounded_cap hx ▸ Nat.min_le_right _ _

theorem rounded_mod_step : x.rounded % step = 0 := by
  subst hx
  exact Nat.mul_mod_left _ _

/-- The cap alone takes the refund off the multiples of the rounding step (R137). -/
theorem refund_mod_step_or_cap : x.refund % step = 0 ∨ x.refund = cap := by
  rw [refund_eq_min_rounded_cap hx]
  rcases Nat.le_total x.rounded cap with hle | hle
  · rw [Nat.min_eq_left hle]
    exact .inl (rounded_mod_step hx)
  · exact .inr (Nat.min_eq_right hle)

theorem impaired_le_length : x.impaired ≤ qualities.length := by
  subst hx
  exact List.length_filter_le _ _

end Result

/-- Settles O38: the value by the steps of R135 to R137, and each bound by its lemma. -/
theorem refundBounded : Obligations.RefundBounded := by
  intro price days factor fee threshold step cap qualities ladder x categoryPrice used base rate impaired weather
    gross net
  have hbase : base = price - categoryPrice used := sub_held_at_zero _ _
  have hweather : weather = (qualities.map (weatherCredit rate threshold)).sum :=
    (sum_weatherCredit rate threshold qualities).symm
  have hgross : gross = min price (price - categoryPrice used
      + (qualities.map (weatherCredit rate threshold)).sum) := by
    simp only [gross, hbase, hweather]
  have hnet : net = gross - fee := sub_held_at_zero _ _
  have hrounded : x.rounded = step * (net / step) := by
    rw [hnet, hgross, Nat.mul_comm]
    rfl
  exact ⟨⟨hrounded, refund_eq_min_rounded_cap rfl, rfl⟩, (refund_le_rounded rfl).trans (rounded_le_price rfl),
    refund_le_cap rfl, refund_le_rounded rfl, refund_mod_step_or_cap rfl, impaired_le_length rfl⟩

end Sys2Proof.Machine
end

section
/-! PROOFS. The run times, the station clock and the interval: the seconds that they count, and the interval's end. -/

namespace Sys2Proof.Machine

theorem exec_stationClockAdvance (s : State) :
    exec .stationClockAdvance s = .next (s.event fun s => s.clockAdvance) := rfl

theorem exec_intervalPrescalerExpiry (s : State) :
    exec .intervalPrescalerExpiry s = .next (s.event fun s => s.prescalerTimeout) := rfl

theorem exec_intervalEnd (s : State) : exec .intervalEnd s = .next (s.event fun s => s.intervalEndEvent) := rfl

/-! ### The Time Base alone -/

/-- `s` with the Time Base replaced. -/
def State.withTime (s : State) (time : TimeBase) : State := { s with time := time }

section Time

variable {s : State} {time : TimeBase}

/-- The Time Base is no part of what an event settles. -/
theorem State.Settled.withTime (hs : s.Settled) (time : TimeBase) : (s.withTime time).Settled :=
  hs.withGate rfl time

/-- The event that changes the Time Base alone. -/
theorem State.Settled.event_withTime (hs : s.Settled) {f : State → State} (hf : f s = s.withTime time) :
    s.event f = s.withTime time :=
  State.event_eq hf (hs.withTime time) id

end Time

/-! ### The run times (R154) -/

theorem State.dayRunning_iff (s : State) : s.dayRunning = true ↔
    s.time.dayState = .opened ∧ s.maze.liftRun = true ∧ s.time.openMinute ≤ s.time.stationTime / 60
      ∧ s.time.stationTime / 60 < s.time.closeMinute := by
  simp only [State.dayRunning, Bool.and_eq_true, decide_eq_true_eq, beq_iff_eq, and_assoc]
  rfl

/-- The run times brought up to date are the Time Base's alone. -/
theorem State.bringRunTimes_eq (s : State) : s.bringRunTimes = s.withTime s.bringRunTimes.time := rfl

/-! ### The station clock (R147) -/

section Clock

variable {s : State}

/-- The second after 86,399 is 0. -/
theorem nextSecond_eq {t : Nat} (h : t ≤ 86399) : (if t ≥ 86399 then 0 else t + 1) = (t + 1) % 86400 := by
  split <;> omega

theorem State.clockAdvance_of_due (hclock : s.time.stationTime ≤ 86399) (hdue : s.time.phase + 1000 ≤ s.ms) :
    s.clockAdvance = s.withTime { s.bringRunTimes.time with
      stationTime := (s.time.stationTime + 1) % 86400, phase := s.time.phase + 1000 } := by
  rw [State.clockAdvance, if_pos hdue, ← nextSecond_eq hclock]
  rfl

theorem State.clockAdvance_of_early (h : s.ms < s.time.phase + 1000) : s.clockAdvance = s :=
  if_neg (by omega)

end Clock

/-! ### The interval timer (R157) -/

/-- The counts of the interval timer after one more second under these settings. -/
def TimeBase.counting (time : TimeBase) (st : Settings) : TimeBase :=
  if time.periodCount + 1 < st.intervalPeriodS then { time with periodCount := time.periodCount + 1 }
  else if time.postscaleCount + 1 < st.intervalPostscale then
    { time with periodCount := 0, postscaleCount := time.postscaleCount + 1 }
  else { time with periodCount := 0, postscaleCount := 0, intervalDue := true }

theorem State.prescalerTimeout_of_due {s : State} {p : Timer} (hp : s.time.prescaler = some p)
    (hdue : p.start + p.duration ≤ s.ms) :
    s.prescalerTimeout = s.withTime
      ({ s.time with prescaler := some ⟨p.start + p.duration, 1000⟩ }.counting s.settings) := by
  have hd : p.due s.ms = true := decide_eq_true hdue
  simp only [State.prescalerTimeout, hp, hd, if_true, TimeBase.counting]
  (repeat' split) <;> rfl

/-- Settles O41: the run times, the station clock and the prescaler, each by its equation. -/
theorem timeBaseCounts : Obligations.TimeBaseCounts := by
  intro s hs elapsed minute grown
  have hgrown : s.bringRunTimes.time = grown := by
    simp only [State.bringRunTimes, State.dayRunning_iff]
    rfl
  refine ⟨?_, fun hclock hdue => ?_, fun hearly => ?_, fun p hp hdue => ?_⟩
  · rw [State.bringRunTimes_eq, hgrown]
    rfl
  · rw [exec_stationClockAdvance, hs.event_withTime (State.clockAdvance_of_due hclock hdue), hgrown]
    rfl
  · rw [exec_stationClockAdvance, State.event_same (State.clockAdvance_of_early hearly) hs]
  · rw [exec_intervalPrescalerExpiry, hs.event_withTime (State.prescalerTimeout_of_due hp hdue)]
    rfl

/-! ### The end of the interval (R158) -/

/-- `s` with the interval ended: the sequence number advanced, and every accumulator cleared but for the milliseconds
under a second. -/
def State.intervalCleared (s : State) : State :=
  { s with
    lanes := s.lanes.map fun l => { l with interval := .zero }
    maze := { s.maze with interval := .zero }
    time := { s.bringRunTimes.time with
      sequence := s.time.sequence + 1, intervalRun := s.bringRunTimes.time.intervalRun % 1000
      intervalDue := false } }

section Interval

variable {s : State}

/-- With a general entry free the interval ends as its report is queued (R166). -/
theorem State.endInterval_eq (hfree : 0 < s.generalFree) (hown : s.ownAddress.isSome = true) (short : Bool)
    (seconds : Nat) :
    s.endInterval short seconds = s.intervalCleared.enqueue (.count (s.intervalReport short seconds)) := by
  have hroom : 0 < s.bringRunTimes.generalFree := hfree
  rw [State.endInterval, State.queueReport, if_pos hroom, State.enqueue_eq (s := s.bringRunTimes) _ hown,
    State.enqueue_eq (s := s.intervalCleared) _ hown]
  rfl

/-- The accumulators are no part of what an event settles. -/
theorem State.Settled.intervalCleared (hs : s.Settled) :
    s.intervalCleared.Settled ∧ s.intervalCleared.placeFree = s.placeFree := by
  have htxn (n : LaneId) : (s.intervalCleared.lane n).txn = (s.lane n).txn := by cases n <;> rfl
  obtain ⟨hreservations, hreserved⟩ := State.reservations_of_txns htxn
  have hplace : s.intervalCleared.placeFree = s.placeFree := State.placeFree_congr rfl hreservations rfl
  exact ⟨hs.congr rfl hplace rfl rfl (State.generalFree_congr rfl hreserved) rfl rfl rfl, hplace⟩

end Interval

/-- Settles O42: the COUNT report finds a general entry free, and no EVENT report waits before it. -/
theorem intervalEnds : Obligations.IntervalEnds := by
  intro s hs hown hfree hdue u
  obtain ⟨hcleared, hplace⟩ := hs.intervalCleared
  have hend : s.intervalEndEvent
      = s.intervalCleared.enqueue (.count (s.intervalReport false s.settings.intervalSeconds)) := by
    rw [State.intervalEndEvent, if_pos hdue, State.endInterval_eq hfree hown]
  rw [exec_intervalEnd, State.event_eq_offered hend hcleared hplace.symm.le hown
    (.inr (hs.pendingEvents_of_room hfree))]
  rfl

end Sys2Proof.Machine
end

section
/-! PROOFS. The notices TIME, DAY_OPEN and DAY_CLOSE: the clock that a TIME sets, and a notice of the wrong length. -/

namespace Sys2Proof.Machine

theorem exec_time (m : Arrival) (s : State) : exec (.time m) s
    = .next (s.event fun x => x.receive 0x20 m fun x => x.timeNotice m) := rfl

theorem exec_dayClose (m : Arrival) (s : State) : exec (.dayClose m) s
    = .next (s.event fun x => x.receive 0x22 m fun x => x.dayCloseNotice m) := rfl

/-! ### A latch before the Time Base is set (R148) -/

section Latch

variable {s t : State} {f : Flag} {d : Nat} {type : Byte} {m : Arrival} {time : TimeBase}

/-- A message passed on does not read the Time Base. -/
theorem State.passedOn_withTime (s : State) (time : TimeBase) (x : LoopMessage) :
    (s.withTime time).passedOn x = (s.passedOn x).withTime time := by
  simp only [State.passedOn, apply_ite (fun x : State => x.withTime time)]
  rfl

/-- A report does not read the Time Base: it carries the time of its latch. -/
theorem State.reported_withTime (s : State) (time : TimeBase) (r : EventReport) :
    (s.withTime time).reported r = (s.reported r).withTime time := by
  simp only [State.reported, State.offered, apply_ite (fun x : State => x.withTime time)]
  rfl

theorem State.raising_withTime (s : State) (time : TimeBase) (rs : List EventReport) :
    (s.raising rs).withTime time = (s.withTime time).raising rs := rfl

/-- The report that a latch makes waits for the end of the event. -/
theorem State.latch_of_makes (hraised : s.mgmt.raised = []) (hset : ¬s.flagSet f = true)
    (hmade : (s.flagEnabled f && !s.eventPending f) = true) :
    s.latch f d = (s.withFlag f).raising [⟨f, s.time.stationTime, d⟩] := by
  rw [State.latch, if_neg hset, if_pos hmade, hraised]
  rfl

theorem State.latch_of_no_report (hset : ¬s.flagSet f = true)
    (hmade : ¬(s.flagEnabled f && !s.eventPending f) = true) : s.latch f d = s.withFlag f := by
  rw [State.latch, if_neg hset, if_neg hmade]
  rfl

/-- The end of an event that latches a flag and then sets the Time Base: the report shows the time before. -/
theorem State.finish_latch_withTime {before : State} (f : Flag) (d : Nat) (time : TimeBase) (h : s.Settled)
    (hp : before.placeFree = true → s.placeFree = true) :
    ((s.latch f d).withTime time).finish before = (s.latched f d).withTime time := by
  have ⟨_, ⟨hraised, _⟩, _⟩ := h
  have hflag : ((s.withFlag f).withTime time).Settled := (h.withFlag f).withTime time
  by_cases hset : s.flagSet f = true
  · rw [State.latch, State.latched, if_pos hset, if_pos hset]
    exact State.finish_of_settled _ before (h.withTime time) hp
  · rw [State.latched, if_neg hset]
    by_cases hmade : (s.flagEnabled f && !s.eventPending f) = true
    · rw [State.latch_of_makes hraised hset hmade, if_pos hmade, ← State.reported_withTime,
        State.raising_withTime]
      exact State.finish_raising _ hflag hp
    · rw [State.latch_of_no_report hset hmade, if_neg hmade]
      exact State.finish_of_settled _ before hflag hp

/-- The event of a notice that is processed, latches a flag and then sets the Time Base. -/
theorem State.event_of_processes_latch_withTime {deliver : State → State} (h : s.Processes type m)
    (hf : deliver s.heard = (t.latch f d).withTime time) (ht : t.Settled)
    (hsend : t.loop.sending = s.loop.sending) (hp : s.placeFree = true → t.placeFree = true)
    (ho : t.LatchesSilently f ∨ s.loop.sending.isSome = true ∨ s.isOwn m.destination = true) :
    (s.event fun x => x.receive type m deliver) = ((t.latched f d).withTime time).onward s type m := by
  rcases ho with ho | hbusy
  · rw [State.latched_of_silent t f d ho]
    rw [State.latch_of_silent t f d ho] at hf
    exact State.event_of_processes h hf ((ht.withFlag f).withTime time) hp
  · simp only [State.event, State.receive_of_processes deliver h, hf, State.onward]
    split
    case isTrue => exact State.finish_latch_withTime f d time ht hp
    case isFalse hown =>
      have hb : t.loop.sending.isSome = true := by rw [hsend]; exact hbusy.resolve_right hown
      have hlatched : ((t.latch f d).withTime time).loop.sending.isSome = true := by simpa [State.withTime] using hb
      generalize hx : (⟨type, m.destination, m.source, m.hops + 1, m.payload⟩ : LoopMessage) = x
      obtain ⟨hset, hfree⟩ := ht.passedOn_of_busy hb (x := x)
      rw [State.forward_of_busy hlatched, hx, State.passedOn_withTime, State.passedOn_withTime,
        State.latch_passedOn hb, State.latched_passedOn hb]
      exact State.finish_latch_withTime f d time hset (hfree ▸ hp)

end Latch

/-! ### What a notice asks of the Time Base (R148, R149, R152, R189) -/

section Notices

variable {s : State} {m : Arrival}

theorem State.timeNotice_of_valid (hsource : m.source = 0) (hlength : m.payload.length = 4)
    (hrange : fieldLE m.payload 0 4 ≤ 86399) : s.timeNotice m = s.setClock (fieldLE m.payload 0 4) := by
  simp [State.timeNotice, hsource, hlength, Nat.not_lt.2 hrange]

theorem State.timeNotice_of_length (hsource : m.source = 0) (hlength : m.payload.length ≠ 4) :
    s.timeNotice m = s.latch .badNotice 0x20 := by
  simp [State.timeNotice, hsource, hlength, State.badNotice]

theorem State.dayOpenNotice_of_length (hsource : m.source = 0) (hlength : m.payload.length ≠ 6) :
    s.dayOpenNotice m = s.latch .badNotice 0x21 := by
  simp [State.dayOpenNotice, hsource, hlength, State.badNotice]

theorem State.dayCloseNotice_of_length (hsource : m.source = 0) (hlength : m.payload.length ≠ 2) :
    s.dayCloseNotice m = s.latch .badNotice 0x22 := by
  simp [State.dayCloseNotice, hsource, hlength, State.badNotice]

theorem State.dayCloseNotice_of_valid (hsource : m.source = 0) (hlength : m.payload.length = 2)
    (hday : seasonDayValid (fieldLE m.payload 0 2) = true) (hopen : s.time.dayState = .opened)
    (hsame : fieldLE m.payload 0 2 = s.time.seasonDay) : s.dayCloseNotice m = s.closeDay := by
  have hvalid : seasonDayValid s.time.seasonDay = true := hsame ▸ hday
  simp [State.dayCloseNotice, hsource, hlength, hvalid, hopen, hsame]

/-- The Time Base as a TIME notice of this time sets it (R148). -/
def State.clockSetTo (s : State) (v : Nat) : TimeBase :=
  { s.bringRunTimes.time with stationTime := v, clockSet := true, phase := s.ms }

/-- A step of more than 2 seconds of a clock that was SET latches TIME_STEP, with the time before the setting. -/
theorem State.setClock_of_step {v : Nat} (h : s.time.clockSet = true ∧ 2 < clockStep v s.time.stationTime) :
    s.setClock v
      = (s.latch .timeStep (clockStep v s.time.stationTime)).withTime (s.clockSetTo v) := by
  obtain ⟨hset, hstep⟩ := h
  simp only [State.setClock, hset, hstep, decide_true, Bool.and_self, if_true]
  by_cases hflag : s.flagSet .timeStep = true
  · have hflag' : s.bringRunTimes.flagSet .timeStep = true := hflag
    rw [State.latch, State.latch, if_pos hflag, if_pos hflag']
    rfl
  · have hflag' : ¬s.bringRunTimes.flagSet .timeStep = true := hflag
    rw [State.latch, State.latch, if_neg hflag, if_neg hflag']
    rfl

theorem State.setClock_of_no_step {v : Nat} (h : ¬(s.time.clockSet = true ∧ 2 < clockStep v s.time.stationTime)) :
    s.setClock v = s.withTime (s.clockSetTo v) := by
  have hsilent : ¬(s.time.clockSet && decide (2 < clockStep v s.time.stationTime)) = true := by simpa using h
  simp only [State.setClock, if_neg hsilent]
  rfl

end Notices

/-- Settles O43: the clock set with or without TIME_STEP, and each notice of a wrong length as one latch. -/
theorem timeNoticeTaken : Obligations.TimeNoticeTaken := by
  intro s m hs hsource ordered
  have hheard := hs.heard
  refine ⟨fun hm hlength hrange ho => ?_, fun ho hm hlength => ?_, fun ho hm hlength => ?_, fun ho hm hlength => ?_⟩
  · intro v d step heard
    show exec (.time m) s = .next ((heard.withTime (s.clockSetTo v)).onward s 0x20 m)
    have hnotice : s.heard.timeNotice m = s.heard.setClock v := State.timeNotice_of_valid hsource hlength hrange
    rw [exec_time]
    by_cases hstep : s.time.clockSet = true ∧ 2 < step
    · have hset : s.heard.setClock v = (s.heard.latch .timeStep step).withTime (s.clockSetTo v) :=
        State.setClock_of_step hstep
      rw [show heard = s.heard.latched .timeStep step from if_pos hstep,
        State.event_of_processes_latch_withTime hm (hnotice.trans hset) hheard rfl id ho]
    · have hset : s.heard.setClock v = s.heard.withTime (s.clockSetTo v) := State.setClock_of_no_step hstep
      rw [show heard = s.heard from if_neg hstep,
        State.event_of_processes hm (hnotice.trans hset) (hheard.withTime _) id]
  · rw [exec_time, State.event_of_processes_latch hm (State.timeNotice_of_length hsource hlength) hheard rfl id ho]
  · rw [exec_dayOpen,
      State.event_of_processes_latch hm (State.dayOpenNotice_of_length hsource hlength) hheard rfl id ho]
  · rw [exec_dayClose,
      State.event_of_processes_latch hm (State.dayCloseNotice_of_length hsource hlength) hheard rfl id ho]

end Sys2Proof.Machine
end

section
/-! PROOFS. The DAY report: its availability, and the DAY_CLOSE that queues it. -/

namespace Sys2Proof.Machine

/-! ### Availability (R155) -/

section Availability

variable {time : TimeBase}

theorem TimeBase.runSeconds_le (time : TimeBase) : time.runSeconds ≤ time.scheduledSeconds := Nat.min_le_right _ _

theorem TimeBase.availability_of_unscheduled (h : time.scheduledSeconds = 0) : time.availability = 1000 := if_pos h

/-- Availability is the floor of the quotient. -/
theorem TimeBase.availability_floor (h : 0 < time.scheduledSeconds) :
    time.availability * time.scheduledSeconds ≤ time.runSeconds * 1000
      ∧ time.runSeconds * 1000 < (time.availability + 1) * time.scheduledSeconds := by
  rw [TimeBase.availability, if_neg (by omega)]
  exact ⟨Nat.div_mul_le_self _ _, Nat.lt_mul_of_div_lt (Nat.lt_succ_self _) h⟩

theorem TimeBase.availability_le (time : TimeBase) : time.availability ≤ 1000 := by
  rcases Nat.eq_zero_or_pos time.scheduledSeconds with h | h
  · exact (TimeBase.availability_of_unscheduled h).le
  · rw [TimeBase.availability, if_neg (by omega)]
    exact Nat.div_le_of_le_mul (Nat.mul_le_mul_right 1000 time.runSeconds_le)

/-- A schedule within a day holds the scheduled seconds and the product of the division. -/
theorem TimeBase.seconds_le (h : time.closeMinute ≤ 1440) :
    time.scheduledSeconds ≤ 86400 ∧ time.runSeconds * 1000 ≤ 86400000 := by
  have hscheduled : time.scheduledSeconds ≤ 86400 := by
    rw [TimeBase.scheduledSeconds]
    omega
  have hrun := time.runSeconds_le
  exact ⟨hscheduled, by omega⟩

end Availability

/-! ### What a DAY_CLOSE leaves (R152) -/

section Closed

variable {s x : State} {n : LaneId}

/-- `s` with its DAY report queued, where the run times have been brought up to date. -/
def State.dayClosing (s : State) : State :=
  let s1 := s.bringRunTimes.queueReport (.day (s.bringRunTimes.dayReport false))
  { s1 with time := { s1.time with dayState := .closed }, choices := s1.choices + 1 }

theorem State.closeDay_eq (s : State) :
    s.closeDay = LaneId.all.foldl (fun x n => x.dayChangeArrives s.choices n) s.dayClosing := by
  rw [State.closeDay, State.dayClosing]
  simp

/-- With a general entry free the report is queued last. -/
theorem State.dayClosing_of_room (hfree : 0 < s.generalFree) (hown : s.ownAddress.isSome = true) :
    s.dayClosing = { s with
      time := { s.bringRunTimes.time with dayState := .closed }
      loop := { s.loop with insertQueue := s.loop.insertQueue ++ [.day (s.bringRunTimes.dayReport false)] }
      choices := s.choices + 1 } := by
  have hroom : 0 < s.bringRunTimes.generalFree := hfree
  rw [State.dayClosing, State.queueReport, if_pos hroom, State.enqueue_eq (s := s.bringRunTimes) _ hown]
  rfl

/-- The change of the day reaches a lane, or is on its way (R67). -/
theorem State.dayChangeArrives_lane (s : State) (choice : Nat) (n : LaneId) :
    ((s.dayChangeArrives choice n).lane n).day = (s.lane n).day
      ∧ ((s.dayChangeArrives choice n).lane n).txn = (s.lane n).txn := by
  unfold State.dayChangeArrives
  split
  · exact ⟨rfl, rfl⟩
  · obtain ⟨hsame, -⟩ | ⟨-, recovery, hrest⟩ := s.closureChange_lane n
    · rw [hsame]
      exact ⟨rfl, rfl⟩
    · rw [hrest]
      exact ⟨rfl, rfl⟩

theorem State.dayChangeArrives_lane_other {m : LaneId} (choice : Nat) (h : m ≠ n) :
    (s.dayChangeArrives choice n).lane m = s.lane m := by
  unfold State.dayChangeArrives
  split
  · rfl
  · exact State.closureChange_lane_other h

theorem State.lanesOnly_dayChangeArrives (s : State) (choice : Nat) (n : LaneId) :
    s.LanesOnly (s.dayChangeArrives choice n) := by
  unfold State.dayChangeArrives
  split
  · exact .refl s
  · exact State.lanesOnly_closureChange

/-- The latch of a lane that goes to FAULT is the one latch of a change of closure conditions. -/
theorem State.quietTo_closureChange (n : LaneId) (hq : s.LatchesSilently .laneFault) :
    s.QuietTo (s.closureChange n) := by
  unfold State.closureChange State.rest
  split
  · by_cases hst : (s.lane n).state = s.restingState n
    · rw [if_pos hst]
      exact State.quietTo_of_mgmt rfl
    · rw [if_neg hst]
      cases s.restingState n with
      | fault => exact State.quietTo_latch n.num hq
      | _ => exact State.quietTo_of_mgmt rfl
  · exact State.quietTo_of_mgmt rfl

theorem State.quietTo_dayChangeArrives (choice : Nat) (n : LaneId) (hq : s.LatchesSilently .laneFault) :
    s.QuietTo (s.dayChangeArrives choice n) := by
  unfold State.dayChangeArrives
  split
  · exact State.quietTo_of_mgmt rfl
  · exact State.quietTo_closureChange n hq

/-- The lanes that the change reaches make no report. -/
theorem State.quietTo_dayChanges (choice : Nat) (lanes : List LaneId) (hq : s.LatchesSilently .laneFault) :
    s.QuietTo (lanes.foldl (fun x n => x.dayChangeArrives choice n) s) := by
  induction lanes generalizing s with
  | nil => exact State.quietTo_of_mgmt rfl
  | cons n rest ih =>
    have hfirst := State.quietTo_dayChangeArrives choice n hq
    exact hfirst.trans (ih (hfirst.silent hq))

/-- A DAY_CLOSE changes of the lanes neither a day counter nor a transaction, and makes no report but its own. -/
theorem State.closeDay_lane (s : State) (n : LaneId) :
    s.dayClosing.LanesOnly s.closeDay ∧ (s.closeDay.lane n).day = (s.dayClosing.lane n).day
      ∧ (s.closeDay.lane n).txn = (s.dayClosing.lane n).txn := by
  obtain ⟨hall, -, hin⟩ := State.foldl_lanes (act := fun x n => x.dayChangeArrives s.choices n)
    (fun x m => x.lanesOnly_dayChangeArrives _ m) (fun _ _ _ hk => State.dayChangeArrives_lane_other _ hk) LaneId.all
    (by decide) s.dayClosing
  obtain ⟨y, -, hlane, -, hact⟩ := hin n (by cases n <;> decide)
  have hdone := y.dayChangeArrives_lane s.choices n
  rw [← hact, hlane, ← State.closeDay_eq] at hdone
  exact ⟨State.closeDay_eq s ▸ hall, hdone⟩

/-- What a DAY_CLOSE leaves with a general entry free. -/
theorem State.closeDay_blocks (hfree : 0 < s.generalFree) (hown : s.ownAddress.isSome = true) :
    s.closeDay.time = { s.bringRunTimes.time with dayState := .closed }
      ∧ s.closeDay.loop = { s.loop with
        insertQueue := s.loop.insertQueue ++ [.day (s.bringRunTimes.dayReport false)] }
      ∧ ∀ n, (s.closeDay.lane n).day = (s.lane n).day ∧ (s.closeDay.lane n).txn = (s.lane n).txn := by
  obtain ⟨hkeep, -⟩ := s.closeDay_lane .l1
  have hclosing := State.dayClosing_of_room hfree hown
  refine ⟨by rw [hkeep.time, hclosing], by rw [hkeep.loop, hclosing], fun n => ?_⟩
  obtain ⟨-, hday, htxn⟩ := s.closeDay_lane n
  rw [hday, htxn, hclosing]
  exact ⟨rfl, rfl⟩

/-- With the output busy and LANE_FAULT silent a DAY_CLOSE leaves the part settled. -/
theorem State.Settled.closeDay (hs : s.Settled) (hfree : 0 < s.generalFree) (hown : s.ownAddress.isSome = true)
    (hbusy : s.loop.sending.isSome = true) (hq : s.LatchesSilently .laneFault) :
    s.closeDay.Settled ∧ s.closeDay.placeFree = s.placeFree := by
  obtain ⟨-, hloop, hlane⟩ := State.closeDay_blocks hfree hown
  have ⟨hgiven, ⟨hnone, _⟩, _⟩ := hs
  have hplace : s.closeDay.placeFree = s.placeFree :=
    State.placeFree_congr (by simp) (State.reservations_of_txns fun n => (hlane n).2).1 (by simp)
  have hclosing := State.dayClosing_of_room hfree hown
  obtain ⟨hquietRaised, -, -⟩ : s.dayClosing.QuietTo s.closeDay := by
    rw [State.closeDay_eq]
    exact State.quietTo_dayChanges _ _ (by rw [hclosing]; exact hq)
  have hraised : s.closeDay.mgmt.raised = [] := hquietRaised.trans (by rw [hclosing]; exact hnone)
  have hpending : s.closeDay.loop.pendingEvents = [] := by rw [hloop]; exact hs.pendingEvents_of_room hfree
  have hsending : s.closeDay.loop.sending.isSome = true := by rw [hloop]; exact hbusy
  refine ⟨⟨?_, ⟨hraised, .inl hpending⟩, .inl hsending⟩, hplace⟩
  rw [State.PlacesGiven, hplace]
  simpa [State.PlacesGiven] using hgiven

end Closed

/-! ### Both closes queue the report (R152, R155) -/

section Queued

variable {s : State}

theorem State.mem_closeDay (hfree : 0 < s.generalFree) (hown : s.ownAddress.isSome = true) :
    .day (s.bringRunTimes.dayReport false) ∈ s.closeDay.loop.insertQueue := by
  obtain ⟨-, hloop, -⟩ := State.closeDay_blocks hfree hown
  rw [hloop]
  exact List.mem_append_right _ List.mem_cons_self

/-- The DAY_OPEN of a day still open queues that day's report, with the IMPLICIT mark. -/
theorem State.mem_openDay (hfree : 0 < s.generalFree) (hown : s.ownAddress.isSome = true)
    (hopen : s.time.dayState = .opened) (day openMinute closeMinute : Nat) :
    .day (s.bringRunTimes.dayReport true) ∈ (s.openDay day openMinute closeMinute).loop.insertQueue := by
  have hroom : 0 < s.bringRunTimes.generalFree := hfree
  have hloop : (s.openDay day openMinute closeMinute).loop = s.dayReported.loop := by
    rw [State.openDay_eq, if_pos hopen, State.dayScheduled]
    simp
  rw [hloop, State.dayReported, if_pos hopen, State.queueReport, if_pos hroom]
  exact State.mem_enqueue hown

end Queued

/-- Settles O46: the report's fields by the rules of availability, and its place in the insert queue. -/
theorem availabilityComputed : Obligations.AvailabilityComputed := by
  intro s implicit r
  refine ⟨rfl, rfl, fun h => ⟨?_, TimeBase.availability_floor h⟩,
    fun h => ⟨TimeBase.availability_of_unscheduled h, ?_⟩, TimeBase.seconds_le, s.time.availability_le,
    fun hfree hown => ⟨State.mem_closeDay hfree hown, fun day first last hopen =>
      State.mem_openDay hfree hown hopen day first last⟩⟩
  · exact beq_false_of_ne (Nat.ne_of_gt h)
  · exact beq_iff_eq.2 h

/-- Settles O45: the day closed and its report queued, by what a DAY_CLOSE leaves of a part that has heard it. -/
theorem dayCloses : Obligations.DayCloses := by
  intro s m hs hm hsource hlength hopen hsame hfirst hlast hfree hbusy hq u scheduled run
  have ⟨_, hown, _⟩ := hm
  have hday : seasonDayValid (fieldLE m.payload 0 2) = true := by simp [seasonDayValid, hsame, hfirst, hlast]
  obtain ⟨hsettled, hplace⟩ := hs.heard.closeDay hfree hown hbusy hq
  obtain ⟨htime, hloop, hlane⟩ := State.closeDay_blocks (s := s.heard) hfree hown
  have hnotice := State.dayCloseNotice_of_valid (s := s.heard) hsource hlength hday hopen hsame
  refine ⟨s.heard.closeDay, ?_, htime, by rw [hloop]; rfl, hlane, ?_⟩
  · rw [exec_dayClose, State.event_of_processes hm hnotice hsettled hplace.symm.le]
  · rw [hloop]
    simp [State.heard]

end Sys2Proof.Machine
end

section
/-! PROOFS. READ_STATUS and READ_COUNTS: the lengths of the answers, and the part that they leave as it stands. -/

namespace Sys2Proof.Machine

theorem exec_readStatus (m : Arrival) (s : State) : exec (.readStatus m) s
    = .next (s.event fun x => x.receive 0x07 m fun x => x.commandDelivered m fun x =>
      x.takeCommand 0x07 fun x => x.readStatusCommand m.payload) := rfl

theorem exec_readCounts (m : Arrival) (s : State) : exec (.readCounts m) s
    = .next (s.event fun x => x.receive 0x08 m fun x => x.commandDelivered m fun x =>
      x.takeCommand 0x08 fun x => x.readCountsCommand m.payload) := rfl

/-! ### Lengths (R185, R186, R191) -/

@[simp] theorem length_bytesLE (n v : Nat) : (bytesLE n v).length = n := by
  induction n generalizing v with
  | zero => rfl
  | succ n ih => simp [bytesLE, ih]

@[simp] theorem length_yesNo (b : Bool) : (yesNo b).length = 1 := length_bytesLE 1 _

/-- A field for each of the eight tables. -/
theorem length_perTable {f : TableId → List Byte} {k : Nat} (h : ∀ t, (f t).length = k) :
    (TableId.all.map f).flatten.length = 8 * k := by
  simp only [TableId.all, List.map_cons, List.map_nil, List.length_flatten, h, List.sum_cons, List.sum_nil]
  omega

@[simp] theorem length_laneCounters (c : LaneCounters) : c.bytes.length = 22 := by simp [LaneCounters.bytes]

@[simp] theorem length_laneBlock (p : PerLane LaneCounters) : (laneBlock p).length = 88 := by
  simp [laneBlock, PerLane.toList]

@[simp] theorem length_loadingCounters (c : LoadingCounters) : c.bytes.length = 26 := by
  simp [LoadingCounters.bytes, List.range_succ]

section Parts

variable {s : State}

theorem State.length_statusController (s : State) : s.statusController.length = 90 := by
  unfold State.statusController
  simp only [List.length_append, length_yesNo, length_bytesLE]
  rw [length_perTable (k := 4) fun t => by simp only [List.length_append, length_yesNo, length_bytesLE]]

theorem State.length_statusLanes (s : State) : s.statusLanes.length = 56 := by
  simp [State.statusLanes, perLane, LaneId.all]

theorem State.length_statusMaze (s : State) : s.statusMaze.length = 25 := by
  cases hw : s.maze.window <;> simp [State.statusMaze, State.heldBytes, perLane, LaneId.all, hw]

theorem State.length_statusLoop (s : State) : s.statusLoop.length = 35 := by
  simp [State.statusLoop]

/-- The four parts, with the lengths of their fields (R185). -/
theorem State.statusPart_cases {part : Nat} {fields : List Byte} (h : s.statusPart part = some fields) :
    (part = 0 ∧ fields = s.statusController) ∨ (part = 1 ∧ fields = s.statusLanes ++ s.laneCounts)
      ∨ (part = 2 ∧ fields = s.statusMaze ++ s.maze.day.bytes) ∨ (part = 3 ∧ fields = s.statusLoop) := by
  unfold State.statusPart at h
  split at h
  · exact .inl ⟨‹_›, (Option.some.inj h).symm⟩
  · split at h
    · exact .inr (.inl ⟨‹_›, (Option.some.inj h).symm⟩)
    · split at h
      · exact .inr (.inr (.inl ⟨‹_›, (Option.some.inj h).symm⟩))
      · split at h
        · exact .inr (.inr (.inr ⟨‹_›, (Option.some.inj h).symm⟩))
        · exact absurd h (by simp)

theorem State.length_statusPart {part : Nat} {fields : List Byte} (h : s.statusPart part = some fields) :
    some fields.length = [90, 144, 51, 35][part]? := by
  rcases State.statusPart_cases h with ⟨rfl, hf⟩ | ⟨rfl, hf⟩ | ⟨rfl, hf⟩ | ⟨rfl, hf⟩
  · rw [hf, State.length_statusController]
    rfl
  · rw [hf, List.length_append, State.length_statusLanes, State.laneCounts, length_laneBlock]
    rfl
  · rw [hf, List.length_append, State.length_statusMaze, length_loadingCounters]
    rfl
  · rw [hf, State.length_statusLoop]
    rfl

/-- The lanes' day counters end the lanes' part. -/
theorem State.statusPart_drop_lanes {fields : List Byte} (h : s.statusPart 1 = some fields) :
    fields.drop 56 = s.laneCounts := by
  have hfields : s.statusLanes ++ s.laneCounts = fields := Option.some.inj h
  rw [← hfields, List.drop_left' s.length_statusLanes]

/-- The loading day counters end the part of the maze and loading. -/
theorem State.statusPart_drop_loading {fields : List Byte} (h : s.statusPart 2 = some fields) :
    fields.drop 25 = s.maze.day.bytes := by
  have hfields : s.statusMaze ++ s.maze.day.bytes = fields := Option.some.inj h
  rw [← hfields, List.drop_left' s.length_statusMaze]

end Parts

/-! ### The commands -/

section Commands

variable {s : State} {p : List Byte} {part : Nat} {fields : List Byte}

theorem State.readStatusCommand_of_part (hpart : oneByte p = some part)
    (hfields : s.bringRunTimes.statusPart part = some fields) :
    s.readStatusCommand p = s.bringRunTimes.done (BitVec.ofNat 8 part :: fields) := by
  simp only [State.readStatusCommand, hpart, hfields]
  rfl

theorem State.readCountsCommand_of_empty (h : p = []) : s.readCountsCommand p = s.done s.countsData := by
  rw [h]
  rfl

end Commands

/-- Settles O58: each command carried out on the part that has heard it, with the data by its lengths. -/
theorem readsAnswer : Obligations.ReadsAnswer := by
  intro s m
  refine ⟨fun part fields ht hpart hfields => ⟨?_, State.length_statusPart hfields, ?_, ?_⟩,
    fun ht hempty => ?_⟩
  · have hbody := State.readStatusCommand_of_part hpart hfields
    have hsettled : s.heard.bringRunTimes.Settled := ht.1.heard.withTime _
    rw [exec_readStatus, State.event_of_done ht hbody hsettled rfl rfl]
    rfl
  · rintro rfl
    rw [State.statusPart_drop_lanes hfields]
    rfl
  · rintro rfl
    rw [State.statusPart_drop_loading hfields]
    rfl
  · rw [exec_readCounts, State.event_of_done ht (State.readCountsCommand_of_empty hempty) ht.1.heard rfl rfl]
    rfl

end Sys2Proof.Machine
end

section
/-! PROOFS. The bounds of the loop side (R164, R165, R168, R169): which lanes hold a reserved general entry, and what
each operation of the lanes and the verdicts makes of the bounds, in the order of the model's files. -/

namespace Sys2Proof.Machine

/-! ### The bounds, of the loop and the reservations alone -/

/-- The lane's transaction holds a reserved general entry (R138). -/
def Lane.reserving (l : Lane) : Bool := l.txn.any (·.insertReserved)

/-- Which lanes hold a reserved general entry. -/
def reserving (lanes : PerLane Lane) : PerLane Bool := lanes.map Lane.reserving

/-- How many entries are reserved. -/
def reservedEntries (r : PerLane Bool) : Nat := r.l1.toNat + r.l2.toNat + r.l3.toNat + r.l4.toNat

/-- The general messages of a send order. -/
def generalMessages (q : List Outgoing) : Nat := (q.filter (!·.isAnswer)).length

/-- The bounds of R164, R165, R168 and R169, of the loop beside these reservations, with this bound of the answer
entries occupied. -/
def Loop.Within (l : Loop) (answers : Nat) (r : PerLane Bool) : Prop :=
  l.transit.length ≤ 16 ∧ (l.insertQueue.filter (·.isAnswer)).length ≤ answers
    ∧ generalMessages l.insertQueue + reservedEntries r ≤ 28 ∧ l.fairness ≤ 4 ∧ l.badRun ≤ 16

theorem Lane.insertReservation_eq (l : Lane) : l.insertReservation = l.reserving.toNat := by
  rw [Lane.insertReservation, ← Lane.reserving]
  cases l.reserving <;> rfl

theorem State.generalReserved_eq (s : State) : s.generalReserved = reservedEntries (reserving s.lanes) := by
  simp only [State.generalReserved, Lane.insertReservation_eq]
  rfl

theorem State.loopBounds_iff (s : State) : s.LoopBounds ↔ s.loop.Within 4 (reserving s.lanes) := by
  rw [State.LoopBounds, State.generalReserved_eq]
  exact Iff.rfl

/-- A general entry is free while fewer than 28 are occupied and reserved. -/
theorem State.generalFree_pos (s : State) :
    0 < s.generalFree ↔ generalMessages s.loop.insertQueue + reservedEntries (reserving s.lanes) < 28 := by
  rw [State.generalFree, State.generalReserved_eq, State.generalOccupied, generalMessages]
  omega

theorem reservedEntries_le (r : PerLane Bool) : reservedEntries r ≤ 4 := by
  have h1 := r.l1.toNat_le
  have h2 := r.l2.toNat_le
  have h3 := r.l3.toNat_le
  have h4 := r.l4.toNat_le
  rw [reservedEntries]
  omega

theorem reservedEntries_set_false (r : PerLane Bool) (n : LaneId) :
    reservedEntries (r.set n false) ≤ reservedEntries r := by
  cases n <;> simp [reservedEntries, PerLane.set]

theorem reservedEntries_set_true (r : PerLane Bool) (n : LaneId) :
    reservedEntries (r.set n true) ≤ reservedEntries r + 1 := by
  cases n <;> simp only [reservedEntries, PerLane.set, Bool.toNat_true] <;> omega

section Bounds

variable {l : Loop} {answers : Nat} {r : PerLane Bool} {s : State}

theorem Loop.Within.answers_le {answers' : Nat} (h : l.Within answers r) (hle : answers ≤ answers') :
    l.Within answers' r := by
  obtain ⟨htransit, hanswers, hgeneral, hfairness, hbad⟩ := h
  exact ⟨htransit, hanswers.trans hle, hgeneral, hfairness, hbad⟩

/-- A reservation given back leaves the bounds. -/
@[simp] theorem Loop.Within.set_false (n : LaneId) (h : l.Within answers r) : l.Within answers (r.set n false) := by
  obtain ⟨htransit, hanswers, hgeneral, hfairness, hbad⟩ := h
  have hset := reservedEntries_set_false r n
  exact ⟨htransit, hanswers, by omega, hfairness, hbad⟩

/-- A reservation takes a free entry. -/
theorem Loop.Within.set_true (n : LaneId) (h : l.Within answers r)
    (hroom : generalMessages l.insertQueue + reservedEntries r < 28) : l.Within answers (r.set n true) := by
  obtain ⟨htransit, hanswers, -, hfairness, hbad⟩ := h
  have hset := reservedEntries_set_true r n
  exact ⟨htransit, hanswers, by omega, hfairness, hbad⟩

/-- A general message takes a free entry. -/
theorem Loop.Within.append {o : Outgoing} (h : l.Within answers r) (ho : o.isAnswer = false)
    (hroom : generalMessages l.insertQueue + reservedEntries r < 28) :
    ({ l with insertQueue := l.insertQueue ++ [o] } : Loop).Within answers r := by
  obtain ⟨htransit, hanswers, -, hfairness, hbad⟩ := h
  refine ⟨htransit, by simpa [List.filter_append, ho] using hanswers, ?_, hfairness, hbad⟩
  rw [generalMessages] at hroom ⊢
  simp only [List.filter_append, ho, List.length_append, List.filter_cons, List.filter_nil, Bool.not_false, if_true,
    List.length_singleton]
  omega

/-- An ANSWER takes one more answer entry. -/
theorem Loop.Within.append_answer {o : Outgoing} (h : l.Within answers r) (ho : o.isAnswer = true) :
    ({ l with insertQueue := l.insertQueue ++ [o] } : Loop).Within (answers + 1) r := by
  obtain ⟨htransit, hanswers, hgeneral, hfairness, hbad⟩ := h
  refine ⟨htransit, ?_, ?_, hfairness, hbad⟩
  · simp only [List.filter_append, ho, List.length_append, List.filter_cons, List.filter_nil, if_true,
      List.length_singleton]
    omega
  · simpa [generalMessages, List.filter_append, ho] using hgeneral

/-! ### The insert queue (R165 to R167) and the output (R168) -/

/-- A message queued takes an entry that is free. -/
theorem State.within_enqueue {o : Outgoing} (hr : reserving s.lanes = r) (h : s.loop.Within answers r)
    (ho : o.isAnswer = false) (hroom : 0 < s.generalFree) : (s.enqueue o).loop.Within answers r := by
  subst hr
  unfold State.enqueue
  split
  · exact h
  · exact h.append ho (s.generalFree_pos.1 hroom)

/-- A PASSAGE displaced frees the general entry that it held (R166). -/
theorem dropOldestPassage_keeps {q q' : List Outgoing} (h : dropOldestPassage q = some q') :
    generalMessages q = generalMessages q' + 1 ∧ q'.filter (·.isAnswer) = q.filter (·.isAnswer) := by
  induction q generalizing q' with
  | nil => cases h
  | cons o q ih =>
    have hskip (hq : (dropOldestPassage q).map (o :: ·) = some q') :
        generalMessages (o :: q) = generalMessages q' + 1
          ∧ q'.filter (·.isAnswer) = (o :: q).filter (·.isAnswer) := by
      obtain ⟨q'', hdrop, rfl⟩ := Option.map_eq_some_iff.1 hq
      obtain ⟨hgeneral, hanswers⟩ := ih hdrop
      simp only [generalMessages] at hgeneral ⊢
      cases hanswer : o.isAnswer <;> simp [hanswer, hgeneral, hanswers]
    cases o with
    | passage p =>
      obtain rfl := Option.some.inj h
      exact ⟨by simp [generalMessages, Outgoing.isAnswer], rfl⟩
    | answer a | event a | refund a | count a | day a => exact hskip h

/-- The loop without its first PASSAGE. -/
theorem Loop.Within.drop {q : List Outgoing} (k : Nat) (h : l.Within answers r)
    (hq : dropOldestPassage l.insertQueue = some q) :
    ({ l with insertQueue := q, noticeDrops := k } : Loop).Within answers r
      ∧ generalMessages q + reservedEntries r < 28 := by
  obtain ⟨htransit, hanswers, hgeneral, hfairness, hbad⟩ := h
  obtain ⟨hdropped, hkept⟩ := dropOldestPassage_keeps hq
  exact ⟨⟨htransit, hkept ▸ hanswers, by show generalMessages q + _ ≤ 28; omega, hfairness, hbad⟩, by omega⟩

theorem State.noticeDropped_loop (s : State) :
    s.noticeDropped.loop = { s.loop with noticeDrops := satAdd16 s.loop.noticeDrops 1 } := by
  simp [State.noticeDropped]

/-- A report takes the place of a PASSAGE (R166). -/
theorem State.within_displace {q : List Outgoing} {o : Outgoing} (hr : reserving s.lanes = r)
    (h : s.loop.Within answers r)
    (ho : o.isAnswer = false) (hq : dropOldestPassage s.loop.insertQueue = some q) :
    (({ s with loop := { s.loop with insertQueue := q } }.noticeDropped).enqueue o).loop.Within answers r := by
  obtain ⟨hwithin, hroom⟩ := h.drop (satAdd16 s.loop.noticeDrops 1) hq
  refine State.within_enqueue (by simpa using hr) (by rwa [State.noticeDropped_loop]) ho ?_
  rw [State.generalFree_pos, State.noticeDropped_loop]
  simpa [hr] using hroom

theorem State.within_queueReport {o : Outgoing} (ho : o.isAnswer = false) (hr : reserving s.lanes = r)
    (h : s.loop.Within answers r) : (s.queueReport o).loop.Within answers r := by
  unfold State.queueReport
  split
  · exact State.within_enqueue hr h ho ‹_›
  · split
    · exact State.within_displace hr h ho ‹_›
    · simpa using h

@[simp] theorem State.within_queueReport_day {d : DayReport} (hr : reserving s.lanes = r)
    (h : s.loop.Within answers r) : (s.queueReport (.day d)).loop.Within answers r :=
  State.within_queueReport rfl hr h

@[simp] theorem State.within_queueReport_count {c : CountReport} (hr : reserving s.lanes = r)
    (h : s.loop.Within answers r) : (s.queueReport (.count c)).loop.Within answers r :=
  State.within_queueReport rfl hr h

@[simp] theorem State.within_queuePassage {p : PassageNotice} (hr : reserving s.lanes = r)
    (h : s.loop.Within answers r) :
    (s.queuePassage p).loop.Within answers r := by
  unfold State.queuePassage
  split
  · exact State.within_enqueue hr h rfl ‹_›
  · split
    · exact State.within_displace hr h rfl ‹_›
    · rwa [State.noticeDropped_loop]

theorem State.within_queueEvent {e : EventReport} (hr : reserving s.lanes = r) (h : s.loop.Within answers r) :
    (s.queueEvent e).loop.Within answers r := by
  unfold State.queueEvent
  split
  · exact State.within_enqueue hr h rfl ‹_›
  · exact h

theorem State.within_drainPending (k : Nat) (hr : reserving s.lanes = r) (h : s.loop.Within answers r) :
    (s.drainPending k).loop.Within answers r := by
  induction k generalizing s with
  | zero => exact h
  | succ k ih =>
    unfold State.drainPending
    split
    · exact h
    · split
      · exact ih (by simpa using hr) (State.within_enqueue hr h rfl ‹_›)
      · exact h

theorem State.within_queuePending (hr : reserving s.lanes = r) (h : s.loop.Within answers r) :
    s.queuePending.loop.Within answers r := State.within_drainPending _ hr h

theorem State.within_flushRaised (hr : reserving s.lanes = r) (h : s.loop.Within answers r) :
    s.flushRaised.loop.Within answers r := by
  have hqueued (es : List EventReport) : (es.foldl State.queueEvent s).loop.Within answers r := by
    induction es generalizing s with
    | nil => exact h
    | cons e es ih => exact ih (by simpa using hr) (State.within_queueEvent hr h)
  rw [State.flushRaised_eq]
  exact hqueued s.made

theorem State.within_startTransit (k : Nat) (hk : k ≤ 4) (h : s.loop.Within answers r) :
    (s.startTransit k).loop.Within answers r := by
  unfold State.startTransit
  split
  · exact h
  · rename_i m rest htransit
    obtain ⟨hlength, hanswers, hgeneral, -, hbad⟩ := h
    rw [htransit, List.length_cons] at hlength
    exact ⟨by show rest.length ≤ 16; omega, hanswers, hgeneral, hk, hbad⟩

theorem State.within_startInsert (h : s.loop.Within answers r) : (s.startInsert 0).loop.Within answers r := by
  unfold State.startInsert
  split
  · exact h
  · rename_i o rest hqueue
    obtain ⟨htransit, hanswers, hgeneral, -, hbad⟩ := h
    have hsub : rest.Sublist s.loop.insertQueue := hqueue ▸ List.sublist_cons_self o rest
    have hfewer : generalMessages rest ≤ generalMessages s.loop.insertQueue := (hsub.filter _).length_le
    exact ⟨htransit, (hsub.filter _).length_le.trans hanswers, by show generalMessages rest + _ ≤ 28; omega,
      Nat.zero_le 4, hbad⟩

/-- The fairness count rises only below 4 (R168). -/
theorem State.within_arbitrate (b : Bool) (h : s.loop.Within answers r) : (s.arbitrate b).loop.Within answers r := by
  unfold State.arbitrate
  split
  · exact h
  · split
    · exact h
    · exact State.within_startTransit 0 (by decide) h
    · exact State.within_startInsert h
    · split
      · dsimp only
        split
        · exact State.within_startTransit (s := { s with choices := s.choices + 1 }) 0 (by decide) h
        · exact State.within_startInsert (s := { s with choices := s.choices + 1 }) h
      · split
        · exact State.within_startTransit _ (by omega) h
        · exact State.within_startInsert h

end Bounds

end Sys2Proof.Machine
end

section
/-! PROOFS. The reservations of general entries under the operations of the lanes, the verdicts and the Time Base: which
of them leave the reservations, which give one back, and the one that takes one (R17, R138, R165). -/

namespace Sys2Proof.Machine

section Reservations

variable {l : Loop} {answers : Nat} {r : PerLane Bool} {s : State}

/-! ### Lanes and transactions -/

@[simp] theorem reserving_set (lanes : PerLane Lane) (n : LaneId) (x : Lane) :
    reserving (lanes.set n x) = (reserving lanes).set n x.reserving := by
  cases n <;> rfl

theorem reserving_set_self (lanes : PerLane Lane) (n : LaneId) :
    (reserving lanes).set n (lanes.get n).reserving = reserving lanes := by
  cases n <;> rfl

theorem reserving_map {f : Lane → Lane} (hf : ∀ x, (f x).txn = x.txn) (lanes : PerLane Lane) :
    reserving (lanes.map f) = reserving lanes := by
  simp [reserving, PerLane.map, Lane.reserving, hf]

@[simp] theorem State.reserving_modLane {f : Lane → Lane} (n : LaneId) (hf : ∀ x, (f x).txn = x.txn) :
    reserving (s.modLane n f).lanes = reserving s.lanes := by
  have hsame : (f (s.lanes.get n)).reserving = (s.lanes.get n).reserving := by simp [Lane.reserving, hf]
  rw [State.modLane_lanes, reserving_set, hsame, reserving_set_self]

@[simp] theorem State.reserving_modTxn {f : Transaction → Transaction} (n : LaneId)
    (hf : ∀ t, (f t).insertReserved = t.insertReserved) : reserving (s.modTxn n f).lanes = reserving s.lanes := by
  have hsame (x : Lane) : Lane.reserving { x with txn := x.txn.map f } = x.reserving := by
    simp only [Lane.reserving]
    cases x.txn <;> simp [hf]
  rw [State.modTxn, State.modLane_lanes, reserving_set, hsame, reserving_set_self]

/-- The lane's transaction replaced by one that holds as many entries. -/
theorem State.reserving_modTxn_of_eq {n : LaneId} {t t' : Transaction} (ht : s.txn n = some t)
    (h : t'.insertReserved = t.insertReserved) : reserving (s.modTxn n fun _ => t').lanes = reserving s.lanes := by
  have htxn : (s.lanes.get n).txn = some t := ht
  have hsame : Lane.reserving { s.lanes.get n with txn := (s.lanes.get n).txn.map fun _ => t' }
      = (s.lanes.get n).reserving := by
    simp [Lane.reserving, htxn, h]
  rw [State.modTxn, State.modLane_lanes, reserving_set, hsame, reserving_set_self]

/-- A lane left without a transaction, or with one that holds no entry, reserves none. -/
theorem State.reserving_unreserved {f : Lane → Lane} (n : LaneId) (hf : (f (s.lanes.get n)).reserving = false) :
    reserving (s.modLane n f).lanes = (reserving s.lanes).set n false := by
  rw [State.modLane_lanes, reserving_set, hf]

@[simp] theorem State.reserving_setLaneState (n : LaneId) (x : LaneState) :
    reserving (s.setLaneState n x).lanes = reserving s.lanes := by
  simp [State.setLaneState]

@[simp] theorem State.reserving_count (n : LaneId) (c : LaneCounter) (k : Nat) :
    reserving (s.count n c k).lanes = reserving s.lanes := by
  simp [State.count]

@[simp] theorem State.reserving_sendFinal (n : LaneId) (d : Display) (x : Lamp) (k a : Nat) :
    reserving (s.sendFinal n d x k a).lanes = reserving s.lanes := by
  simp [State.sendFinal]

/-! ### Resting states and roles (R64, R65) -/

@[simp] theorem State.reserving_enterFault (n : LaneId) : reserving (s.enterFault n).lanes = reserving s.lanes := by
  simp [State.enterFault]

@[simp] theorem State.reserving_rest (n : LaneId) : reserving (s.rest n).lanes = reserving s.lanes := by
  simp only [State.rest]
  (repeat' split) <;> simp

@[simp] theorem State.reserving_closureChange (n : LaneId) :
    reserving (s.closureChange n).lanes = reserving s.lanes := by
  unfold State.closureChange
  split <;> simp

@[simp] theorem State.reserving_closureChangeAll : reserving s.closureChangeAll.lanes = reserving s.lanes := by
  simp [State.closureChangeAll, LaneId.all]

@[simp] theorem State.reserving_enterFreeFlow (n : LaneId) :
    reserving (s.enterFreeFlow n).lanes = reserving s.lanes := by
  simp [State.enterFreeFlow]

@[simp] theorem State.reserving_countFree (n : LaneId) (w : PassageWindow) :
    reserving (s.countFree n w).lanes = reserving s.lanes := by
  unfold State.countFree
  split <;> simp

@[simp] theorem State.reserving_closeLateTrail (n : LaneId) :
    reserving (s.closeLateTrail n).lanes = reserving s.lanes := by
  unfold State.closeLateTrail
  (repeat' split) <;> simp

@[simp] theorem State.reserving_takeRole (n : LaneId) (x : Role) :
    reserving (s.takeRole n x).lanes = reserving s.lanes := by
  simp only [State.takeRole]
  (repeat' split) <;> simp

@[simp] theorem State.reserving_comeToRest (n : LaneId) :
    reserving (s.comeToRest n).lanes = reserving s.lanes := by
  unfold State.comeToRest
  split <;> simp

/-! ### The ends of a transaction (R17, R47, R76) -/

/-- RELEASE gives the lane's reservation back. -/
@[simp] theorem State.reserving_release (n : LaneId) :
    reserving (s.release n).lanes = (reserving s.lanes).set n false := by
  unfold State.release
  split
  case h_1 hnone =>
    have hfalse : (s.lanes.get n).reserving = false := by
      rw [Lane.reserving, show (s.lanes.get n).txn = none from hnone]
      rfl
    rw [← reserving_set_self s.lanes n, hfalse, PerLane.set_set]
  case h_2 => simpa using State.reserving_unreserved (s := s.send n _) n rfl

@[simp] theorem State.reserving_refuse (n : LaneId) (e : Display) (k : Nat) :
    reserving (s.refuse n e k).lanes = (reserving s.lanes).set n false := by
  simp [State.refuse]

@[simp] theorem State.reserving_settled (n : LaneId) (a : Nat) :
    reserving (s.settled n a).lanes = (reserving s.lanes).set n false := by
  simp [State.settled]

@[simp] theorem State.within_lapse (n : LaneId) (h : l.Within answers (reserving s.lanes)) :
    l.Within answers (reserving (s.lapse n).lanes) := by
  unfold State.lapse
  split <;> simp [h]

@[simp] theorem State.reserving_unlock (n : LaneId) : reserving (s.unlock n).lanes = reserving s.lanes := by
  unfold State.unlock
  split
  · rfl
  · simp only [State.passbackUnlock_frame, State.reserving_count]
    exact State.reserving_modLane n fun x => by split <;> rfl

@[simp] theorem State.reserving_unlockOrSettle (n : LaneId) :
    reserving (s.unlockOrSettle n).lanes = reserving s.lanes := by
  unfold State.unlockOrSettle
  split <;> simp

@[simp] theorem State.reserving_startRecoveryIfIdle (n : LaneId) :
    reserving (s.startRecoveryIfIdle n).lanes = reserving s.lanes := by
  unfold State.startRecoveryIfIdle State.startRecovery
  (repeat' split) <;> simp

@[simp] theorem State.reserving_countPassage (n : LaneId) (k : Nat) :
    reserving (s.countPassage n k).lanes = reserving s.lanes := by
  simp only [State.countPassage]
  (repeat' split) <;> simp

/-- The PASSAGE notice meets the queue before the reservation is given back (R74). -/
@[simp] theorem State.within_passageOutcome (n : LaneId) (h : s.loop.Within answers (reserving s.lanes)) :
    (s.passageOutcome n).loop.Within answers (reserving (s.passageOutcome n).lanes) := by
  unfold State.passageOutcome
  split <;> simp [h]

/-! ### Free-flow (R85 to R87) -/

@[simp] theorem State.reserving_leaveFreeFlow (n : LaneId) :
    reserving (s.leaveFreeFlow n).lanes = reserving s.lanes := by
  unfold State.leaveFreeFlow
  (repeat' split) <;> simp

@[simp] theorem State.reserving_closeFreeWindow (n : LaneId) :
    reserving (s.closeFreeWindow n).lanes = reserving s.lanes := by
  simp only [State.closeFreeWindow, State.reserving_leaveFreeFlow]
  split <;> simp

@[simp] theorem State.within_endTransactionFree (n : LaneId) (h : l.Within answers (reserving s.lanes)) :
    l.Within answers (reserving (s.endTransactionFree n).lanes) := by
  unfold State.endTransactionFree
  split <;> simp [h]

theorem State.within_beginFreeFlowLane (n : LaneId) (h : l.Within answers (reserving s.lanes)) :
    l.Within answers (reserving (s.beginFreeFlowLane n).lanes) := by
  have hended : l.Within answers (reserving ((s.closeLateTrail n).endTransactionFree n).lanes) := by simp [h]
  unfold State.beginFreeFlowLane State.stopTimers
  split
  · dsimp only
    split <;> simp [hended]
  · exact h

theorem State.reserving_endFreeFlowLane (n : LaneId) :
    reserving (s.endFreeFlowLane n).lanes = reserving s.lanes := by
  unfold State.endFreeFlowLane
  split <;> simp

/-- What each lane in turn keeps, all of them keep. -/
theorem State.within_foldl {f : State → LaneId → State} (lanes : List LaneId)
    (hf : ∀ (x : State) (n : LaneId), l.Within answers (reserving x.lanes) →
      l.Within answers (reserving (f x n).lanes))
    (h : l.Within answers (reserving s.lanes)) : l.Within answers (reserving (lanes.foldl f s).lanes) := by
  induction lanes generalizing s with
  | nil => exact h
  | cons n lanes ih => exact ih (hf s n h)

@[simp] theorem State.within_freeFlowChange (before : Bool) (h : l.Within answers (reserving s.lanes)) :
    l.Within answers (reserving (s.freeFlowChange before).lanes) := by
  unfold State.freeFlowChange
  split
  · exact State.within_foldl _ (fun _ n => State.within_beginFreeFlowLane n) h
  · split
    · exact State.within_foldl _ (fun _ n hx => by rwa [State.reserving_endFreeFlowLane]) h
    · exact h

/-! ### The verdicts -/

@[simp] theorem State.within_grant (n : LaneId) (h : l.Within answers (reserving s.lanes)) :
    l.Within answers (reserving (s.grant n).lanes) := by
  unfold State.grant
  (repeat' split) <;> simp [h]

@[simp] theorem State.reserving_reserve (n : LaneId) : reserving (s.reserve n).lanes = reserving s.lanes := by
  simp [State.reserve]

@[simp] theorem State.within_ticketFromRecord (n : LaneId) (h : l.Within answers (reserving s.lanes)) :
    l.Within answers (reserving (s.ticketFromRecord n).lanes) := by
  unfold State.ticketFromRecord State.ticketCapacity State.enterHeld
  (repeat' split) <;> simp [h]

/-- Step 10 takes a reservation where a general entry is free (R138). -/
theorem State.within_settleWrite (n : LaneId) (t : Transaction) (h : s.loop.Within answers (reserving s.lanes)) :
    s.loop.Within answers (reserving (s.settleWrite n t).lanes) := by
  unfold State.settleWrite
  split
  · simp [h]
  case isFalse hfull =>
    have hroom := s.generalFree_pos.1 (by omega)
    have htaken (f : Transaction → Transaction) : s.loop.Within answers (reserving (s.modTxn n f).lanes) := by
      rw [State.modTxn, State.modLane_lanes, reserving_set]
      cases Lane.reserving _ with
      | false => exact h.set_false n
      | true => exact h.set_true n hroom
    split <;> simp [htaken]

@[simp] theorem State.within_settleFromRecord (n : LaneId) (hl : s.loop = l)
    (h : l.Within answers (reserving s.lanes)) :
    l.Within answers (reserving (s.settleFromRecord n).lanes) := by
  subst hl
  unfold State.settleFromRecord
  split
  · exact h
  case h_2 t ht =>
    split
    · simp [h]
    case h_2 row _ =>
      dsimp only
      generalize hx : recordRefund t.pinned (t.pinned.rowOf row) t.card = x
      generalize ht' : ({ t with row := some row, refund := x.refund, impaired := x.impaired } : Transaction) = t'
      have hsame : reserving (s.modTxn n fun _ => t').lanes = reserving s.lanes :=
        State.reserving_modTxn_of_eq ht (by rw [← ht'])
      have hwrite (y : State) (hloop : y.loop = s.loop) (hlanes : reserving y.lanes = reserving s.lanes) :
          s.loop.Within answers (reserving (y.settleWrite n t').lanes) :=
        hloop ▸ State.within_settleWrite n t' (by rwa [hloop, hlanes])
      (repeat' split) <;> simp [h, hsame, hwrite]

@[simp] theorem State.within_fromRecord (n : LaneId) (hl : s.loop = l) (h : l.Within answers (reserving s.lanes)) :
    l.Within answers (reserving (s.fromRecord n).lanes) := by
  unfold State.fromRecord
  split <;> simp [h, hl]

end Reservations

end Sys2Proof.Machine
end

section
/-! PROOFS. Every step keeps the bounds of the loop side (R164, R165, R168, R169): the reader ports, the lanes, the Time
Base, the messages and commands of the loop, and the end of an event. -/

namespace Sys2Proof.Machine

section Bounds

variable {l : Loop} {answers : Nat} {r : PerLane Bool} {s t : State}

/-! ### Deferred resolution (R124) -/

/-- The REFUND notice of a completed entry takes a free general entry. -/
theorem State.within_deferredComplete (e : DeferredEntry) (h : s.loop.Within answers (reserving s.lanes))
    (hc : s.deferredComplete e = some t) : t.loop.Within answers (reserving t.lanes) := by
  unfold State.deferredComplete at hc
  split at hc
  · cases hc
    simpa using h
  · split at hc
    · cases hc
      simpa using State.within_enqueue rfl h rfl ‹_›
    · cases hc

@[simp] theorem State.within_resolveComplete (n : LaneId) (e : DeferredEntry)
    (h : s.loop.Within answers (reserving s.lanes)) :
    (s.resolveComplete n e).loop.Within answers (reserving (s.resolveComplete n e).lanes) := by
  unfold State.resolveComplete
  split
  · split <;> simp [h]
  case h_2 hc =>
    have hcompleted := State.within_deferredComplete e h hc
    (repeat' split) <;> simp [hcompleted]

@[simp] theorem State.within_verdict (n : LaneId) (h : s.loop.Within answers (reserving s.lanes)) :
    (s.verdict n).loop.Within answers (reserving (s.verdict n).lanes) := by
  unfold State.verdict State.resolveStep
  (repeat' split) <;> simp [h]

/-! ### The ends of a write -/

theorem State.within_resolutionOutcome (n : LaneId) (record : Record) (o : WriteOutcome)
    (h : s.loop.Within answers (reserving s.lanes)) :
    (s.resolutionOutcome n record o).loop.Within answers (reserving (s.resolutionOutcome n record o).lanes) := by
  simp only [State.resolutionOutcome]
  (repeat' split) <;> simp [h]

theorem State.within_grantOutcome (n : LaneId) (record : Record) (o : WriteOutcome)
    (h : s.loop.Within answers (reserving s.lanes)) :
    (s.grantOutcome n record o).loop.Within answers (reserving (s.grantOutcome n record o).lanes) := by
  simp only [State.grantOutcome]
  (repeat' split) <;> simp [h]

@[simp] theorem State.within_fillReservation {x : RefundNotice} (hr : reserving s.lanes = r)
    (h : s.loop.Within answers r) : (s.fillReservation (.refund x)).loop.Within answers r := by
  unfold State.fillReservation
  split
  · exact State.within_enqueue hr h rfl ‹_›
  · exact h

/-- The reservation is given back at every end of the write, and the REFUND notice takes the entry (R140, R165). -/
theorem State.within_settlementOutcome (n : LaneId) (record : Record) (o : WriteOutcome)
    (h : s.loop.Within answers (reserving s.lanes)) :
    (s.settlementOutcome n record o).loop.Within answers (reserving (s.settlementOutcome n record o).lanes) := by
  have hfreed : reserving (s.modTxn n fun t => { t with insertReserved := false }).lanes
      = (reserving s.lanes).set n false := by
    refine State.reserving_unreserved n ?_
    simp only [Lane.reserving]
    cases (s.lanes.get n).txn <;> rfl
  simp only [State.settlementOutcome]
  (repeat' split) <;> simp [h, hfreed]

@[simp] theorem State.within_endWrite (n : LaneId) (w : WriteRequest) (o : WriteOutcome)
    (h : s.loop.Within answers (reserving s.lanes)) :
    (s.endWrite n w o).loop.Within answers (reserving (s.endWrite n w o).lanes) := by
  simp only [State.endWrite, State.sendWaiting_frame, State.deliverOutcome]
  split
  · exact State.within_resolutionOutcome n _ o (by simpa)
  · exact State.within_grantOutcome n _ o (by simpa)
  · exact State.within_settlementOutcome n _ o (by simpa)
  · split <;> simp [h]
  · split <;> simp [h]
  · simpa

/-! ### The reader ports -/

@[simp] theorem State.within_readerDown (n : LaneId) (h : l.Within answers (reserving s.lanes)) :
    l.Within answers (reserving (s.readerDown n).lanes) := by
  unfold State.readerDown
  (repeat' split) <;> simp [h]

@[simp] theorem State.within_setReaderStatus (n : LaneId) (st : ReaderStatus)
    (h : l.Within answers (reserving s.lanes)) :
    l.Within answers (reserving (s.setReaderStatus n st).lanes) := by
  simp only [State.setReaderStatus, State.readerUpEvent]
  (repeat' split) <;> simp [h]

theorem State.within_goodBeat (n : LaneId) (ok : Bool) (h : s.loop.Within answers (reserving s.lanes)) :
    (s.goodBeat n ok).loop.Within answers (reserving (s.goodBeat n ok).lanes) := by
  simp [State.goodBeat, h]

theorem State.within_heartbeatLost (n : LaneId) (h : s.loop.Within answers (reserving s.lanes)) :
    (s.heartbeatLost n).loop.Within answers (reserving (s.heartbeatLost n).lanes) := by
  unfold State.heartbeatLost
  split <;> simp [h]

/-- A transaction opens without a reservation (R14). -/
theorem State.within_takeCard (n : LaneId) (serial : Serial) (record : Record)
    (h : s.loop.Within answers (reserving s.lanes)) :
    (s.takeCard n serial record).loop.Within answers (reserving (s.takeCard n serial record).lanes) := by
  refine State.within_verdict n ?_
  rw [State.reserving_unreserved n rfl]
  exact h.set_false n

theorem State.within_presentCard (n : LaneId) (serial : Serial) (record : Record)
    (h : s.loop.Within answers (reserving s.lanes)) :
    (s.presentCard n serial record).loop.Within answers (reserving (s.presentCard n serial record).lanes) := by
  have htaken := State.within_takeCard n serial record h
  unfold State.presentCard State.answerGranted State.answerCard
  (repeat' split) <;> simp [h, htaken]

theorem State.within_cardGone (n : LaneId) (serial : Serial) (h : s.loop.Within answers (reserving s.lanes)) :
    (s.cardGone n serial).loop.Within answers (reserving (s.cardGone n serial).lanes) := by
  simp only [State.cardGone]
  (repeat' split) <;> simp [h]

theorem State.within_writeResult (n : LaneId) (serial : Serial) (o : WriteOutcome)
    (h : s.loop.Within answers (reserving s.lanes)) :
    (s.writeResult n serial o).loop.Within answers (reserving (s.writeResult n serial o).lanes) := by
  unfold State.writeResult
  (repeat' split) <;> simp [h]

theorem State.within_writeTimeout (n : LaneId) (h : s.loop.Within answers (reserving s.lanes)) :
    (s.writeTimeout n).loop.Within answers (reserving (s.writeTimeout n).lanes) := by
  unfold State.writeTimeout
  (repeat' split) <;> simp [h]

/-! ### The arm, the beam and the lane timers -/

@[simp] theorem State.reserving_setArm (n : LaneId) (a : Arm) :
    reserving (s.setArm n a).lanes = reserving s.lanes := by
  simp [State.setArm]

theorem State.within_forwardStart (n : LaneId) (h : s.loop.Within answers (reserving s.lanes)) :
    (s.forwardStart n).loop.Within answers (reserving (s.forwardStart n).lanes) := by
  have hclose : (s.closeTrailWindow n).loop.Within answers (reserving (s.closeTrailWindow n).lanes) := by
    unfold State.closeTrailWindow
    split <;> simp [h]
  have hbegin (x : State) (free : Bool) : reserving (x.beginRotation n free).lanes = reserving x.lanes := by
    unfold State.beginRotation
    cases free <;> split <;> simp
  simp only [State.forwardStart]
  (repeat' split) <;> simp [h, hclose, hbegin]

theorem State.reserving_forwardDone (n : LaneId) : reserving (s.forwardDone n).lanes = reserving s.lanes := by
  simp only [State.forwardDone, State.completeRotation, State.completeWindow, State.forcedPassage]
  (repeat' split) <;> simp

theorem State.reserving_reverseStart (n : LaneId) : reserving (s.reverseStart n).lanes = reserving s.lanes := by
  unfold State.reverseStart
  split <;> simp

theorem State.reserving_reverseDone (n : LaneId) : reserving (s.reverseDone n).lanes = reserving s.lanes := by
  simp only [State.reverseDone]
  (repeat' split) <;> simp

theorem State.within_armReturn (n : LaneId) (h : l.Within answers (reserving s.lanes)) :
    l.Within answers (reserving (s.armReturn n).lanes) := by
  simp only [State.armReturn, State.abandonRotation]
  (repeat' split) <;> simp [h]

theorem State.reserving_laneBody (n : LaneId) : reserving (s.laneBody n).lanes = reserving s.lanes := by
  unfold State.laneBody State.ticketBody
  (repeat' split) <;> simp

theorem State.within_grantTimeout (n : LaneId) (h : l.Within answers (reserving s.lanes)) :
    l.Within answers (reserving (s.grantTimeout n).lanes) := by
  simp only [State.grantTimeout]
  (repeat' split) <;> simp [h]

theorem State.within_trailTimeout (n : LaneId) (h : s.loop.Within answers (reserving s.lanes)) :
    (s.trailTimeout n).loop.Within answers (reserving (s.trailTimeout n).lanes) := by
  unfold State.trailTimeout
  (repeat' split) <;> simp [h]

theorem State.reserving_recoveryTimeout (n : LaneId) :
    reserving (s.recoveryTimeout n).lanes = reserving s.lanes := by
  simp only [State.recoveryTimeout]
  (repeat' split) <;> simp

theorem State.within_holdTimeout (n : LaneId) (h : l.Within answers (reserving s.lanes)) :
    l.Within answers (reserving (s.holdTimeout n).lanes) := by
  simp only [State.holdTimeout]
  (repeat' split) <;> simp [h]

/-! ### The Time Base -/

@[simp] theorem State.reserving_clearDayCounters :
    reserving s.clearDayCounters.lanes = reserving s.lanes :=
  reserving_map (fun _ => rfl) s.lanes

@[simp] theorem State.within_openDay (day openMinute closeMinute : Nat)
    (h : s.loop.Within answers (reserving s.lanes)) :
    (s.openDay day openMinute closeMinute).loop.Within answers
      (reserving (s.openDay day openMinute closeMinute).lanes) := by
  simp only [State.openDay]
  (repeat' split) <;> simp [h]

@[simp] theorem State.within_closeDay (h : s.loop.Within answers (reserving s.lanes)) :
    s.closeDay.loop.Within answers (reserving s.closeDay.lanes) := by
  have harrives (x : State) (choice : Nat) (n : LaneId) :
      reserving (x.dayChangeArrives choice n).lanes = reserving x.lanes := by
    unfold State.dayChangeArrives
    split <;> simp
  simp [State.closeDay, LaneId.all, harrives, h]

@[simp] theorem State.within_endInterval (short : Bool) (seconds : Nat)
    (h : s.loop.Within answers (reserving s.lanes)) :
    (s.endInterval short seconds).loop.Within answers (reserving (s.endInterval short seconds).lanes) := by
  have hcleared (lanes : PerLane Lane) :
      reserving (lanes.map fun x : Lane => { x with interval := .zero }) = reserving lanes :=
    reserving_map (fun _ => rfl) lanes
  simp [State.endInterval, hcleared, h]

theorem State.within_intervalEndEvent (h : s.loop.Within answers (reserving s.lanes)) :
    s.intervalEndEvent.loop.Within answers (reserving s.intervalEndEvent.lanes) := by
  unfold State.intervalEndEvent
  split <;> simp [h]

@[simp] theorem State.within_intervalCommit (old : Option Settings) (h : s.loop.Within answers (reserving s.lanes)) :
    (s.intervalCommit old).loop.Within answers (reserving (s.intervalCommit old).lanes) := by
  simp only [State.intervalCommit, State.startInterval]
  (repeat' split) <;> simp [h]

/-! ### The key switch and the link (R66, R169) -/

theorem State.within_keyChanged (n : LaneId) (level : Bool) (h : s.loop.Within answers (reserving s.lanes)) :
    (s.keyChanged n level).loop.Within answers (reserving (s.keyChanged n level).lanes) := by
  simp only [State.keyChanged]
  split <;> simp [h]

theorem Loop.Within.lost (h : l.Within answers r) : ({ l with
    link := .down, silence := none, training := none, badRun := 0, downByLoss := true } : Loop).Within answers r := by
  obtain ⟨htransit, hanswers, hgeneral, hfairness, -⟩ := h
  exact ⟨htransit, hanswers, hgeneral, hfairness, Nat.zero_le 16⟩

@[simp] theorem State.linkLost_frame (s : State) : s.linkLost.lanes = s.lanes ∧ s.linkLost.loop = { s.loop with
    link := .down, silence := none, training := none, badRun := 0, downByLoss := true } := by
  simp [State.linkLost]

theorem State.within_silenceTimeout (h : s.loop.Within answers (reserving s.lanes)) :
    s.silenceTimeout.loop.Within answers (reserving s.silenceTimeout.lanes) := by
  unfold State.silenceTimeout
  split
  · split
    · exact h
    · simpa using h.lost
  · exact h

theorem State.within_trainingTimeout (h : s.loop.Within answers (reserving s.lanes)) :
    s.trainingTimeout.loop.Within answers (reserving s.trainingTimeout.lanes) := by
  simp only [State.trainingTimeout]
  split
  · split
    · split
      · simp only [State.latch_frame]
        exact h
      · exact h
    · exact h
  · exact h

end Bounds

end Sys2Proof.Machine
end

section
/-! PROOFS. Every step keeps the bounds of the loop side: COMMIT, the warm reset, the messages and commands of the loop,
the end of an event, and a step. -/

namespace Sys2Proof.Machine

section Bounds

variable {l : Loop} {answers : Nat} {r : PerLane Bool} {s t : State}

/-! ### A COMMIT and the warm reset (R64, R93, R173, R181) -/

theorem State.reserving_commitRole (n : LaneId) (x : Role) :
    reserving (s.commitRole n x).lanes = reserving s.lanes := by
  simp only [State.commitRole]
  (repeat' split) <;> simp

@[simp] theorem State.commitRoles_loop : s.commitRoles.loop = s.loop := by
  have hrole (x : State) (n : LaneId) (y : Role) : (x.commitRole n y).loop = x.loop := by
    simp only [State.commitRole]
    (repeat' split) <;> simp
  unfold State.commitRoles
  split
  · rfl
  · simp [LaneId.all, hrole]

@[simp] theorem State.reserving_commitRoles : reserving s.commitRoles.lanes = reserving s.lanes := by
  unfold State.commitRoles
  split
  · rfl
  · simp [LaneId.all, State.reserving_commitRole]

theorem State.within_swapTables (named : List TableId) (h : s.loop.Within answers (reserving s.lanes)) :
    (s.swapTables named).loop.Within answers (reserving (s.swapTables named).lanes) := by
  simp only [State.swapTables, State.commitWatchSet]
  (repeat' split) <;> simp [h]

theorem State.within_warmLane (n : LaneId) (h : l.Within answers (reserving s.lanes)) :
    l.Within answers (reserving (s.warmLane n).lanes) := by
  have hend (x : State) (b : Bool) (hx : l.Within answers (reserving x.lanes)) :
      l.Within answers (reserving (x.endTransactionWarm n b).lanes) := by
    unfold State.endTransactionWarm
    (repeat' split) <;> simp [hx]
  have hrest (x : State) : reserving (x.warmLaneRest n).lanes = reserving x.lanes := by
    simp only [State.warmLaneRest]
    (repeat' split) <;> simp
  simp only [State.warmLane, State.restartHeartbeat_frame, hrest]
  exact hend _ _ (by simpa)

/-- The warm reset empties the transit FIFO and leaves the insert queue (R173). -/
theorem State.within_warmReset (h : s.loop.Within answers (reserving s.lanes)) :
    s.warmReset.loop.Within answers (reserving s.warmReset.lanes) := by
  have hlanes : s.loop.Within answers (reserving (LaneId.all.foldl State.warmLane s).lanes) :=
    State.within_foldl _ (fun _ n => State.within_warmLane n) h
  have hloop : (LaneId.all.foldl State.warmLane s).loop = s.loop := by simp [LaneId.all]
  obtain ⟨-, hanswers, hgeneral, -, -⟩ := hlanes
  simp only [State.warmReset, State.warmLoop, State.warmPassback_frame, State.warmMaze_frame, hloop]
  exact ⟨Nat.zero_le 16, hanswers, hgeneral, Nat.zero_le 4, Nat.zero_le 16⟩

/-! ### Messages from the loop (R162 to R164) -/

theorem Loop.Within.heard (x y : Option Timer) (k : LinkState) (h : l.Within answers r) :
    ({ l with badRun := 0, silence := x, link := k, training := y } : Loop).Within answers r := by
  obtain ⟨htransit, hanswers, hgeneral, hfairness, -⟩ := h
  exact ⟨htransit, hanswers, hgeneral, hfairness, Nat.zero_le 16⟩

/-- The bad run is held at 16 (R169). -/
theorem Loop.Within.counted (k : Nat) (h : l.Within answers r) :
    ({ l with crcErrors := k, badRun := min 16 (l.badRun + 1) } : Loop).Within answers r := by
  obtain ⟨htransit, hanswers, hgeneral, hfairness, -⟩ := h
  exact ⟨htransit, hanswers, hgeneral, hfairness, Nat.min_le_left _ _⟩

theorem State.within_badMessage (h : s.loop.Within answers (reserving s.lanes)) :
    s.badMessage.loop.Within answers (reserving s.badMessage.lanes) := by
  have hcounted := h.counted (satAdd16 s.loop.crcErrors 1)
  have hlost (x : State) (hx : x.loop.Within answers (reserving x.lanes)) :
      x.linkLost.loop.Within answers (reserving x.linkLost.lanes) := by
    obtain ⟨hlanes, hloop⟩ := x.linkLost_frame
    rw [hlanes, hloop]
    exact hx.lost
  simp only [State.badMessage]
  split
  · exact hcounted
  · split
    · exact hlost _ hcounted
    · exact hcounted
  · split
    · exact hlost _ hcounted
    · exact hcounted

/-- A message is forwarded into a FIFO that holds fewer than 16 (R164). -/
theorem State.within_forward (type : Byte) (m : Arrival) (h : s.loop.Within answers (reserving s.lanes)) :
    (s.forward type m).loop.Within answers (reserving (s.forward type m).lanes) := by
  unfold State.forward
  split
  case isTrue hroom =>
    obtain ⟨-, hanswers, hgeneral, hfairness, hbad⟩ := h
    exact ⟨by simpa using hroom, hanswers, hgeneral, hfairness, hbad⟩
  case isFalse => exact h

/-- A message keeps the bounds by its delivery. -/
theorem State.within_receive (type : Byte) (m : Arrival) {f : State → State}
    (hf : ∀ x : State, x.loop.Within answers (reserving x.lanes) →
      (f x).loop.Within answers (reserving (f x).lanes))
    (h : s.loop.Within answers (reserving s.lanes)) :
    (s.receive type m f).loop.Within answers (reserving (s.receive type m f).lanes) := by
  have hgood : s.goodMessage.loop.Within answers (reserving s.goodMessage.lanes) := h.heard _ _ _
  have hdelivered := hf s.goodMessage hgood
  unfold State.receive
  split
  · exact State.within_badMessage h
  · dsimp only
    split
    · exact hgood
    · split
      · exact hgood
      · split
        · exact hgood
        · split
          · exact hdelivered
          · split
            · split
              · exact State.within_forward type m hgood
              · exact State.within_forward type m hdelivered
            · exact State.within_forward type m hgood

theorem State.within_notices (m : Arrival) (h : s.loop.Within answers (reserving s.lanes)) :
    (s.timeNotice m).loop.Within answers (reserving (s.timeNotice m).lanes)
    ∧ (s.dayOpenNotice m).loop.Within answers (reserving (s.dayOpenNotice m).lanes)
    ∧ (s.dayCloseNotice m).loop.Within answers (reserving (s.dayCloseNotice m).lanes)
    ∧ (s.passageReceived m).loop.Within answers (reserving (s.passageReceived m).lanes) := by
  simp only [State.timeNotice, State.dayOpenNotice, State.dayCloseNotice, State.passageReceived, State.badNotice]
  refine ⟨?_, ?_, ?_, ?_⟩ <;> (repeat' split) <;> simp [h]

/-! ### Commands from the loop (R174, R175) -/

/-- An ANSWER is queued where fewer than four answer entries are occupied, which its command leaves so (R175). -/
theorem State.within_takeCommand (code : Byte) {body : State → CommandResult}
    (hbody : s.loop.Within 3 (reserving s.lanes) →
      (body s).state.loop.Within 3 (reserving (body s).state.lanes))
    (h : s.loop.Within 4 (reserving s.lanes)) :
    (s.takeCommand code body).loop.Within 4 (reserving (s.takeCommand code body).lanes) := by
  unfold State.takeCommand
  split
  · exact h
  case isFalse hroom =>
    obtain ⟨htransit, -, hgeneral, hfairness, hbad⟩ := h
    rw [State.answersOccupied] at hroom
    have hdone := hbody ⟨htransit, by omega, hgeneral, hfairness, hbad⟩
    dsimp only
    simp only [State.enqueue_frame]
    unfold State.enqueue
    split
    · exact hdone.answers_le (by decide)
    · exact hdone.append_answer rfl

/-- A command reaches the part by its body alone. -/
theorem State.within_command (m : Arrival) (code : Byte) {body : State → CommandResult}
    (h : s.loop.Within 4 (reserving s.lanes)) (hbody : s.loop.Within 3 (reserving s.lanes) →
      (body s).state.loop.Within 3 (reserving (body s).state.lanes)) :
    (s.commandDelivered m fun x => x.takeCommand code body).loop.Within 4
      (reserving (s.commandDelivered m fun x => x.takeCommand code body).lanes) := by
  unfold State.commandDelivered
  split
  · exact State.within_takeCommand code hbody h
  · exact h

/-! ### The commands -/

theorem State.within_commitCommand (bs : List Byte) (h : s.loop.Within answers (reserving s.lanes)) :
    (s.commitCommand bs).state.loop.Within answers (reserving (s.commitCommand bs).state.lanes) := by
  unfold State.commitCommand
  split
  · exact h
  · split
    · exact h
    · split
      · exact h
      · exact State.within_swapTables _ h

/-- LOAD, ABORT_LOAD and the commands of the lanes and the gate leave the loop side. -/
theorem State.within_settingCommands (bs : List Byte) (h : s.loop.Within answers (reserving s.lanes)) :
    (s.loadCommand bs).state.loop.Within answers (reserving (s.loadCommand bs).state.lanes)
    ∧ (s.abortLoadCommand bs).state.loop.Within answers (reserving (s.abortLoadCommand bs).state.lanes)
    ∧ (s.laneCommand bs).state.loop.Within answers (reserving (s.laneCommand bs).state.lanes)
    ∧ (s.freeFlowCommand bs).state.loop.Within answers (reserving (s.freeFlowCommand bs).state.lanes)
    ∧ (s.loadingHoldCommand bs).state.loop.Within answers (reserving (s.loadingHoldCommand bs).state.lanes) := by
  unfold State.loadCommand State.abortLoadCommand State.laneCommand State.freeFlowCommand State.loadingHoldCommand
    State.setLoadingHold
  refine ⟨?_, ?_, ?_, ?_, ?_⟩ <;> (repeat' split) <;> simp [State.done, State.refused, h]

/-- The commands that read, those of the flags and the purge leave the loop side. -/
theorem State.within_readCommands (bs : List Byte) (h : s.loop.Within answers (reserving s.lanes)) :
    (s.readStatusCommand bs).state.loop.Within answers (reserving (s.readStatusCommand bs).state.lanes)
    ∧ (s.readCountsCommand bs).state.loop.Within answers (reserving (s.readCountsCommand bs).state.lanes)
    ∧ (s.clearFlagsCommand bs).state.loop.Within answers (reserving (s.clearFlagsCommand bs).state.lanes)
    ∧ (s.reportEnableCommand bs).state.loop.Within answers (reserving (s.reportEnableCommand bs).state.lanes)
    ∧ (s.purgeDeferredCommand bs).state.loop.Within answers
      (reserving (s.purgeDeferredCommand bs).state.lanes) := by
  unfold State.readStatusCommand State.readCountsCommand State.clearFlagsCommand State.reportEnableCommand
    State.purgeDeferredCommand
  refine ⟨?_, ?_, ?_, ?_, ?_⟩ <;> (repeat' split) <;> simp [State.done, State.refused, h]

/-- The ANSWER of a RESTART is queued before the warm reset (R187). -/
theorem State.within_deliverRestart (m : Arrival) (h : s.loop.Within 4 (reserving s.lanes)) :
    (s.deliverRestart m).loop.Within 4 (reserving (s.deliverRestart m).lanes) := by
  unfold State.deliverRestart State.commandDelivered State.restartCommand
  split
  · split
    · exact State.within_takeCommand _ id h
    · dsimp only
      split
      · exact State.within_takeCommand _ id h
      · exact State.within_warmReset (State.within_takeCommand _ id h)
  · exact h

theorem State.within_deliver (type : Byte) (m : Arrival) (h : s.loop.Within 4 (reserving s.lanes)) :
    (s.deliver type m).loop.Within 4 (reserving (s.deliver type m).lanes) := by
  have hcommand (code : Byte) (body : State → CommandResult) (hb : s.loop.Within 3 (reserving s.lanes) →
      (body s).state.loop.Within 3 (reserving (body s).state.lanes)) := State.within_command m code h hb
  obtain ⟨htime, hopen, hclose, hpassage⟩ := State.within_notices m h
  have hsetting (hs : s.loop.Within 3 (reserving s.lanes)) := State.within_settingCommands m.payload hs
  have hread (hs : s.loop.Within 3 (reserving s.lanes)) := State.within_readCommands m.payload hs
  simp only [forall_and] at hsetting hread
  obtain ⟨hload, habort, hlane, hfree, hhold⟩ := hsetting
  obtain ⟨hstatus, hcounts, hclear, henable, hpurge⟩ := hread
  unfold State.deliver
  split
  · exact htime
  · exact hopen
  · exact hclose
  · exact hpassage
  iterate 5 exact h
  · exact hcommand _ _ hload
  · exact hcommand _ _ (State.within_commitCommand _)
  · exact hcommand _ _ habort
  · exact hcommand _ _ hlane
  · exact hcommand _ _ hfree
  · exact hcommand _ _ hhold
  · exact hcommand _ _ hstatus
  · exact hcommand _ _ hcounts
  · exact hcommand _ _ hclear
  · exact hcommand _ _ henable
  · exact hcommand _ _ hpurge
  · exact State.within_deliverRestart m h
  · exact hcommand _ _ id

/-! ### The end of an event, and a step -/

theorem State.within_givePlaces (k : Nat) (h : l.Within answers (reserving s.lanes)) :
    l.Within answers (reserving (s.givePlaces k).lanes) := by
  induction k generalizing s with
  | zero => exact h
  | succ k ih =>
    unfold State.givePlaces
    split
    · exact h
    · split
      · exact ih (State.within_grant _ (by simpa using h))
      · exact h

/-- The reports of the event take entries that are free, and the output frees those of the messages it takes. -/
theorem State.within_event {f : State → State} (h : (f s).loop.Within answers (reserving (f s).lanes)) :
    (s.event f).loop.Within answers (reserving (s.event f).lanes) := by
  have hgiven := State.within_givePlaces (f s).heldOrder.length h
  simp only [State.event, State.finish, State.queuePending_frame, State.arbitrate_frame, State.flushRaised_frame,
    State.checkMazeFull_frame]
  refine State.within_queuePending (by simp) (State.within_arbitrate _ (State.within_flushRaised (by simp)
    (State.within_queuePending (by simp) ?_)))
  simpa using hgiven

/-- Every command keeps the bounds. -/
theorem loopWithin_exec (c : Instr) (h : s.loop.Within 4 (reserving s.lanes)) (hc : exec c s = .next t) :
    t.loop.Within 4 (reserving t.lanes) := by
  have hevent {f : State → State} (hf : exec c s = .next (s.event f))
      (hl : (f s).loop.Within 4 (reserving (f s).lanes)) : t.loop.Within 4 (reserving t.lanes) := by
    rw [← Host.Outcome.next.inj (hf.symm.trans hc)]
    exact State.within_event hl
  have hframe {f : State → State} (hf : exec c s = .next (s.event f)) (hl : (f s).loop = s.loop)
      (hr : s.loop.Within 4 (reserving (f s).lanes)) : t.loop.Within 4 (reserving t.lanes) :=
    hevent hf (hl ▸ hr)
  have hmessage (type : Byte) (m : Arrival)
      (hf : exec c s = .next (s.event fun x => x.receive type m fun x => x.deliver type m)) :
      t.loop.Within 4 (reserving t.lanes) :=
    hevent hf (State.within_receive type m (fun _ hx => State.within_deliver type m hx) h)
  cases c with
  | card n f =>
    refine Host.Outcome.next.inj hc ▸ ?_
    split
    · exact State.within_event (State.within_presentCard n _ _ h)
    all_goals exact h
  | gone n f =>
    refine Host.Outcome.next.inj hc ▸ ?_
    split
    · exact State.within_event (State.within_cardGone n _ h)
    all_goals exact h
  | writeResult n f =>
    refine Host.Outcome.next.inj hc ▸ ?_
    split
    · exact State.within_event (State.within_writeResult n _ _ h)
    all_goals exact h
  | beat n f =>
    refine Host.Outcome.next.inj hc ▸ ?_
    split
    · exact State.within_event (State.within_goodBeat n _ h)
    all_goals exact h
  | writeTimerExpiry n => exact hevent rfl (State.within_writeTimeout n h)
  | heartbeatTimerExpiry n => exact hevent rfl (State.within_heartbeatLost n h)
  | rotateFwdStart n => exact hevent rfl (State.within_forwardStart n h)
  | trailTimerExpiry n => exact hevent rfl (State.within_trailTimeout n h)
  | rotateReturn n => exact hframe rfl (by simp) (State.within_armReturn n h)
  | grantTimerExpiry n => exact hframe rfl (by simp) (State.within_grantTimeout n h)
  | holdTimerExpiry n => exact hframe rfl (by simp) (State.within_holdTimeout n h)
  | rotateFwdDone n => exact hframe rfl (by simp) (by rwa [State.reserving_forwardDone])
  | rotateRevDone n => exact hframe rfl (by simp) (by rwa [State.reserving_reverseDone])
  | recoveryTimerExpiry n => exact hframe rfl (by simp) (by rwa [State.reserving_recoveryTimeout])
  | keyChange n level => exact hevent rfl (State.within_keyChanged n level h)
  | freeFlowPinChange level => exact hframe rfl (by simp) (State.within_freeFlowChange _ h)
  | intervalEnd => exact hevent rfl (State.within_intervalEndEvent h)
  | silenceTimerExpiry => exact hevent rfl (State.within_silenceTimeout h)
  | trainingTimerExpiry => exact hevent rfl (State.within_trainingTimeout h)
  | idleFill | sendEnd => exact hevent rfl h
  | body n k =>
    refine hframe rfl (by split <;> simp) ?_
    split
    · rwa [State.reserving_laneBody]
    · exact h
  | lgBeamBody k =>
    refine hframe rfl (by split <;> simp) ?_
    split
    · simpa
    · exact h
  | alarmTimerExpiry n =>
    refine hframe rfl (by split <;> simp) ?_
    split
    · simpa
    · exact h
  | rotateRevStart n => exact hframe rfl (by simp) (by rwa [State.reserving_reverseStart])
  | liftRunChange level | chair | windowTimerExpiry | passbackEntryExpiry serial group | stationClockAdvance
  | intervalPrescalerExpiry =>
    exact hframe rfl (by simp) (by simpa)
  | transitMessage type m | unknownCommand type m => exact hmessage type m rfl
  | time m => exact hmessage 0x20 m rfl
  | dayOpen m => exact hmessage 0x21 m rfl
  | dayClose m => exact hmessage 0x22 m rfl
  | passage m => exact hmessage 0x23 m rfl
  | load m => exact hmessage 0x01 m rfl
  | commit m => exact hmessage 0x02 m rfl
  | abortLoad m => exact hmessage 0x03 m rfl
  | lane m => exact hmessage 0x04 m rfl
  | freeFlow m => exact hmessage 0x05 m rfl
  | loadingHold m => exact hmessage 0x06 m rfl
  | readStatus m => exact hmessage 0x07 m rfl
  | readCounts m => exact hmessage 0x08 m rfl
  | clearFlags m => exact hmessage 0x09 m rfl
  | reportEnable m => exact hmessage 0x0A m rfl
  | purgeDeferred m => exact hmessage 0x0B m rfl
  | restart m => exact hmessage 0x0C m rfl
  | coldReset pins =>
    have hcold : (State.cold pins).loop.Within 4 (reserving (State.cold pins).lanes) :=
      ⟨Nat.zero_le 16, Nat.zero_le 4, Nat.zero_le 28, Nat.zero_le 4, Nat.zero_le 16⟩
    rwa [← Host.Outcome.next.inj hc]

theorem State.within_idle (h : s.loop.Within answers (reserving s.lanes)) :
    s.idle.loop.Within answers (reserving s.idle.lanes) := by
  unfold State.idle
  split
  · exact State.within_event (by simpa)
  · split <;> exact h

end Bounds

/-- Settles O8: the bounds hold of the loop beside the lanes' reservations, which an idle step and every command
keep. -/
theorem loopBoundsKept : Obligations.LoopBoundsKept := by
  intro s t h ht
  rw [State.loopBounds_iff] at h ⊢
  unfold step at ht
  split at ht
  · rw [← Host.Outcome.next.inj ht]
    exact State.within_idle h
  · rename_i c rest _
    have htaken : ({ s with pending := rest } : State).loop.Within 4
        (reserving ({ s with pending := rest } : State).lanes) := h
    exact loopWithin_exec c htaken ht

end Sys2Proof.Machine
end

section
/-! PROOFS. The fate of a message that passes (R162, R164), the link states (R169), and the arbiter at the end of a send
(R168). -/

namespace Sys2Proof.Machine

theorem exec_transitMessage (type : Byte) (m : Arrival) (s : State) : exec (.transitMessage type m) s
    = .next (s.event fun x => x.receive type m fun x => x.deliver type m) := rfl

theorem exec_idleFill (s : State) : exec .idleFill s = .next (s.event fun x => x.validInput) := rfl

theorem exec_silenceTimerExpiry (s : State) :
    exec .silenceTimerExpiry s = .next (s.event fun x => x.silenceTimeout) := rfl

theorem exec_trainingTimerExpiry (s : State) :
    exec .trainingTimerExpiry s = .next (s.event fun x => x.trainingTimeout) := rfl

section Messages

variable {s : State} {type : Byte} {m : Arrival} {f : State → State}

/-! ### The receive tests that end a message (R162, tests 1 to 3) -/

theorem State.receive_of_bad (h : arrivalIntact type m = false) : s.receive type m f = s.badMessage := by
  simp [State.receive, h]

theorem State.receive_of_own (hl : s.loop.link = .up) (h : arrivalIntact type m = true)
    (ho : s.isOwn m.source = true) : s.receive type m f = s.heard := by
  simp [State.receive, h, hl, State.goodMessage_of_up hl, ho]

theorem State.receive_of_orphan (hl : s.loop.link = .up) (h : arrivalIntact type m = true)
    (ho : s.isOwn m.source = false) (hh : 30 ≤ m.hops.toNat) : s.receive type m f = { s.heard with
      loop := { s.heard.loop with orphans := min 65535 (s.loop.orphans + 1) } } := by
  simp only [State.receive, h, State.goodMessage_of_up hl, hl, State.heard_isOwn, ho, hh]
  rfl

/-! ### A message that fails test 1 (R169) -/

/-- A settled part whose loop has other link fields, timers and counters. -/
theorem State.Settled.withLink (hs : s.Settled) (l : Loop) (hp : l.pendingEvents = s.loop.pendingEvents)
    (hsend : l.sending = s.loop.sending) (ht : l.transit = s.loop.transit)
    (hi : l.insertQueue = s.loop.insertQueue) : ({ s with loop := l } : State).Settled :=
  hs.congr rfl rfl rfl hp (State.generalFree_congr hi rfl) hsend ht hi

/-- The loop after one more bad message. -/
def Loop.countingBad (l : Loop) : Loop :=
  { l with crcErrors := min 65535 (l.crcErrors + 1), badRun := min 16 (l.badRun + 1) }

/-- The loop that has gone DOWN by a loss. -/
def Loop.down (l : Loop) : Loop :=
  { l with link := .down, silence := none, training := none, badRun := 0, downByLoss := true }

theorem State.linkLost_eq (s : State) : s.linkLost = ({ s with loop := s.loop.down } : State).latch .linkLost 0 := rfl

theorem State.badMessage_of_down (h : s.loop.link = .down) :
    s.badMessage = { s with loop := s.loop.countingBad } := by
  simp only [State.badMessage, Loop.countingBad, h]
  rfl

/-- In SYNC the training starts again. -/
theorem State.badMessage_of_sync (h : s.loop.link = .sync) (hrun : s.loop.badRun < 15) :
    s.badMessage = { s with loop := { s.loop.countingBad with training := some ⟨s.ms, 50⟩ } } := by
  have hbelow : ¬min 16 (s.loop.badRun + 1) = 16 := by omega
  simp only [State.badMessage, Loop.countingBad, h, if_neg hbelow]
  rfl

theorem State.badMessage_of_up (h : s.loop.link = .up) (hrun : s.loop.badRun < 15) :
    s.badMessage = { s with loop := s.loop.countingBad } := by
  have hbelow : ¬min 16 (s.loop.badRun + 1) = 16 := by omega
  simp only [State.badMessage, Loop.countingBad, h, if_neg hbelow]
  rfl

/-- The sixteenth of a run takes the link DOWN. -/
theorem State.badMessage_of_sixteenth (h : s.loop.link ≠ .down) (hrun : 15 ≤ s.loop.badRun) :
    s.badMessage = ({ s with loop := s.loop.countingBad.down } : State).latch .linkLost 0 := by
  have hsixteen : min 16 (s.loop.badRun + 1) = 16 := by omega
  cases hlink : s.loop.link with
  | down => exact absurd hlink h
  | sync | up =>
    simp only [State.badMessage, hlink, if_pos hsixteen]
    rfl

/-! ### The events -/

/-- The event of a message whose receipt leaves the part with this loop. -/
theorem State.event_receive_eq (hs : s.Settled) {l : Loop} (hf : s.receive type m f = { s with loop := l })
    (hp : l.pendingEvents = s.loop.pendingEvents) (hsend : l.sending = s.loop.sending)
    (ht : l.transit = s.loop.transit) (hi : l.insertQueue = s.loop.insertQueue) :
    (s.event fun x => x.receive type m f) = { s with loop := l } :=
  State.event_eq hf (hs.withLink l hp hsend ht hi) id

/-- An event that leaves the part DOWN by a loss latches LINK_LOST. -/
theorem State.event_down (hs : s.Settled) {l : Loop} {g : State → State}
    (hg : g s = ({ s with loop := l.down } : State).latch .linkLost 0)
    (hp : l.pendingEvents = s.loop.pendingEvents) (hsend : l.sending = s.loop.sending)
    (ht : l.transit = s.loop.transit) (hi : l.insertQueue = s.loop.insertQueue) :
    s.event g = ({ s with loop := l.down } : State).latched .linkLost 0 := by
  rw [State.event, hg]
  exact State.finish_latch .linkLost 0 (hs.withLink l.down hp hsend ht hi) id

end Messages

/-- Settles O48: the receive tests in turn, and what the end of the event makes of a message passed on. -/
theorem transitMessageFates : Obligations.TransitMessageFates := by
  intro s type m hs hl
  simp only [exec_transitMessage]
  refine ⟨fun ha hown hbroadcast => ?_, fun hintact => ⟨fun hsource => ?_, fun hsource hhops => ?_⟩,
    fun hbad hrun => ?_⟩
  · have hforward : s.receive type m (fun x => x.deliver type m) = s.heard.forward type m := by
      rw [State.receive_of_accepts _ ha, if_neg (by simp [hown]), if_neg hbroadcast]
    rw [State.event, hforward, State.finish_forward (s := s) type m hs.heard id]
  · have hstripped := State.receive_of_own (f := fun x => x.deliver type m) hl hintact hsource
    exact congrArg _ (State.event_eq hstripped hs.heard id)
  · rw [State.event_receive_eq hs (State.receive_of_orphan hl hintact hsource hhops) rfl rfl rfl rfl]
    rfl
  · have hcount : s.badMessage = { s with loop := { s.loop with
        crcErrors := min 65535 (s.loop.crcErrors + 1), badRun := s.loop.badRun + 1 } } := by
      rw [State.badMessage_of_up hl hrun, Loop.countingBad, Nat.min_eq_right (by omega : s.loop.badRun + 1 ≤ 16)]
    rw [State.event_receive_eq hs ((State.receive_of_bad hbad).trans hcount) rfl rfl rfl rfl]

/-- Settles O49: the link's own operations, each with the end of its event. -/
theorem linkTrainsAndFalls : Obligations.LinkTrainsAndFalls := by
  intro s hs
  refine ⟨?_, fun t hl ht hdue => ?_, fun t hl ht hdue => ?_, fun type m hbad => ⟨fun hl => ?_, fun hl hrun => ?_,
    fun hl hrun => ?_⟩⟩
  · have heff : s.validInput = { s with loop :=
        if s.loop.link = .down then
          { s.loop with link := .sync, silence := some ⟨s.ms, 200⟩, training := some ⟨s.ms, 50⟩ }
        else { s.loop with silence := some ⟨s.ms, 200⟩ } } := by
      by_cases hl : s.loop.link = .down <;> simp [State.validInput, State.timer, hl]
    rw [exec_idleFill, State.event_eq heff ?_ id]
    by_cases hl : s.loop.link = .down
    · rw [if_pos hl]
      exact hs.withLink _ rfl rfl rfl rfl
    · rw [if_neg hl]
      exact hs.withLink _ rfl rfl rfl rfl
  · have hend : timerDue s.loop.training s.ms = true := by simp [timerDue, ht, Timer.due, hdue]
    have hup := hs.withLink { s.loop with link := .up, training := none } rfl rfl rfl rfl
    rw [exec_trainingTimerExpiry]
    by_cases hloss : s.loop.downByLoss = true
    · have heff : s.trainingTimeout = ({ s with loop := { s.loop with link := .up, training := none } } :
          State).latch .linkRecovered 0 := by
        simp only [State.trainingTimeout, if_pos hend, if_pos hl, if_pos hloss]
      rw [State.event, heff, State.finish_latch (before := s) .linkRecovered 0 hup id, if_pos hloss]
    · have heff : s.trainingTimeout = { s with loop := { s.loop with link := .up, training := none } } := by
        simp only [State.trainingTimeout, if_pos hend, if_pos hl, if_neg hloss]
      rw [State.event_eq heff hup id, if_neg hloss]
  · have hend : timerDue s.loop.silence s.ms = true := by simp [timerDue, ht, Timer.due, hdue]
    have heff : s.silenceTimeout = ({ s with loop := s.loop.down } : State).latch .linkLost 0 := by
      rw [State.silenceTimeout, if_pos hend, if_neg hl, State.linkLost_eq]
    rw [exec_silenceTimerExpiry, State.event_down hs heff rfl rfl rfl rfl]
    rfl
  · have heff := (State.receive_of_bad (f := fun x => x.deliver type m) hbad).trans (State.badMessage_of_down hl)
    rw [exec_transitMessage, State.event_receive_eq hs heff rfl rfl rfl rfl]
    rfl
  · have heff := (State.receive_of_bad (f := fun x => x.deliver type m) hbad).trans
      (State.badMessage_of_sync hl hrun)
    rw [exec_transitMessage, State.event_receive_eq hs heff rfl rfl rfl rfl]
    rfl
  · have heff := (State.receive_of_bad (f := fun x => x.deliver type m) hbad).trans
      (State.badMessage_of_sixteenth hl hrun)
    rw [exec_transitMessage, State.event_down (l := s.loop.countingBad) hs heff rfl rfl rfl rfl]
    rfl

/-! ### The end of a send (R168) -/

/-- `s` with its output free. -/
def State.outputFree (s : State) : State := { s with loop := { s.loop with sending := none } }

/-- The end of a send leaves nothing but the arbiter's choice, with no message new at this event. -/
theorem State.event_sendEnd {s : State} (hs : s.Settled) (hsend : s.loop.sending.isSome = true)
    (hpending : s.loop.pendingEvents = []) :
    s.event State.outputFree = (s.outputFree.arbitrate false).queuePending := by
  obtain ⟨hgiven, ⟨hraised, -⟩, -⟩ := hs
  have hg : s.outputFree.PlacesGiven := hgiven
  have hp : s.placeFree = true → s.outputFree.placeFree = true := id
  have hq : s.outputFree.loop.pendingEvents = [] := hpending
  have hr : s.outputFree.mgmt.raised = [] := hraised
  have hbusy : s.loop.sending.isNone = false := by simpa using hsend
  rw [State.event, State.finish, State.givePlaces_of_given _ _ hg, State.checkMazeFull_of_kept _ _ hp,
    State.queuePending_of_queued _ (.inl hq), State.flushRaised_of_none _ hr, hbusy]

/-- The arbiter's choice on a free output, by the two queues (R168). -/
def State.chosen (s : State) : State :=
  { s with loop := match s.loop.transit, s.loop.insertQueue with
    | [], [] => { s.loop with sending := none }
    | m :: rest, [] => { s.loop with transit := rest, sending := some m, fairness := 0 }
    | [], o :: rest =>
      { s.loop with insertQueue := rest, sending := some (o.message s.ownByte), fairness := 0 }
    | m :: rest, o :: own =>
      if s.loop.fairness < 4 then
        { s.loop with transit := rest, sending := some m, fairness := s.loop.fairness + 1 }
      else { s.loop with insertQueue := own, sending := some (o.message s.ownByte), fairness := 0 } }

theorem State.arbitrate_outputFree (s : State) : s.outputFree.arbitrate false = s.chosen := by
  cases ht : s.loop.transit with
  | nil =>
    cases hi : s.loop.insertQueue with
    | nil => simp [State.arbitrate, State.outputFree, State.chosen, ht, hi]
    | cons o own => simp [State.arbitrate, State.outputFree, State.chosen, State.startInsert, State.ownByte, ht, hi]
  | cons m rest =>
    cases hi : s.loop.insertQueue with
    | nil => simp [State.arbitrate, State.outputFree, State.chosen, State.startTransit, ht, hi]
    | cons o own =>
      by_cases hf : s.loop.fairness < 4
      · simp [State.arbitrate, State.outputFree, State.chosen, State.startTransit, ht, hi, hf]
      · simp [State.arbitrate, State.outputFree, State.chosen, State.startInsert, State.ownByte, ht, hi, hf]

theorem State.chosen_pendingEvents (s : State) : s.chosen.loop.pendingEvents = s.loop.pendingEvents := by
  unfold State.chosen
  dsimp only
  (repeat' split) <;> rfl

/-- Settles O50: the output is free, and the arbiter's choice leaves no report pending. -/
theorem arbiterChooses : Obligations.ArbiterChooses := by
  intro s hs hsend hpending
  have hnone : s.chosen.loop.pendingEvents = [] := s.chosen_pendingEvents.trans hpending
  have hevent := State.event_sendEnd hs hsend hpending
  rw [State.arbitrate_outputFree, State.queuePending_of_queued _ (.inl hnone)] at hevent
  exact congrArg Host.Outcome.next hevent

end Sys2Proof.Machine
end

section
/-! PROOFS. A report that finds no general entry free (R166), and two flags latched at one event (R167, R183). -/

namespace Sys2Proof.Machine

/-! ### The first PASSAGE of a send order (R166) -/

theorem dropOldestPassage_of_none {q : List Outgoing} (h : ∀ x ∈ q, x.type ≠ 0x23) : dropOldestPassage q = none := by
  induction q with
  | nil => rfl
  | cons o q ih =>
    obtain ⟨ho, hq⟩ := List.forall_mem_cons.1 h
    cases o with
    | passage p => exact absurd rfl ho
    | answer a | event a | refund a | count a | day a => simp [dropOldestPassage, ih hq]

theorem dropOldestPassage_append {before : List Outgoing} (p : PassageNotice) (after : List Outgoing)
    (h : ∀ x ∈ before, x.type ≠ 0x23) :
    dropOldestPassage (before ++ .passage p :: after) = some (before ++ after) := by
  induction before with
  | nil => rfl
  | cons o before ih =>
    obtain ⟨ho, hbefore⟩ := List.forall_mem_cons.1 h
    cases o with
    | passage p => exact absurd rfl ho
    | answer a | event a | refund a | count a | day a => simp [dropOldestPassage, ih hbefore]

section Report

variable {s : State} {o : Outgoing}

/-- The report takes the last place, and the PASSAGE displaced is counted (R166). -/
theorem State.queueReport_of_passage {q : List Outgoing} (hown : s.ownAddress.isSome = true)
    (hfull : s.generalFree = 0) (hq : dropOldestPassage s.loop.insertQueue = some q)
    (hdrop : s.LatchesSilently .noticeDrop) :
    s.queueReport o = { s with loop := { s.loop with
      insertQueue := q ++ [o], noticeDrops := min 65535 (s.loop.noticeDrops + 1) } }.withFlag .noticeDrop := by
  have hdropped : ({ s with loop := { s.loop with insertQueue := q } } : State).noticeDropped
      = { s with loop := { s.loop with
          insertQueue := q, noticeDrops := min 65535 (s.loop.noticeDrops + 1) } }.withFlag .noticeDrop :=
    State.latch_of_silent _ .noticeDrop 0 hdrop
  rw [State.queueReport, if_neg (by omega)]
  simp only [hq]
  rw [hdropped]
  exact State.enqueue_eq o hown

/-- With no PASSAGE queued the report is lost (R166). -/
theorem State.queueReport_of_lost (hfull : s.generalFree = 0) (hq : dropOldestPassage s.loop.insertQueue = none)
    (hlost : s.LatchesSilently .reportLost) : s.queueReport o = s.withFlag .reportLost := by
  rw [State.queueReport, if_neg (by omega)]
  simp only [hq]
  exact State.latch_of_silent s .reportLost 0 hlost

end Report

/-! ### The report of a latch (R183) -/

/-- The report that a latch makes: from clear to set, with the enable on and none of the flag pending. -/
def State.latchReport (s : State) (f : Flag) (detail : Nat) : List EventReport :=
  if !s.flagSet f && (s.flagEnabled f && !s.eventPending f) then [⟨f, s.time.stationTime, detail⟩] else []

/-- `s` after these reports have been made, one after the other. -/
def State.reportedAll (s : State) (rs : List EventReport) : State := rs.foldl State.reported s

section Latch

variable {s x : State} {f g : Flag} {d e : Nat} {r r' : EventReport}

theorem State.latch_eq_raising (s : State) (f : Flag) (d : Nat) :
    s.latch f d = (s.withFlag f).raising (s.mgmt.raised ++ s.latchReport f d) := by
  by_cases hset : s.flagSet f = true
  · have hsame := State.latch_of_silent s f d (.inl hset)
    rw [hsame, State.latchReport, if_neg (by simp [hset]), List.append_nil]
    rfl
  · rw [State.latch, if_neg hset, State.latchReport]
    by_cases hmade : (s.flagEnabled f && !s.eventPending f) = true
    · rw [if_pos hmade, if_pos (by simp [hset, hmade])]
      rfl
    · rw [if_neg hmade, if_neg (by simp [hmade]), List.append_nil]
      rfl

theorem State.latched_eq_reportedAll (s : State) (f : Flag) (d : Nat) :
    s.latched f d = (s.withFlag f).reportedAll (s.latchReport f d) := by
  by_cases hset : s.flagSet f = true
  · rw [State.latched_of_silent s f d (.inl hset), State.latchReport, if_neg (by simp [hset])]
    rfl
  · rw [State.latched, if_neg hset, State.latchReport]
    by_cases hmade : (s.flagEnabled f && !s.eventPending f) = true
    · rw [if_pos hmade, if_pos (by simp [hset, hmade])]
      rfl
    · rw [if_neg hmade, if_neg (by simp [hmade])]
      rfl

/-- A latch makes one report at most. -/
theorem State.latchReport_cases (s : State) (f : Flag) (d : Nat) :
    s.latchReport f d = [] ∨ s.latchReport f d = [⟨f, s.time.stationTime, d⟩] := by
  unfold State.latchReport
  split
  · exact .inr rfl
  · exact .inl rfl

theorem State.latchReport_flag (h : r ∈ s.latchReport f d) : r.flag = f := by
  rcases s.latchReport_cases f d with hr | hr <;> rw [hr] at h
  · exact absurd h List.not_mem_nil
  · rw [List.mem_singleton.1 h]

/-- What a latch reads of the part: the flags and enables of its own flag, its pending reports and the time. -/
theorem State.latchReport_congr (hset : x.flagSet g = s.flagSet g) (henabled : x.flagEnabled g = s.flagEnabled g)
    (hpending : x.eventPending g = s.eventPending g) (htime : x.time = s.time) :
    x.latchReport g e = s.latchReport g e := by
  rw [State.latchReport, State.latchReport, hset, henabled, hpending, htime]

theorem State.flagSet_withFlag (h : f ≠ g) : (s.withFlag f).flagSet g = s.flagSet g := by
  have hbit : f.bit.getLsbD g.id = false := by simp [Flag.getLsbD_bit, h]
  change (s.mgmt.flags ||| f.bit).getLsbD g.id = s.mgmt.flags.getLsbD g.id
  rw [BitVec.getLsbD_or, hbit, Bool.or_false]

/-- A report of another flag is no matter to a latch. -/
theorem State.reported_frame (s : State) (r : EventReport) : (s.reported r).mgmt = s.mgmt
    ∧ (s.reported r).time = s.time ∧ (r.flag ≠ g → (s.reported r).eventPending g = s.eventPending g) := by
  unfold State.reported
  split
  · exact ⟨rfl, rfl, fun h => by simp [State.eventPending, h]⟩
  · unfold State.offered
    (repeat' split) <;> exact ⟨rfl, rfl, fun _ => rfl⟩

theorem State.reported_withFlag (s : State) (r : EventReport) (g : Flag) :
    (s.withFlag g).reported r = (s.reported r).withFlag g := by
  simp only [State.reported, State.offered, apply_ite (fun x : State => x.withFlag g)]
  rfl

theorem State.reportedAll_append (s : State) (rs rs' : List EventReport) :
    s.reportedAll (rs ++ rs') = (s.reportedAll rs).reportedAll rs' := List.foldl_append

theorem State.reportedAll_withFlag (s : State) (rs : List EventReport) (g : Flag) :
    (s.withFlag g).reportedAll rs = (s.reportedAll rs).withFlag g := by
  induction rs generalizing s with
  | nil => rfl
  | cons r rs ih =>
    have hstep := ih (s.reported r)
    rwa [← State.reported_withFlag] at hstep

/-- The report of another flag, made before, is no matter to a latch. -/
theorem State.latchReport_latched (h : f ≠ g) : (s.latched f d).latchReport g e = s.latchReport g e := by
  have hflags : (s.withFlag f).latchReport g e = s.latchReport g e :=
    State.latchReport_congr (State.flagSet_withFlag h) rfl rfl rfl
  have hreported (rs : List EventReport) (hrs : ∀ r ∈ rs, r.flag ≠ g) (x : State) :
      (x.reportedAll rs).latchReport g e = x.latchReport g e := by
    induction rs generalizing x with
    | nil => rfl
    | cons r rs ih =>
      obtain ⟨hr, hrest⟩ := List.forall_mem_cons.1 hrs
      obtain ⟨hmgmt, htime, hpending⟩ := x.reported_frame (g := g) r
      refine (ih hrest (x.reported r)).trans (State.latchReport_congr ?_ ?_ (hpending hr) htime)
      · rw [State.flagSet, hmgmt]
        rfl
      · rw [State.flagEnabled, hmgmt]
        rfl
  rw [State.latched_eq_reportedAll, hreported _ fun r hr => State.latchReport_flag hr ▸ h, hflags]

/-! ### Two latches at one event -/

theorem Flag.mem_all (f : Flag) : f ∈ Flag.all := by cases f <;> decide

/-- Two flags stand in the list of all in the order of their identifiers. -/
theorem Flag.all_filter_pair (h : f.id < g.id) : (Flag.all.filter fun x => x == f || x == g) = [f, g] := by
  have hsorted : Flag.all.Pairwise fun a b => a.id < b.id := by decide
  have hpair : [f, g].Pairwise fun a b => a.id < b.id := by simpa using h
  have hne : f ≠ g := fun heq => absurd (heq ▸ h) (lt_irrefl _)
  have hnodup : Flag.all.Nodup := by decide
  have hperm : (Flag.all.filter fun x => x == f || x == g).Perm [f, g] :=
    (List.perm_ext_iff_of_nodup (hnodup.filter _) (by simpa using hne)).2 fun x => by
      simp [Flag.mem_all]
  exact hperm.eq_of_pairwise (fun a b _ _ hab hba => absurd (hab.trans hba) (lt_irrefl _)) (hsorted.filter _) hpair

/-- The report of a flag among these. -/
def reportOf (rs : List EventReport) (f : Flag) : Option EventReport := rs.find? fun r => r.flag == f

theorem State.made_eq (s : State) : s.made = Flag.all.filterMap (reportOf s.mgmt.raised) := rfl

/-- The reports of two flags meet the queue in the order of the flags' identifiers (R183). -/
theorem State.made_of_pair (h : r.flag.id < r'.flag.id) : (x.raising [r', r]).made = [r, r'] := by
  have hne : r'.flag ≠ r.flag := fun heq => absurd (heq ▸ h) (lt_irrefl _)
  have hfirst : reportOf [r', r] r.flag = some r := by simp [reportOf, hne]
  have hsecond : reportOf [r', r] r'.flag = some r' := by simp [reportOf]
  have hothers : Flag.all.filterMap (reportOf [r', r])
      = (Flag.all.filter fun f => f == r.flag || f == r'.flag).filterMap (reportOf [r', r]) := by
    rw [List.filterMap_filter]
    refine List.filterMap_congr fun f _ => ?_
    by_cases hf : f = r.flag ∨ f = r'.flag
    · rw [if_pos (by simpa using hf)]
    · obtain ⟨hr, hr'⟩ := not_or.1 hf
      rw [if_neg (by simp [hr, hr'])]
      simp [reportOf, Ne.symm hr, Ne.symm hr']
  have hraised : (x.raising [r', r]).mgmt.raised = [r', r] := rfl
  rw [State.made_eq, hraised, hothers, Flag.all_filter_pair h, List.filterMap_cons_some hfirst,
    List.filterMap_cons_some hsecond, List.filterMap_nil]

/-- While the output is busy a report is made as it meets the queue. -/
theorem State.queueEvent_of_busy (h : x.loop.sending.isSome = true) (r : EventReport) :
    x.queueEvent r = x.reported r ∧ (x.reported r).loop.sending.isSome = true := by
  rw [State.queueEvent, State.reported]
  rcases Nat.eq_zero_or_pos x.generalFree with hfree | hfree
  · rw [if_neg (by omega), if_pos hfree]
    exact ⟨rfl, h⟩
  · rw [if_pos hfree, if_neg (by omega), State.enqueue, State.offered, if_pos h]
    split <;> exact ⟨rfl, h⟩

/-- Two reports that meet the empty queue of an idle output: the first is sent, the second queued. -/
theorem State.arbitrate_queueEvent_pair_of_idle (hsend : x.loop.sending = none) (ht : x.loop.transit = [])
    (hi : x.loop.insertQueue = []) (hp : x.loop.pendingEvents = []) (b : Bool) (r r' : EventReport) :
    (((x.queueEvent r).queueEvent r').arbitrate b).queuePending = (x.reported r).reported r' := by
  have hfree := x.generalFree_of_empty hi
  have hreserved : x.generalReserved ≤ 4 := x.generalReserved_eq ▸ reservedEntries_le _
  cases hown : x.ownAddress with
  | none =>
    have hnothing (y : EventReport) : x.queueEvent y = x ∧ x.reported y = x := by
      rw [State.queueEvent, State.reported, if_pos hfree, if_neg (by omega), State.enqueue, hown]
      exact ⟨rfl, rfl⟩
    rw [(hnothing r).1, (hnothing r').1, (hnothing r).2, (hnothing r').2,
      State.arbitrate_of_served _ _ (.inr ⟨ht, hi⟩), State.queuePending_of_queued _ (.inl hp)]
  | some a =>
    have hsome (y : State) (hy : y.ownAddress = x.ownAddress) : y.ownAddress.isSome = true := by rw [hy, hown]; rfl
    have hfirst : x.queueEvent r = x.withQueues [.event r] [] := by
      rw [State.queueEvent, if_pos hfree, State.enqueue_eq_withQueues _ (hsome x rfl), hi, hp]
      rfl
    have hroom : 0 < (x.withQueues [.event r] []).generalFree := by
      have hone : (x.withQueues [.event r] []).generalFree = 28 - (1 + x.generalReserved) := rfl
      omega
    have hboth : (x.queueEvent r).queueEvent r' = x.withQueues [.event r, .event r'] [] := by
      rw [hfirst, State.queueEvent, if_pos hroom]
      exact State.enqueue_eq_withQueues (s := x.withQueues [.event r] []) (.event r') (hsome _ rfl)
    have hsent : x.reported r = (x.withQueues [] []).sendingNow (some ((Outgoing.event r).message x.ownByte)) := by
      have hself : x.withQueues [] [] = x := by rw [State.withQueues, ← hi, ← hp]
      rw [State.reported, if_neg (by omega), if_neg (by simp [hown]), State.offered, if_neg (by simp [hsend]), hself]
      rfl
    have hfree' : 0 < (x.reported r).generalFree := by
      refine State.generalFree_of_empty _ ?_
      rw [hsent]
      rfl
    have hbusy : (x.reported r).loop.sending.isSome = true := by
      rw [hsent]
      rfl
    calc (((x.queueEvent r).queueEvent r').arbitrate b).queuePending
        = (x.withQueues [.event r'] []).sendingNow (some ((Outgoing.event r).message x.ownByte)) := by
          rw [hboth, State.arbitrate_first b hsend ht, State.queuePending_of_queued _ (.inl rfl)]
      _ = (x.reported r).queueEvent r' := by
          rw [State.queueEvent, if_pos hfree', hsent]
          exact (State.enqueue_eq_withQueues (s := (x.withQueues [] []).sendingNow _) (.event r')
            (hsome _ rfl)).symm
      _ = (x.reported r).reported r' := (State.queueEvent_of_busy hbusy r').1

/-- Two reports that meet the queue of a settled part, before the output chooses. -/
theorem State.arbitrate_queueEvent_pair (hx : x.Settled) (b : Bool) (r r' : EventReport) :
    (((x.queueEvent r).queueEvent r').arbitrate b).queuePending = (x.reported r).reported r' := by
  obtain ⟨-, ⟨-, hqueued⟩, hserved⟩ := hx
  have hpending : x.PendingQueued := hqueued
  cases hsend : x.loop.sending with
  | some m =>
    have hbusy : x.loop.sending.isSome = true := by rw [hsend]; rfl
    obtain ⟨hfirst, hbusy'⟩ := State.queueEvent_of_busy hbusy r
    obtain ⟨hsecond, hbusy''⟩ := State.queueEvent_of_busy hbusy' r'
    have hend := (hpending.queueEvent r).queueEvent r'
    rw [hfirst, hsecond] at hend ⊢
    rw [State.arbitrate_of_served _ _ (.inl hbusy''), State.queuePending_of_queued _ hend]
  | none =>
    obtain ⟨ht, hi⟩ := hserved.resolve_left (by simp [hsend])
    have hp : x.loop.pendingEvents = [] := hqueued.resolve_right (Nat.pos_iff_ne_zero.1 (x.generalFree_of_empty hi))
    exact State.arbitrate_queueEvent_pair_of_idle hsend ht hi hp b r r'

theorem State.flushRaised_of_made {rs : List EventReport} (h : s.made = rs) :
    s.flushRaised = (rs.foldl State.queueEvent s).raising [] := by
  rw [State.flushRaised_eq, h]
  rfl

theorem State.raising_raising (s : State) (rs rs' : List EventReport) :
    (s.raising rs).raising rs' = s.raising rs' := rfl

/-- The reports made at one event have met the queue when the output chooses. -/
theorem State.finish_raising_pair (hx : x.Settled) (hp : s.placeFree = true → x.placeFree = true)
    (h : r.flag.id < r'.flag.id) : (x.raising [r', r]).finish s = (x.reported r).reported r' := by
  have hsettled := hx
  obtain ⟨hgiven, ⟨hraised, hqueued⟩, -⟩ := hx
  have hg : (x.raising [r', r]).PlacesGiven := hgiven
  have hplace : s.placeFree = true → (x.raising [r', r]).placeFree = true := hp
  have hq : (x.raising [r', r]).loop.pendingEvents = [] ∨ (x.raising [r', r]).generalFree = 0 := hqueued
  have hflush : (x.raising [r', r]).flushRaised = (x.queueEvent r).queueEvent r' := by
    have hnil : ((x.queueEvent r).queueEvent r').mgmt.raised = [] := by
      rw [State.queueEvent_mgmt, State.queueEvent_mgmt, hraised]
    rw [State.flushRaised_of_made (State.made_of_pair h), List.foldl_cons, List.foldl_cons, List.foldl_nil,
      State.queueEvent_raising, State.queueEvent_raising, State.raising_raising, State.raising_nil hnil]
  rw [State.finish, State.givePlaces_of_given _ _ hg, State.checkMazeFull_of_kept _ _ hplace,
    State.queuePending_of_queued _ hq, hflush]
  exact State.arbitrate_queueEvent_pair hsettled _ r r'

/-- The event of two latches: both flags set, and the reports of both made by the end of the event. -/
theorem State.event_latch_latch (hs : s.Settled) (h : f.id < g.id) :
    s.event (fun x => (x.latch g e).latch f d) = (s.latched f d).latched g e := by
  have hne : f ≠ g := fun heq => absurd (heq ▸ h) (lt_irrefl _)
  have hflags : ((s.withFlag f).withFlag g).Settled := (hs.withFlag f).withFlag g
  have hraised : s.mgmt.raised = [] := by
    obtain ⟨-, ⟨hraised, -⟩, -⟩ := hs
    exact hraised
  have hlatches : (s.latch g e).latch f d
      = ((s.withFlag f).withFlag g).raising (s.latchReport g e ++ s.latchReport f d) := by
    have hsecond : (s.latch g e).latchReport f d = s.latchReport f d := by
      rw [State.latch_eq_raising]
      exact State.latchReport_congr (State.flagSet_withFlag hne.symm) rfl rfl rfl
    rw [State.latch_eq_raising (s.latch g e), hsecond, State.latch_eq_raising s, hraised, State.withFlag_comm s f g]
    rfl
  have hlatched : (s.latched f d).latched g e
      = ((s.withFlag f).withFlag g).reportedAll (s.latchReport f d ++ s.latchReport g e) := by
    rw [State.latched_eq_reportedAll (s.latched f d), State.latchReport_latched hne, State.latched_eq_reportedAll s]
    simp only [State.reportedAll_append, State.reportedAll_withFlag]
  rw [State.event, hlatches, hlatched]
  have hf := s.latchReport_cases f d
  have hg := s.latchReport_cases g e
  rcases hf with hf | hf <;> rcases hg with hg | hg <;> rw [hf, hg]
  · have hnone : ((s.withFlag f).withFlag g).raising [] = (s.withFlag f).withFlag g := State.raising_nil hraised
    rw [List.append_nil, hnone]
    exact State.finish_of_settled _ s hflags id
  · exact State.finish_raising _ hflags id
  · exact State.finish_raising _ hflags id
  · exact State.finish_raising_pair hflags id h

end Latch

/-- Settles O51: a full queue gives up its first PASSAGE or loses the report, and the end of an event makes the reports
of its latches. -/
theorem reportDisplacesPassage : Obligations.ReportDisplacesPassage := by
  refine ⟨fun s o hown hfull hdrop hlost => ⟨fun before p after hqueue hbefore => ?_, fun hnone => ?_⟩,
    fun s hs => ⟨fun f d => State.finish_latch f d hs id, fun f g d e h => State.event_latch_latch hs h⟩⟩
  · have hq : dropOldestPassage s.loop.insertQueue = some (before ++ after) :=
      hqueue ▸ dropOldestPassage_append p after hbefore
    exact State.queueReport_of_passage hown hfull hq hdrop
  · exact State.queueReport_of_lost hfull (dropOldestPassage_of_none hnone) hlost

end Sys2Proof.Machine
end

section
/-! PROOFS. Commands that are refused (R163, R175, R176, R180): INCOMPLETE, INVALID, UNKNOWN_COMMAND and the overrun. -/

namespace Sys2Proof.Machine

theorem exec_load (m : Arrival) (s : State) : exec (.load m) s
    = .next (s.event fun x => x.receive 0x01 m fun x => x.commandDelivered m fun x =>
      x.takeCommand 0x01 fun x => x.loadCommand m.payload) := rfl

theorem exec_unknownCommand (type : Byte) (m : Arrival) (s : State) : exec (.unknownCommand type m) s
    = .next (s.event fun x => x.receive type m fun x => x.deliver type m) := rfl

section Refused

variable {s : State} {m : Arrival} {named : List TableId} {x : TableId} {type code : Byte}

/-- The event of a command that is refused: the part has heard it, and the ANSWER is offered. -/
theorem State.event_of_refused {status : Status} {table : Byte} {data : List Byte} {body : State → CommandResult}
    (h : s.TakesCommand type m) (hb : body s.heard = ⟨s.heard, status, table, data⟩) :
    (s.event fun x => x.receive type m fun x => x.commandDelivered m fun x => x.takeCommand code body)
      = s.heard.offered (.answer ⟨code, status, table, data⟩) := by
  have hstate : (body s.heard).state = s.heard := by rw [hb]
  have hheard : s.heard.Settled := State.Settled.heard h.1
  rw [State.event_of_command h hstate hheard id rfl, hb]

/-- A COMMIT that names an incomplete shadow (R180). -/
theorem State.commitCommand_of_incomplete (h : tableMaskOf m.payload = some named)
    (hc : firstIncomplete named s.mgmt.shadows = some x) :
    s.commitCommand m.payload = ⟨s, .incomplete, BitVec.ofNat 8 x.id, []⟩ := by
  simp only [State.commitCommand, h, hc]
  rfl

/-- A COMMIT whose complete shadows fail validation (R180). -/
theorem State.commitCommand_of_invalid (h : tableMaskOf m.payload = some named)
    (hc : firstIncomplete named s.mgmt.shadows = none)
    (hi : firstInvalid named s.mgmt.shadows s.tables = some x) :
    s.commitCommand m.payload = ⟨s, .invalid, BitVec.ofNat 8 x.id, []⟩ := by
  simp only [State.commitCommand, h, hc, hi]
  rfl

/-- A type that is none of the commands, notices and reports is delivered as an unknown command (R163, R176). -/
theorem State.deliver_of_unknown (hc : isCommandType type = false) (hn : isNoticeType type = false)
    (hr : isReportType type = false) : s.deliver type m = s.deliverUnknown type m := by
  simp only [isCommandType, isNoticeType, isReportType, Bool.and_eq_false_iff, decide_eq_false_iff_not] at hc hn hr
  unfold State.deliver
  split
  iterate 21 omega
  rfl

/-- A RESTART that finds no answer entry free makes no warm reset (R174, R175). -/
theorem State.deliverRestart_of_full (hp : m.payload = []) (ha : 4 ≤ s.answersOccupied) :
    s.deliverRestart m = s.commandDelivered m fun x => x.takeCommand 0x0C fun x => x.done [] := by
  unfold State.deliverRestart State.commandDelivered
  split
  · dsimp only
    rw [State.restartCommand, hp, if_neg (by simp), if_pos ha]
  · rfl

end Refused

/-- Settles O55: the body of each command refused, and the overrun before any body. -/
theorem commandsRefused : Obligations.CommandsRefused := by
  intro s m
  refine ⟨fun named x ht hnamed => ⟨fun hc => ?_, fun hc hi => ?_⟩, fun type hcommand hnotice hreport ht => ?_,
    fun hs hsource hdest hfull => ⟨fun h => ?_, fun h => ?_, fun h => ?_, fun h hp => ?_⟩⟩
  · rw [exec_commit, State.event_of_refused ht (State.commitCommand_of_incomplete (s := s.heard) hnamed hc)]
  · rw [exec_commit, State.event_of_refused ht (State.commitCommand_of_invalid (s := s.heard) hnamed hc hi)]
  · have hdeliver (x : State) := State.deliver_of_unknown (s := x) (m := m) hcommand hnotice hreport
    rw [exec_unknownCommand]
    simp only [hdeliver]
    exact congrArg _ (State.event_of_refused (body := fun x => x.refused .unknownCommand) ht rfl)
  · rw [exec_load, State.event_of_overrun _ hs h hsource hdest hfull]
  · rw [exec_commit, State.event_of_overrun _ hs h hsource hdest hfull]
  · rw [exec_lane, State.event_of_overrun _ hs h hsource hdest hfull]
  · have hbody := State.event_of_overrun (code := 0x0C) (fun x => x.done []) hs h hsource hdest hfull
    have hfull' : 4 ≤ s.heard.answersOccupied := hfull
    rw [State.event, State.receive_of_consumes _ h] at hbody
    rw [exec_restart, State.event, State.receive_of_consumes _ h, State.deliverRestart_of_full hp hfull', hbody]

end Sys2Proof.Machine
end

section
/-! PROOFS. The shadows that LOAD and ABORT_LOAD write (R177 to R179). -/

namespace Sys2Proof.Machine

theorem exec_abortLoad (m : Arrival) (s : State) : exec (.abortLoad m) s
    = .next (s.event fun x => x.receive 0x03 m fun x => x.commandDelivered m fun x =>
      x.takeCommand 0x03 fun x => x.abortLoadCommand m.payload) := rfl

section Shadows

variable {s : State} {m : Arrival} {t : TableId} {number total : Nat} {entries : List Byte}

/-! ### A segment and its shadow (R177, R178) -/

/-- The segment is one of the table's: its total and its number are in range, and its entry bytes fit (R178). -/
def TableId.TakesSegment (t : TableId) (number total : Nat) (entries : List Byte) : Prop :=
  1 ≤ total ∧ total ≤ t.maxSegments ∧ number < total ∧ t.segmentFits entries = true

/-- The first test of `Shadow.load` refuses the segments that are not the table's. -/
theorem TableId.not_takesSegment_iff : ¬t.TakesSegment number total entries
    ↔ total = 0 ∨ t.maxSegments < total ∨ total ≤ number ∨ !t.segmentFits entries := by
  simp only [TableId.TakesSegment, not_and_or, Nat.not_le, Nat.not_lt, Nat.lt_one_iff, Bool.not_eq_true,
    Bool.not_eq_true']

theorem Shadow.load_of_not_takesSegment (sh : Shadow) (h : ¬t.TakesSegment number total entries) :
    sh.load t number total entries = none :=
  if_pos (TableId.not_takesSegment_iff.1 h)

/-- An ABSENT shadow records the total of its first segment. -/
theorem Shadow.load_absent (h : t.TakesSegment number total entries) :
    Shadow.absent.load t number total entries = some (.loading total [(number, entries)]) :=
  if_neg fun hbad => TableId.not_takesSegment_iff.2 hbad h

/-- A LOADING shadow stores a segment of the same total. -/
theorem Shadow.load_loading (held : List (Nat × List Byte)) (h : t.TakesSegment number total entries) :
    (Shadow.loading total held).load t number total entries
      = some (.loading total (storeSegment number entries held)) := by
  rw [Shadow.load, if_neg fun hbad => TableId.not_takesSegment_iff.2 hbad h]
  exact if_pos rfl

/-- A LOADING shadow takes no segment of another total. -/
theorem Shadow.load_of_other_total {other : Nat} (held : List (Nat × List Byte)) (h : other ≠ total) :
    (Shadow.loading other held).load t number total entries = none := by
  rw [Shadow.load]
  split
  · rfl
  · exact if_neg h.symm

/-! ### The commands -/

/-- `s` with its shadows replaced. -/
def State.withShadows (s : State) (shadows : Shadows) : State :=
  { s with mgmt := { s.mgmt with shadows := shadows } }

/-- The event of a command that writes the shadows alone and is answered DONE. -/
theorem State.event_of_shadows {type code : Byte} {data : List Byte} {body : State → CommandResult}
    {shadows : Shadows} (h : s.TakesCommand type m) (hb : body s.heard = (s.heard.withShadows shadows).done data) :
    (s.event fun x => x.receive type m fun x => x.commandDelivered m fun x => x.takeCommand code body)
      = (s.heard.withShadows shadows).offered (.answer ⟨code, .done, 0xFF, data⟩) :=
  State.event_of_done h hb (h.1.heard.congr rfl rfl rfl rfl rfl rfl rfl rfl) rfl rfl

/-- A LOAD of one of the eight tables, by what it does to the table's shadow. -/
theorem State.loadCommand_eq (s : State) {p : List Byte} (hlength : 3 ≤ p.length)
    (ht : TableId.ofId (fieldLE p 0 1) = some t) : s.loadCommand p
      = match (s.mgmt.shadows.get t).load t (fieldLE p 1 1) (fieldLE p 2 1) (p.drop 3) with
        | none => s.refused .badSegment
        | some sh => (s.withShadows (s.mgmt.shadows.set t sh)).done (bytesLE 1 sh.received ++ bytesLE 1 sh.total) := by
  rw [State.loadCommand, if_neg (Nat.not_lt.2 hlength), ht]
  rfl

/-- The event of a LOAD whose segment the shadow takes (R178). -/
theorem exec_load_stored {segments : List (Nat × List Byte)} (h : s.TakesCommand 0x01 m)
    (hlength : 3 ≤ m.payload.length) (ht : TableId.ofId (fieldLE m.payload 0 1) = some t)
    (hload : (s.mgmt.shadows.get t).load t (fieldLE m.payload 1 1) (fieldLE m.payload 2 1) (m.payload.drop 3)
      = some (.loading total segments)) :
    exec (.load m) s = .next ((s.heard.withShadows (s.mgmt.shadows.set t (.loading total segments))).offered
      (.answer ⟨0x01, .done, 0xFF, bytesLE 1 segments.length ++ bytesLE 1 total⟩)) := by
  have hbody := s.heard.loadCommand_eq hlength ht
  rw [show s.heard.mgmt = s.mgmt from rfl, hload] at hbody
  rw [exec_load]
  exact congrArg _ (State.event_of_shadows h hbody)

/-- The event of a LOAD whose segment the shadow does not take (R178). -/
theorem exec_load_refused (h : s.TakesCommand 0x01 m) (hlength : 3 ≤ m.payload.length)
    (ht : TableId.ofId (fieldLE m.payload 0 1) = some t)
    (hload : (s.mgmt.shadows.get t).load t (fieldLE m.payload 1 1) (fieldLE m.payload 2 1) (m.payload.drop 3)
      = none) :
    exec (.load m) s = .next (s.heard.offered (.answer ⟨0x01, .badSegment, 0xFF, []⟩)) := by
  have hbody := s.heard.loadCommand_eq hlength ht
  rw [show s.heard.mgmt = s.mgmt from rfl, hload] at hbody
  rw [exec_load]
  exact congrArg _ (State.event_of_refused h hbody)

theorem State.abortLoadCommand_eq (s : State) {named : List TableId} (h : tableMaskOf m.payload = some named) :
    s.abortLoadCommand m.payload = (s.withShadows (s.mgmt.shadows.clear named)).done [] := by
  rw [State.abortLoadCommand, h]
  rfl

end Shadows

/-- Settles O52: the shadow of the named table is ABSENT, LOADING with the same total, or does not take the segment. -/
theorem loadStoresSegment : Obligations.LoadStoresSegment := by
  intro s m t h hlength ht
  refine ⟨fun hfits habsent => ?_, fun held hfits hloading => ?_, fun hbad => exec_load_refused h hlength ht ?_⟩
  · exact exec_load_stored h hlength ht (habsent ▸ Shadow.load_absent hfits)
  · exact exec_load_stored h hlength ht (hloading ▸ Shadow.load_loading held hfits)
  · obtain hunfit | ⟨other, held, hloading, hother⟩ := hbad
    · exact Shadow.load_of_not_takesSegment _ hunfit
    · exact hloading ▸ Shadow.load_of_other_total held hother

/-- Settles O54: the shadows after ABORT_LOAD are those with the named ones cleared. -/
theorem abortLoadClears : Obligations.AbortLoadClears := by
  intro s m named h hnamed
  refine ⟨s.mgmt.shadows.clear named, s.mgmt.shadows.clear_get named, ?_⟩
  rw [exec_abortLoad]
  exact congrArg _ (State.event_of_shadows h (s.heard.abortLoadCommand_eq hnamed))

end Sys2Proof.Machine
end

section
/-! PROOFS. A step by the shape of the queue of pending commands. -/

namespace Sys2Proof.Machine

/-- A step with a command at the front of the queue (log 3). -/
theorem step_of_front {s : State} {c : Instr} {rest : List Instr} (h : s.pending = c :: rest) :
    step s = exec c { s with pending := rest } := by
  rw [step, h]

/-- A step on an empty queue: the idle step (the model's choice, log 3 and 33). -/
theorem step_of_empty {s : State} (h : s.pending = []) : step s = .next s.idle := by
  rw [step, h]

/-- Settles O1: the queue has a command at its front, or it is empty. -/
theorem stepRunsFrontCommand : Obligations.StepRunsFrontCommand :=
  fun _ => ⟨fun _ _ => step_of_front, step_of_empty⟩

end Sys2Proof.Machine
end
